-- ==== Sys2Proof/Word.lean ====
section
/-! DEFINITION. The word types of the OC-9 and their plainest arithmetic. -/

namespace Sys2Proof

/-- A byte of memory or of the register space. -/
abbrev Byte := BitVec 8

/-- A scalar register, an address or a header dword. -/
abbrev Word := BitVec 64

/-- An instruction word (spec R3: 32 bits). -/
abbrev Ins := BitVec 32

/-- A position word (spec R7). -/
abbrev Pos := BitVec 32

end Sys2Proof
end

