-- ==== Sys2Proof/Syntax.lean ====
section
/-! DEFINITION. The instructions and events of the OC-9: one constructor of `Instr` per row of
spec/opcode_table.json. The 189 instruction words come first, then the 95 events by which other agents move
(spec/95_what_each_step_holds.md); an event has no instruction word, and its operands say which agent moves. -/

namespace Sys2Proof

/-- Scope names and their codes (spec R6). -/
inductive Scope | core | tile | group | tower | device | sys
  deriving DecidableEq, Repr

/-- Rounding modes (spec R110). -/
inductive RMode | rne | rtz | rup | rdn
  deriving DecidableEq, Repr

/-- Overflow modes (spec R111). -/
inductive OvfMode | dflt | sat | nonsat
  deriving DecidableEq, Repr

/-- Element types of VTYPE (spec R40). -/
inductive ETy | f32 | bf16 | f16 | e4m3 | e5m2 | s32 | s16 | s8 | z32 | z16 | z8
  deriving DecidableEq, Repr

/-- Integer type of FCVTI and FCVTF (spec R191). -/
inductive IntTy | s32 | z32
  deriving DecidableEq, Repr

/-- Narrow float type of FCVTN (spec R191). -/
inductive NarrowTy | bf16 | f16 | e4m3 | e5m2
  deriving DecidableEq, Repr

/-- Access size of LDA, STL, LDSY and STF (spec R207). -/
inductive Size | d8 | w4 | h2 | b1
  deriving DecidableEq, Repr

/-- Functions of AMOW and AMOD (spec R212). -/
inductive AmoFn | add | and | or | xor | min | max | minz | maxz | swap | cas | fadd
  deriving DecidableEq, Repr

/-- Orders of AMOW and AMOD (spec R212). -/
inductive AmoOrd | relaxed | acq | rel | ar
  deriving DecidableEq, Repr

/-- What FEST does to a bit (spec R210). -/
inductive BitOp | keep | set | clear
  deriving DecidableEq, Repr

/-- Tier code of PREF (spec R211). -/
inductive Tier | l1 | tile | hearth
  deriving DecidableEq, Repr

/-- Selector of POS (spec R225). -/
inductive PosSel | anchor | cur | space | launch
  deriving DecidableEq, Repr

/-- Selector of IDX, with the level field k - 1 (spec R226). -/
inductive IdxSel
  | inn (k : BitVec 3)
  | ext (k : BitVec 3)
  | inst (k : BitVec 3)
  | flat
  deriving DecidableEq, Repr

/-- Operation of VRED (spec R240). -/
inductive RedOp | add | min | max
  deriving DecidableEq, Repr

/-- Error feedback of VCVT and of epilogues (spec R239, R257). -/
inductive Feedback | none | b16 | b32 | b256
  deriving DecidableEq, Repr

/-- The queues of a tile (spec R85). -/
inductive Queue | q0 | q1 | q2 | q3 | q4
  deriving DecidableEq, Repr

/-- Which counter QSEQ reads (spec R272). -/
inductive SeqKind | enq | done
  deriving DecidableEq, Repr

/-- A thread is named by its launch and its flat index (spec R11, R17). -/
structure Key where
  launch : BitVec 32
  index : BitVec 32
  deriving DecidableEq, Repr

/-- Where a host command comes from (spec R309, R372): the mailbox of a command port with its 256-byte block, or
CMNT, of which the firmware's queue holds command number `n`; or, for ATTEST alone, DOE over CXL.io at a port (spec R357, R373). -/
inductive CmdSrc
  | port (p : Bool) (block : BitVec 2048)
  | cmnt (n : Nat)
  | doe (port : BitVec 5) (nonce : BitVec 256)
  deriving DecidableEq, Repr

/-- CXL state of a 64-byte half of host memory (spec R358). -/
inductive HalfSt | i | s | e | m
  deriving DecidableEq, Repr

/-- A host request to device memory that can collide with a BISnp (spec R362). -/
inductive HostReq
  | read
  | write (data : BitVec 512) (be : BitVec 64)
  | inv
  deriving DecidableEq, Repr

/-- Crust-cell operations carried by CELL (spec R365). -/
inductive CellOp | prop | crd | crcy
  deriving DecidableEq, Repr

/-- What goes with the thread of a crumb beside the bytes of R28, which give none for it (spec R27): its name, its context's address,
the record of its launch with the launch's origin and what is known of its barriers, and whether its destination is a tower alone. Log
entry 75. -/
structure Passport where
  thread : Key
  ctx : BitVec 64
  record : BitVec 2048
  origin : BitVec 12
  arrivals : List (Nat × Nat) := []
  done : List Nat := []
  tower : Bool := false
  deriving DecidableEq, Repr

/-- The fields of a message header that its receiver uses (spec R365). `addr` is ADDR, local physical address
bits 47:4 on the destination device. `port`, `seq` and `ack` are of the flit that carries the message (spec R364). `claims` are the
names and save areas that go with the thread of a crumb (R27), and `pass` what else does: log entry 75. -/
structure MsgHdr where
  srcDev : BitVec 12
  srcPos : BitVec 21
  tag : BitVec 10
  scope : Scope
  addr : BitVec 44
  claims : List (BitVec 2 × Word) := []
  pass : Option Passport := none
  port : BitVec 5 := 0
  seq : BitVec 12 := 0
  ack : BitVec 12 := 0
  deriving DecidableEq, Repr

/-- What the bring-up of a module reset finds (spec R368): shelves that fail their test, cores that fail
self-test, layers the flash configuration marks on, ports trained in peer mode, and the ports that become command ports. -/
structure BootFacts where
  fused : BitVec 32
  failed : BitVec 512
  weightOn : BitVec 64
  sideOn : BitVec 8
  peerPorts : BitVec 18
  commandPorts : BitVec 5 × BitVec 5 := (0, 1)
  deriving DecidableEq, Repr

inductive Instr
  -- integer, register operands (spec R183 to R185)
  | add (d a b : BitVec 6) | sub (d a b : BitVec 6) | mul (d a b : BitVec 6)
  | mulh (d a b : BitVec 6) | mulhz (d a b : BitVec 6)
  | div (d a b : BitVec 6) | divz (d a b : BitVec 6) | rem (d a b : BitVec 6) | remz (d a b : BitVec 6)
  | and (d a b : BitVec 6) | or (d a b : BitVec 6) | xor (d a b : BitVec 6) | andn (d a b : BitVec 6)
  | shl (d a b : BitVec 6) | shr (d a b : BitVec 6) | sar (d a b : BitVec 6) | rol (d a b : BitVec 6)
  | min (d a b : BitVec 6) | max (d a b : BitVec 6) | minz (d a b : BitVec 6) | maxz (d a b : BitVec 6)
  | slt (d a b : BitVec 6) | sltz (d a b : BitVec 6) | seq (d a b : BitVec 6)
  | clz (d a : BitVec 6) | ctz (d a : BitVec 6) | popc (d a : BitVec 6)
  | bfx (d a b : BitVec 6) | bfxz (d a b : BitVec 6) | bfi (d a b : BitVec 6) | sel (d a b : BitVec 6)
  -- integer, immediate operand (spec R186)
  | addi (d a : BitVec 6) (i : BitVec 12) | andi (d a : BitVec 6) (i : BitVec 12)
  | ori (d a : BitVec 6) (i : BitVec 12) | xori (d a : BitVec 6) (i : BitVec 12)
  | shli (d a : BitVec 6) (n : BitVec 6) | shri (d a : BitVec 6) (n : BitVec 6) | sari (d a : BitVec 6) (n : BitVec 6)
  | slti (d a : BitVec 6) (i : BitVec 12) | sltzi (d a : BitVec 6) (i : BitVec 12)
  -- FP32 scalar (spec R187 to R191)
  | fadd (d a b : BitVec 6) (r : RMode) | fsub (d a b : BitVec 6) (r : RMode)
  | fmul (d a b : BitVec 6) (r : RMode) | ffma (d a b : BitVec 6) (r : RMode)
  | fmin (d a b : BitVec 6) | fmax (d a b : BitVec 6)
  | fdiv (d a b : BitVec 6) (r : RMode) | fsqrt (d a : BitVec 6) (r : RMode)
  | frcp (d a : BitVec 6) (r : RMode) | frsq (d a : BitVec 6) (r : RMode)
  | flt (d a b : BitVec 6) | fle (d a b : BitVec 6) | feq (d a b : BitVec 6)
  | fcvti (d a : BitVec 6) (t : IntTy) (r : RMode) | fcvtf (d a : BitVec 6) (t : IntTy) (r : RMode)
  | fcvtn (d a : BitVec 6) (t : NarrowTy) (r : RMode) | fcvtnUp (d a : BitVec 6) (t : NarrowTy) (r : RMode)
  -- control (spec R192 to R195)
  | beq (a b : BitVec 6) (o : BitVec 12) | bne (a b : BitVec 6) (o : BitVec 12)
  | blt (a b : BitVec 6) (o : BitVec 12) | bge (a b : BitVec 6) (o : BitVec 12)
  | bltz (a b : BitVec 6) (o : BitVec 12) | bgez (a b : BitVec 6) (o : BitVec 12)
  | jal (d : BitVec 6) (o : BitVec 18) | jalr (d a : BitVec 6) (i : BitVec 12)
  | trapInsn (i : BitVec 12) | brk (i : BitVec 12) | exit
  -- loads and stores (spec R205)
  | ldb (d a : BitVec 6) (i : BitVec 12) | ldbz (d a : BitVec 6) (i : BitVec 12)
  | ldh (d a : BitVec 6) (i : BitVec 12) | ldhz (d a : BitVec 6) (i : BitVec 12)
  | ldw (d a : BitVec 6) (i : BitVec 12) | ldwz (d a : BitVec 6) (i : BitVec 12)
  | ldd (d a : BitVec 6) (i : BitVec 12)
  | stb (d a : BitVec 6) (i : BitVec 12) | sth (d a : BitVec 6) (i : BitVec 12)
  | stw (d a : BitVec 6) (i : BitVec 12) | std (d a : BitVec 6) (i : BitVec 12)
  -- acquire, release, atomics, fences, core scratch synchronisation (spec R207 to R216)
  | lda (d a : BitVec 6) (z : Size) (o : BitVec 10) | stl (d a : BitVec 6) (z : Size) (o : BitVec 10)
  | amow (d a b : BitVec 6) (ord : AmoOrd) (fn : AmoFn) | amod (d a b : BitVec 6) (ord : AmoOrd) (fn : AmoFn)
  | fence (s : Scope) (kinds : BitVec 4)
  | ldsy (d a : BitVec 6) (z : Size) (o : BitVec 10) | stf (d a : BitVec 6) (z : Size) (o : BitVec 10)
  | fest (a b : BitVec 6) (g f : BitOp)
  | pref (t : Tier) (a : BitVec 6) (i : BitVec 12)
  -- barriers, arrival words, crust cells, position (spec R217 to R227)
  | bar (s : Option Scope) (level : BitVec 3)
  | arw (d a b : BitVec 6) | await (d a b : BitVec 6)
  | prop (d a b : BitVec 6) | crd (d a b : BitVec 6) (w : Bool) | crcy (a b : BitVec 6)
  | pos (d : BitVec 6) (f : PosSel) | idx (d : BitVec 6) (f : IdxSel)
  | migr (a : BitVec 6) (tower : Bool)
  -- vector register operations (spec R234 to R242)
  | vadd (d a b : BitVec 6) (k : BitVec 3) (p : Bool) | vsub (d a b : BitVec 6) (k : BitVec 3) (p : Bool)
  | vmul (d a b : BitVec 6) (k : BitVec 3) (p : Bool) | vfma (d a b : BitVec 6) (k : BitVec 3) (p : Bool)
  | vmin (d a b : BitVec 6) (k : BitVec 3) (p : Bool) | vmax (d a b : BitVec 6) (k : BitVec 3) (p : Bool)
  | vabs (d a : BitVec 6) (k : BitVec 3) (p : Bool)
  | vand (d a b : BitVec 6) (k : BitVec 3) (p : Bool) | vor (d a b : BitVec 6) (k : BitVec 3) (p : Bool)
  | vxor (d a b : BitVec 6) (k : BitVec 3) (p : Bool)
  | vshl (d a b : BitVec 6) (k : BitVec 3) (p : Bool) | vshr (d a b : BitVec 6) (k : BitVec 3) (p : Bool)
  | vsar (d a b : BitVec 6) (k : BitVec 3) (p : Bool)
  | vcmpeq (d a b : BitVec 6) (k : BitVec 3) (p : Bool) | vcmplt (d a b : BitVec 6) (k : BitVec 3) (p : Bool)
  | vcmple (d a b : BitVec 6) (k : BitVec 3) (p : Bool)
  | vsel (d a b : BitVec 6) (k : BitVec 3) (p : Bool)
  | vrcp (d a : BitVec 6) (k : BitVec 3) (p : Bool) | vrsq (d a : BitVec 6) (k : BitVec 3) (p : Bool)
  | vexp2 (d a : BitVec 6) (k : BitVec 3) (p : Bool)
  | vcvt (d a : BitVec 6) (u : ETy) (k : BitVec 3) (p : Bool) (ef : Feedback)
  | vred (d a b : BitVec 6) (k : BitVec 3) (p : Bool) (op : RedOp)
  | vdot (d a b : BitVec 6) (k : BitVec 3) (p : Bool)
  | vbcst (d a : BitVec 6) (k : BitVec 3) (p : Bool) | vbcstEl (d a n : BitVec 6) (k : BitVec 3) (p : Bool)
  | vext (d a b : BitVec 6) | vins (d a b : BitVec 6)
  | vperm (d a b : BitVec 6) (k : BitVec 3) (p : Bool)
  | vslideDn (d a n : BitVec 6) (k : BitVec 3) (p : Bool) | vslideUp (d a n : BitVec 6) (k : BitVec 3) (p : Bool)
  | viota (d a : BitVec 6) (k : BitVec 3) (p : Bool) | viotaIdx (d : BitVec 6) (k : BitVec 3) (p : Bool)
  | vpopc (d a : BitVec 6) (k : BitVec 3)
  | vtrnLo (d a b : BitVec 6) (k : BitVec 3) (p : Bool) | vtrnHi (d a b : BitVec 6) (k : BitVec 3) (p : Bool)
  | vcfg (d a : BitVec 6) (t : ETy)
  -- vector memory and tensor (spec R243 to R250)
  | vld (v a : BitVec 6) (o : BitVec 6) (k : BitVec 3) (p : Bool) | vst (v a : BitVec 6) (o : BitVec 6) (k : BitVec 3) (p : Bool)
  | vlds (v a b : BitVec 6) (k : BitVec 3) (p : Bool) | vsts (v a b : BitVec 6) (k : BitVec 3) (p : Bool)
  | vgth (v a b : BitVec 6) (k : BitVec 3) (p : Bool) | vsct (v a b : BitVec 6) (k : BitVec 3) (p : Bool)
  | tld (t : BitVec 3) (a : BitVec 6) (l : BitVec 5) | tst (t : BitVec 3) (a : BitVec 6) (l : BitVec 5)
  | lreg (a : BitVec 6) (l : BitVec 5) | lfree (l : BitVec 5) | lqry (d : BitVec 6) (l : BitVec 5)
  -- matrix engine (spec R254 to R268)
  | mclaim (a : BitVec 6) (c : BitVec 2) | mfree (c : BitVec 2)
  | mldw (d a b : BitVec 6) | mswap (d : BitVec 6)
  | mma (d a b : BitVec 6) (c : BitVec 2) | mmae (d a b : BitVec 6) (c : BitVec 2)
  | mzero (d : BitVec 6) (c : BitVec 2) | mread (d a : BitVec 6) (c : BitVec 2)
  | mdrain (a : BitVec 6) (c : BitVec 2) | mfill (a : BitVec 6) (c : BitVec 2)
  | mstat (d : BitVec 6) (c : BitVec 2) | mmode (d : BitVec 6) (order ftz : Bool)
  -- copy engine and queues (spec R269 to R273)
  | copy (d a : BitVec 6) (q : Queue) | copym (d a : BitVec 6) (q : Queue) | copyd (d a : BitVec 6) (q : Queue)
  | qfence (m : BitVec 5) | qseq (d : BitVec 6) (k : SeqKind) (q : Queue) | qwait (d a : BitVec 6) (q : Queue)
  -- system (spec R301 to R312)
  | mfsr (d : BitVec 6) (n : BitVec 12) | mtsr (a : BitVec 6) (n : BitVec 12)
  | xinv (d a b : BitVec 6) | xinvAll (d : BitVec 6)
  | ctlLaunch (d a b : BitVec 6) | ctlSpload (d a b : BitVec 6) | ctlSpdrop (d a b : BitVec 6)
  | ctlKillt (d a b : BitVec 6) | ctlKilll (d a b : BitVec 6)
  | ctlPark (d a b : BitVec 6) | ctlUnpark (d a b : BitVec 6)
  | trq (d a : BitVec 6) | tret (d a b : BitVec 6) | cmnt (d a b : BitVec 6) | lpwr (d a b : BitVec 6)
  | halt (d a : BitVec 6) | haltRel (d a : BitVec 6) | mresume (d a : BitVec 6) (c : BitVec 2)
  -- prefixes and hints (spec R171, R197 to R201, R228 to R230)
  | pfxi (p : BitVec 24) | pfxv (self : Bool) (p : BitVec 21) | pfxvg (self : Bool) (g : BitVec 6)
  | pfxs (s : Scope) | pfxm (ovf : OvfMode) (rm : Option RMode)
  | nop | yield | hintStall (n : BitVec 10) | hintPrio (p : BitVec 4)
  -- events: CXL.mem and CXL.cache (`pa` names a 64-byte half)
  | memwr (pa : BitVec 48) (data : BitVec 512) (be : BitVec 64) | memrd (pa : BitVec 48) (retain : Bool)
  | meminv (pa : BitVec 48)
  | birsp (pa : BitVec 48) (dirty : Option (BitVec 512)) | biconflict (pa : BitVec 48) (req : HostReq)
  | snpdata (pa : BitVec 48) | snpinv (pa : BitVec 48) | snpcur (pa : BitVec 48)
  -- events: peer messages (spec R365)
  | rds (h : MsgHdr) | rdo (h : MsgHdr) | rdc (h : MsgHdr) | upg (h : MsgHdr)
  | wrl (h : MsgHdr) (data : BitVec 1024) | wrp (h : MsgHdr) (data : BitVec 128) (be : BitVec 16)
  | amo (h : MsgHdr) (ord : AmoOrd) (fn : AmoFn) (dword : Bool) (op exp : BitVec 64)
  | cell (h : MsgHdr) (op : CellOp) (w : Bool) (val : BitVec 64) (gen : BitVec 16)
  | arrv (h : MsgHdr) (n : BitVec 32) (err dgerr : Bool)
  | crumb (h : MsgHdr) (header : BitVec 1024) (lines : List (BitVec 1024))
  | pinv (h : MsgHdr) | pshr (h : MsgHdr) | prcl (h : MsgHdr)
  | dats (h : MsgHdr) (data : BitVec 1024) | date (h : MsgHdr) (dirty : Bool) (data : BitVec 1024)
  | wb (h : MsgHdr) (data : BitVec 1024) | prd (h : MsgHdr) (data : BitVec 1024)
  | res (h : MsgHdr) (bits : BitVec 128)
  | cmp (h : MsgHdr) | grt (h : MsgHdr) | pack (h : MsgHdr)
  | cra (h : MsgHdr) | crr (h : MsgHdr) (reason : BitVec 2) | nak (h : MsgHdr) (cls cause : BitVec 4)
  -- events: scheduling and traps
  | activate (core : BitVec 9) | admitCore (core : BitVec 9) | demote (core : BitVec 9)
  | evict (t : Key) | registerLineFill (t : Key) (line : BitVec 9)
  | parkWake (t : Key) | spuriousWake (t : Key) | guardedLoadResume (t : Key)
  | crumbArrival (t : Key) | crumbUndeliverable (t : Key) | trapRecordWrite (t : Key)
  -- events: memory and engines
  | replicaForward (n : Nat) (copy : BitVec 9)
  | copySegment (tile : BitVec 7) (q : BitVec 2) (n : Nat)
  | mldwRun (tile : BitVec 7) | mswapRun (tile : BitVec 7) | mzeroRun (tile : BitVec 7)
  | mmaRun (tile : BitVec 7) | epilogueComplete (tile : BitVec 7) | mresumeRun (tile : BitVec 7)
  -- events: watchdog, sensors, firmware
  | wdogPreempt (q : BitVec 6) | wdogKill (q : BitVec 6) | wdogFence (q : BitVec 6)
  | sensorSample (readings : List (BitVec 11 × Option (BitVec 11)))
  | shardPatrol (space : BitVec 16)
  | residencyEval (choices : List (BitVec 16 × Word × BitVec 60))
  | pageMove | pageMoveInstall
  | moduleReset (facts : BootFacts)
  -- events: host commands and the configuration semaphore
  | identify (src : CmdSrc) | attest (src : CmdSrc) | partset (src : CmdSrc) | sdtset (src : CmdSrc)
  | launch (src : CmdSrc) | kill (src : CmdSrc) | bias (src : CmdSrc) | power (src : CmdSrc)
  | shelf (src : CmdSrc) | shardld (src : CmdSrc) | sharddrop (src : CmdSrc) | unfence (src : CmdSrc)
  | thermlim (src : CmdSrc)
  | cfgsemReq (p : Bool) | cfgsemRel (p : Bool) | leaseLapse
  -- events: links (spec R364, R365)
  | idle (port : BitVec 5) (seq ack : BitVec 12) | replayRequest (port : BitVec 5) (seq : BitVec 12)
  | credit (port : BitVec 5) (req prb dat ack : BitVec 16)
  | hello (port : BitVec 5) (dev : BitVec 12) (number : BitVec 5) (ready : Bool)
  | keep (port : BitVec 5) | keepTimeout (port : BitVec 5) | down (port : BitVec 5) (reason : BitVec 8)
  | linkDown (port : BitVec 5)
  -- events: fetch, and the application of accesses
  | illegalWord (w : Ins) | fetchFault
  | storeApplied (t : Key) (n : Nat) | loadPerformed (t : Key) (n : Nat)
  | hostGrantOrFill (pa : BitVec 48) (st : HalfSt) (data : Option (BitVec 512))
  | flitError (port : BitVec 5)
  -- events: launches that span devices (spec R330)
  | launchRecordArrival (origin : BitVec 12) (id : BitVec 32) (space : BitVec 16) (record : BitVec 2048)
  | flatIndexRequest (id : BitVec 32) (dev : BitVec 12) | flatIndexGrant (id : BitVec 32) (x : BitVec 32)
  | completionReport (id : BitVec 32) (dev : BitVec 12) | killForward (id : BitVec 32)
  deriving DecidableEq, Repr

end Sys2Proof
end

