-- ==== Sys2Proof/WellFormed.lean ====
section
/-! DEFINITION. Which terms of `Instr` are instructions that a word can hold. -/

namespace Sys2Proof

/-- Whether an instruction has an instruction word. The events by which other agents move have none. -/
def Instr.isWord (i : Instr) : Bool :=
  match i with
  | .activate .. | .admitCore .. | .demote .. | .evict .. | .registerLineFill .. | .parkWake .. | .spuriousWake ..
  | .guardedLoadResume .. | .crumbArrival .. | .crumbUndeliverable .. | .trapRecordWrite ..
  | .replicaForward .. | .copySegment .. | .mldwRun .. | .mswapRun .. | .mzeroRun .. | .mmaRun ..
  | .epilogueComplete .. | .wdogPreempt .. | .wdogKill .. | .wdogFence .. | .sensorSample .. | .shardPatrol ..
  | .residencyEval .. | .pageMove .. | .pageMoveInstall .. | .moduleReset .. | .identify .. | .attest ..
  | .partset .. | .sdtset .. | .launch .. | .kill .. | .bias .. | .power .. | .shelf .. | .shardld ..
  | .sharddrop .. | .unfence .. | .thermlim .. | .cfgsemReq .. | .cfgsemRel .. | .leaseLapse .. | .memwr ..
  | .memrd .. | .meminv .. | .birsp .. | .biconflict .. | .snpdata .. | .snpinv .. | .snpcur .. | .rds ..
  | .rdo .. | .rdc .. | .upg .. | .wrl .. | .wrp .. | .amo .. | .cell .. | .arrv .. | .crumb .. | .pinv ..
  | .pshr .. | .prcl .. | .dats .. | .date .. | .wb .. | .prd .. | .res .. | .cmp .. | .grt .. | .pack ..
  | .cra .. | .crr .. | .nak .. | .idle .. | .replayRequest .. | .credit .. | .hello .. | .keep ..
  | .keepTimeout .. | .down .. | .linkDown .. | .illegalWord .. | .fetchFault .. | .storeApplied ..
  | .loadPerformed .. | .hostGrantOrFill .. | .flitError .. | .launchRecordArrival .. | .flatIndexRequest ..
  | .flatIndexGrant .. | .completionReport .. | .killForward .. | .mresumeRun ..
    => false
  | _ => true

/-- The one operand that a word cannot hold at every value: with SELF, PFXV has no DEV part (spec R228). -/
def Instr.operandsFit (i : Instr) : Bool :=
  match i with
  | .pfxv true p => p.extractLsb' 9 12 == (0 : BitVec 12)
  | _ => true

/-- A term that some instruction word stands for. -/
abbrev Instr.WellFormed (i : Instr) : Prop := i.isWord = true ∧ i.operandsFit = true

end Sys2Proof
end

