-- ==== Sys2Proof/Decode.lean ====
section
/-! DEFINITION. The words of the OC-9: a decoder, total on every word, that rejects by name, and after it an encoder
written from the same tables (spec 09_encoding_assembly.md and the rulers of the instruction chapters). -/

namespace Sys2Proof

/-- Why a word stands for no instruction: its opcode is unassigned or permanently illegal, or it sets a reserved bit
or holds a reserved code (spec R167). -/
inductive DecodeError | unassigned | reserved
  deriving DecidableEq, Repr

/-! ### Fields (spec R163) -/

/-- Bits 23:18. -/
def fd (w : Ins) : BitVec 6 := w.extractLsb' 18 6
/-- Bits 17:12. -/
def fa (w : Ins) : BitVec 6 := w.extractLsb' 12 6
/-- Bits 11:6. -/
def fb (w : Ins) : BitVec 6 := w.extractLsb' 6 6
/-- Bits 5:0. -/
def ff (w : Ins) : BitVec 6 := w.extractLsb' 0 6
/-- Bits 11:0. -/
def imm (w : Ins) : BitVec 12 := w.extractLsb' 0 12
/-- Bits 23:0. -/
def payload (w : Ins) : BitVec 24 := w.extractLsb' 0 24
/-- Mask field of format V. -/
def fk (w : Ins) : BitVec 3 := w.extractLsb' 3 3
/-- Policy bit of format V. -/
def fp (w : Ins) : Bool := w.getLsbD 2
/-- Sub-function of format V. -/
def fsub (w : Ins) : BitVec 2 := w.extractLsb' 0 2

/-! ### Building words (spec R163) -/

/-- A word of five fields. -/
def word (op : BitVec 8) (d a b f : BitVec 6) : Ins := op ++ d ++ a ++ b ++ f

/-- A word of formats I and B. -/
def wordI (op : BitVec 8) (d a : BitVec 6) (i : BitVec 12) : Ins := op ++ d ++ a ++ i

/-- A word of format H. -/
def wordH (op : BitVec 8) (p : BitVec 24) : Ins := op ++ p

/-! ### Codes -/

/-- Scope codes (spec R6). -/
def Scope.code : Scope → BitVec 3
  | .core => 0 | .tile => 1 | .group => 2 | .tower => 3 | .device => 4 | .sys => 5
/-- The scope of a code; 6 and 7 are reserved. -/
def Scope.ofCode (c : BitVec 3) : Option Scope :=
  match c.toNat with
  | 0 => some .core | 1 => some .tile | 2 => some .group | 3 => some .tower | 4 => some .device | 5 => some .sys
  | _ => none
/-- Rounding codes (spec R110). -/
def RMode.code : RMode → BitVec 3
  | .rne => 0 | .rtz => 1 | .rup => 2 | .rdn => 3
/-- The rounding mode of a code; 100 to 111 are reserved. -/
def RMode.ofCode (c : BitVec 3) : Option RMode :=
  match c.toNat with
  | 0 => some .rne | 1 => some .rtz | 2 => some .rup | 3 => some .rdn
  | _ => none
/-- Overflow mode codes of PFXM (spec R197). -/
def OvfMode.code : OvfMode → BitVec 2
  | .dflt => 0 | .sat => 1 | .nonsat => 2
/-- The overflow mode of a code; 11 is reserved. -/
def OvfMode.ofCode (c : BitVec 2) : Option OvfMode :=
  match c.toNat with
  | 0 => some .dflt | 1 => some .sat | 2 => some .nonsat
  | _ => none
/-- Element type codes (spec R40). -/
def ETy.code : ETy → BitVec 4
  | .f32 => 0 | .bf16 => 1 | .f16 => 2 | .e4m3 => 3 | .e5m2 => 4 | .s32 => 5 | .s16 => 6 | .s8 => 7
  | .z32 => 8 | .z16 => 9 | .z8 => 10
/-- The element type of a code; 11 to 15 are reserved. -/
def ETy.ofCode (c : BitVec 4) : Option ETy :=
  match c.toNat with
  | 0 => some .f32 | 1 => some .bf16 | 2 => some .f16 | 3 => some .e4m3 | 4 => some .e5m2 | 5 => some .s32
  | 6 => some .s16 | 7 => some .s8 | 8 => some .z32 | 9 => some .z16 | 10 => some .z8
  | _ => none
/-- Type codes of FCVTI and FCVTF (spec R191). -/
def IntTy.code : IntTy → BitVec 3
  | .s32 => 0 | .z32 => 1
/-- The integer type of a code. -/
def IntTy.ofCode (c : BitVec 3) : Option IntTy :=
  match c.toNat with
  | 0 => some .s32 | 1 => some .z32
  | _ => none
/-- Low two bits of the type codes of FCVTN (spec R191). -/
def NarrowTy.code : NarrowTy → BitVec 2
  | .bf16 => 0 | .f16 => 1 | .e4m3 => 2 | .e5m2 => 3
/-- The narrow type of a code. -/
def NarrowTy.ofCode (c : BitVec 2) : NarrowTy :=
  match c.toNat with
  | 0 => .bf16 | 1 => .f16 | 2 => .e4m3 | _ => .e5m2
/-- Size codes (spec R207). -/
def Size.code : Size → BitVec 2
  | .d8 => 0 | .w4 => 1 | .h2 => 2 | .b1 => 3
/-- The size of a code. -/
def Size.ofCode (c : BitVec 2) : Size :=
  match c.toNat with
  | 0 => .d8 | 1 => .w4 | 2 => .h2 | _ => .b1
/-- Function codes of the atomics (spec R212). -/
def AmoFn.code : AmoFn → BitVec 4
  | .add => 0 | .and => 1 | .or => 2 | .xor => 3 | .min => 4 | .max => 5 | .minz => 6 | .maxz => 7
  | .swap => 8 | .cas => 9 | .fadd => 10
/-- The function of a code; 11 to 15 are reserved. -/
def AmoFn.ofCode (c : BitVec 4) : Option AmoFn :=
  match c.toNat with
  | 0 => some .add | 1 => some .and | 2 => some .or | 3 => some .xor | 4 => some .min | 5 => some .max
  | 6 => some .minz | 7 => some .maxz | 8 => some .swap | 9 => some .cas | 10 => some .fadd
  | _ => none
/-- Order codes of the atomics (spec R212). -/
def AmoOrd.code : AmoOrd → BitVec 2
  | .relaxed => 0 | .acq => 1 | .rel => 2 | .ar => 3
/-- The order of a code. -/
def AmoOrd.ofCode (c : BitVec 2) : AmoOrd :=
  match c.toNat with
  | 0 => .relaxed | 1 => .acq | 2 => .rel | _ => .ar
/-- Codes of FOP and GOP (spec R210). -/
def BitOp.code : BitOp → BitVec 2
  | .keep => 0 | .set => 1 | .clear => 2
/-- The operation of a code; 11 is reserved. -/
def BitOp.ofCode (c : BitVec 2) : Option BitOp :=
  match c.toNat with
  | 0 => some .keep | 1 => some .set | 2 => some .clear
  | _ => none
/-- Tier codes of PREF (spec R211). -/
def Tier.code : Tier → BitVec 6
  | .l1 => 0 | .tile => 1 | .hearth => 2
/-- The tier of a code; 3 to 63 are reserved. -/
def Tier.ofCode (c : BitVec 6) : Option Tier :=
  match c.toNat with
  | 0 => some .l1 | 1 => some .tile | 2 => some .hearth
  | _ => none
/-- Selector codes of POS (spec R225). -/
def PosSel.code : PosSel → BitVec 6
  | .anchor => 0 | .cur => 1 | .space => 2 | .launch => 3
/-- The selector of a code. -/
def PosSel.ofCode (c : BitVec 6) : Option PosSel :=
  match c.toNat with
  | 0 => some .anchor | 1 => some .cur | 2 => some .space | 3 => some .launch
  | _ => none
/-- Field f of IDX: kind and level (spec R226). -/
def IdxSel.code : IdxSel → BitVec 6
  | .inn k => 0#3 ++ k
  | .ext k => 1#3 ++ k
  | .inst k => 2#3 ++ k
  | .flat => 3#3 ++ 0#3
/-- The selector of a field f; kinds 4 to 7, and a level beside the flat index, are reserved. -/
def IdxSel.ofCode (c : BitVec 6) : Option IdxSel :=
  let k : BitVec 3 := c.extractLsb' 0 3
  match (c.extractLsb' 3 3 : BitVec 3).toNat with
  | 0 => some (.inn k) | 1 => some (.ext k) | 2 => some (.inst k)
  | 3 => if k = 0 then some .flat else none
  | _ => none
/-- Operation codes of VRED (spec R240). -/
def RedOp.code : RedOp → BitVec 2
  | .add => 0 | .min => 1 | .max => 2
/-- The operation of a code; 11 is reserved. -/
def RedOp.ofCode (c : BitVec 2) : Option RedOp :=
  match c.toNat with
  | 0 => some .add | 1 => some .min | 2 => some .max
  | _ => none
/-- Error feedback codes (spec R239). -/
def Feedback.code : Feedback → BitVec 2
  | .none => 0 | .b16 => 1 | .b32 => 2 | .b256 => 3
/-- The error feedback of a code. -/
def Feedback.ofCode (c : BitVec 2) : Feedback :=
  match c.toNat with
  | 0 => .none | 1 => .b16 | 2 => .b32 | _ => .b256
/-- Queue numbers (spec R85). -/
def Queue.code : Queue → BitVec 3
  | .q0 => 0 | .q1 => 1 | .q2 => 2 | .q3 => 3 | .q4 => 4
/-- The queue of a number; 5 to 7 are reserved (spec R164). -/
def Queue.ofCode (c : BitVec 3) : Option Queue :=
  match c.toNat with
  | 0 => some .q0 | 1 => some .q1 | 2 => some .q2 | 3 => some .q3 | 4 => some .q4
  | _ => none
/-- KIND of QSEQ (spec R272). -/
def SeqKind.code : SeqKind → BitVec 1
  | .enq => 0 | .done => 1

/-- The code of a domain or scope as a number: a larger one contains the smaller (spec R6). -/
def Scope.num (s : Scope) : Nat := s.code.toNat
/-- Element size in bytes (spec R40). -/
def ETy.size : ETy → Nat
  | .f32 | .s32 | .z32 => 4
  | .bf16 | .f16 | .s16 | .z16 => 2
  | .e4m3 | .e5m2 | .s8 | .z8 => 1
/-- VLMAX of a type (spec R40). -/
def ETy.vlmax (t : ETy) : Nat := 256 / t.size

/-! ### Decoding -/

/-- Format X with three registers and f = 0. -/
def three (mk : BitVec 6 → BitVec 6 → BitVec 6 → Instr) (w : Ins) : Except DecodeError Instr :=
  if ff w = 0 then .ok (mk (fd w) (fa w) (fb w)) else .error .reserved

/-- Format X with registers d and a, and b = f = 0. -/
def two (mk : BitVec 6 → BitVec 6 → Instr) (w : Ins) : Except DecodeError Instr :=
  if fb w = 0 ∧ ff w = 0 then .ok (mk (fd w) (fa w)) else .error .reserved

/-- An instruction whose word must have a field of zeros. -/
def zero (x : BitVec 6) (i : Instr) : Except DecodeError Instr :=
  if x = 0 then .ok i else .error .reserved

/-- A rounding code in f bits 2:0 and zeros in bits 5:3 (spec R187). -/
def rounded (mk : RMode → Instr) (w : Ins) : Except DecodeError Instr :=
  if (ff w).extractLsb' 3 3 = 0 then
    match RMode.ofCode ((ff w).extractLsb' 0 3) with
    | some r => .ok (mk r)
    | none => .error .reserved
  else .error .reserved

/-- A type code in f bits 5:3 and a rounding code in bits 2:0 (spec R191). -/
def typed (ty : BitVec 3 → Option IntTy) (mk : IntTy → RMode → Instr) (w : Ins) : Except DecodeError Instr :=
  match ty ((ff w).extractLsb' 3 3), RMode.ofCode ((ff w).extractLsb' 0 3) with
  | some t, some r => .ok (mk t r)
  | _, _ => .error .reserved

/-- FCVTN: f bits 4:3 give the type, bit 5 widens (spec R191). -/
def narrow (w : Ins) : Except DecodeError Instr :=
  match RMode.ofCode ((ff w).extractLsb' 0 3) with
  | some r =>
    if (ff w).getLsbD 5 then .ok (.fcvtnUp (fd w) (fa w) (NarrowTy.ofCode ((ff w).extractLsb' 3 2)) r)
    else .ok (.fcvtn (fd w) (fa w) (NarrowTy.ofCode ((ff w).extractLsb' 3 2)) r)
  | none => .error .reserved

/-- AMOW and AMOD: order in f bits 5:4, function in bits 3:0 (spec R212). -/
def atomic (mk : AmoOrd → AmoFn → Instr) (w : Ins) : Except DecodeError Instr :=
  match AmoFn.ofCode ((ff w).extractLsb' 0 4) with
  | some f => .ok (mk (AmoOrd.ofCode ((ff w).extractLsb' 4 2)) f)
  | none => .error .reserved

/-- FENCE (spec R216). -/
def fenceWord (w : Ins) : Except DecodeError Instr :=
  if (payload w).extractLsb' 7 17 = 0 then
    match Scope.ofCode ((payload w).extractLsb' 4 3) with
    | some s => .ok (.fence s ((ff w).extractLsb' 0 4))
    | none => .error .reserved
  else .error .reserved

/-- FEST (spec R210). -/
def festWord (w : Ins) : Except DecodeError Instr :=
  if fd w = 0 ∧ (ff w).extractLsb' 4 2 = 0 then
    match BitOp.ofCode ((ff w).extractLsb' 2 2), BitOp.ofCode ((ff w).extractLsb' 0 2) with
    | some g, some f => .ok (.fest (fa w) (fb w) g f)
    | _, _ => .error .reserved
  else .error .reserved

/-- BAR (spec R217): without SCV the scope field must be 0. -/
def barWord (w : Ins) : Except DecodeError Instr :=
  if (payload w).extractLsb' 7 17 = 0 then
    if (ff w).getLsbD 3 then
      match Scope.ofCode ((payload w).extractLsb' 4 3) with
      | some s => .ok (.bar (some s) ((ff w).extractLsb' 0 3))
      | none => .error .reserved
    else if (payload w).extractLsb' 4 3 = 0 then .ok (.bar none ((ff w).extractLsb' 0 3))
    else .error .reserved
  else .error .reserved

/-- Format V with three register fields and sub = 0. -/
def vector3 (mk : BitVec 6 → BitVec 6 → BitVec 6 → BitVec 3 → Bool → Instr) (w : Ins) : Except DecodeError Instr :=
  if fsub w = 0 then .ok (mk (fd w) (fa w) (fb w) (fk w) (fp w)) else .error .reserved

/-- Format V with two register fields, vb = 0 and sub = 0. -/
def vector2 (mk : BitVec 6 → BitVec 6 → BitVec 3 → Bool → Instr) (w : Ins) : Except DecodeError Instr :=
  if fb w = 0 ∧ fsub w = 0 then .ok (mk (fd w) (fa w) (fk w) (fp w)) else .error .reserved

/-- VCVT (spec R239). -/
def vcvtWord (w : Ins) : Except DecodeError Instr :=
  if (fb w).extractLsb' 4 2 = 0 then
    match ETy.ofCode ((fb w).extractLsb' 0 4) with
    | some u => .ok (.vcvt (fd w) (fa w) u (fk w) (fp w) (Feedback.ofCode (fsub w)))
    | none => .error .reserved
  else .error .reserved

/-- VRED (spec R240). -/
def vredWord (w : Ins) : Except DecodeError Instr :=
  match RedOp.ofCode (fsub w) with
  | some o => .ok (.vred (fd w) (fa w) (fb w) (fk w) (fp w) o)
  | none => .error .reserved

/-- PFXM (spec R197): without ROV the rounding code must be 000. -/
def pfxmWord (w : Ins) : Except DecodeError Instr :=
  if (payload w).extractLsb' 6 18 = 0 then
    match OvfMode.ofCode ((ff w).extractLsb' 4 2), RMode.ofCode ((ff w).extractLsb' 0 3) with
    | some o, some r =>
      if (ff w).getLsbD 3 then .ok (.pfxm o (some r))
      else if (ff w).extractLsb' 0 3 = (0 : BitVec 3) then .ok (.pfxm o none) else .error .reserved
    | _, _ => .error .reserved
  else .error .reserved

/-- HINT (spec R198): the code in payload bits 7:0, its argument in bits 17:8. -/
def hintWord (w : Ins) : Except DecodeError Instr :=
  if (payload w).extractLsb' 18 6 = 0 then
    let n : BitVec 10 := (payload w).extractLsb' 8 10
    match ((payload w).extractLsb' 0 8 : BitVec 8).toNat with
    | 0 => if n = 0 then .ok .nop else .error .reserved
    | 1 => if n = 0 then .ok .yield else .error .reserved
    | 2 => .ok (.hintStall n)
    | 3 => if n.extractLsb' 4 6 = 0 then .ok (.hintPrio (n.extractLsb' 0 4)) else .error .reserved
    | _ => .error .reserved
  else .error .reserved

/-- Opcodes 0x00 to 0x0F (spec R166). -/
def decode0 (w : Ins) : Except DecodeError Instr :=
  match (w.extractLsb' 24 4).toNat with
  | 0x1 => three .add w
  | 0x2 => three .sub w
  | 0x3 => three .mul w
  | 0x4 => three .mulh w
  | 0x5 => three .mulhz w
  | 0x6 => three .div w
  | 0x7 => three .divz w
  | 0x8 => three .rem w
  | 0x9 => three .remz w
  | 0xA => three .and w
  | 0xB => three .or w
  | 0xC => three .xor w
  | 0xD => three .andn w
  | 0xE => three .shl w
  | 0xF => three .shr w
  | _ => .error .unassigned

/-- Opcodes 0x10 to 0x1F (spec R166). -/
def decode1 (w : Ins) : Except DecodeError Instr :=
  match (w.extractLsb' 24 4).toNat with
  | 0x0 => three .sar w
  | 0x1 => three .rol w
  | 0x2 => three .min w
  | 0x3 => three .max w
  | 0x4 => three .minz w
  | 0x5 => three .maxz w
  | 0x6 => three .slt w
  | 0x7 => three .sltz w
  | 0x8 => three .seq w
  | 0x9 => two .clz w
  | 0xA => two .ctz w
  | 0xB => two .popc w
  | 0xC => three .bfx w
  | 0xD => three .bfxz w
  | 0xE => three .bfi w
  | 0xF => three .sel w
  | _ => .error .unassigned

/-- Opcodes 0x20 to 0x2F (spec R166). -/
def decode2 (w : Ins) : Except DecodeError Instr :=
  match (w.extractLsb' 24 4).toNat with
  | 0x0 => .ok (.addi (fd w) (fa w) (imm w))
  | 0x1 => .ok (.andi (fd w) (fa w) (imm w))
  | 0x2 => .ok (.ori (fd w) (fa w) (imm w))
  | 0x3 => .ok (.xori (fd w) (fa w) (imm w))
  | 0x4 => zero (fb w) (.shli (fd w) (fa w) (ff w))
  | 0x5 => zero (fb w) (.shri (fd w) (fa w) (ff w))
  | 0x6 => zero (fb w) (.sari (fd w) (fa w) (ff w))
  | 0x7 => .ok (.slti (fd w) (fa w) (imm w))
  | 0x8 => .ok (.sltzi (fd w) (fa w) (imm w))
  | _ => .error .unassigned

/-- Opcodes 0x30 to 0x3F (spec R166). -/
def decode3 (w : Ins) : Except DecodeError Instr :=
  match (w.extractLsb' 24 4).toNat with
  | 0x0 => rounded (.fadd (fd w) (fa w) (fb w)) w
  | 0x1 => rounded (.fsub (fd w) (fa w) (fb w)) w
  | 0x2 => rounded (.fmul (fd w) (fa w) (fb w)) w
  | 0x3 => rounded (.ffma (fd w) (fa w) (fb w)) w
  | 0x4 => three .fmin w
  | 0x5 => three .fmax w
  | 0x6 => rounded (.fdiv (fd w) (fa w) (fb w)) w
  | 0x7 => (if fb w = 0 then rounded (.fsqrt (fd w) (fa w)) w else .error .reserved)
  | 0x8 => (if fb w = 0 then rounded (.frcp (fd w) (fa w)) w else .error .reserved)
  | 0x9 => (if fb w = 0 then rounded (.frsq (fd w) (fa w)) w else .error .reserved)
  | 0xA => three .flt w
  | 0xB => three .fle w
  | 0xC => three .feq w
  | 0xD => (if fb w = 0 then typed IntTy.ofCode (fun t r => .fcvti (fd w) (fa w) t r) w else .error .reserved)
  | 0xE => (if fb w = 0 then typed IntTy.ofCode (fun t r => .fcvtf (fd w) (fa w) t r) w else .error .reserved)
  | 0xF => (if fb w = 0 then narrow w else .error .reserved)
  | _ => .error .unassigned

/-- Opcodes 0x40 to 0x4F (spec R166). -/
def decode4 (w : Ins) : Except DecodeError Instr :=
  match (w.extractLsb' 24 4).toNat with
  | 0x0 => .ok (.beq (fd w) (fa w) (imm w))
  | 0x1 => .ok (.bne (fd w) (fa w) (imm w))
  | 0x2 => .ok (.blt (fd w) (fa w) (imm w))
  | 0x3 => .ok (.bge (fd w) (fa w) (imm w))
  | 0x4 => .ok (.bltz (fd w) (fa w) (imm w))
  | 0x5 => .ok (.bgez (fd w) (fa w) (imm w))
  | 0x6 => .ok (.jal (fd w) (fa w ++ imm w))
  | 0x7 => .ok (.jalr (fd w) (fa w) (imm w))
  | 0x8 => (if fd w = 0 ∧ fa w = 0 then .ok (.trapInsn (imm w)) else .error .reserved)
  | 0x9 => (if fd w = 0 ∧ fa w = 0 then .ok (.brk (imm w)) else .error .reserved)
  | 0xA => (if payload w = 0 then .ok .exit else .error .reserved)
  | _ => .error .unassigned

/-- Opcodes 0x50 to 0x5F (spec R166). -/
def decode5 (w : Ins) : Except DecodeError Instr :=
  match (w.extractLsb' 24 4).toNat with
  | 0x0 => .ok (.ldb (fd w) (fa w) (imm w))
  | 0x1 => .ok (.ldbz (fd w) (fa w) (imm w))
  | 0x2 => .ok (.ldh (fd w) (fa w) (imm w))
  | 0x3 => .ok (.ldhz (fd w) (fa w) (imm w))
  | 0x4 => .ok (.ldw (fd w) (fa w) (imm w))
  | 0x5 => .ok (.ldwz (fd w) (fa w) (imm w))
  | 0x6 => .ok (.ldd (fd w) (fa w) (imm w))
  | 0x7 => .ok (.stb (fd w) (fa w) (imm w))
  | 0x8 => .ok (.sth (fd w) (fa w) (imm w))
  | 0x9 => .ok (.stw (fd w) (fa w) (imm w))
  | 0xA => .ok (.std (fd w) (fa w) (imm w))
  | 0xB => .ok (.lda (fd w) (fa w) (Size.ofCode ((imm w).extractLsb' 10 2)) ((imm w).extractLsb' 0 10))
  | 0xC => .ok (.stl (fd w) (fa w) (Size.ofCode ((imm w).extractLsb' 10 2)) ((imm w).extractLsb' 0 10))
  | 0xD => atomic (fun o f => .amow (fd w) (fa w) (fb w) o f) w
  | 0xE => atomic (fun o f => .amod (fd w) (fa w) (fb w) o f) w
  | 0xF => fenceWord w
  | _ => .error .unassigned

/-- Opcodes 0x60 to 0x6F (spec R166). -/
def decode6 (w : Ins) : Except DecodeError Instr :=
  match (w.extractLsb' 24 4).toNat with
  | 0x0 => .ok (.ldsy (fd w) (fa w) (Size.ofCode ((imm w).extractLsb' 10 2)) ((imm w).extractLsb' 0 10))
  | 0x1 => .ok (.stf (fd w) (fa w) (Size.ofCode ((imm w).extractLsb' 10 2)) ((imm w).extractLsb' 0 10))
  | 0x2 => festWord w
  | 0x3 => (match Tier.ofCode (fd w) with | some t => .ok (.pref t (fa w) (imm w)) | none => .error .reserved)
  | _ => .error .unassigned

/-- Opcodes 0x70 to 0x7F (spec R166). -/
def decode7 (w : Ins) : Except DecodeError Instr :=
  match (w.extractLsb' 24 4).toNat with
  | 0x0 => barWord w
  | 0x1 => three .arw w
  | 0x2 => three .await w
  | 0x3 => three .prop w
  | 0x4 => (if (ff w).extractLsb' 1 5 = 0 then .ok (.crd (fd w) (fa w) (fb w) ((ff w).getLsbD 0)) else .error .reserved)
  | 0x5 => (if fd w = 0 ∧ ff w = 0 then .ok (.crcy (fa w) (fb w)) else .error .reserved)
  | 0x6 => (if fa w = 0 ∧ fb w = 0 then (match PosSel.ofCode (ff w) with | some f => .ok (.pos (fd w) f) | none => .error .reserved) else .error .reserved)
  | 0x7 => (if fa w = 0 ∧ fb w = 0 then (match IdxSel.ofCode (ff w) with | some f => .ok (.idx (fd w) f) | none => .error .reserved) else .error .reserved)
  | 0x8 => (if fd w = 0 ∧ fb w = 0 ∧ (ff w).extractLsb' 1 5 = 0 then .ok (.migr (fa w) ((ff w).getLsbD 0)) else .error .reserved)
  | _ => .error .unassigned

/-- Opcodes 0x80 to 0x8F (spec R166). -/
def decode8 (w : Ins) : Except DecodeError Instr :=
  match (w.extractLsb' 24 4).toNat with
  | 0x0 => vector3 .vadd w
  | 0x1 => vector3 .vsub w
  | 0x2 => vector3 .vmul w
  | 0x3 => vector3 .vfma w
  | 0x4 => vector3 .vmin w
  | 0x5 => vector3 .vmax w
  | 0x6 => vector2 .vabs w
  | 0x7 => vector3 .vand w
  | 0x8 => vector3 .vor w
  | 0x9 => vector3 .vxor w
  | 0xA => vector3 .vshl w
  | 0xB => vector3 .vshr w
  | 0xC => vector3 .vsar w
  | 0xD => vector3 .vcmpeq w
  | 0xE => vector3 .vcmplt w
  | 0xF => vector3 .vcmple w
  | _ => .error .unassigned

/-- Opcodes 0x90 to 0x9F (spec R166). -/
def decode9 (w : Ins) : Except DecodeError Instr :=
  match (w.extractLsb' 24 4).toNat with
  | 0x0 => vector3 .vsel w
  | 0x1 => vector2 .vrcp w
  | 0x2 => vector2 .vrsq w
  | 0x3 => vector2 .vexp2 w
  | 0x4 => vcvtWord w
  | 0x5 => vredWord w
  | 0x6 => vector3 .vdot w
  | 0x7 => (match (fsub w).toNat with | 0 => zero (fb w) (.vbcst (fd w) (fa w) (fk w) (fp w)) | 1 => .ok (.vbcstEl (fd w) (fa w) (fb w) (fk w) (fp w)) | _ => .error .reserved)
  | 0x8 => three .vext w
  | 0x9 => three .vins w
  | 0xA => vector3 .vperm w
  | 0xB => (match (fsub w).toNat with | 0 => .ok (.vslideDn (fd w) (fa w) (fb w) (fk w) (fp w)) | 1 => .ok (.vslideUp (fd w) (fa w) (fb w) (fk w) (fp w)) | _ => .error .reserved)
  | 0xC => (match (fsub w).toNat with | 0 => zero (fb w) (.viota (fd w) (fa w) (fk w) (fp w)) | 1 => (if fa w = 0 ∧ fb w = 0 then .ok (.viotaIdx (fd w) (fk w) (fp w)) else .error .reserved) | _ => .error .reserved)
  | 0xD => (if fb w = 0 ∧ (ff w).extractLsb' 0 3 = 0 then .ok (.vpopc (fd w) (fa w) (fk w)) else .error .reserved)
  | 0xE => (match (fsub w).toNat with | 0 => .ok (.vtrnLo (fd w) (fa w) (fb w) (fk w) (fp w)) | 1 => .ok (.vtrnHi (fd w) (fa w) (fb w) (fk w) (fp w)) | _ => .error .reserved)
  | 0xF => (if (imm w).extractLsb' 4 8 = 0 then (match ETy.ofCode ((imm w).extractLsb' 0 4) with | some t => .ok (.vcfg (fd w) (fa w) t) | none => .error .reserved) else .error .reserved)
  | _ => .error .unassigned

/-- Opcodes 0xA0 to 0xAF (spec R166). -/
def decodeA (w : Ins) : Except DecodeError Instr :=
  match (w.extractLsb' 24 4).toNat with
  | 0x0 => vector3 .vld w
  | 0x1 => vector3 .vst w
  | 0x2 => vector3 .vlds w
  | 0x3 => vector3 .vsts w
  | 0x4 => vector3 .vgth w
  | 0x5 => vector3 .vsct w
  | _ => .error .unassigned

/-- Opcodes 0xB0 to 0xBF (spec R166). -/
def decodeB (w : Ins) : Except DecodeError Instr :=
  match (w.extractLsb' 24 4).toNat with
  | 0x0 => (if (imm w).extractLsb' 0 7 = 0 ∧ (fd w).extractLsb' 3 3 = 0 then .ok (.tld ((fd w).extractLsb' 0 3) (fa w) ((imm w).extractLsb' 7 5)) else .error .reserved)
  | 0x1 => (if (imm w).extractLsb' 0 7 = 0 ∧ (fd w).extractLsb' 3 3 = 0 then .ok (.tst ((fd w).extractLsb' 0 3) (fa w) ((imm w).extractLsb' 7 5)) else .error .reserved)
  | 0x2 => (if fd w = 0 ∧ (imm w).extractLsb' 0 7 = 0 then .ok (.lreg (fa w) ((imm w).extractLsb' 7 5)) else .error .reserved)
  | 0x3 => (if fd w = 0 ∧ fa w = 0 ∧ (imm w).extractLsb' 0 7 = 0 then .ok (.lfree ((imm w).extractLsb' 7 5)) else .error .reserved)
  | 0x4 => (if fa w = 0 ∧ (imm w).extractLsb' 0 7 = 0 then .ok (.lqry (fd w) ((imm w).extractLsb' 7 5)) else .error .reserved)
  | _ => .error .unassigned

/-- Opcodes 0xC0 to 0xCF (spec R166). -/
def decodeC (w : Ins) : Except DecodeError Instr :=
  match (w.extractLsb' 24 4).toNat with
  | 0x0 => (if fd w = 0 ∧ fb w = 0 ∧ (ff w).extractLsb' 0 4 = 0 then .ok (.mclaim (fa w) ((ff w).extractLsb' 4 2)) else .error .reserved)
  | 0x1 => (if fd w = 0 ∧ fa w = 0 ∧ fb w = 0 ∧ (ff w).extractLsb' 0 4 = 0 then .ok (.mfree  ((ff w).extractLsb' 4 2)) else .error .reserved)
  | 0x2 => three .mldw w
  | 0x3 => (if fa w = 0 ∧ fb w = 0 ∧ ff w = 0 then .ok (.mswap (fd w)) else .error .reserved)
  | 0x4 => (if (ff w).extractLsb' 0 4 = 0 then .ok (.mma (fd w) (fa w) (fb w) ((ff w).extractLsb' 4 2)) else .error .reserved)
  | 0x5 => (if (ff w).extractLsb' 0 4 = 0 then .ok (.mmae (fd w) (fa w) (fb w) ((ff w).extractLsb' 4 2)) else .error .reserved)
  | 0x6 => (if fa w = 0 ∧ fb w = 0 ∧ (ff w).extractLsb' 0 4 = 0 then .ok (.mzero (fd w) ((ff w).extractLsb' 4 2)) else .error .reserved)
  | 0x7 => (if fb w = 0 ∧ (ff w).extractLsb' 0 4 = 0 then .ok (.mread (fd w) (fa w) ((ff w).extractLsb' 4 2)) else .error .reserved)
  | 0x8 => (if fd w = 0 ∧ fb w = 0 ∧ (ff w).extractLsb' 0 4 = 0 then .ok (.mdrain (fa w) ((ff w).extractLsb' 4 2)) else .error .reserved)
  | 0x9 => (if fd w = 0 ∧ fb w = 0 ∧ (ff w).extractLsb' 0 4 = 0 then .ok (.mfill (fa w) ((ff w).extractLsb' 4 2)) else .error .reserved)
  | 0xA => (if fa w = 0 ∧ fb w = 0 ∧ (ff w).extractLsb' 0 4 = 0 then .ok (.mstat (fd w) ((ff w).extractLsb' 4 2)) else .error .reserved)
  | 0xB => (if fa w = 0 ∧ fb w = 0 ∧ (ff w).extractLsb' 2 4 = 0 then .ok (.mmode (fd w) ((ff w).getLsbD 1) ((ff w).getLsbD 0)) else .error .reserved)
  | _ => .error .unassigned

/-- Opcodes 0xD0 to 0xDF (spec R166). -/
def decodeD (w : Ins) : Except DecodeError Instr :=
  match (w.extractLsb' 24 4).toNat with
  | 0x0 => (if fb w = 0 ∧ (ff w).extractLsb' 3 3 = 0 then (match Queue.ofCode ((ff w).extractLsb' 0 3) with | some q => .ok (.copy (fd w) (fa w) q) | none => .error .reserved) else .error .reserved)
  | 0x1 => (if fb w = 0 ∧ (ff w).extractLsb' 3 3 = 0 then (match Queue.ofCode ((ff w).extractLsb' 0 3) with | some q => .ok (.copym (fd w) (fa w) q) | none => .error .reserved) else .error .reserved)
  | 0x2 => (if fb w = 0 ∧ (ff w).extractLsb' 3 3 = 0 then (match Queue.ofCode ((ff w).extractLsb' 0 3) with | some q => .ok (.copyd (fd w) (fa w) q) | none => .error .reserved) else .error .reserved)
  | 0x3 => (if fd w = 0 ∧ fa w = 0 ∧ fb w = 0 ∧ (ff w).extractLsb' 5 1 = 0 then .ok (.qfence ((ff w).extractLsb' 0 5)) else .error .reserved)
  | 0x4 => (if fa w = 0 ∧ fb w = 0 ∧ (ff w).extractLsb' 4 2 = 0 then (match Queue.ofCode ((ff w).extractLsb' 0 3) with | some q => .ok (.qseq (fd w) (if (ff w).getLsbD 3 then .done else .enq) q) | none => .error .reserved) else .error .reserved)
  | 0x5 => (if fb w = 0 ∧ (ff w).extractLsb' 3 3 = 0 then (match Queue.ofCode ((ff w).extractLsb' 0 3) with | some q => .ok (.qwait (fd w) (fa w) q) | none => .error .reserved) else .error .reserved)
  | _ => .error .unassigned

/-- Opcodes 0xE0 to 0xEF (spec R166). -/
def decodeE (w : Ins) : Except DecodeError Instr :=
  match (w.extractLsb' 24 4).toNat with
  | 0x0 => (if fa w = 0 then .ok (.mfsr (fd w) (imm w)) else .error .reserved)
  | 0x1 => (if fd w = 0 then .ok (.mtsr (fa w) (imm w)) else .error .reserved)
  | 0x2 => (match (ff w).toNat with | 0 => .ok (.xinv (fd w) (fa w) (fb w)) | 1 => (if fa w = 0 ∧ fb w = 0 then .ok (.xinvAll (fd w)) else .error .reserved) | _ => .error .reserved)
  | 0x3 => (match (ff w).toNat with | 0 => .ok (.ctlLaunch (fd w) (fa w) (fb w)) | 1 => .ok (.ctlSpload (fd w) (fa w) (fb w)) | 2 => .ok (.ctlSpdrop (fd w) (fa w) (fb w)) | 3 => .ok (.ctlKillt (fd w) (fa w) (fb w)) | 4 => .ok (.ctlKilll (fd w) (fa w) (fb w)) | 5 => .ok (.ctlPark (fd w) (fa w) (fb w)) | 6 => .ok (.ctlUnpark (fd w) (fa w) (fb w)) | _ => .error .reserved)
  | 0x4 => (if fb w = 0 ∧ ff w = 0 then .ok (.trq (fd w) (fa w)) else .error .reserved)
  | 0x5 => three .tret w
  | 0x6 => three .cmnt w
  | 0x7 => three .lpwr w
  | 0x8 => (if fb w = 0 then (match (ff w).toNat with | 0 => .ok (.halt (fd w) (fa w)) | 1 => .ok (.haltRel (fd w) (fa w)) | _ => .error .reserved) else .error .reserved)
  | 0x9 => (if fb w = 0 ∧ (ff w).extractLsb' 0 4 = 0 then .ok (.mresume (fd w) (fa w) ((ff w).extractLsb' 4 2)) else .error .reserved)
  | _ => .error .unassigned

/-- Opcodes 0xF0 to 0xFF (spec R166). -/
def decodeF (w : Ins) : Except DecodeError Instr :=
  match (w.extractLsb' 24 4).toNat with
  | 0x0 => .ok (.pfxi (payload w))
  | 0x1 => (if (payload w).extractLsb' 21 2 = 0 ∧ ((payload w).getLsbD 23 → (payload w).extractLsb' 9 12 = 0) then .ok (.pfxv ((payload w).getLsbD 23) ((payload w).extractLsb' 0 21)) else .error .reserved)
  | 0x2 => (if (payload w).extractLsb' 6 17 = 0 then .ok (.pfxvg ((payload w).getLsbD 23) (ff w)) else .error .reserved)
  | 0x3 => (if (payload w).extractLsb' 3 21 = 0 then (match Scope.ofCode ((ff w).extractLsb' 0 3) with | some s => .ok (.pfxs s) | none => .error .reserved) else .error .reserved)
  | 0x4 => pfxmWord w
  | 0x5 => hintWord w
  | _ => .error .unassigned

/-- The instruction that a word stands for, or why it stands for none (spec R163 to R167). -/
def decode (w : Ins) : Except DecodeError Instr :=
  match (w.extractLsb' 28 4).toNat with
  | 0x0 => decode0 w
  | 0x1 => decode1 w
  | 0x2 => decode2 w
  | 0x3 => decode3 w
  | 0x4 => decode4 w
  | 0x5 => decode5 w
  | 0x6 => decode6 w
  | 0x7 => decode7 w
  | 0x8 => decode8 w
  | 0x9 => decode9 w
  | 0xA => decodeA w
  | 0xB => decodeB w
  | 0xC => decodeC w
  | 0xD => decodeD w
  | 0xE => decodeE w
  | 0xF => decodeF w
  | _ => .error .unassigned

/-- The word of an instruction (spec R163 and the rulers of each entry). An event has no word and gives 0. -/
def encode : Instr → Ins
  | .add d a b => word 0x01 d a b 0
  | .sub d a b => word 0x02 d a b 0
  | .mul d a b => word 0x03 d a b 0
  | .mulh d a b => word 0x04 d a b 0
  | .mulhz d a b => word 0x05 d a b 0
  | .div d a b => word 0x06 d a b 0
  | .divz d a b => word 0x07 d a b 0
  | .rem d a b => word 0x08 d a b 0
  | .remz d a b => word 0x09 d a b 0
  | .and d a b => word 0x0A d a b 0
  | .or d a b => word 0x0B d a b 0
  | .xor d a b => word 0x0C d a b 0
  | .andn d a b => word 0x0D d a b 0
  | .shl d a b => word 0x0E d a b 0
  | .shr d a b => word 0x0F d a b 0
  | .sar d a b => word 0x10 d a b 0
  | .rol d a b => word 0x11 d a b 0
  | .min d a b => word 0x12 d a b 0
  | .max d a b => word 0x13 d a b 0
  | .minz d a b => word 0x14 d a b 0
  | .maxz d a b => word 0x15 d a b 0
  | .slt d a b => word 0x16 d a b 0
  | .sltz d a b => word 0x17 d a b 0
  | .seq d a b => word 0x18 d a b 0
  | .bfx d a b => word 0x1C d a b 0
  | .bfxz d a b => word 0x1D d a b 0
  | .bfi d a b => word 0x1E d a b 0
  | .sel d a b => word 0x1F d a b 0
  | .fmin d a b => word 0x34 d a b 0
  | .fmax d a b => word 0x35 d a b 0
  | .flt d a b => word 0x3A d a b 0
  | .fle d a b => word 0x3B d a b 0
  | .feq d a b => word 0x3C d a b 0
  | .arw d a b => word 0x71 d a b 0
  | .await d a b => word 0x72 d a b 0
  | .prop d a b => word 0x73 d a b 0
  | .vext d a b => word 0x98 d a b 0
  | .vins d a b => word 0x99 d a b 0
  | .mldw d a b => word 0xC2 d a b 0
  | .tret d a b => word 0xE5 d a b 0
  | .cmnt d a b => word 0xE6 d a b 0
  | .lpwr d a b => word 0xE7 d a b 0
  | .clz d a => word 0x19 d a 0 0
  | .ctz d a => word 0x1A d a 0 0
  | .popc d a => word 0x1B d a 0 0
  | .addi d a i => wordI 0x20 d a i
  | .andi d a i => wordI 0x21 d a i
  | .ori d a i => wordI 0x22 d a i
  | .xori d a i => wordI 0x23 d a i
  | .slti d a i => wordI 0x27 d a i
  | .sltzi d a i => wordI 0x28 d a i
  | .jalr d a i => wordI 0x47 d a i
  | .ldb d a i => wordI 0x50 d a i
  | .ldbz d a i => wordI 0x51 d a i
  | .ldh d a i => wordI 0x52 d a i
  | .ldhz d a i => wordI 0x53 d a i
  | .ldw d a i => wordI 0x54 d a i
  | .ldwz d a i => wordI 0x55 d a i
  | .ldd d a i => wordI 0x56 d a i
  | .stb d a i => wordI 0x57 d a i
  | .sth d a i => wordI 0x58 d a i
  | .stw d a i => wordI 0x59 d a i
  | .std d a i => wordI 0x5A d a i
  | .shli d a n => word 0x24 d a 0 n
  | .shri d a n => word 0x25 d a 0 n
  | .sari d a n => word 0x26 d a 0 n
  | .fadd d a b r => word 0x30 d a b (0#3 ++ r.code)
  | .fsub d a b r => word 0x31 d a b (0#3 ++ r.code)
  | .fmul d a b r => word 0x32 d a b (0#3 ++ r.code)
  | .ffma d a b r => word 0x33 d a b (0#3 ++ r.code)
  | .fdiv d a b r => word 0x36 d a b (0#3 ++ r.code)
  | .fsqrt d a r => word 0x37 d a 0 (0#3 ++ r.code)
  | .frcp d a r => word 0x38 d a 0 (0#3 ++ r.code)
  | .frsq d a r => word 0x39 d a 0 (0#3 ++ r.code)
  | .fcvti d a t r => word 0x3D d a 0 (t.code ++ r.code)
  | .fcvtf d a t r => word 0x3E d a 0 (t.code ++ r.code)
  | .fcvtn d a t r => word 0x3F d a 0 ((0#1 ++ t.code) ++ r.code)
  | .fcvtnUp d a t r => word 0x3F d a 0 ((1#1 ++ t.code) ++ r.code)
  | .beq a b o => wordI 0x40 a b o
  | .bne a b o => wordI 0x41 a b o
  | .blt a b o => wordI 0x42 a b o
  | .bge a b o => wordI 0x43 a b o
  | .bltz a b o => wordI 0x44 a b o
  | .bgez a b o => wordI 0x45 a b o
  | .jal d o => wordI 0x46 d (o.extractLsb' 12 6) (o.extractLsb' 0 12)
  | .trapInsn i => wordI 0x48 0 0 i
  | .brk i => wordI 0x49 0 0 i
  | .exit => word 0x4A 0 0 0 0
  | .lda d a z o => wordI 0x5B d a (z.code ++ o)
  | .stl d a z o => wordI 0x5C d a (z.code ++ o)
  | .ldsy d a z o => wordI 0x60 d a (z.code ++ o)
  | .stf d a z o => wordI 0x61 d a (z.code ++ o)
  | .amow d a b o f => word 0x5D d a b (o.code ++ f.code)
  | .amod d a b o f => word 0x5E d a b (o.code ++ f.code)
  | .fence s k => word 0x5F 0 0 (0#5 ++ s.code.extractLsb' 2 1) ((s.code.extractLsb' 0 2) ++ k)
  | .fest a b g f => word 0x62 0 a b ((0#2 ++ g.code) ++ f.code)
  | .pref t a i => wordI 0x63 t.code a i
  | .bar none l => word 0x70 0 0 0 (0#3 ++ l)
  | .bar (some s) l => word 0x70 0 0 (0#5 ++ s.code.extractLsb' 2 1) ((s.code.extractLsb' 0 2 ++ 1#1) ++ l)
  | .crd d a b w => word 0x74 d a b (0#5 ++ BitVec.ofBool w)
  | .crcy a b => word 0x75 0 a b 0
  | .pos d f => word 0x76 d 0 0 f.code
  | .idx d f => word 0x77 d 0 0 f.code
  | .migr a t => word 0x78 0 a 0 (0#5 ++ BitVec.ofBool t)
  | .vadd d a b k p => word 0x80 d a b (k ++ BitVec.ofBool p ++ 0#2)
  | .vsub d a b k p => word 0x81 d a b (k ++ BitVec.ofBool p ++ 0#2)
  | .vmul d a b k p => word 0x82 d a b (k ++ BitVec.ofBool p ++ 0#2)
  | .vfma d a b k p => word 0x83 d a b (k ++ BitVec.ofBool p ++ 0#2)
  | .vmin d a b k p => word 0x84 d a b (k ++ BitVec.ofBool p ++ 0#2)
  | .vmax d a b k p => word 0x85 d a b (k ++ BitVec.ofBool p ++ 0#2)
  | .vand d a b k p => word 0x87 d a b (k ++ BitVec.ofBool p ++ 0#2)
  | .vor d a b k p => word 0x88 d a b (k ++ BitVec.ofBool p ++ 0#2)
  | .vxor d a b k p => word 0x89 d a b (k ++ BitVec.ofBool p ++ 0#2)
  | .vshl d a b k p => word 0x8A d a b (k ++ BitVec.ofBool p ++ 0#2)
  | .vshr d a b k p => word 0x8B d a b (k ++ BitVec.ofBool p ++ 0#2)
  | .vsar d a b k p => word 0x8C d a b (k ++ BitVec.ofBool p ++ 0#2)
  | .vcmpeq d a b k p => word 0x8D d a b (k ++ BitVec.ofBool p ++ 0#2)
  | .vcmplt d a b k p => word 0x8E d a b (k ++ BitVec.ofBool p ++ 0#2)
  | .vcmple d a b k p => word 0x8F d a b (k ++ BitVec.ofBool p ++ 0#2)
  | .vsel d a b k p => word 0x90 d a b (k ++ BitVec.ofBool p ++ 0#2)
  | .vdot d a b k p => word 0x96 d a b (k ++ BitVec.ofBool p ++ 0#2)
  | .vperm d a b k p => word 0x9A d a b (k ++ BitVec.ofBool p ++ 0#2)
  | .vabs d a k p => word 0x86 d a 0 (k ++ BitVec.ofBool p ++ 0#2)
  | .vrcp d a k p => word 0x91 d a 0 (k ++ BitVec.ofBool p ++ 0#2)
  | .vrsq d a k p => word 0x92 d a 0 (k ++ BitVec.ofBool p ++ 0#2)
  | .vexp2 d a k p => word 0x93 d a 0 (k ++ BitVec.ofBool p ++ 0#2)
  | .vcvt d a u k p e => word 0x94 d a (0#2 ++ u.code) (k ++ BitVec.ofBool p ++ e.code)
  | .vred d a b k p o => word 0x95 d a b (k ++ BitVec.ofBool p ++ o.code)
  | .vbcst d a k p => word 0x97 d a 0 (k ++ BitVec.ofBool p ++ 0#2)
  | .vbcstEl d a n k p => word 0x97 d a n (k ++ BitVec.ofBool p ++ 1#2)
  | .vslideDn d a n k p => word 0x9B d a n (k ++ BitVec.ofBool p ++ 0#2)
  | .vslideUp d a n k p => word 0x9B d a n (k ++ BitVec.ofBool p ++ 1#2)
  | .viota d a k p => word 0x9C d a 0 (k ++ BitVec.ofBool p ++ 0#2)
  | .viotaIdx d k p => word 0x9C d 0 0 (k ++ BitVec.ofBool p ++ 1#2)
  | .vpopc d a k => word 0x9D d a 0 (k ++ 0#3)
  | .vtrnLo d a b k p => word 0x9E d a b (k ++ BitVec.ofBool p ++ 0#2)
  | .vtrnHi d a b k p => word 0x9E d a b (k ++ BitVec.ofBool p ++ 1#2)
  | .vcfg d a t => wordI 0x9F d a (0#8 ++ t.code)
  | .vld v a b k p => word 0xA0 v a b (k ++ BitVec.ofBool p ++ 0#2)
  | .vst v a b k p => word 0xA1 v a b (k ++ BitVec.ofBool p ++ 0#2)
  | .vlds v a b k p => word 0xA2 v a b (k ++ BitVec.ofBool p ++ 0#2)
  | .vsts v a b k p => word 0xA3 v a b (k ++ BitVec.ofBool p ++ 0#2)
  | .vgth v a b k p => word 0xA4 v a b (k ++ BitVec.ofBool p ++ 0#2)
  | .vsct v a b k p => word 0xA5 v a b (k ++ BitVec.ofBool p ++ 0#2)
  | .tld t a l => wordI 0xB0 (0#3 ++ t) a (l ++ 0#7)
  | .tst t a l => wordI 0xB1 (0#3 ++ t) a (l ++ 0#7)
  | .lreg a l => wordI 0xB2 0 a (l ++ 0#7)
  | .lfree l => wordI 0xB3 0 0 (l ++ 0#7)
  | .lqry d l => wordI 0xB4 d 0 (l ++ 0#7)
  | .mclaim a c => word 0xC0 0 a 0 (c ++ 0#4)
  | .mfree c => word 0xC1 0 0 0 (c ++ 0#4)
  | .mzero d c => word 0xC6 d 0 0 (c ++ 0#4)
  | .mread d a c => word 0xC7 d a 0 (c ++ 0#4)
  | .mdrain a c => word 0xC8 0 a 0 (c ++ 0#4)
  | .mfill a c => word 0xC9 0 a 0 (c ++ 0#4)
  | .mstat d c => word 0xCA d 0 0 (c ++ 0#4)
  | .mresume d a c => word 0xE9 d a 0 (c ++ 0#4)
  | .mma d a b c => word 0xC4 d a b (c ++ 0#4)
  | .mmae d a b c => word 0xC5 d a b (c ++ 0#4)
  | .mswap d => word 0xC3 d 0 0 0
  | .mmode d o z => word 0xCB d 0 0 (0#4 ++ BitVec.ofBool o ++ BitVec.ofBool z)
  | .copy d a q => word 0xD0 d a 0 (0#3 ++ q.code)
  | .copym d a q => word 0xD1 d a 0 (0#3 ++ q.code)
  | .copyd d a q => word 0xD2 d a 0 (0#3 ++ q.code)
  | .qwait d a q => word 0xD5 d a 0 (0#3 ++ q.code)
  | .qfence m => word 0xD3 0 0 0 (0#1 ++ m)
  | .qseq d k q => word 0xD4 d 0 0 ((0#2 ++ k.code) ++ q.code)
  | .mfsr d n => wordI 0xE0 d 0 n
  | .mtsr a n => wordI 0xE1 0 a n
  | .xinv d a b => word 0xE2 d a b 0
  | .xinvAll d => word 0xE2 d 0 0 1
  | .ctlLaunch d a b => word 0xE3 d a b 0
  | .ctlSpload d a b => word 0xE3 d a b 1
  | .ctlSpdrop d a b => word 0xE3 d a b 2
  | .ctlKillt d a b => word 0xE3 d a b 3
  | .ctlKilll d a b => word 0xE3 d a b 4
  | .ctlPark d a b => word 0xE3 d a b 5
  | .ctlUnpark d a b => word 0xE3 d a b 6
  | .trq d a => word 0xE4 d a 0 0
  | .halt d a => word 0xE8 d a 0 0
  | .haltRel d a => word 0xE8 d a 0 1
  | .pfxi p => wordH 0xF0 p
  | .pfxv s p => wordH 0xF1 (BitVec.ofBool s ++ 0#2 ++ p)
  | .pfxvg s g => wordH 0xF2 (BitVec.ofBool s ++ 0#17 ++ g)
  | .pfxs s => wordH 0xF3 (0#21 ++ s.code)
  | .pfxm o none => wordH 0xF4 (0#18 ++ o.code ++ 0#4)
  | .pfxm o (some r) => wordH 0xF4 (0#18 ++ o.code ++ 1#1 ++ r.code)
  | .nop => wordH 0xF5 0
  | .yield => wordH 0xF5 1
  | .hintStall n => wordH 0xF5 (0#6 ++ n ++ 2#8)
  | .hintPrio p => wordH 0xF5 (0#6 ++ (0#6 ++ p) ++ 3#8)
  | _ => 0

/-- The instruction read from the bits of an opcode-table row: every word of the OC-9 is 32 bits, and a row gives all
of them, so bits above `nbits` are 0. -/
def decodeTableWord (nbits w : Nat) : Option Instr :=
  (decode (BitVec.ofNat 32 (w % 2 ^ nbits))).toOption

end Sys2Proof
end

