-- ==== Sys2Proof/Config.lean ====
section
/-! DEFINITION. What the implementation fixes, and the free values: constants without a body, of which nothing
can be evaluated or proved. A statement that mentions one holds for every value of it. -/

namespace Sys2Proof.Config

/-- Free value number `n`: whether an element that policy `.any` covers is left undisturbed (spec R44). Log entry 9. -/
opaque anyKeeps : Nat → Bool

/-- Free value number `n`: the bits such an element receives otherwise (spec R1, R44). Log entry 9. -/
opaque anyValue : Nat → BitVec 32

/-- The measurement of the ROM image (spec R368 step 1): SHAKE256-256 of bytes the spec does not give. Log entry 16. -/
opaque romMeasurement : BitVec 256

/-- The measurement of the firmware image (spec R368 step 1). Log entry 16. -/
opaque firmwareMeasurement : BitVec 256

/-- The Ed448 signature under the fused identity key (spec R373): a function of the signed digest. Log entry 16. -/
opaque identitySign : BitVec 256 → BitVec 912

/-- The low byte of TWRSTAT of a tower of another device in a cycle (spec R73), whose SHELFUP and HTHROT are not this module's.
Log entry 17. -/
opaque peerTower : BitVec 12 → Nat → Nat → BitVec 5

/-- The latest sample of a sensor of another device in a cycle (spec R72, R378). Log entry 17. -/
opaque peerSample : BitVec 12 → Nat → Nat → Option (BitVec 11)

/-- The slots of a port's receive buffer for each class of messages, 0 REQ to 3 ACK (spec R355, R365). Log entry 21. -/
opaque classBuffer : Nat → Nat

end Sys2Proof.Config
end

