-- ==== Sys2Proof/Machine/State.lean ====
section
/-! DEFINITION. What the OC-9 holds: threads, cores, tiles, spaces, launches, memory, coherence, fabric and
firmware state, as plain data; the state after reset; the reasons a step can stop. -/

namespace Sys2Proof.Machine

/-- No step of the OC-9 stops the whole machine: a trap stops one thread and is a next state (spec R346). -/
inductive Fault
  deriving DecidableEq, Repr

/-- Why a step has no meaning. -/
inductive Refusal
  /-- Raised by an arm of `exec` whose instruction has no meaning yet. Safe: the model stops. -/
  | notModelled (mnemonic : String)
  deriving DecidableEq, Repr

/-- Bytes by number, addresses strictly rising, no entry equal to what an unlisted number reads as. -/
abbrev Memory := List Host.Cell

/-- A finite table by number; what it does not list is a default that its reader names. -/
abbrev Tab (α : Type) := List (Nat × α)

/-! ### Threads -/

/-- Thread states (spec R22). -/
inductive ThState | created | dormant | resident | active | parked | trapped | travelling | done
  deriving DecidableEq, Repr

/-- Trap classes (spec R341). -/
inductive TrapClass
  | ill | priv | addr | xlat | ctxf | dark | data | amotype | repl | engine | wdog | brk | trap
  deriving DecidableEq, Repr

/-- A trap about to be taken: class, the fields of R342 and the faulting address. -/
structure Trap where
  cls : TrapClass
  cause : Nat := 0
  detail : Nat := 0
  va : Word := 0
  elem : Nat := 0
  deriving DecidableEq, Repr

/-- Where a viewpoint prefix takes its position from (spec R228, R229). -/
inductive ViewSrc
  | pos (self : Bool) (p : BitVec 21)
  | reg (self : Bool) (g : BitVec 6)
  deriving DecidableEq, Repr

/-- The prefixes of the group that a thread has begun (spec R169 to R171). -/
structure Group where
  len : Nat := 0
  start : Word := 0
  imm : Option (BitVec 24) := none
  view : Option ViewSrc := none
  scope : Option Scope := none
  mods : Option (OvfMode × Option RMode) := none
  deriving DecidableEq, Repr

/-- How a trap that a thread has met stands (spec R346): steps 1 and 2 done, step 3 done. -/
inductive TrapStage | none | delivered | evicted
  deriving DecidableEq, Repr

/-- What a parked thread waits for, as a place that PARK_WAKE can look at (spec R26). -/
inductive Wait
  | none
  | line (key : Nat)
  | gen (key : Nat) (g : BitVec 32)
  | barrier (level : BitVec 3) (m : BitVec 28)
  | cell (key : Nat) (g : BitVec 16)
  | ticket (tile : Nat) (q : Queue) (t : Word)
  | reply (tag : Nat)
  deriving DecidableEq, Repr

/-- A part of a load: `n` bytes at `key` go to register bytes from `dst`, extended to `width` bytes, with the sign
when `sext`. A part with `width` 0 is read and discarded. -/
structure LoadPiece where
  key : Nat
  n : Nat
  dst : Nat
  width : Nat
  sext : Bool := false
  deriving DecidableEq, Repr

/-- A part of a store: the bytes that go to `key` and after it; `copies` are the other copies of a REPLICA page. -/
structure StorePiece where
  key : Nat
  bytes : List Byte
  copies : List Nat := []
  deriving DecidableEq, Repr

/-- An access of a thread that is issued and not yet performed, or a fence between such accesses (spec R380, R142). -/
inductive Acc
  | store (n : Nat) (pieces : List StorePiece)
  | load (n : Nat) (pieces : List LoadPiece)
  | fence (c : Scope) (kinds : BitVec 4)
  deriving DecidableEq, Repr

/-- A plain load or an atomic that waits on guarded, empty scratch lines (spec R75). -/
structure WaitLoad where
  lines : List Nat
  pieces : List LoadPiece
  again : Bool
  deriving DecidableEq, Repr

/-- A claimed accumulator slot (spec R48, R254): its name, the save area and the physical slot bound to it. -/
structure Claim where
  name : BitVec 2
  area : Word
  phys : Option (Nat × Nat)
  deriving DecidableEq, Repr

/-- Register bytes that an issued word has not yet made usable (spec R181): the first, how many, from which cycle. `vmu`
is the cycle in which the word entered the dispatch queue of R338, if it did. -/
structure Busy where
  lo : Nat
  n : Nat
  till : Nat
  vmu : Option Nat := none
  deriving DecidableEq, Repr

/-- A thread: its header (spec R11), its register space and what its core keeps about it. `lines` are resident, `dirty` those of them that
memory does not hold yet, `alloc` those allocated without a fill for a word that has not written them (spec R45); `recent` lists the lines
by last use, and `usedAt` gives the cycle of it. A `fresh` thread has not been written back yet (spec R24). `named` is its name where
software has altered LAUNCHID or INDEX in its header (spec R12), `firm` says that it is the management core's (spec R288). Its fetches are
performed after every store of its own numbered below `fetchFrom` (spec R162). `homeless` says of a TRAPPED thread that its trap found no
place for its header (spec R13). -/
structure Thread where
  pc : Word := 0
  state : ThState := .done
  priv : Bool := false
  prio : BitVec 4 := 0
  policy : Bool := false
  order : Bool := false
  ftz16 : Bool := false
  parkc : BitVec 4 := 0
  space : BitVec 16 := 0
  anchor : Pos := 0
  cur : Pos := 0
  gcount : BitVec 7 := 16
  vcount : BitVec 8 := 0
  vbase : BitVec 8 := 0
  tbase : BitVec 8 := 0xFF
  rsize : BitVec 7 := 0
  fpst : Word := 0
  vtype : Word := 0
  index : BitVec 32 := 0
  launch : BitVec 32 := 0
  parkva : Word := 0
  trclass : BitVec 8 := 0
  trinfo : BitVec 56 := 0
  trva : Word := 0
  trpc : Word := 0
  barg : BitVec 32 := 0
  hotl : BitVec 63 := 0
  hotn : BitVec 3 := 0
  dest : Pos := 0
  age : Word := 0
  ctx : Word := 0
  regs : Memory := []
  lines : List Nat := []
  dirty : List Nat := []
  alloc : List Nat := []
  fresh : Bool := false
  badLines : List Nat := []
  recent : List Nat := []
  usedAt : Tab Nat := []
  held : Bool := false
  slot : Option Nat := none
  actSeq : Nat := 0
  group : Group := {}
  afterHint : Bool := false
  trapStage : TrapStage := .none
  trapAt : Nat := 0
  took : Bool := false
  stall : Nat := 0
  readyAt : Nat := 0
  owed : List Key := []
  busy : List Busy := []
  claims : List Claim := []
  accs : List Acc := []
  wait : Wait := .none
  waitLoad : Option WaitLoad := none
  halting : Bool := false
  leaving : Bool := false
  travelPc : Word := 0
  crumbTower : Bool := false
  arrived : Bool := false
  killed : Bool := false
  named : Option Key := none
  firm : Bool := false
  fetchFrom : Nat := 0
  homeless : Bool := false
  deriving DecidableEq, Repr

/-! ### Cores and tiles -/

/-- What a core's mode consists of (spec R331). -/
structure Mode where
  space : BitVec 16
  rcsz : BitVec 8
  scsz : BitVec 8
  l1sz : BitVec 8
  policy : Bool
  deriving DecidableEq, Repr

/-- An L1 line (spec R55): its tag and its 128 bytes. The tag keeps the resolving position, masked to `dom` when
there is one; `repl` says that it is the current position. `key` is where its bytes were read, `entry` and `level` are the
translation by which they were. -/
structure L1Line where
  space : BitVec 16
  va : Word
  dom : Option Scope
  repl : Bool
  pos : Pos
  key : Nat
  entry : BitVec 128 := 0
  level : Nat := 0
  data : List Byte
  deriving DecidableEq, Repr

/-- A decided copy of a crust cell (spec R221, R55). In an L1 its space and address are its tag, and the entry stands for the page's
translation (spec R320); a tile cache finds it by its place. -/
structure CellCopy where
  key : Nat
  space : BitVec 16
  va : Word
  entry : BitVec 128
  level : Nat
  gen : BitVec 16
  value : Word
  winner : BitVec 21
  deriving DecidableEq, Repr

/-- An entry of a core's VMU dispatch queue (spec R338): the thread, its priority, and the cycle of issue. -/
structure VmuOp where
  thread : Key
  prio : BitVec 4
  at_ : Nat
  deriving DecidableEq, Repr

/-- A clean copy of a register line that a crumb left in a register cache (spec R27). -/
structure Prefill where
  thread : Key
  line : Nat
  data : List Byte
  deriving DecidableEq, Repr

/-- A core (spec 00, R32, R52, R291, R337, R338, R369). `taken` is the cycle of its last activation (spec R334), `probes` the
place ranges of probes that a tile cache has answered and that have not reached the L1 yet (spec R352). -/
structure Core where
  fenced : Bool := false
  mode : Option Mode := none
  last : Option Key := none
  lastslot : Nat := 63
  cycle : Nat := 0
  l1 : List L1Line := []
  probes : List (Nat × Nat) := []
  cells : List CellCopy := []
  pre : List Prefill := []
  divTill : Nat := 0
  fdivTill : Nat := 0
  vmu : List VmuOp := []
  taken : Option Nat := none
  deriving DecidableEq, Repr

/-- What an engine command keeps of the thread that issued it (spec R82, R84, R86, R122). -/
structure Issuer where
  key : Key
  space : BitVec 16
  anchor : Pos
  cur : Pos
  priv : Bool
  prio : BitVec 4
  order : Bool
  ftz16 : Bool
  scsz : BitVec 8
  deriving DecidableEq, Repr

/-- The three copy instructions (spec R269). -/
inductive CopyKind | copy | copym | copyd
  deriving DecidableEq, Repr

/-- What a queue command does. A slot is named by its physical number on the tile. Of a copy, `aw` is the place of its
arrival word, `left` the segments still to be performed, `failed` those that failed, `wrote` what COPYD's digest covers.
An MMA that has `started` awaits its epilogue with its Nw and the low bits of ACCSTAT that it will set. -/
inductive Work
  | copy (kind : CopyKind) (block : BitVec 2048) (src dst : BitVec 1024) (aw : Option Nat) (left failed : List Nat)
      (wrote : List (Nat × List Byte))
  | mldw (rec : BitVec 1024) (ko no : BitVec 32)
  | mswap
  | mma (slot : Nat) (epi : Bool) (act erec : BitVec 1024) (opa opb : Word) (started : Option (Nat × BitVec 20))
  | mzero (slot : Nat)
  | mresume (slot : Nat) (nc : Nat)
  deriving DecidableEq, Repr

/-- A command in a queue: its ticket, its issuer, and the tickets that QFENCE makes it wait for (spec R85 to R88). A follow-on is not
`direct`; `kept` is the copy queue whose entry of q4 it takes (spec R270). `read` are source granules that a copy has read and of
which a later segment needs bytes (spec R93). -/
structure Cmd where
  ticket : Nat
  by_ : Issuer
  direct : Bool
  kept : Option Nat := none
  read : List (Nat × List Byte) := []
  after : List (Nat × Nat)
  work : Work
  deriving DecidableEq, Repr

/-- A queue of a tile (spec R87). -/
structure QueueSt where
  enq : Nat := 0
  done : Nat := 0
  cmds : List Cmd := []
  deriving DecidableEq, Repr

/-- A weight plane of a tile with its format and extents (spec R120, R258): codes by k * 256 + n, scales by
(k / 32) * 256 + n. `failed` are the positions whose element could not be read, by k * 256 + n: a product with one is exactly +0
whatever its block's scale and the activation are (spec R258, R350). -/
structure Plane where
  fmt : Option (BitVec 4) := none
  kw : Nat := 0
  nw : Nat := 0
  codes : Tab (BitVec 16) := []
  scales : Tab Byte := []
  failed : List Nat := []
  deriving DecidableEq, Repr

/-- A physical accumulator slot (spec R48, R130, R255). `bad` are the 16-byte granules of its data that hold an uncorrectable
error (spec R344, R350). -/
structure SlotSt where
  data : Memory := []
  bad : List Nat := []
  accstat : Word := 0
  erec : BitVec 1024 := 0
  eopb : Word := 0
  owner : Option (Key × BitVec 2) := none
  deriving DecidableEq, Repr

/-- A fence that QFENCE made over some queues: the tickets that must be done first (spec R88). -/
structure Gate where
  mask : BitVec 5
  marks : List (Nat × Nat)
  deriving DecidableEq, Repr

/-- A tile (spec R85, R120, R260, R331, R338). `vmuLast` is the core of the tile that its VMU served last, `vmuAt` the
cycle up to which the VMU has run. -/
structure TileSt where
  queues : Tab QueueSt := []
  gates : List Gate := []
  lastq : BitVec 2 := 3
  active : Plane := {}
  shadow : Plane := {}
  pendActive : Option (BitVec 4) := none
  pendShadow : Option (BitVec 4) := none
  slots : Tab SlotSt := []
  space : Option (BitVec 16) := none
  cells : List CellCopy := []
  vmuLast : BitVec 2 := 3
  vmuAt : Nat := 0
  deriving DecidableEq, Repr

/-- A tower's shelves and hearth limit (spec R59, R126). -/
structure TowerSt where
  fused : BitVec 4 := 0
  parked : BitVec 4 := 0
  throttled : BitVec 4 := 0
  hthrot : Bool := false
  deriving DecidableEq, Repr

/-- Power states of a layer (spec R310). -/
inductive Power | on | asleep | off
  deriving DecidableEq, Repr

/-! ### Spaces, translation, launches -/

/-- The scratch image of a space on a core (spec R53, R54, R74): its size in 4 KiB units and the guarded and full
bits of its lines. Its bytes stand in memory. -/
structure Image where
  dev : BitVec 12
  core : Nat
  scsz : BitVec 8
  settled : Bool
  guarded : List Nat
  full : List Nat
  deriving DecidableEq, Repr

/-- A loaded space (spec R297) and what the device keeps for it. `tqPend` are the records that wait for room in the trap
queue, `tqLate` those of no thread that wait for traps that occurred before them (spec R305), with their times. -/
structure SpaceSt where
  id : BitVec 16
  desc : BitVec 2048
  halted : Bool := false
  layouts : Tab (BitVec 1024) := []
  tqHead : Nat := 0
  tqCount : Nat := 0
  tqSeq : BitVec 32 := 0
  tqPend : List (Option Key × BitVec 512) := []
  tqLate : List (Nat × Nat) := []
  images : List Image := []
  deriving DecidableEq, Repr

/-- Who holds a pin (spec R16, R83, R84, R254, R255, R309). -/
inductive PinOwner
  | layout (i : Nat)
  | command (tile q : Nat) (ticket : Nat)
  | claim (t : Key) (name : BitVec 2)
  | epilogue (t : Key) (name : BitVec 2)
  | doneaw (launch : BitVec 32)
  | cmnt (n : Nat)
  deriving DecidableEq, Repr

/-- A pinned page with the leaf entry that it keeps (spec R83, R323). -/
structure Pin where
  space : BitVec 16
  va : Word
  level : Nat
  entry : BitVec 128
  owner : PinOwner
  deriving DecidableEq, Repr

/-- A leaf entry that a bank of a tower holds for one 128 KiB unit (spec R319, R320). -/
structure BankEntry where
  tower : Nat
  bank : Nat
  space : BitVec 16
  unit : Nat
  level : Nat
  entry : BitVec 128
  deriving DecidableEq, Repr

/-- An upper-level entry that a bank of a tower holds: a table pointer of level 2 or 1 for the page `page` of that level
(spec R320). -/
structure UpperEntry where
  tower : Nat
  bank : Nat
  space : BitVec 16
  level : Nat
  page : Nat
  entry : BitVec 128
  deriving DecidableEq, Repr

/-- What this module knows of another device: its towers, their partitions, and the spaces that it has loaded, with their descriptors. Nothing
is known of what is none: log entry 23. -/
structure Peer where
  present : BitVec 8 := 0xFF
  partmap : Option (BitVec 32) := none
  loaded : Option (List (BitVec 16 × BitVec 2048)) := none
  deriving DecidableEq, Repr

/-- A page move in progress (spec R325). -/
structure Move where
  space : BitVec 16
  va : Word
  entryAt : Nat
  old : BitVec 128
  frame : Nat
  deriving DecidableEq, Repr

/-- The domain instance assigned to a level instance of a launch (spec R332). -/
structure Place where
  level : Nat
  inst : Nat
  dev : BitVec 12
  dom : Nat
  deriving DecidableEq, Repr

/-- An accepted launch (spec R14, R328, R330). `handed` lists the flat indexes that are CREATED no longer. One that is `waiting` stands
in no queue yet; a `guest` is one of another device, of which a thread has come here (spec R27). -/
structure Launch where
  id : BitVec 32
  space : BitVec 16
  record : BitVec 2048
  origin : BitVec 12
  started : Bool := false
  handed : List Nat := []
  done : List Nat := []
  arrivals : Tab Nat := []
  places : List Place := []
  fired : BitVec 3 := 0
  depri : Bool := false
  aw : Option Nat := none
  awPriv : Bool := false
  granted : List Nat := []
  nextIndex : Nat := 0
  noMore : Bool := false
  asked : Bool := false
  reported : List (BitVec 12) := []
  localDone : Bool := false
  waiting : Bool := false
  guest : Bool := false
  deriving DecidableEq, Repr

/-! ### Coherence and fabric -/

/-- States of a directory entry (spec R353). -/
inductive DirState | free | s | e | m | o | busy
  deriving DecidableEq, Repr

/-- States of a line in a tile cache or a hearth (spec R352); a line in none of them is I. -/
inductive LineSt | s | e | o | m
  deriving DecidableEq, Repr

/-- A line of module or peer memory in a tile cache (spec R56, R352), by its number: the place of its first byte over 128. -/
structure CacheLine where
  tile : Nat
  unit : Nat
  st : LineSt
  deriving DecidableEq, Repr

/-- A requester-side copy in the hearth cache of a space (spec R57, R354). -/
structure HearthLine where
  tower : Nat
  space : BitVec 16
  unit : Nat
  st : LineSt
  deriving DecidableEq, Repr

/-- A 64-byte half of host memory in a tile cache (spec R358, R359). -/
structure HalfLine where
  tile : Nat
  unit : Nat
  st : HalfSt
  deriving DecidableEq, Repr

/-- Who within the module holds a line for ownership: a tile, or the hearth of a tower (spec R353). -/
inductive Holder | tile (i : Nat) | hearth (t : Nat)
  deriving DecidableEq, Repr

/-- A directory entry (spec R353). `line` is a line number of local memory for the entry of a home; the entries that a
requester's slice keeps have numbers of their own (spec R354, R359). `owner`, `hshr` and `sharers` track copies within the
module, `ownerDev` and `rdev` those of peers. `down` says that the probe on its way is a downgrade, `hostS` that the host has
answered a BISnpData for the half (spec R360). -/
structure DirEntry where
  line : Nat
  state : DirState := .free
  owner : Option Holder := none
  hshr : List Nat := []
  sharers : List Nat := []
  ownerDev : Option (BitVec 12) := none
  rdev : List (BitVec 12) := []
  rovf : Bool := false
  host : BitVec 2 := 0
  hostS : BitVec 2 := 0
  down : Bool := false
  deriving DecidableEq, Repr

/-- The names of peer messages (spec R365). -/
inductive Opc
  | rds | rdo | rdc | upg | wrl | wrp | amo | cell | arrv | crumb | pinv | pshr | prcl
  | dats | date | wb | prd | res | cmp | grt | pack | cra | crr | nak
  deriving DecidableEq, Repr

/-- A protocol message that waits for a port, or that a flit carries (spec R365). `claims` and `pass` are what goes with
the thread of a crumb (spec R27), for which R28 gives no bytes: log entry 75. -/
structure PeerMsg where
  dst : BitVec 12
  opc : Opc
  pos : BitVec 21
  tag : BitVec 10
  scope : Scope
  addr : BitVec 44
  arg : BitVec 9
  payload : List Byte
  claims : List (BitVec 2 × Word) := []
  pass : Option Passport := none
  deriving DecidableEq, Repr

/-- A request in the queue of a line at its home (spec R356): an event, or the request of a tile for halves of a line. -/
inductive LineReq
  | event (e : Instr)
  | tile (i : Nat) (space : BitVec 16) (excl : Bool) (halves : List Nat)
  deriving DecidableEq, Repr

/-- A request that waits at the home for a line of local memory, in arrival order (spec R356). -/
structure Queued where
  line : Nat
  req : LineReq
  deriving DecidableEq, Repr

/-- A request that waits for something else than its turn (spec R223, R359), as the event that brought it. -/
structure Waiting where
  line : Nat
  event : Instr
  deriving DecidableEq, Repr

/-- What the module sends toward a host (spec R357, R358, R360, R362, R367). -/
inductive HostMsg
  | rdShared (half : Nat) | rdOwn (half : Nat) | rdOwnNoData (half : Nat) | rdCurr (half : Nat)
  | dirtyEvict (half : Nat) (data : List Byte) | cleanEvict (half : Nat)
  | snpAnswer (half : Nat) (data : Option (List Byte))
  | memData (half : Nat) (data : List Byte) | memCmp (half : Nat)
  | biSnp (half : Nat) (inv : Bool) | biConflictAck (half : Nat)
  | mailbox (port : Bool) (block : BitVec 2048)
  | doe (port : BitVec 5) (reply : List Byte) | cfgsem (port : Bool) (word : Word)
  deriving DecidableEq, Repr

/-- How a peer answered. -/
inductive Answer
  | done | value (bits : BitVec 128) | failed (cls cause : BitVec 4)
  deriving DecidableEq, Repr

/-- A transaction of this device at a peer (spec R365): its tag, what it asks for, with its ARG, the address and the level of the page by
which its place was found, and the leaf entry, the port by which its request went, and the answer once it came. What it brings to keep
goes `into` the cache of a tile, for a space. A UPG is `stale` when a probe took the shared copy meanwhile (spec R157). -/
structure Txn where
  tag : BitVec 10
  dev : BitVec 12
  opc : Opc
  key : Nat
  thread : Option Key
  arg : BitVec 9 := 0
  va : Nat := 0
  level : Nat := 0
  entry : BitVec 128 := 0
  port : Option Nat := none
  into : Option (Nat × BitVec 16) := none
  answer : Option Answer := none
  stale : Bool := false
  deriving DecidableEq, Repr

/-- A line or half that this module holds of a peer's or a host's memory (spec R354, R358): its number and state. -/
structure Remote where
  unit : Nat
  st : HalfSt
  deriving DecidableEq, Repr

/-- Flits that this module sends (spec R364, R365). A message fills its first flit and `more` after it, of 15 slots each. -/
inductive Flit
  | idle (seq : BitVec 12)
  | message (seq : BitVec 12) (m : PeerMsg) | more (seq : BitVec 12)
  | replayRequest (from_ : BitVec 12) | replay (seq : BitVec 12)
  | credit (seq : BitVec 12) (slots : List Nat) | hello (dev : BitVec 12) (number : Nat) (ready : Bool)
  | keep (seq : BitVec 12) | down (reason : Nat)
  deriving DecidableEq, Repr

/-- A flit that was sent, with its ACK: the SEQ of the last flit that had been received in order (spec R364). -/
structure Sent where
  flit : Flit
  ack : BitVec 12
  deriving DecidableEq, Repr

/-- A port (spec R364 to R366). `unacked` are the flits kept for a replay, each with the message in it; `credits` are the slots
that the other side has free in each class, `owed` those that this side has freed since its last CREDIT; `toldAck` is the ACK of the
last flit sent. -/
structure Port where
  peer : Bool := false
  dev : BitVec 12 := 0
  up : Bool := false
  seq : BitVec 12 := 0
  lastIn : BitVec 12 := 0
  unacked : List (BitVec 12 × Option PeerMsg) := []
  sent : List Sent := []
  toldAck : BitVec 12 := 0
  fails : Nat := 0
  failSeq : BitVec 12 := 0
  gotCredit : Bool := false
  credits : List Nat := [0, 0, 0, 0]
  owed : List Nat := [0, 0, 0, 0]
  greeted : Bool := false
  deriving DecidableEq, Repr

/-- A thread of this device that a peer has accepted (spec R31): its name, its context and the peer. -/
structure Away where
  thread : Key
  space : BitVec 16
  ctx : Word
  dev : BitVec 12
  deriving DecidableEq, Repr

/-- What devices tell one another of launches and of the threads that moved between them (spec R218, R328, R330):
records, flat indexes, reports and kills of a launch; that a thread is DONE, that it arrived at its `m`-th barrier of a
level, or that it is to be killed or resumed; that the submission lock of a queue is wanted, given or given back. -/
inductive LaunchMsg
  | record (dev : BitVec 12) (id : BitVec 32) (space : BitVec 16) (record : BitVec 2048)
  | ask (dev : BitVec 12) (id : BitVec 32)
  | grant (dev : BitVec 12) (id : BitVec 32) (x : Option (BitVec 32))
  | report (dev : BitVec 12) (id : BitVec 32)
  | kill (dev : BitVec 12) (id : BitVec 32)
  | gone (dev : BitVec 12) (t : Key)
  | came (dev : BitVec 12) (t : Key) (level : BitVec 3) (m : Nat)
  | killThread (dev : BitVec 12) (t : Key)
  | resume (dev : BitVec 12) (space : BitVec 16) (ctx : Word)
  | lock (dev : BitVec 12) (q : Nat) | locked (dev : BitVec 12) (q : Nat) | unlock (dev : BitVec 12) (q : Nat)
  deriving DecidableEq, Repr

/-- The reports that command ports receive (spec R340, R367, R375, R379). `noneFenced` is that of stage 3 of a watchdog where
no core holds a thread of the launch. -/
inductive Report
  | coreFenced (core : Nat) (q : Nat)
  | noneFenced (q : Nat)
  | leaseLapsed
  | shardBad (part number : Nat)
  | trip (tower : Nat)
  deriving DecidableEq, Repr

/-! ### Firmware -/

/-- A recorded weight shard (spec R375). -/
structure Shard where
  part : BitVec 3
  number : Nat
  space : BitVec 16
  base : Nat
  len : Nat
  digest : BitVec 256
  bad : Bool := false
  deriving DecidableEq, Repr

/-- A launch record that came from its origin while the queue was full (spec R328, R330). -/
structure LaunchIn where
  origin : BitVec 12
  id : BitVec 32
  space : BitVec 16
  record : BitVec 2048
  deriving DecidableEq, Repr

/-- A launch that spans devices and that this origin has accepted, while it takes the submission locks of its queue: `held` has
the devices whose lock it holds, in increasing number, `asked` says that the next one is asked for (spec R330). -/
structure Submission where
  id : BitVec 32
  held : List (BitVec 12) := []
  asked : Bool := false
  deriving DecidableEq, Repr

/-- A write or an arrival that the device makes for no thread and that waits for its line (spec R16, R305): bytes that go
to `key`, or with none of them an arrival on the word there; `launch` is the launch whose completion arrival it is, `cmnt` the
command of CMNT. -/
structure Posted where
  space : BitVec 16
  key : Nat
  bytes : List Byte := []
  launch : Option (BitVec 32) := none
  cmnt : Option Nat := none
  va : Word := 0
  sent : Bool := false
  deriving DecidableEq, Repr

/-- A BIAS command in hand (spec R361): the page that it has come to, by its place in the command, the local number of the page
that is being flipped, and how many pages it has flipped. -/
structure Flip where
  src : CmdSrc
  at_ : Nat := 0
  page : Option Nat := none
  count : Nat := 0
  deriving DecidableEq, Repr

/-- A command that CMNT sent and the firmware has not finished (spec R309). -/
structure Cmnt where
  id : Nat
  part : BitVec 3
  space : BitVec 16
  block : Nat
  copies : List Nat
  word : Nat
  deriving DecidableEq, Repr

/-- A store that the primary of a REPLICA page has applied, with the other copies and those of them that do not hold it
yet (spec R66). A `firm` one comes before later fetches of its thread (spec R162). -/
structure Forward where
  thread : Key
  bytes : List Byte
  primary : Nat
  copies : List Nat
  left : List Nat
  firm : Bool := false
  deriving DecidableEq, Repr

/-- Which agent moves next. `event` brings an event from outside, `again` one that waited. `cycle` gives a core one cycle, in which `late`
leaves a plain access unperformed; others bring a translation into a bank, or drop a line or a translation. `badGranule`, `badLine`,
`badHeader` and `badSlot` are uncorrectable errors (spec R344). `hello`, `badCode` and `closeLink` move a port; `semWrites` is a cycle in
which both command ports write CFGSEM, `semRead` a read of it. The last ones say what another device tells: what it is, that a thread is
DONE, arrived at a barrier, or is to be killed, that a launch is, and what becomes of submission locks. Log entries 4, 6, 13, 14, 23, 74.
-/
inductive Turn
  | event (i : Instr)
  | again (i : Instr)
  | cycle (core : BitVec 9) (late : Bool)
  | dropL1 (core : BitVec 9) (n : Nat)
  | fillBank (t : Key) (va : Word)
  | dropBank (n : Nat)
  | dropCell (core : BitVec 9) (n : Nat)
  | dropTileCell (tile : BitVec 7) (n : Nat)
  | dropUpper (n : Nat)
  | evictLine (unit : Nat)
  | dropLine (tile : BitVec 7) (unit : Nat)
  | dropHearth (tower : BitVec 3) (unit : Nat)
  | badGranule (g : Nat)
  | badLine (t : Key) (line : BitVec 9)
  | badSlot (tile : BitVec 7) (slot : BitVec 2) (g : BitVec 13)
  | hello (port : BitVec 5)
  | badCode (port : BitVec 5)
  | closeLink (port : BitVec 5)
  | semWrites (a b : Word)
  | semRead (port : Bool)
  | idle
  | peerFacts (dev : BitVec 12) (p : Peer)
  | gone (t : Key)
  | came (t : Key) (level : BitVec 3) (m : Nat)
  | killThread (t : Key)
  | killLaunch (id : BitVec 32)
  | badHeader (t : Key)
  | resume (space : BitVec 16) (ctx : Word)
  | lock (dev : BitVec 12) (q : BitVec 6)
  | locked (dev : BitVec 12) (q : BitVec 6)
  | unlock (dev : BitVec 12) (q : BitVec 6)
  deriving DecidableEq, Repr

/-! ### The whole machine -/

/-- The state of the module and of what it knows of its surroundings. `thr` is the focus thread, the one for which `exec` acts; `threads`
are the others. `focus` is the core that moves next when no turn is given, `evNext` says that an event may move before it. `ghosts` are
shared lines of peers that the module's caches dropped without a message: their homes still count this module among the holders, so that
their bytes stay good until a probe comes. `lastGrant` is the command port that was granted CFGSEM last. `caches` and `hearths` list the
lines last used first; `halfAsks` are the halves of host memory that the module has asked for, each with the tile that did; `called` are
the lines whose first queued request is an event that is tried again next. `kept` are translations that an XINV left to a pinned page
(spec R303). `early` is what other devices told of launches whose record has not come yet. `locks` gives for a queue the device that holds
its submission lock and those that wait for it; `counts` are the accesses to MOBILE pages since the last residency decision, by 128 KiB
frame; `flips` are the BIAS commands in hand; `refenced` are cores that were fenced after their last UNFENCE began; `cmdPorts` gives for
command ports 0 and 1 the port that bring-up designated. -/
structure State where
  thr : Thread
  threads : List Thread
  focus : BitVec 9
  evNext : Bool
  turns : List Turn
  late : Bool
  accCount : Nat
  freeCount : Nat
  mem : Memory
  bad : List Nat
  cores : Tab Core
  tiles : Tab TileSt
  towers : Tab TowerSt
  present : BitVec 8
  power : Tab Power
  sensors : Tab (BitVec 11)
  therm : BitVec 11 × BitVec 11 × BitVec 11
  spaces : List SpaceSt
  pins : List Pin
  kept : List Pin
  banks : List BankEntry
  uppers : List UpperEntry
  peers : Tab Peer
  chosen : List (BitVec 16 × Word × BitVec 60)
  moves : List Move
  launches : List Launch
  recordsIn : List LaunchIn
  early : List Turn
  submitting : List Submission
  locks : Tab (List (BitVec 12))
  away : List Away
  posted : List Posted
  launchCount : BitVec 20
  ageCount : Word
  actCount : Nat
  clock : Nat
  dev : BitVec 12
  booted : Bool
  partmap : BitVec 32
  mport : BitVec 8
  sdtb : Tab Word
  wdlim : Tab Word
  shards : List Shard
  shardCount : Tab Nat
  cmnts : List Cmnt
  cmntCount : Nat
  inHand : List CmdSrc
  flips : List Flip
  refenced : List Nat
  counts : Tab Nat
  cmdPorts : Tab (BitVec 5)
  forwards : List Forward
  hostBias : List Nat
  dir : List DirEntry
  caches : List CacheLine
  hearths : List HearthLine
  lineQueue : List Queued
  called : List Nat
  waiting : List Waiting
  bisnp : List (Nat × Bool)
  remote : List Remote
  ghosts : List Nat
  halves : List HalfLine
  halfAsks : List (Nat × Nat)
  txns : List Txn
  outPeer : List PeerMsg
  outHost : List HostMsg
  outLaunch : List LaunchMsg
  reports : List Report
  ports : Tab Port
  lease : BitVec 32
  semGen : BitVec 16
  holder : BitVec 2
  lastGrant : Option Bool
  deriving DecidableEq, Repr

/-- The module right after reset, before the firmware's first step of R368. -/
def State.reset : State where
  thr := {}
  threads := []
  focus := 0
  evNext := false
  turns := []
  late := false
  accCount := 0
  freeCount := 0
  mem := []
  bad := []
  cores := []
  tiles := []
  towers := []
  present := 0xFF
  power := []
  sensors := []
  therm := (840, 760, 920)
  spaces := []
  pins := []
  kept := []
  banks := []
  uppers := []
  peers := []
  chosen := []
  moves := []
  launches := []
  recordsIn := []
  early := []
  submitting := []
  locks := []
  away := []
  posted := []
  launchCount := 0
  ageCount := 0
  actCount := 0
  clock := 0
  dev := 0
  booted := false
  partmap := 0
  mport := 0
  sdtb := []
  wdlim := []
  shards := []
  shardCount := []
  cmnts := []
  cmntCount := 0
  inHand := []
  flips := []
  refenced := []
  counts := []
  cmdPorts := []
  forwards := []
  hostBias := []
  dir := []
  caches := []
  hearths := []
  lineQueue := []
  called := []
  waiting := []
  bisnp := []
  remote := []
  ghosts := []
  halves := []
  halfAsks := []
  txns := []
  outPeer := []
  outHost := []
  outLaunch := []
  reports := []
  ports := []
  lease := 0
  semGen := 0
  holder := 0
  lastGrant := none

end Sys2Proof.Machine
end

