-- ==== Sys2Proof/Machine/Bytes.lean ====
section
/-! DEFINITION. Bytes, fields and the operations on memories and tables that everything else is built from. -/

namespace Sys2Proof.Machine

/-! ### Numbers and bytes (spec R3: little-endian) -/

/-- The low `n` bytes of a number, the least significant first. -/
def leBytes : Nat → Nat → List Byte
  | 0, _ => []
  | n + 1, x => BitVec.ofNat 8 x :: leBytes n (x / 256)

/-- The number that bytes stand for. -/
def ofBytes : List Byte → Nat
  | [] => 0
  | b :: bs => b.toNat + 256 * ofBytes bs

/-- Bits `hi` to `lo` of a number (spec R3). -/
def bits (x hi lo : Nat) : Nat := x / 2 ^ lo % 2 ^ (hi - lo + 1)

/-- Bit `i` of a number. -/
def bit (x i : Nat) : Bool := x / 2 ^ i % 2 == 1

/-- Fields of given widths and values, the first at bit 0 (spec R11). -/
def pack : List (Nat × Nat) → Nat
  | [] => 0
  | (w, v) :: r => v % 2 ^ w + 2 ^ w * pack r

/-- The low `n` bits of a number, read with a sign. -/
def signed (n x : Nat) : Int :=
  let y := x % 2 ^ n
  if 2 ^ n ≤ 2 * y then (y : Int) - 2 ^ n else y

/-- An integer cut to `n` bits. -/
def cut (n : Nat) (x : Int) : Nat := (x % (2 ^ n : Nat)).toNat

/-- A truth value as a number. -/
def b2n (b : Bool) : Nat := if b then 1 else 0

/-- Numbers from `a`, `n` of them. -/
def upto (a : Nat) : Nat → List Nat
  | 0 => []
  | n + 1 => a :: upto (a + 1) n

/-! ### Memories -/

/-- What a place that a memory does not list reads as. The spec gives no contents at power on: log entry 1. -/
def unlisted : Byte := 0

/-- One byte of a memory. -/
def Memory.read (m : Memory) (a : Nat) : Byte :=
  match m with
  | [] => unlisted
  | (x, b) :: r => if x = a then b else Memory.read r a

/-- The bytes from `a`, `n` of them. -/
def Memory.readBytes (m : Memory) (a n : Nat) : List Byte := (upto a n).map m.read

/-- The entries for bytes that stand at `a` and after it. -/
def freshCells (a : Nat) : List Byte → Memory
  | [] => []
  | b :: bs => if b = unlisted then freshCells (a + 1) bs else (a, b) :: freshCells (a + 1) bs

/-- A memory with bytes written at `a` and after it. -/
def Memory.writeBytes (m : Memory) (a : Nat) (bs : List Byte) : Memory :=
  m.filter (fun c => decide (c.1 < a)) ++ freshCells a bs ++ m.filter (fun c => decide (a + bs.length ≤ c.1))

/-- A memory in which `n` bytes from `a` are unlisted again. -/
def Memory.clear (m : Memory) (a n : Nat) : Memory :=
  m.filter (fun c => decide (c.1 < a)) ++ m.filter (fun c => decide (a + n ≤ c.1))

/-- The canonical form: addresses strictly rise and no entry holds what an unlisted address reads as. -/
abbrev Memory.wf (m : Memory) : Prop :=
  List.Pairwise (fun a b => a.1 < b.1) m ∧ ∀ c ∈ m, c.2 ≠ unlisted

/-- The number in `n` bytes of a memory. -/
def Memory.readNum (m : Memory) (a n : Nat) : Nat := ofBytes (m.readBytes a n)

/-- A memory with the low `n` bytes of a number written at `a`. -/
def Memory.writeNum (m : Memory) (a n x : Nat) : Memory := m.writeBytes a (leBytes n x)

/-! ### Tables and lists -/

/-- What a table holds for a number. -/
def Tab.get {α : Type} (t : Tab α) (k : Nat) (d : α) : α :=
  match t with
  | [] => d
  | (x, v) :: r => if x = k then v else Tab.get r k d

/-- A table that holds `v` for `k`. -/
def Tab.put {α : Type} (t : Tab α) (k : Nat) (v : α) : Tab α :=
  (k, v) :: t.filter (fun p => p.1 != k)

/-- A table that holds nothing for `k`. -/
def Tab.drop {α : Type} (t : Tab α) (k : Nat) : Tab α := t.filter (fun p => p.1 != k)

/-- Whether a table lists `k`. -/
def Tab.has {α : Type} (t : Tab α) (k : Nat) : Bool := t.any (fun p => p.1 == k)

/-- A list without its entry number `n`. -/
def without {α : Type} (l : List α) (n : Nat) : List α := l.take n ++ l.drop (n + 1)

/-- A list with its entry number `n` changed. -/
def adjust {α : Type} (l : List α) (n : Nat) (f : α → α) : List α :=
  match l, n with
  | [], _ => []
  | x :: r, 0 => f x :: r
  | x :: r, k + 1 => x :: adjust r k f

/-- The entry of a list for which a number is least, the first of equals. -/
def least {α : Type} (f : α → Nat) : List α → Option α
  | [] => none
  | x :: r =>
    match least f r with
    | none => some x
    | some y => if f y < f x then some y else some x

end Sys2Proof.Machine
end

