-- ==== Sys2Proof/Machine/Ops.lean ====
section
/-! DEFINITION. The named operations over threads, registers and the tables of the state; taking a trap and
returning from one. -/

namespace Sys2Proof.Machine

/-! ### Outcomes -/

/-- What every meaning answers with. -/
abbrev Out := Host.Outcome State Fault Refusal

/-- What a check answers with: go on, take a trap, or leave the instruction unissued for now (spec R45, R85). `need` is
the place of a page-table entry that the walker must first have at hand (spec R314). -/
inductive Res (α : Type)
  | ok (a : α)
  | trap (t : Trap)
  | wait (need : Option Nat)
  deriving DecidableEq, Repr

/-- Go on with what a check found. -/
def Res.bind {α β : Type} (x : Res α) (f : α → Res β) : Res β :=
  match x with
  | .ok a => f a
  | .trap t => .trap t
  | .wait n => .wait n

/-- A check that only passes or traps. -/
def Res.need (c : Bool) (t : Trap) : Res Unit := if c then .ok () else .trap t

/-- The checks of a list, one after another. -/
def Res.all {α : Type} (f : α → Res Unit) : List α → Res Unit
  | [] => .ok ()
  | x :: r =>
    match f x with
    | .ok _ => Res.all f r
    | .trap t => .trap t
    | .wait n => .wait n

/-- What a check finds for each entry of a list. -/
def Res.map {α β : Type} (f : α → Res β) : List α → Res (List β)
  | [] => .ok []
  | x :: r =>
    match f x with
    | .ok y => (match Res.map f r with | .ok ys => .ok (y :: ys) | .trap t => .trap t | .wait n => .wait n)
    | .trap t => .trap t
    | .wait n => .wait n

/-! ### Positions (spec R7, R61) -/

/-- Bits 31:20. -/
def posDev (p : Pos) : BitVec 12 := p.extractLsb' 20 12
/-- Bits 19:17. -/
def posTower (p : Pos) : Nat := bits p.toNat 19 17
/-- The core index of R61, bits 19:11. -/
def posCore (p : Pos) : Nat := bits p.toNat 19 11
/-- The tile index of R61, bits 19:13. -/
def posTile (p : Pos) : Nat := bits p.toNat 19 13
/-- The group index of R61, bits 19:15. -/
def posGroup (p : Pos) : Nat := bits p.toNat 19 15
/-- Position bits 31:11 (spec R69, R228). -/
def posHigh (p : Pos) : BitVec 21 := p.extractLsb' 11 21
/-- The position word of a core of a device. -/
def posOf (dev : BitVec 12) (core : Nat) : Pos := dev ++ BitVec.ofNat 9 core ++ 0#11

/-- Whether two positions lie in one instance of a domain (spec R6, R138). -/
def sameInstance (d : Scope) (p q : Pos) : Bool :=
  match d with
  | .core => p.extractLsb' 11 21 == q.extractLsb' 11 21
  | .tile => p.extractLsb' 13 19 == q.extractLsb' 13 19
  | .group => p.extractLsb' 15 17 == q.extractLsb' 15 17
  | .tower => p.extractLsb' 17 15 == q.extractLsb' 17 15
  | .device => posDev p == posDev q
  | .sys => true

/-! ### The tables of the state -/

/-- A core of this device. -/
def State.core (s : State) (i : Nat) : Core := Tab.get s.cores i {}
/-- A state with a core changed. -/
def State.setCore (s : State) (i : Nat) (c : Core) : State := { s with cores := Tab.put s.cores i c }
/-- A tile of this device. -/
def State.tile (s : State) (i : Nat) : TileSt := Tab.get s.tiles i {}
/-- A state with a tile changed. -/
def State.setTile (s : State) (i : Nat) (t : TileSt) : State := { s with tiles := Tab.put s.tiles i t }
/-- A tower of this device. -/
def State.tower (s : State) (i : Nat) : TowerSt := Tab.get s.towers i {}
/-- A state with a tower changed. -/
def State.setTower (s : State) (i : Nat) (t : TowerSt) : State := { s with towers := Tab.put s.towers i t }
/-- A queue of a tile. -/
def TileSt.queue (t : TileSt) (q : Nat) : QueueSt := Tab.get t.queues q {}
/-- A tile with a queue changed. -/
def TileSt.setQueue (t : TileSt) (q : Nat) (x : QueueSt) : TileSt := { t with queues := Tab.put t.queues q x }
/-- A slot of a tile. -/
def TileSt.slot (t : TileSt) (n : Nat) : SlotSt := Tab.get t.slots n {}
/-- A tile with a slot changed. -/
def TileSt.setSlot (t : TileSt) (n : Nat) (x : SlotSt) : TileSt := { t with slots := Tab.put t.slots n x }
/-- A loaded space. -/
def State.space? (s : State) (id : BitVec 16) : Option SpaceSt := s.spaces.find? (fun x => x.id == id)
/-- A state with a loaded space changed. -/
def State.setSpace (s : State) (x : SpaceSt) : State :=
  { s with spaces := s.spaces.map (fun y => if y.id = x.id then x else y) }
/-- A launch. -/
def State.launch? (s : State) (id : BitVec 32) : Option Launch := s.launches.find? (fun x => x.id == id)
/-- A state with a launch changed. -/
def State.setLaunch (s : State) (l : Launch) : State :=
  { s with launches := s.launches.map (fun y => if y.id = l.id then l else y) }
/-- A port. -/
def State.port (s : State) (i : Nat) : Port := Tab.get s.ports i {}
/-- A state with a port changed. -/
def State.setPort (s : State) (i : Nat) (p : Port) : State := { s with ports := Tab.put s.ports i p }

/-- The name by which the device knows a thread: LAUNCHID and INDEX as its launch gave them, whatever software made of
the header's fields (spec R12). -/
def Thread.key (t : Thread) : Key := t.named.getD ⟨t.launch, t.index⟩
/-- Every thread that has a record. -/
def State.all (s : State) : List Thread := s.thr :: s.threads
/-- The thread of a name. -/
def State.find (s : State) (k : Key) : Option Thread := s.all.find? (fun t => t.key == k)
/-- A state with a thread's record replaced. -/
def State.setThread (s : State) (t : Thread) : State :=
  if s.thr.key = t.key then { s with thr := t }
  else { s with threads := s.threads.map (fun u => if u.key = t.key then t else u) }
/-- A state with the focus thread replaced. -/
def State.put (s : State) (t : Thread) : State := { s with thr := t }
/-- A state with the focus thread changed. -/
def State.upd (s : State) (f : Thread → Thread) : State := { s with thr := f s.thr }
/-- Every thread's record is changed alike. -/
def State.mapThreads (s : State) (f : Thread → Thread) : State :=
  { s with
    thr := f s.thr
    threads := s.threads.map f }

/-- Bad granules that a write covers whole are good again (spec R344). -/
def clearBad (bad : List Nat) (key n : Nat) : List Nat :=
  bad.filter (fun g => !(decide (key ≤ g * 16) && decide (g * 16 + 16 ≤ key + n)))

/-- Bytes are written at a place of memory. -/
def State.store (s : State) (key : Nat) (bs : List Byte) : State :=
  { s with mem := s.mem.writeBytes key bs, bad := clearBad s.bad key bs.length }

/-- The nanoseconds since reset: 2.1 cycles of the core clock are one nanosecond (spec R5, R291). -/
def nsecOf (clock : Nat) : Word := BitVec.ofNat 64 (clock * 10 / 21)

/-- NSEC now. -/
def State.nsec (s : State) : Word := nsecOf s.clock

/-! ### Registers (spec R34 to R37) -/

/-- The size of a register space in bytes (spec R11). -/
def Thread.space_bytes (t : Thread) : Nat := (t.rsize.toNat + 1) * 512

/-- Scalar register `n`; g0 reads as zero (spec R36). -/
def Thread.g (t : Thread) (n : BitVec 6) : Word :=
  if n = 0 then 0 else BitVec.ofNat 64 (t.regs.readNum (8 * n.toNat) 8)

/-- A write of scalar register `n`; a write of g0 is ignored (spec R36). -/
def Thread.setG (t : Thread) (n : BitVec 6) (x : Word) : Thread :=
  if n = 0 then t else { t with regs := t.regs.writeNum (8 * n.toNat) 8 x.toNat }

/-- The first byte of vector register `n`. -/
def Thread.vOff (t : Thread) (n : BitVec 6) : Nat := t.vbase.toNat * 256 + 256 * n.toNat

/-- The first byte of tile register `n`. -/
def Thread.tOff (t : Thread) (n : BitVec 3) : Nat := t.tbase.toNat * 256 + 2048 * n.toNat

/-- The bytes of vector register `n`. -/
def Thread.v (t : Thread) (n : BitVec 6) : List Byte := t.regs.readBytes (t.vOff n) 256

/-- The register lines of ranges. -/
def linesOf (rs : List (Nat × Nat)) : List Nat :=
  (rs.flatMap (fun r => upto (r.1 / 128) ((r.1 + r.2 + 127) / 128 - r.1 / 128))).eraseDups

/-- Whether scalar register `n` exists (spec R35). -/
def Thread.hasG (t : Thread) (n : BitVec 6) : Bool := n.toNat < t.gcount.toNat
/-- Whether vector register `n` exists (spec R35). -/
def Thread.hasV (t : Thread) (n : BitVec 6) : Bool := n.toNat < t.vcount.toNat
/-- Whether the tile view exists (spec R35). -/
def Thread.hasT (t : Thread) : Bool := t.tbase != 0xFF

/-- A thread whose register bytes from `a` are written. -/
def Thread.writeRegs (t : Thread) (a : Nat) (bs : List Byte) : Thread := { t with regs := t.regs.writeBytes a bs }

/-! ### Groups and the program counter (spec R169, R170) -/

/-- The address of the first word of the group that the thread is in. -/
def Thread.groupStart (t : Thread) : Word := if t.group.len = 0 then t.pc else t.group.start

/-- The thread has executed the instruction at its PC; the group ends. -/
def Thread.advance (t : Thread) : Thread := { t with pc := t.pc + 4, group := {}, afterHint := false }

/-- The thread goes on at an address; the group ends. -/
def Thread.jump (t : Thread) (a : Word) : Thread := { t with pc := a, group := {}, afterHint := false, took := true }

/-- The thread will issue its group again (spec R170). -/
def Thread.regroup (t : Thread) : Thread := { t with pc := t.groupStart, group := {} }

/-! ### Taking a trap and returning from one (spec R179, R341 to R347) -/

/-- Class codes (spec R341). -/
def TrapClass.code : TrapClass → BitVec 8
  | .ill => 1 | .priv => 2 | .addr => 3 | .xlat => 4 | .ctxf => 5 | .dark => 6 | .data => 7 | .amotype => 8
  | .repl => 9 | .engine => 10 | .wdog => 11 | .brk => 12 | .trap => 13

/-- TRINFO (spec R342): for TRAP and BRK the code alone. -/
def Trap.info (t : Trap) : BitVec 56 :=
  match t.cls with
  | .brk | .trap => BitVec.ofNat 56 (t.cause % 4096)
  | _ => BitVec.ofNat 56 (pack [(4, t.cause), (4, 0), (12, t.detail), (12, t.elem)])

/-- Steps 1 and 2 of R346: the group is abandoned, TRCLASS, TRINFO, TRPC and TRVA are written, and PC becomes TRPC,
or TRPC + 4 for TRAP and BRK. The thread issues nothing more; EVICT and TRAP_RECORD_WRITE do steps 3 and 4. -/
def Thread.trap (t : Thread) (now : Nat) (x : Trap) : Thread :=
  { t with
    trclass := x.cls.code
    trinfo := x.info
    trva := x.va
    trpc := t.groupStart
    pc := match x.cls with
      | .brk | .trap => t.groupStart + 4
      | _ => t.groupStart
    group := {}
    waitLoad := none
    took := false
    stall := 0
    readyAt := 0
    trapStage := .delivered
    trapAt := now }

/-- The focus thread takes a trap. -/
def State.takeTrap (s : State) (x : Trap) : State := s.put (s.thr.trap s.clock x)

/-- The return from a trap (spec R307): a TRAPPED thread becomes DORMANT; any other is unchanged. The second part is
the status that TRET reports. -/
def Thread.trapReturn (t : Thread) : Thread × Word :=
  if t.state = .trapped then ({ t with state := .dormant }, 0) else (t, 1)

/-- An illegal word: TRVA is its own address, DETAIL its place in the group (spec R343). -/
def Thread.illegal (t : Thread) (cause : Nat) : Trap :=
  { cls := .ill, cause := cause, detail := t.group.len, va := t.pc }

/-- The thread leaves its waiting instruction unfinished and parks (spec R26). -/
def Thread.park (t : Thread) (cause : BitVec 4) (va : Word) (w : Wait) : Thread :=
  { t with
    pc := t.groupStart
    group := {}
    state := .parked
    parkc := cause
    parkva := va
    wait := w
    slot := none
    owed := []
    readyAt := 0
    afterHint := false }

/-- What becomes of the focus thread after a check of its instruction: it goes on as `f` says, takes the trap, or
leaves the instruction for later. -/
def State.after {α : Type} (s : State) (r : Res α) (f : α → Out) : Out :=
  match r with
  | .ok a => f a
  | .trap t => .next (s.takeTrap t)
  | .wait _ => .next s

end Sys2Proof.Machine
end

