-- ==== Sys2Proof/Machine/Operands.lean ====
section
/-! DEFINITION. What an instruction finds before its effect: the checks of R168 on its group, its privilege and its
registers, and the operand forms: immediates, branch targets, viewpoints and scopes. -/

namespace Sys2Proof.Machine

/-- The prefixes that an instruction accepts (spec R169). -/
structure Accepts where
  imm : Bool := false
  view : Bool := false
  scope : Bool := false
  mods : Bool := false
  deriving DecidableEq, Repr

/-- Whether the group holds only accepted prefixes. -/
def Group.fits (g : Group) (a : Accepts) : Bool :=
  (a.imm || g.imm.isNone) && (a.view || g.view.isNone) && (a.scope || g.scope.isNone) && (a.mods || g.mods.isNone)

/-- Which registers an instruction names: scalar, vector, and whether a tile register. -/
structure Names where
  g : List (BitVec 6) := []
  v : List (BitVec 6) := []
  t : Bool := false
  deriving DecidableEq, Repr

/-- Whether every named register exists (spec R35). -/
def Thread.has (t : Thread) (n : Names) : Bool :=
  n.g.all t.hasG && n.v.all t.hasV && (!n.t || t.hasT)

/-- Whether a thread has at least supervisor privilege (spec R288). -/
def Thread.sup (t : Thread) : Bool := t.priv || t.firm

/-- Steps 2 to 5 of R168 for a word that is no control instruction: prefixes, privilege, registers. -/
def Thread.check (t : Thread) (a : Accepts) (needPriv : Bool) (n : Names) : Res Unit :=
  if t.group.fits a = false then .trap (t.illegal 2)
  else if needPriv && !t.sup then .trap { cls := .priv, cause := 1 }
  else if t.has n = false then .trap (t.illegal 4)
  else .ok ()

/-- The same for a control instruction: no prefix before it and, if the thread reached it by executing the word
before it, no HINT there (spec R169, R343). -/
def Thread.checkControl (t : Thread) (n : Names) : Res Unit :=
  if t.group.len ≠ 0 then .trap (t.illegal 2)
  else if t.afterHint then .trap { cls := .ill, cause := 2, detail := 0, va := t.pc }
  else if t.has n = false then .trap (t.illegal 4)
  else .ok ()

/-- Run an instruction's effect after the checks of R168. -/
def State.checked (s : State) (a : Accepts) (needPriv : Bool) (n : Names) (f : Out) : Out :=
  s.after (s.thr.check a needPriv n) (fun _ => f)

/-- Run a control instruction's effect after the checks of R168. -/
def State.control (s : State) (n : Names) (f : Out) : Out :=
  s.after (s.thr.checkControl n) (fun _ => f)

/-- The immediate operand (spec R164, R171): imm12 with its sign, or Sext((P << 12) + imm12, 36) after PFXI. -/
def Thread.imm (t : Thread) (i : BitVec 12) : Word :=
  match t.group.imm with
  | none => i.signExtend 64
  | some p => (p ++ i).signExtend 64

/-- The target of a branch word (spec R164). -/
def branchTarget (pc : Word) (o : BitVec 12) : Word := pc + o.signExtend 64 * 4

/-- The target of JAL (spec R164). -/
def jumpTarget (pc : Word) (o : BitVec 18) : Word := pc + o.signExtend 64 * 4

/-- The scope of the group, DEVICE without PFXS (spec R202). -/
def Thread.scope (t : Thread) : Scope := t.group.scope.getD .device

/-- The view of a group (spec R64, R228, R229): none, a position, or an invalid one, for which the access traps. -/
inductive View | none | pos (p : Pos) | bad
  deriving DecidableEq, Repr

/-- The viewpoint that the group supplies, its register read now (spec R229). -/
def Thread.view (t : Thread) : View :=
  match t.group.view with
  | .none => .none
  | some (.pos self p) =>
    if self then .pos (posDev t.cur ++ p.extractLsb' 0 9 ++ 0#11) else .pos (p ++ 0#11)
  | some (.reg self n) =>
    let p : Pos := (t.g n).extractLsb' 0 32
    if p.extractLsb' 0 11 ≠ (0 : BitVec 11) then .bad
    else if self then .pos (posDev t.cur ++ p.extractLsb' 0 20) else .pos p

/-- The bytes of a size (spec R207). -/
def sizeBytes : Size → Nat
  | .d8 => 8 | .w4 => 4 | .h2 => 2 | .b1 => 1

/-- A value as the 64-bit register value of its low `n` bytes with the sign (spec R178). -/
def sextBytes (n x : Nat) : Word := BitVec.ofInt 64 (signed (8 * n) x)

/-- Write a scalar result and go on. -/
def State.result (s : State) (d : BitVec 6) (x : Word) : State := s.put (s.thr.setG d x).advance

end Sys2Proof.Machine
end

