-- ==== Sys2Proof/Machine/Flags.lean ====
section
/-! DEFINITION. Floating-point formats, exact values, rounding and the flags of FPST (spec 05). -/

namespace Sys2Proof.Machine

/-! ### Flags (spec R115) -/

/-- Bits 5:0 of FPST. -/
abbrev Flags := BitVec 6

/-- NX. -/
def fNX : Flags := 1
/-- UF. -/
def fUF : Flags := 2
/-- OF. -/
def fOF : Flags := 4
/-- DZ. -/
def fDZ : Flags := 8
/-- NV. -/
def fNV : Flags := 16
/-- SAT. -/
def fSAT : Flags := 32

/-- Flags that are raised under a condition. -/
def flagIf (c : Bool) (f : Flags) : Flags := if c then f else 0

/-- The device only sets flags (spec R115, R117). -/
def Thread.raise (t : Thread) (f : Flags) : Thread := { t with fpst := t.fpst ||| f.setWidth 64 }

/-! ### Formats (spec R100 to R102) -/

/-- The floating-point element formats. -/
inductive FFmt | f32 | bf16 | f16 | e5m2 | e4m3 | e2m1
  deriving DecidableEq, Repr

/-- Width in bits. -/
def FFmt.width : FFmt → Nat
  | .f32 => 32 | .bf16 => 16 | .f16 => 16 | .e5m2 => 8 | .e4m3 => 8 | .e2m1 => 4
/-- Fraction bits. -/
def FFmt.frac : FFmt → Nat
  | .f32 => 23 | .bf16 => 7 | .f16 => 10 | .e5m2 => 2 | .e4m3 => 3 | .e2m1 => 1
/-- Exponent bias. -/
def FFmt.bias : FFmt → Nat
  | .f32 => 127 | .bf16 => 127 | .f16 => 15 | .e5m2 => 15 | .e4m3 => 7 | .e2m1 => 1
/-- Whether the format has infinities. -/
def FFmt.hasInf : FFmt → Bool
  | .e4m3 | .e2m1 => false
  | _ => true
/-- The encoding of the largest finite value, without sign. -/
def FFmt.maxEnc : FFmt → Nat
  | .f32 => 0x7F7FFFFF | .bf16 => 0x7F7F | .f16 => 0x7BFF | .e5m2 => 0x7B | .e4m3 => 0x7E | .e2m1 => 7
/-- The encoding of positive infinity. -/
def FFmt.infEnc (f : FFmt) : Nat := f.maxEnc + 1
/-- The default NaN (spec R102, R105); E2M1 has none. -/
def FFmt.nanEnc : FFmt → Nat
  | .f32 => 0x7FC00000 | .bf16 => 0x7FC0 | .f16 => 0x7E00 | .e5m2 => 0x7E | .e4m3 => 0x7F | .e2m1 => 0
/-- The sign bit. -/
def FFmt.sign (f : FFmt) : Nat := 2 ^ (f.width - 1)
/-- The exponent of the unit in the last place of the least normal value. -/
def FFmt.lsbMin (f : FFmt) : Int := 1 - f.bias - f.frac

/-- A value before rounding: NaN, an infinity, or (-1)^neg × m × 2^e; with `more`, the magnitude lies strictly
between m and m + 1 units. -/
inductive Fp
  | nan (signalling : Bool)
  | inf (neg : Bool)
  | fin (neg : Bool) (m : Nat) (e : Int) (more : Bool)
  deriving DecidableEq, Repr

/-- The value of an encoding (spec R101, R104). -/
def FFmt.decode (f : FFmt) (x : Nat) : Fp :=
  let neg := bit x (f.width - 1)
  let mag := x % f.sign
  let frac := mag % 2 ^ f.frac
  let ex := mag / 2 ^ f.frac
  let top := 2 ^ (f.width - 1 - f.frac) - 1
  if f = .e4m3 && mag = 0x7F then .nan false
  else if f.hasInf && ex = top then
    (if frac = 0 then .inf neg else .nan (decide (frac < 2 ^ (f.frac - 1))))
  else if ex = 0 then .fin neg frac f.lsbMin false
  else .fin neg (2 ^ f.frac + frac) (f.lsbMin + (ex - 1 : Nat)) false

/-! ### Rounding (spec R110, R111, R116) -/

/-- A magnitude on the grid of multiples of 2^lsb, and whether it is inexact. -/
def roundAt (mode : RMode) (neg : Bool) (m : Nat) (e : Int) (more : Bool) (lsb : Int) : Nat × Bool :=
  if lsb ≤ e then
    let x := m * 2 ^ (e - lsb).toNat
    let up := match mode with | .rup => more && !neg | .rdn => more && neg | _ => false
    (if up then x + 1 else x, more)
  else
    let d := (lsb - e).toNat
    let q := m / 2 ^ d
    let r := m % 2 ^ d
    let half := 2 ^ (d - 1)
    let inexact := r != 0 || more
    let up := match mode with
      | .rne => decide (half < r) || (r == half && (more || q % 2 == 1))
      | .rtz => false
      | .rup => inexact && !neg
      | .rdn => inexact && neg
    (if up then q + 1 else q, inexact)

/-- Whether the IEEE default of an overflow is an infinity. -/
def overflowsToInf (mode : RMode) (neg : Bool) : Bool :=
  match mode with
  | .rne => true
  | .rtz => false
  | .rup => !neg
  | .rdn => neg

/-- The result of an overflow (spec R111). -/
def FFmt.overflow (f : FFmt) (mode : RMode) (ovf : OvfMode) (neg : Bool) : Nat × Flags :=
  let s := if neg then f.sign else 0
  match f with
  | .e2m1 => (s + f.maxEnc, fOF ||| fNX ||| fSAT)
  | .e4m3 => if ovf = .nonsat then (s + f.nanEnc, fOF ||| fNX) else (s + f.maxEnc, fOF ||| fNX ||| fSAT)
  | _ =>
    let toInf := overflowsToInf mode neg
    if ovf = .sat then (s + f.maxEnc, fOF ||| fNX ||| flagIf toInf fSAT)
    else (s + (if toInf then f.infEnc else f.maxEnc), fOF ||| fNX)

/-- The result for an infinite value (spec R111). -/
def FFmt.infinite (f : FFmt) (ovf : OvfMode) (neg : Bool) : Nat × Flags :=
  let s := if neg then f.sign else 0
  match f with
  | .e2m1 => (s + f.maxEnc, fSAT)
  | .e4m3 => if ovf = .nonsat then (f.nanEnc, fNV) else (s + f.maxEnc, fSAT)
  | _ => if ovf = .sat then (s + f.maxEnc, fSAT) else (s + f.infEnc, 0)

/-- A finite magnitude rounded to `prec` fraction bits of its binade, or to the format's subnormal grid where that is
coarser. -/
def FFmt.roundFin (f : FFmt) (prec : Nat) (mode : RMode) (ovf : OvfMode) (neg : Bool) (m : Nat) (e : Int) (more : Bool) :
    Nat × Flags :=
  let s := if neg then f.sign else 0
  if m = 0 && !more then (s, 0)
  else
    let top : Int := e + m.log2
    let free := top - prec
    let lsb := max free f.lsbMin
    let (x, inexact) := roundAt mode neg m e more lsb
    let k := (lsb - f.lsbMin).toNat
    let sh := min k (f.frac - prec)
    let enc := (k - sh) * 2 ^ f.frac + x * 2 ^ sh
    if f.maxEnc < enc then f.overflow mode ovf neg
    else
      let least : Int := f.lsbMin + f.frac
      let (y, _) := roundAt mode neg m e more free
      let tiny := decide (top + 1 < least) || (decide (top + 1 = least) && y != 2 ^ (prec + 1))
      (s + enc, flagIf inexact fNX ||| flagIf (tiny && inexact) fUF)

/-- Rnd of R179: the encoding of a value and the flags that it raises. -/
def FFmt.rnd (f : FFmt) (mode : RMode) (ovf : OvfMode) (x : Fp) : Nat × Flags :=
  match x with
  | .nan _ => (f.nanEnc, 0)
  | .inf neg => f.infinite ovf neg
  | .fin neg m e more => f.roundFin f.frac mode ovf neg m e more

/-! ### Arithmetic on values: the exact result and the flags of the operation itself (spec R104, R115) -/

/-- NV of a signalling operand. -/
def Fp.sig : Fp → Flags
  | .nan true => fNV
  | _ => 0
/-- Whether a value is NaN. -/
def Fp.isNan : Fp → Bool
  | .nan _ => true
  | _ => false
/-- Whether a value is infinite or NaN. -/
def Fp.special : Fp → Bool
  | .fin .. => false
  | _ => true
/-- A value with its sign changed. -/
def Fp.negate : Fp → Fp
  | .fin n m e k => .fin (!n) m e k
  | .inf n => .inf (!n)
  | x => x

/-- A finite sum; an exact zero of opposite signs is +0, or -0 toward minus infinity (spec R110). -/
def addFin (mode : RMode) (n1 : Bool) (m1 : Nat) (e1 : Int) (n2 : Bool) (m2 : Nat) (e2 : Int) : Fp :=
  let e := min e1 e2
  let a : Int := m1 * 2 ^ (e1 - e).toNat
  let b : Int := m2 * 2 ^ (e2 - e).toNat
  let x := (if n1 then -a else a) + (if n2 then -b else b)
  if x = 0 then .fin (if n1 = n2 then n1 else decide (mode = .rdn)) 0 e false
  else .fin (decide (x < 0)) x.natAbs e false

/-- x + y. -/
def Fp.add (mode : RMode) (x y : Fp) : Fp × Flags :=
  match x, y with
  | .fin n1 m1 e1 _, .fin n2 m2 e2 _ => (addFin mode n1 m1 e1 n2 m2 e2, 0)
  | .inf a, .inf b => if a = b then (.inf a, 0) else (.nan false, fNV)
  | .inf a, .fin .. => (.inf a, 0)
  | .fin .., .inf b => (.inf b, 0)
  | _, _ => (.nan false, x.sig ||| y.sig)

/-- x × y. -/
def Fp.mul (x y : Fp) : Fp × Flags :=
  match x, y with
  | .fin n1 m1 e1 _, .fin n2 m2 e2 _ => (.fin (n1 != n2) (m1 * m2) (e1 + e2) false, 0)
  | .inf a, .inf b => (.inf (a != b), 0)
  | .inf a, .fin n m _ _ => if m = 0 then (.nan false, fNV) else (.inf (a != n), 0)
  | .fin n m _ _, .inf b => if m = 0 then (.nan false, fNV) else (.inf (n != b), 0)
  | _, _ => (.nan false, x.sig ||| y.sig)

/-- The exact sum of terms, with the events of the sum alone: NaN where a term is NaN or both infinities occur, and the
latter is an invalid operation whatever NaN stands beside them (spec R115, R124): log entry 29. -/
def Fp.sum (mode : RMode) (xs : List Fp) : Fp × Flags :=
  let pos := xs.contains (.inf false)
  let neg := xs.contains (.inf true)
  if pos && neg then (.nan false, fNV)
  else if xs.any Fp.isNan then (.nan false, 0)
  else if pos || neg then (.inf neg, 0)
  else
    match xs with
    | [] => (.fin false 0 0 false, 0)
    | x :: r => (r.foldl (fun a y => (a.add mode y).1) x, 0)

/-- x × y + z, exact; 0 × ∞ raises NV even when z is a quiet NaN (spec R188). -/
def Fp.fma (mode : RMode) (x y z : Fp) : Fp × Flags :=
  let (p, f) := x.mul y
  if p.isNan || z.isNan then (.nan false, f ||| z.sig)
  else let (r, g) := p.add mode z; (r, f ||| g)

/-- x ÷ y (spec R188). -/
def Fp.div (x y : Fp) : Fp × Flags :=
  match x, y with
  | .fin n1 m1 e1 _, .fin n2 m2 e2 _ =>
    if m2 = 0 then (if m1 = 0 then (.nan false, fNV) else (.inf (n1 != n2), fDZ))
    else (.fin (n1 != n2) (m1 * 2 ^ 64 / m2) (e1 - e2 - 64) (m1 * 2 ^ 64 % m2 != 0), 0)
  | .inf _, .inf _ => (.nan false, fNV)
  | .inf a, .fin n _ _ _ => (.inf (a != n), 0)
  | .fin n .., .inf b => (.fin (n != b) 0 0 false, 0)
  | _, _ => (.nan false, x.sig ||| y.sig)

/-- The integer square root of `n` over what is found so far: the bits from bit `k - 1` down. -/
def isqrtFrom (n r : Nat) : Nat → Nat
  | 0 => r
  | k + 1 => if (r + 2 ^ k) * (r + 2 ^ k) ≤ n then isqrtFrom n (r + 2 ^ k) k else isqrtFrom n r k

/-- The integer square root of a number below 2^(2k). -/
def isqrt (n k : Nat) : Nat := isqrtFrom n 0 k

/-- The square root of a positive magnitude m × 2^e. -/
def sqrtFin (m : Nat) (e : Int) : Fp :=
  let m := if e % 2 = 0 then m * 2 ^ 80 else m * 2 ^ 81
  let e := if e % 2 = 0 then e - 80 else e - 81
  let r := isqrt m 64
  .fin false r (e / 2) (r * r != m)

/-- √x (spec R188). -/
def Fp.sqrt (x : Fp) : Fp × Flags :=
  match x with
  | .nan _ => (.nan false, x.sig)
  | .inf neg => if neg then (.nan false, fNV) else (x, 0)
  | .fin neg m e _ =>
    if m = 0 then (x, 0)
    else if neg then (.nan false, fNV)
    else (sqrtFin m e, 0)

/-- 1 ÷ x (spec R118). -/
def Fp.recip (x : Fp) : Fp × Flags := (Fp.fin false 1 0 false).div x

/-- 1 ÷ √x (spec R118). -/
def Fp.rsqrt (x : Fp) : Fp × Flags :=
  match x with
  | .nan _ => (.nan false, x.sig)
  | .inf neg => if neg then (.nan false, fNV) else (.fin false 0 0 false, 0)
  | .fin neg m e _ =>
    if m = 0 then (.inf neg, fDZ)
    else if neg then (.nan false, fNV)
    else
      -- 1/√(m 2^e) = √(2^(2k) / m) 2^(-k - e/2) with e even: the quotient is cut, and its root is inexact with it
      let m' := if e % 2 = 0 then m else 2 * m
      let e' := if e % 2 = 0 then e else e - 1
      let q := 2 ^ 160 / m'
      let r := isqrt q 81
      (.fin false r (-80 - e' / 2) (r * r * m' != 2 ^ 160), 0)

/-! ### The power of two (spec R118); its precision is log entry 18 -/

/-- floor(ln 2 × 2^128). -/
def ln2Fixed : Nat := 0xB17217F7D1CF79ABC9E3B39803F2F6AF

/-- The terms of e^x - 1 for x = y × 2^-128, from term number `k` on, `t` the term before. -/
def expTerms (y : Nat) : Nat → Nat → Nat → Nat
  | 0, _, _ => 0
  | n + 1, k, t =>
    let u := t * y / 2 ^ 128 / k
    u + expTerms y n (k + 1) u

/-- 2^x for x = y × 2^-128 below 1, in units of 2^-128. -/
def exp2Fixed (y : Nat) : Nat := 2 ^ 128 + expTerms (y * ln2Fixed / 2 ^ 128) 40 1 (2 ^ 128)

/-- 2^x (spec R118). -/
def Fp.exp2 (x : Fp) : Fp × Flags :=
  match x with
  | .nan _ => (.nan false, x.sig)
  | .inf neg => (if neg then .fin false 0 0 false else x, 0)
  | .fin neg m e _ =>
    if m = 0 then (.fin false 1 0 false, 0)
    else if 10 < e + m.log2 then
      (if neg then .fin false 1 (-2000) true else .fin false 1 2000 true, 0)
    else if e + m.log2 < -40 then
      (if neg then .fin false (2 ^ 60 - 1) (-60) true else .fin false (2 ^ 60) (-60) true, 0)
    else
      -- x in units of 2^-128, exact because |x| ≥ 2^-40 and x has 24 bits
      let y : Int := (m : Int) * 2 ^ (e + 128).toNat
      let y := if neg then -y else y
      let n := y / 2 ^ 128
      let r := (y % 2 ^ 128).toNat
      if r = 0 then (.fin false 1 n false, 0) else (.fin false (exp2Fixed r) (n - 128) true, 0)

/-- A result of R118: 12 significand bits, nearest-even, written as FP32. -/
def approx (x : Fp × Flags) : Nat × Flags :=
  let (y, g) := match x.1 with
    | .fin neg m e more => FFmt.f32.roundFin 11 .rne .dflt neg m e more
    | .inf neg => FFmt.f32.infinite .dflt neg
    | .nan _ => (FFmt.f32.nanEnc, 0)
  (y, x.2 ||| g)

/-- An operation's value rounded, with all flags. -/
def FFmt.finish (f : FFmt) (mode : RMode) (ovf : OvfMode) (x : Fp × Flags) : Nat × Flags :=
  let (y, g) := f.rnd mode ovf x.1
  (y, x.2 ||| g)

/-! ### Comparisons and selections (spec R189, R190) -/

/-- The signed value of a finite value in units of 2^e. -/
def finInt (neg : Bool) (m : Nat) (e lo : Int) : Int :=
  let a : Int := m * 2 ^ (e - lo).toNat
  if neg then -a else a

/-- x < y for values that are not NaN. -/
def Fp.less (x y : Fp) : Bool :=
  match x, y with
  | .fin n1 m1 e1 _, .fin n2 m2 e2 _ =>
    let lo := min e1 e2
    decide (finInt n1 m1 e1 lo < finInt n2 m2 e2 lo)
  | .inf a, .inf b => a && !b
  | .inf a, .fin .. => a
  | .fin .., .inf b => !b
  | _, _ => false

/-- FLT: a NaN operand raises NV. -/
def fpLt (x y : Fp) : Bool × Flags :=
  if x.isNan || y.isNan then (false, fNV) else (x.less y, 0)
/-- FLE: a NaN operand raises NV. -/
def fpLe (x y : Fp) : Bool × Flags :=
  if x.isNan || y.isNan then (false, fNV) else (!y.less x, 0)
/-- FEQ: a signalling NaN operand raises NV. -/
def fpEq (x y : Fp) : Bool × Flags :=
  if x.isNan || y.isNan then (false, x.sig ||| y.sig) else (!x.less y && !y.less x, 0)

/-- FMIN and FMAX (spec R189): the chosen encoding, unchanged; -0 counts as less than +0. -/
def FFmt.select (f : FFmt) (wantMax : Bool) (a b : Nat) : Nat × Flags :=
  let x := f.decode a
  let y := f.decode b
  let fl := x.sig ||| y.sig
  match x.isNan, y.isNan with
  | true, true => (f.nanEnc, fl)
  | true, false => (b, fl)
  | false, true => (a, fl)
  | false, false =>
    let aLess := x.less y || (!y.less x && bit a (f.width - 1) && !bit b (f.width - 1))
    (if aLess != wantMax then a else b, fl)

/-! ### Integers (spec R109) -/

/-- A value rounded to an integer of `n` bits. -/
def Fp.toInt (mode : RMode) (sgn : Bool) (n : Nat) (x : Fp) : Int × Flags :=
  let lo : Int := if sgn then -(2 ^ (n - 1) : Nat) else 0
  let hi : Int := if sgn then (2 ^ (n - 1) : Nat) - 1 else (2 ^ n : Nat) - 1
  match x with
  | .nan _ => (0, fNV)
  | .inf neg => (if neg then lo else hi, fNV)
  | .fin neg m e more =>
    let (q, inexact) := roundAt mode neg m e more 0
    let v : Int := if neg then -q else q
    if v < lo then (lo, fNV) else if hi < v then (hi, fNV) else (v, flagIf inexact fNX)

/-- An integer as an exact value. -/
def Fp.ofInt (x : Int) : Fp := .fin (decide (x < 0)) x.natAbs 0 false

/-! ### Conversions between formats (spec R112 to R114) -/

/-- A conversion: exact to a wider format, rounded to a narrower one. -/
def FFmt.convert (src dst : FFmt) (mode : RMode) (ovf : OvfMode) (x : Nat) : Nat × Flags :=
  let v := src.decode x
  let (y, g) := dst.rnd mode ovf v
  (y, v.sig ||| g)

/-- A widening conversion never meets an overflow mode (spec R112). -/
def FFmt.widen (src dst : FFmt) (x : Nat) : Nat × Flags := src.convert dst .rne .dflt x

/-- The narrowing of R113 over the active elements of one block, with the residual e. -/
def efBlock (fmt : FFmt) (ovf : OvfMode) : Nat → List Nat → List Nat × Flags
  | _, [] => ([], 0)
  | e, x :: r =>
    let xv := FFmt.f32.decode x
    let (t, f1) := FFmt.f32.finish .rne .dflt (xv.add .rne (FFmt.f32.decode e))
    let (y, f2) := FFmt.f32.convert fmt .rne ovf t
    let tv := FFmt.f32.decode t
    let yv := fmt.decode y
    let (e', f3) := if tv.special || yv.special then (0, 0) else FFmt.f32.finish .rne .dflt (tv.add .rne yv.negate)
    let (ys, f4) := efBlock fmt ovf e' r
    (y :: ys, f1 ||| f2 ||| f3 ||| f4)

/-- The unbiased exponent of a block element format's largest finite value (spec R107). -/
def FFmt.emax : FFmt → Int
  | .e4m3 => 8 | .e5m2 => 15 | _ => 2

/-- MXQuantise (spec R114): the scale, the element codes and the flags. A block without a finite element takes X = 0: log
entry 95. -/
def mxQuantise (fmt : FFmt) (mode : RMode) (ovf : OvfMode) (xs : List Fp) : Nat × List Nat × Flags :=
  let sigs := xs.foldl (fun a x => a ||| x.sig) (0 : Flags)
  if fmt = .e2m1 && xs.any Fp.isNan then (0xFF, xs.map (fun _ => 0), sigs)
  else
    let tops := xs.filterMap (fun x => match x with
      | .fin _ m e _ => if m = 0 then none else some (e + m.log2)
      | _ => none)
    let top := tops.foldl (fun a t => match a with | none => some t | some b => some (max b t)) (none : Option Int)
    let x0 : Int := match top with | none => 0 | some t => t - fmt.emax
    let sc := min (max x0 (-127)) 127
    let qs := xs.map (fun x => fmt.rnd mode ovf (match x with | .fin n m e k => .fin n m (e - sc) k | y => y))
    ((sc + 127).toNat, qs.map (fun q => q.1), qs.foldl (fun a q => a ||| q.2) sigs)

/-! ### Modes of a group (spec R178) -/

/-- RMode(f). -/
def Thread.rmode (t : Thread) (r : RMode) : RMode :=
  match t.group.mods with
  | some (_, some m) => m
  | _ => r

/-- OvfMode. -/
def Thread.ovf (t : Thread) : OvfMode :=
  match t.group.mods with
  | some (o, _) => o
  | none => .dflt

end Sys2Proof.Machine
end

