-- ==== Sys2Proof/Machine/Xlate.lean ====
section
/-! DEFINITION. Addresses: windows, page-table entries, frames and the checks of R203 (spec 03 and 21). -/

namespace Sys2Proof.Machine

/-! ### Fields of descriptors and records -/

/-- Bits of a space descriptor (spec R297). -/
def SpaceSt.field (x : SpaceSt) (hi lo : Nat) : Nat := bits x.desc.toNat hi lo
/-- DEVTAB entries in use, in order. -/
def SpaceSt.devtab (x : SpaceSt) : List (BitVec 12) :=
  (upto 0 (x.field 236 232)).map (fun i => BitVec.ofNat 12 (x.field (768 + 16 * i + 11) (768 + 16 * i)))
/-- Hearth cache share of a tower in MiB. -/
def SpaceSt.hc (x : SpaceSt) (t : Nat) : Nat := x.field (512 + 32 * t + 8) (512 + 32 * t)
/-- Hearth scratch share of a tower in MiB. -/
def SpaceSt.hs (x : SpaceSt) (t : Nat) : Nat := x.field (512 + 32 * t + 24) (512 + 32 * t + 16)
/-- The owning partition of a space number (spec R289). -/
def partOf (space : BitVec 16) : Nat := bits space.toNat 11 9
/-- Whether a tower belongs to a partition (spec R296). -/
def State.towerIn (s : State) (part t : Nat) : Bool :=
  bit s.partmap.toNat (4 * t + 3) && bits s.partmap.toNat (4 * t + 2) (4 * t) == part
/-- Bits of a launch record (spec R14). -/
def Launch.field (l : Launch) (hi lo : Nat) : Nat := bits l.record.toNat hi lo
/-- What this module knows of a device. -/
def State.peer (s : State) (dev : BitVec 12) : Peer := Tab.get s.peers dev.toNat {}
/-- The towers of a device that are present. -/
def State.presentOn (s : State) (dev : BitVec 12) : BitVec 8 := if dev = s.dev then s.present else (s.peer dev).present
/-- Whether a tower of a device exists and belongs to a partition; none where it is another device and this one has not learnt its
partitions: log entry 23. -/
def State.towerThere (s : State) (part : Nat) (dev : BitVec 12) (t : Nat) : Option Bool :=
  if bit (s.presentOn dev).toNat t = false then some false
  else if dev = s.dev then some (s.towerIn part t)
  else (s.peer dev).partmap.map (fun m => bit m.toNat (4 * t + 3) && bits m.toNat (4 * t + 2) (4 * t) == part)
/-- The slot of a device in a space's device table (spec R61). -/
def SpaceSt.devSlot (x : SpaceSt) (d : BitVec 12) : Option Nat := x.devtab.findIdx? (fun y => y == d)

/-! ### Who accesses -/

/-- What an access takes from its requester (spec R63): its name, space, resolving positions, current core, privilege, and
the scratch size of its launch (spec R54). -/
structure Who where
  by_ : Key
  space : BitVec 16
  pk : Pos
  pr : Pos
  here : Pos
  priv : Bool
  scsz : BitVec 8
  view : Bool
  viewBad : Bool
  deriving DecidableEq, Repr

/-- The scratch size of a launch in 4 KiB units. -/
def State.scszOf (s : State) (launch : BitVec 32) : BitVec 8 :=
  match s.launch? launch with
  | some l => BitVec.ofNat 8 (l.field 271 264)
  | none => 0

/-- A thread as requester, with a viewpoint. -/
def State.who (s : State) (t : Thread) (v : View) : Who :=
  let (pk, pr, used, bad) := match v with
    | .none => (t.anchor, t.cur, false, false)
    | .pos p => (p, p, true, false)
    | .bad => (t.anchor, t.cur, true, true)
  { by_ := t.key, space := t.space, pk := pk, pr := pr, here := t.cur, priv := t.sup, scsz := s.scszOf t.launch, view := used,
    viewBad := bad }

/-- The kinds of access that the checks tell apart: `scratch` is LDSY, `fill` STF. -/
inductive Kind
  | load | store | atomic (fadd : Bool) | scratch | fill | arrive | prop | crd | crcy | fetch | template
  deriving DecidableEq, Repr

/-- Whether the access is one of core scratch alone (spec R76). -/
def Kind.scratchOnly : Kind → Bool
  | .scratch | .fill => true
  | _ => false

/-- Whether the access needs W (spec R317). -/
def Kind.writes : Kind → Bool
  | .store | .atomic _ | .scratch | .fill | .arrive | .prop | .crcy => true
  | _ => false
/-- Whether the access reads (spec R203 check 7, R204). -/
def Kind.reads : Kind → Bool
  | .store | .fill => false
  | _ => true
/-- Whether the access is a crust-cell operation. -/
def Kind.cell : Kind → Bool
  | .prop | .crd | .crcy => true
  | _ => false

/-! ### Windows (spec R50, R51, R71, R72) -/

/-- The windows of the topmost 8 TiB. -/
inductive Win | core | hearth | status | reserved
  deriving DecidableEq, Repr

/-- The window of a virtual address, if it lies in the topmost 8 TiB. -/
def winOf (va : Nat) : Option Win :=
  if va < 2 ^ 57 - 2 ^ 43 then none
  else match va / 2 ^ 40 with
    | 0x1FFFF => some .core
    | 0x1FFFE => some .hearth
    | 0x1FFFD => some .status
    | _ => some .reserved

/-- Where the bytes of a core's scratch image stand in memory. -/
def coreKey (space : BitVec 16) (dev : BitVec 12) (core off : Nat) : Nat :=
  2 ^ 60 + ((space.toNat * 2 ^ 12 + dev.toNat) * 2 ^ 9 + core) * 2 ^ 19 + off
/-- Where the bytes of a space's hearth scratch in a tower stand in memory. -/
def hearthKey (space : BitVec 16) (dev : BitVec 12) (tower off : Nat) : Nat :=
  2 ^ 61 + ((space.toNat * 2 ^ 12 + dev.toNat) * 2 ^ 3 + tower) * 2 ^ 29 + off
/-- The number by which a byte of a device's thermal and status window is read. -/
def statusKey (dev : BitVec 12) (off : Nat) : Nat := 2 ^ 62 + dev.toNat * 2 ^ 40 + off
/-- Whether a place of memory is core scratch. -/
def isCoreKey (k : Nat) : Bool := decide (2 ^ 60 ≤ k) && decide (k < 2 ^ 61)
/-- Whether a place of memory is hearth scratch. -/
def isHearthKey (k : Nat) : Bool := decide (2 ^ 61 ≤ k) && decide (k < 2 ^ 62)

/-- The scratch image of a space on a core. -/
def SpaceSt.image? (x : SpaceSt) (dev : BitVec 12) (core : Nat) : Option Image :=
  x.images.find? (fun i => i.dev == dev && i.core == core)

/-- The size in bytes of the core scratch that an access reaches (spec R54). On a core of another device, of whose residency this
module learns nothing, it is that of the launch of the access: log entry 105. -/
def State.coreScratchSize (s : State) (w : Who) : Nat :=
  match (s.space? w.space).bind (fun x => x.image? (posDev w.pk) (posCore w.pk)) with
  | some i => if i.settled then i.scsz.toNat * 4096 else w.scsz.toNat * 4096
  | none => w.scsz.toNat * 4096

/-- The descriptor of a space on a device; none where it is another device and this one has not learnt it: log entry 23. -/
def State.descOn (s : State) (dev : BitVec 12) (space : BitVec 16) : Option (Option (BitVec 2048)) :=
  if dev = s.dev then some ((s.space? space).map (fun x => x.desc))
  else (s.peer dev).loaded.map (fun ls => (ls.find? (fun x => x.1 == space)).map (fun x => x.2))

/-- The size in bytes of the hearth scratch that an access reaches, from the descriptor of the space on the device that it resolves
to (spec R71, R297, R298); none where that is not known here. -/
def State.hearthScratchSize (s : State) (w : Who) : Option Nat :=
  (s.descOn (posDev w.pk) w.space).map (fun d =>
    match d with
    | some x => bits x.toNat (512 + 32 * posTower w.pk + 24) (512 + 32 * posTower w.pk + 16) * 2 ^ 20
    | none => 0)

/-- Whether an offset of the thermal and status window is listed, for a requester's privilege (spec R72, R378). -/
def statusListed (priv : Bool) (off : Nat) : Bool :=
  decide (off < 0x40) || (decide (0x1000 ≤ off) && decide (off < 0x1E00)) ||
    (priv && decide (0x8000 ≤ off) && decide (off < 0x8E00))

/-- A class ADDR trap. -/
def addrTrap (cause va : Nat) : Trap := { cls := .addr, cause := cause, va := BitVec.ofNat 64 va }

/-- The viewpoint is valid, for an access at `va` (spec R64). -/
def State.viewCheck (s : State) (w : Who) (va : Nat) : Res Unit :=
  let inTable := match s.space? w.space with
    | some x => (x.devSlot (posDev w.pk)).isSome
    | none => false
  if w.view = false then .ok ()
  else if w.viewBad || !inTable then .trap (addrTrap 4 va)
  else
    match s.towerThere (partOf w.space) (posDev w.pk) (posTower w.pk) with
    | some ok => Res.need ok (addrTrap 4 va)
    | none => .wait none

/-- The parts of an access, cut at 128 KiB. -/
def chunks : Nat → Nat → Nat → List (Nat × Nat)
  | 0, _, _ => []
  | fuel + 1, va, n =>
    if n = 0 then []
    else
      let m := min n (2 ^ 17 - va % 2 ^ 17)
      (va, m) :: chunks fuel (va + m) (n - m)

/-- The parts of an access. -/
def parts (va n : Nat) : List (Nat × Nat) := chunks (n / 2 ^ 17 + 2) va n

/-- The window rules for one part of an access (spec R51, R72, R76, R162). -/
def State.windowCheck (s : State) (w : Who) (k : Kind) (n : Nat) (p : Nat × Nat) : Res Unit :=
  let (va, len) := p
  let off := va % 2 ^ 40
  match winOf va with
  | none => Res.need (!k.scratchOnly) (addrTrap 3 va)
  | some win =>
    if k = .fetch then .trap (addrTrap 3 va)
    else match win with
      | .reserved => .trap (addrTrap 3 va)
      | .core =>
        let size := s.coreScratchSize w
        Res.need (decide (off + len ≤ size)) (addrTrap 3 (va + (size - off)))
      | .hearth =>
        if k.scratchOnly then .trap (addrTrap 3 va)
        else
          match s.hearthScratchSize w with
          | some size => Res.need (decide (off + len ≤ size)) (addrTrap 3 (va + (size - off)))
          | none => .wait none
      | .status =>
        if k ≠ .load ∧ k ≠ .template then .trap (addrTrap 3 va)
        else if n ∉ [1, 2, 4, 8] then .trap (addrTrap 3 va)
        else if va % n ≠ 0 then .trap (addrTrap 2 va)
        else Res.need ((upto off len).all (statusListed w.priv)) (addrTrap 3 va)

/-- Check 1 of R203: high bits, alignment, viewpoint, windows. An access that crosses 2^57 fails at its first byte, which no
scratch reaches. -/
def State.addrCheck (s : State) (w : Who) (k : Kind) (va n align : Nat) : Res Unit :=
  if 2 ^ 57 ≤ va then .trap (addrTrap 1 va)
  else if va % align ≠ 0 then .trap (addrTrap 2 va)
  else (s.viewCheck w va).bind (fun _ => Res.all (s.windowCheck w k n) (parts va n))

/-! ### Page-table entries (spec R49, R314, R315, R316) -/

/-- The page size of a level. -/
def pageSize : Nat → Nat
  | 0 => 2 ^ 17
  | 1 => 2 ^ 30
  | _ => 2 ^ 43

/-- V. -/
def eV (e : Nat) : Bool := bit e 0
/-- LEAF. -/
def eLeaf (e : Nat) : Bool := bit e 1
/-- MV. -/
def eMv (e : Nat) : Bool := bit e 2
/-- W. -/
def eW (e : Nat) : Bool := bit e 3
/-- MOBILE. -/
def eMobile (e : Nat) : Bool := bit e 4
/-- The base frame or the next table, in bytes. -/
def eBase (e : Nat) : Nat := bits e 59 17 * 2 ^ 17
/-- SUP. -/
def eSup (e : Nat) : Bool := bit e 64
/-- STEW. -/
def eStew (e : Nat) : Bool := bit e 65
/-- TRAVEL. -/
def eTravel (e : Nat) : Bool := bit e 66
/-- KIND: 0 SHARED, 1 PRIVATE, 2 REPLICA, 3 ONCE. -/
def eKind (e : Nat) : Nat := bits e 68 67
/-- DOM. -/
def eDom (e : Nat) : Nat := bits e 71 69
/-- FMT. -/
def eFmt (e : Nat) : Nat := bits e 75 72
/-- PRIM. -/
def ePrim (e : Nat) : Nat := bits e 84 76
/-- The instance stride in bytes. -/
def eStride (e : Nat) : Nat := bits e 127 85 * 2 ^ 17

/-- The number of instances of a domain code (spec R316). -/
def instances (x : Option SpaceSt) : Nat → Nat
  | 0 => 512 | 1 => 128 | 2 => 32 | 3 => 8
  | _ => match x with | some y => y.devtab.length | none => 0

/-- Whether a move of the page that a leaf entry names is in progress, under whatever address (spec R316, R325). -/
def State.moving (s : State) (e : Nat) : Bool := s.moves.any (fun m => eBase m.old.toNat == eBase e)

/-- Whether a valid entry is invalid (spec R316). -/
def State.entryBad (s : State) (space : BitVec 16) (level e : Nat) : Bool :=
  bits e 63 60 != 0 || bits e 16 5 != 0 ||
  if eLeaf e then
    eBase e % pageSize level != 0 || eStride e % pageSize level != 0 ||
    !(eFmt e == 0 || (decide (11 ≤ eFmt e) && decide (eFmt e ≤ 14))) || (eMv e && !s.moving e) ||
    match eKind e with
    | 0 => eDom e != 0 || eStride e != 0 || ePrim e != 0 || eStew e
    | 1 => decide (4 < eDom e) || eStride e == 0 || eTravel e || eStew e || ePrim e != 0
    | 2 => decide (4 < eDom e) || eStride e == 0 || eTravel e || eStew e ||
        decide (instances (s.space? space) (eDom e) ≤ ePrim e)
    | _ => eDom e != 0 || eStride e != 0 || ePrim e != 0 || eFmt e != 0 || eTravel e
  else level == 0 || bits e 127 64 != 0 || eMobile e || eW e || eMv e

/-- A class XLAT trap. -/
def xlatTrap (cause level va : Nat) : Trap :=
  { cls := .xlat, cause := cause, detail := level, va := BitVec.ofNat 64 va }

/-- The bank of a tower that translates an address (spec R319). -/
def bankOf (space : BitVec 16) (va : Nat) : Nat :=
  (upto 0 4).foldl (fun a j => a ^^^ bits space.toNat (4 * j + 3) (4 * j))
    ((upto 0 10).foldl (fun a j => a ^^^ bits va (17 + 4 * j + 3) (17 + 4 * j)) 0)

/-- Whether the module may read the page-table entry at a place: no other agent holds its line alone and no request waits for it there,
and one of another memory is held here (spec R314, R353, R354, R356, R361). -/
def State.entryReadable (s : State) (key : Nat) : Bool :=
  if key / 2 ^ 48 = s.dev.toNat then
    let line := key % 2 ^ 48 / 128
    (s.caches.any (fun c => c.unit == key / 128) ||
      (s.lineQueue.all (fun q => q.line != line) && !s.called.contains line && s.flips.all (fun x => x.page != some (line / 1024)))) &&
    s.dir.all (fun d => d.line != line ||
      (d.state != .busy && d.ownerDev.isNone && (upto 0 2).all (fun h => !bit d.host.toNat h || bit d.hostS.toNat h)))
  else if key / 2 ^ 48 = 0xFFF then s.halves.any (fun r => r.unit == key / 64)
  else s.remote.any (fun r => r.unit == key / 128) || s.ghosts.contains (key / 128)

/-- The answer of a home that refused to give a line to a requester (spec R365). -/
def State.refused (s : State) (by_ : Key) (key : Nat) : Option (BitVec 4 × BitVec 4) :=
  s.txns.findSome? (fun x =>
    if x.thread == some by_ && x.key == key / 128 * 128 then
      match x.answer with
      | some (.failed c k) => some (c, k)
      | _ => none
    else none)

/-- The memory tower of a local physical address (spec R70). -/
def memTower (loc : Nat) : Nat := if loc < 2 ^ 39 then loc / 2 ^ 36 else (loc - 2 ^ 40) / 2 ^ 35 % 8

/-- The layer of a local physical address, as G(a) of LPWR names it (spec R310). -/
def layerOf (loc : Nat) : Nat :=
  if loc < 2 ^ 39 then loc / 2 ^ 36 + 16 * 15
  else (loc - 2 ^ 40) / 2 ^ 35 % 8 + 16 * (6 + (loc - 2 ^ 40) % 2 ^ 35 / 2 ^ 32)

/-- DETAIL of a trap that a peer's answer sets off: the layer of the place for DARK, the level of its page for XLAT (spec
R343). -/
def nakDetail (cls key level : Nat) : Nat :=
  match cls with
  | 4 => level
  | 6 => layerOf (key % 2 ^ 48)
  | _ => 0

/-- Class codes of NAK (spec R341, R365). -/
def classOfCode (c : Nat) : TrapClass :=
  match c with
  | 1 => .ill | 2 => .priv | 3 => .addr | 4 => .xlat | 5 => .ctxf | 6 => .dark | 8 => .amotype | 9 => .repl
  | 10 => .engine
  | _ => .data

/-- An upper-level entry that the bank of an address holds (spec R320). -/
def State.upperAt (s : State) (space : BitVec 16) (tower level va : Nat) : Option Nat :=
  (s.uppers.find? (fun u => u.tower == tower && u.bank == bankOf space va && u.space == space && u.level == level &&
    u.page == va / pageSize level)).map (fun u => u.entry.toNat)

/-- The walk of R318 from a table, over the levels that remain, at the bank of a tower. It reads an entry at the entry's
home, one 16-byte access (spec R314), unless the bank holds it. In a layer that is off or on a bad granule of this module it reads the
bytes as they stand: log entry 124. -/
def State.walk (s : State) (by_ : Key) (space : BitVec 16) (tower va : Nat) : Nat → List Nat → Res (Nat × Nat)
  | _, [] => .trap (xlatTrap 2 0 va)
  | t, level :: rest =>
    let i := match level with
      | 2 => bits va 56 43
      | 1 => bits va 42 30
      | _ => bits va 29 17
    let key := t + 16 * i
    match s.upperAt space tower level va with
    | some e => s.walk by_ space tower va (eBase e) rest
    | none =>
      match s.refused by_ key with
      | some (c, k) => .trap { cls := classOfCode c.toNat, cause := k.toNat, detail := nakDetail c.toNat key level, va := BitVec.ofNat 64 va }
      | none =>
        if s.entryReadable key = false then .wait (some key)
        else
          let e := s.mem.readNum key 16
          if eV e = false then .trap (xlatTrap 1 level va)
          else if s.entryBad space level e then .trap (xlatTrap 2 level va)
          else if eLeaf e then (if eMv e then .wait none else .ok (e, level))
          else s.walk by_ space tower va (eBase e) rest

/-- The page that a pin holds contains the address. -/
def Pin.covers (p : Pin) (space : BitVec 16) (va : Nat) : Bool :=
  p.space == space && p.va.toNat / pageSize p.level == va / pageSize p.level

/-- The leaf entry for an address: the one that a pin keeps, or that an XINV kept for a pin (spec R303), or one that the bank of the
requester's tower holds, or the one that a walk finds (spec R318 to R320, R323). The entry of the fixed windows is never read (spec R50).
-/
def State.leaf (s : State) (by_ : Key) (space : BitVec 16) (tower va : Nat) : Res (Nat × Nat) :=
  match (s.pins ++ s.kept).find? (fun p => p.covers space va) with
  | some p => if s.moving p.entry.toNat then .wait none else .ok (p.entry.toNat, p.level)
  | none =>
    if (winOf va).isSome then .trap (xlatTrap 1 2 va)
    else
      match s.banks.find? (fun b => b.tower == tower && b.bank == bankOf space va && b.space == space &&
          b.unit == va / 2 ^ 17) with
      | some b => if s.moving b.entry.toNat then .wait none else .ok (b.entry.toNat, b.level)
      | none =>
        match s.space? space with
        | some x => s.walk by_ space tower va (x.field 63 0) [2, 1, 0]
        | none => .trap (xlatTrap 1 2 va)

/-! ### Frames (spec R60 to R62, R318, R381) -/

/-- Whether `n` bytes at a local physical address lie in a module's memory, towers as `present` says. -/
def inModule (present : BitVec 8) (loc n : Nat) : Bool :=
  if loc < 2 ^ 39 then decide (loc + n ≤ 2 ^ 39) && bit present.toNat (loc / 2 ^ 36)
  else decide (2 ^ 40 ≤ loc) && decide (loc + n ≤ 2 ^ 40 + 2 ^ 38) && bit present.toNat ((loc - 2 ^ 40) / 2 ^ 35)

/-- Whether `n` bytes at a fabric physical address exist. -/
def State.inMemory (s : State) (f n : Nat) : Bool :=
  let dev := f / 2 ^ 48
  let loc := f % 2 ^ 48
  if dev = 0xFFF then decide (loc + n ≤ 2 ^ 48)
  else inModule (s.presentOn (BitVec.ofNat 12 dev)) loc n

/-- The power state of a layer: a hearth is on, another layer off, until something sets it (spec R368, R377). -/
def State.powerOf (s : State) (layer : Nat) : Power := Tab.get s.power layer (if layer < 16 then .on else .off)

/-- The index of a position within a domain code (spec R61). -/
def domIndex (x : Option SpaceSt) (d : Nat) (p : Pos) : Option Nat :=
  match d with
  | 0 => some (posCore p)
  | 1 => some (posTile p)
  | 2 => some (posGroup p)
  | 3 => some (posTower p)
  | _ => x.bind (fun y => y.devSlot (posDev p))

/-- The frame of instance `i` of an entry, on the device of a position for domains within a device; none where a part of the page lies
outside memory (log entry 15). -/
def State.instanceFrame (s : State) (e level : Nat) (p : Pos) (i : Nat) : Option Nat :=
  let n := pageSize level
  if eDom e = 4 then
    let f := eBase e + i * eStride e
    if f < 2 ^ 60 && s.inMemory f n then some f else none
  else
    let loc := eBase e % 2 ^ 48 + i * eStride e
    let f := (posDev p).toNat * 2 ^ 48 + loc
    if loc < 2 ^ 48 && s.inMemory f n then some f else none

/-- The frame of a page for an access, or none where it lies outside memory (spec R318). For SHARED and ONCE pages
the bytes of the access decide. -/
def State.frame (s : State) (w : Who) (e level : Nat) (isStore : Bool) (off n : Nat) : Option Nat :=
  match eKind e with
  | 0 | 3 => if s.inMemory (eBase e + off) n then some (eBase e) else none
  | 1 => (domIndex (s.space? w.space) (eDom e) w.pk).bind (s.instanceFrame e level w.pk)
  | _ =>
    if isStore then s.instanceFrame e level w.pr (ePrim e)
    else (domIndex (s.space? w.space) (eDom e) w.pr).bind (s.instanceFrame e level w.pr)

/-- The frames of the copies of a REPLICA page other than its primary. -/
def State.copyFrames (s : State) (w : Who) (e level : Nat) : List Nat :=
  (upto 0 (instances (s.space? w.space) (eDom e))).filterMap
    (fun i => if i = ePrim e then none else s.instanceFrame e level w.pr i)

/-! ### Places -/

/-- Where one part of an access lands. `page` is the page's first address, `copies` the places of the same bytes in
the other copies of a REPLICA page. -/
structure Loc where
  va : Nat
  n : Nat
  key : Nat
  win : Option Win := none
  entry : Nat := 0
  level : Nat := 0
  copies : List Nat := []
  deriving DecidableEq, Repr

/-- Check 2 of R203 for one part, and where it lands. -/
def State.locate (s : State) (w : Who) (k : Kind) (p : Nat × Nat) : Res Loc :=
  let (va, n) := p
  match winOf va with
  | some .core => .ok { va := va, n := n, key := coreKey w.space (posDev w.pk) (posCore w.pk) (va % 2 ^ 40), win := some .core }
  | some .hearth =>
    .ok { va := va, n := n, key := hearthKey w.space (posDev w.pk) (posTower w.pk) (va % 2 ^ 40), win := some .hearth }
  | some win => .ok { va := va, n := n, key := statusKey (posDev w.pr) (va % 2 ^ 40), win := some win }
  | none =>
    match s.leaf w.by_ w.space (posTower w.here) va with
    | .trap t => .trap t
    | .wait n => .wait n
    | .ok (e, level) =>
      let off := va % pageSize level
      match s.frame w e level (k == .store) off n with
      | none => .trap (xlatTrap 5 level va)
      | some f =>
        if eSup e && !w.priv then .trap (xlatTrap 4 level va)
        else if k.writes && !eW e then .trap (xlatTrap 3 level va)
        else .ok { va := va, n := n, key := f + off, entry := e, level := level,
                   copies := if eKind e = 2 && k == .store then (s.copyFrames w e level).map (fun g => g + off) else [] }

/-- Check 3 of R203 (spec R67). -/
def replCheck (k : Kind) (l : Loc) : Res Unit :=
  if l.win.isNone && eKind l.entry = 2 then
    match k with
    | .atomic _ | .arrive => .trap { cls := .repl, cause := 1, va := BitVec.ofNat 64 l.va }
    | .prop | .crd | .crcy => .trap { cls := .repl, cause := 2, va := BitVec.ofNat 64 l.va }
    | _ => .ok ()
  else .ok ()

/-- Check 4 of R203 (spec R68, R162, R215). -/
def typeCheck (k : Kind) (l : Loc) : Res Unit :=
  let once := l.win.isNone && eKind l.entry = 3
  let t (c : Nat) : Res Unit := .trap { cls := .amotype, cause := c, va := BitVec.ofNat 64 l.va }
  if k.cell then (if once then .ok () else t 2)
  else if once then t (if k = .fetch then 5 else 1)
  else if k = .atomic true && decide (l.key / 2 ^ 48 = 0xFFF) then t 3
  else .ok ()

/-- Check 5 of R203. -/
def stewardCheck (k : Kind) (l : Loc) : Res Unit :=
  if k = .crcy && !eStew l.entry then .trap { cls := .priv, cause := 4, va := BitVec.ofNat 64 l.va } else .ok ()

/-- The destination of the travel that a part sets off (spec R29, R70), none where it is performed in place. -/
def travelOf (w : Who) (k : Kind) (l : Loc) : Option Pos :=
  let dev := BitVec.ofNat 12 (l.key / 2 ^ 48)
  if k = .fetch || k = .template || l.win.isSome || !eTravel l.entry || dev = 0xFFF then none
  else
    let t := memTower (l.key % 2 ^ 48)
    if dev = posDev w.here && t = posTower w.here then none
    else some (posOf dev (t * 64))

/-- Check 6 of R203 (spec R77). -/
def State.darkCheck (s : State) (l : Loc) : Res Unit :=
  let t (layer : Nat) : Res Unit :=
    if s.powerOf layer = .off then
      .trap { cls := .dark, cause := 1, detail := layer, va := BitVec.ofNat 64 l.va }
    else .ok ()
  match l.win with
  | some .hearth => t (l.key / 2 ^ 29 % 8)
  | some _ => .ok ()
  | none => if l.key / 2 ^ 48 = s.dev.toNat then t (layerOf (l.key % 2 ^ 48)) else .ok ()

/-- The first bad granule that bytes touch (spec R344). -/
def State.badByte (s : State) (key n : Nat) : Option Nat :=
  (upto 0 n).find? (fun i => s.bad.contains ((key + i) / 16))

/-- Check 7 of R203. -/
def State.dataCheck (s : State) (k : Kind) (l : Loc) : Res Unit :=
  if k.reads then
    match s.badByte l.key l.n with
    | some i => .trap { cls := .data, cause := 1, va := BitVec.ofNat 64 (l.va + i) }
    | none => .ok ()
  else .ok ()

/-- What the checks of R203 find. -/
inductive Found
  | ok (locs : List Loc)
  | trap (t : Trap)
  | wait (need : Option Nat)
  | travel (dest : Pos) (va : Nat)
  deriving DecidableEq, Repr

/-- The checks of R203, in their order, over every byte of an access. -/
def State.access (s : State) (w : Who) (k : Kind) (va : Word) (n align : Nat) : Found :=
  match s.addrCheck w k va.toNat n align with
  | .trap t => .trap t
  | .wait n => .wait n
  | .ok _ =>
    match Res.map (s.locate w k) (parts va.toNat n) with
    | .trap t => .trap t
    | .wait n => .wait n
    | .ok locs =>
      match Res.all (replCheck k) locs with
      | .trap t => .trap t
      | .wait n => .wait n
      | .ok _ =>
        match Res.all (typeCheck k) locs with
        | .trap t => .trap t
        | .wait n => .wait n
        | .ok _ =>
          match Res.all (stewardCheck k) locs with
          | .trap t => .trap t
          | .wait n => .wait n
          | .ok _ =>
            match locs.findSome? (fun l => (travelOf w k l).map (fun d => (d, l.va))) with
            | some (d, va) => .travel d va
            | none =>
              match Res.all s.darkCheck locs with
              | .trap t => .trap t
              | .wait n => .wait n
              | .ok _ =>
                match Res.all (s.dataCheck k) locs with
                | .trap t => .trap t
                | .wait n => .wait n
                | .ok _ => .ok locs

end Sys2Proof.Machine
end

