-- ==== Sys2Proof/Machine/Context.lean ====
section
/-! DEFINITION. Contexts in memory: the header image, register lines, and what reads and writes them
(spec R10 to R13, R41, R45, R46). -/

namespace Sys2Proof.Machine

/-- Thread state codes (spec R22). -/
def ThState.code : ThState → Nat
  | .created => 0 | .dormant => 1 | .resident => 2 | .active => 3 | .parked => 4 | .trapped => 5 | .travelling => 6
  | .done => 7

/-- The thread state of a code. -/
def ThState.ofCode (n : Nat) : ThState :=
  match n with
  | 0 => .created | 1 => .dormant | 2 => .resident | 3 => .active | 4 => .parked | 5 => .trapped | 6 => .travelling
  | _ => .done

/-- The header as one number (spec R11), with a state code. -/
def Thread.header (t : Thread) (state : Nat) : Nat :=
  pack [(64, t.pc.toNat), (3, state), (1, b2n t.priv), (4, t.prio.toNat), (1, b2n t.policy), (1, b2n t.order),
    (1, b2n t.ftz16), (1, 0), (4, t.parkc.toNat), (16, t.space.toNat), (32, 0),
    (32, t.anchor.toNat), (32, t.cur.toNat), (7, t.gcount.toNat), (1, 0), (8, t.vcount.toNat), (8, t.vbase.toNat),
    (8, t.tbase.toNat), (7, t.rsize.toNat), (25, 0), (64, t.fpst.toNat), (64, t.vtype.toNat), (32, t.index.toNat),
    (32, t.launch.toNat), (64, t.parkva.toNat), (8, t.trclass.toNat), (56, t.trinfo.toNat), (64, t.trva.toNat),
    (64, t.trpc.toNat), (32, t.barg.toNat), (32, 0), (63, t.hotl.toNat), (1, 0), (3, t.hotn.toNat), (61, 0),
    (32, t.dest.toNat), (32, 0), (64, t.age.toNat)]

/-- A thread's record with the header fields that a header image holds; the reserved bits of FPST read as zero
(spec R115), and PC is taken as it is (log entry 114). -/
def Thread.ofHeader (t : Thread) (h : Nat) : Thread :=
  { t with
    pc := BitVec.ofNat 64 (bits h 63 0)
    priv := bit h 67
    prio := BitVec.ofNat 4 (bits h 71 68)
    policy := bit h 72
    order := bit h 73
    ftz16 := bit h 74
    parkc := BitVec.ofNat 4 (bits h 79 76)
    space := BitVec.ofNat 16 (bits h 95 80)
    anchor := BitVec.ofNat 32 (bits h 159 128)
    cur := BitVec.ofNat 32 (bits h 191 160)
    gcount := BitVec.ofNat 7 (bits h 198 192)
    vcount := BitVec.ofNat 8 (bits h 207 200)
    vbase := BitVec.ofNat 8 (bits h 215 208)
    tbase := BitVec.ofNat 8 (bits h 223 216)
    rsize := BitVec.ofNat 7 (bits h 230 224)
    fpst := BitVec.ofNat 64 (bits h 261 256)
    vtype := BitVec.ofNat 64 (bits h 383 320)
    index := BitVec.ofNat 32 (bits h 415 384)
    launch := BitVec.ofNat 32 (bits h 447 416)
    parkva := BitVec.ofNat 64 (bits h 511 448)
    trclass := BitVec.ofNat 8 (bits h 519 512)
    trinfo := BitVec.ofNat 56 (bits h 575 520)
    trva := BitVec.ofNat 64 (bits h 639 576)
    trpc := BitVec.ofNat 64 (bits h 703 640)
    barg := BitVec.ofNat 32 (bits h 735 704)
    hotl := BitVec.ofNat 63 (bits h 830 768)
    hotn := BitVec.ofNat 3 (bits h 834 832)
    dest := BitVec.ofNat 32 (bits h 927 896)
    age := BitVec.ofNat 64 (bits h 1023 960) }

/-- Whether a VTYPE value is one that a thread may hold (spec R41). -/
def vtypeOk (x : Nat) : Bool :=
  match ETy.ofCode (BitVec.ofNat 4 (bits x 3 0)) with
  | some t => bits x 7 4 == 0 && bits x 63 17 == 0 && decide (bits x 16 8 ≤ t.vlmax)
  | none => false

/-- Whether views fit a register space (spec R15 code 2). -/
def viewsOk (gcount vcount vbase tbase rsize : Nat) : Bool :=
  let n := (rsize + 1) * 512
  decide (16 ≤ gcount) && decide (gcount ≤ 64) && decide (gcount * 8 ≤ n) && decide (vbase * 256 + vcount * 256 ≤ n) &&
    (tbase == 0xFF || decide (tbase * 256 + 16384 ≤ n))

/-- The header checks of R13 and R41. PC is not among them: a thread whose header gives it a PC that is no multiple of 4 is activated, and
its fetch traps (log entry 114). -/
def headerOk (h : Nat) : Bool :=
  bits h 2047 1024 == 0 && bits h 959 928 == 0 && bits h 895 835 == 0 && !bit h 831 && bits h 767 736 == 0 &&
    bits h 255 231 == 0 && !bit h 199 && bits h 127 96 == 0 && !bit h 75 &&
    bits h 138 128 == 0 && bits h 170 160 == 0 && vtypeOk (bits h 383 320) &&
    viewsOk (bits h 198 192) (bits h 207 200) (bits h 215 208) (bits h 223 216) (bits h 230 224)

/-- Where `n` bytes of a context stand, if their page serves contexts (spec R13, R317): SHARED, writable, without the
travel attribute or a format, in memory that is on. -/
def State.ctxPlace (s : State) (t : Thread) (va n : Nat) : Option Nat :=
  if 2 ^ 57 ≤ va + n then none
  else if (winOf va).isSome then none
  else
    match s.leaf t.key t.space (posTower t.cur) va with
    | .ok (e, level) =>
      let f := eBase e + va % pageSize level
      if eKind e == 0 && !eTravel e && eFmt e == 0 && eW e && s.inMemory f n &&
          (f / 2 ^ 48 != s.dev.toNat || s.powerOf (layerOf (f % 2 ^ 48)) != .off) then some f
      else none
    | _ => none

/-- The header's place. -/
def State.headerPlace (s : State) (t : Thread) : Option Nat := s.ctxPlace t t.ctx.toNat 256

/-- The place of a register line. -/
def State.linePlace (s : State) (t : Thread) (j : Nat) : Option Nat := s.ctxPlace t (t.ctx.toNat + 256 + 128 * j) 128

/-- A register line is written back; a bad one leaves its memory image as it is (spec R344). -/
def State.writeLine (s : State) (t : Thread) (j : Nat) : Option State :=
  (s.linePlace t j).map (fun f => if t.badLines.contains j then s else s.store f (t.regs.readBytes (128 * j) 128))

/-- The header is written back with a state code. -/
def State.writeHeader (s : State) (t : Thread) (state : Nat) : Option State :=
  (s.headerPlace t).map (fun f => s.store f (leBytes 256 (t.header state)))

/-- STATE alone changes at the header's home, as one step; a header without a place keeps its memory. -/
def State.writeState (s : State) (t : Thread) (state : Nat) : State :=
  match s.headerPlace t with
  | some f => s.store (f + 8) [BitVec.ofNat 8 ((s.mem.read (f + 8)).toNat / 8 * 8 + state)]
  | none => s

/-- The thread left PARKED with its context in memory alone, whose image is the one that counts (spec R12, R23): STATE
becomes 1, PARKC and PARKVA become 0, and no other field changes. -/
def State.writeWake (s : State) (t : Thread) : State :=
  match s.headerPlace t with
  | some f =>
    (s.store (f + 8) [BitVec.ofNat 8 ((s.mem.read (f + 8)).toNat / 8 * 8 + 1),
      BitVec.ofNat 8 ((s.mem.read (f + 9)).toNat % 16)]).store (f + 56) (leBytes 8 0)
  | none => s

/-- A class CTXF trap (spec R343). -/
def ctxfTrap (cause detail va : Nat) : Trap :=
  { cls := .ctxf, cause := cause, detail := detail, va := BitVec.ofNat 64 va }

/-- A register line is filled from memory and becomes resident, clean; a line over a bad granule is bad, and so stays one that was
bad when its register cache gave it up unread (spec R344, log entry 106). None where the page cannot serve it. -/
def State.fillLine (s : State) (t : Thread) (j : Nat) : Option Thread :=
  (s.linePlace t j).map (fun f =>
    { t with
      regs := t.regs.writeBytes (128 * j) (s.mem.readBytes f 128)
      lines := j :: t.lines
      alloc := t.alloc.filter (fun i => i != j)
      badLines := if (s.badByte f 128).isSome then j :: t.badLines else t.badLines })

/-- Write back lines, one after another. The lines that could not be written come second. -/
def State.writeLines (s : State) (t : Thread) : List Nat → State × List Nat
  | [] => (s, [])
  | j :: r =>
    match s.writeLine t j with
    | some s' => s'.writeLines t r
    | none => let (s', lost) := s.writeLines t r; (s', j :: lost)

/-- A register line is allocated for a word that writes all of it (spec R45): it takes the bytes of its image where they
can be had, which a word that traps leaves as they are (spec R46), and is not resident before the word has written it. -/
def State.allocLine (s : State) (t : Thread) (j : Nat) : Thread :=
  let bs := match s.linePlace t j with
    | some f => s.mem.readBytes f 128
    | none => []
  { t with
    regs := t.regs.writeBytes (128 * j) bs
    alloc := j :: t.alloc }

/-- The resident lines that memory does not hold yet. -/
def Thread.dirtyLines (t : Thread) : List Nat := t.lines.filter t.dirty.contains

/-- Lines were written by an instruction: they are resident and dirty, and good where they were allocated to be written whole. -/
def Thread.wrote (t : Thread) (ls : List Nat) : Thread :=
  { t with
    lines := (ls.filter (fun j => t.alloc.contains j && !t.lines.contains j)) ++ t.lines
    alloc := t.alloc.filter (fun j => !ls.contains j)
    badLines := t.badLines.filter (fun j => !(ls.contains j && t.alloc.contains j))
    dirty := ls.filter (fun j => !t.dirty.contains j) ++ t.dirty }

/-- Register lines of a thread's register space. -/
def Thread.allLines (t : Thread) : List Nat := upto 0 (t.space_bytes / 128)

/-- The marks of bad lines that outlast their residency: of those that memory does not hold (spec R344). -/
def Thread.lostMarks (t : Thread) : List Nat := t.badLines.filter (fun j => t.dirty.contains j || !t.lines.contains j)

/-- Forget the bytes of register lines that are not resident. -/
def Thread.dropLine (t : Thread) (j : Nat) : Thread :=
  { t with
    regs := t.regs.clear (128 * j) 128
    lines := t.lines.filter (fun i => i != j)
    alloc := t.alloc.filter (fun i => i != j)
    dirty := t.dirty.filter (fun i => i != j)
    badLines := t.badLines.filter (fun i => i != j || t.lostMarks.contains j) }

end Sys2Proof.Machine
end

