-- ==== Sys2Proof/Machine/Caches.lean ====
section
/-! DEFINITION. Tile caches, hearth caches and the directory: which lines they hold, in which states, and what a request
does to them (spec R56, R57, R352 to R354, R358, R359). The value of a line is the one that stands in `State.mem`: a copy
in these caches has no bytes of its own. -/

namespace Sys2Proof.Machine

/-! ### Ranges and probes of an L1 -/

/-- Whether two ranges share a byte. -/
def overlaps (a b : Nat × Nat) : Bool := decide (a.1 < b.1 + b.2) && decide (b.1 < a.1 + a.2)

/-- Whether two lists of ranges share a byte. -/
def rangesMeet (a b : List (Nat × Nat)) : Bool := a.any (fun x => b.any (overlaps x))

/-- A probe of a range is forwarded to those L1s of the cores that a test names which hold lines of it, and does not wait for
them (spec R352). -/
def State.probeL1s (s : State) (p : Nat → Bool) (key n : Nat) : State :=
  { s with cores := s.cores.map (fun c => (c.1,
      if p c.1 && c.2.l1.any (fun l => overlaps (l.key, 128) (key, n)) then { c.2 with probes := (key, n) :: c.2.probes } else c.2)) }

/-- The same for every core. -/
def State.forwardProbe (s : State) (key n : Nat) : State := s.probeL1s (fun _ => true) key n

/-! ### Directory entries (spec R353) -/

/-- The directory entry of a line number. -/
def State.dirEntry (s : State) (line : Nat) : DirEntry :=
  match s.dir.find? (fun d => d.line == line) with
  | some d => d
  | none => { line := line }

/-- Whether an entry tracks a copy that a peer or the host holds. -/
def DirEntry.outside (d : DirEntry) : Bool := d.ownerDev.isSome || !d.rdev.isEmpty || d.rovf || d.host != 0

/-- Whether an entry tracks a copy within the module. -/
def DirEntry.inside (d : DirEntry) : Bool := d.owner.isSome || !d.hshr.isEmpty || !d.sharers.isEmpty

/-- A state with a directory entry, used last; an entry that tracks nothing is free. -/
def State.setDir (s : State) (d : DirEntry) : State :=
  let r := s.dir.filter (fun x => x.line != d.line)
  if d.state != .busy && !d.outside && !d.inside then { s with dir := r } else { s with dir := d :: r }

/-- A directory entry in the state that what it tracks gives it. -/
def DirEntry.settled (d : DirEntry) : DirEntry :=
  { d with
    state := if d.ownerDev.isSome then .e
      else if d.owner.isSome then (if d.state = .o then .o else if d.state = .m then .m else .e)
      else if d.outside || d.inside then .s else .free
    down := false }

/-- The codes of STATE. -/
def DirState.code : DirState → Nat
  | .free => 0 | .s => 1 | .e => 2 | .m => 3 | .o => 4 | .busy => 5

/-- The bits of an entry of a home (spec R353). A peer that owns the line stands in RDEV entry 0. -/
def DirEntry.word (d : DirEntry) : BitVec 256 :=
  let devs := match d.ownerDev with
    | some o => o :: d.rdev.filter (fun x => x != o)
    | none => d.rdev
  let owner := match d.ownerDev, d.owner with
    | some _, _ => 136
    | none, some (.tile i) => i
    | none, some (.hearth t) => 128 + t
    | none, none => 255
  BitVec.ofNat 256 (pack [(128, d.sharers.foldl (fun a i => a ||| 2 ^ i) 0), (16, 0), (8, d.hshr.foldl (fun a t => a ||| 2 ^ t) 0),
    (8, owner), (3, 0), (3, d.state.code), (2, d.host.toNat), (41, d.line), (2, min 2 devs.length), (1, b2n d.rovf),
    (12, (devs.getD 0 0).toNat), (12, (devs.getD 1 0).toNat)])

/-- The number of the entry that a tower's slice keeps for a line homed elsewhere (spec R354, R359, R364). -/
def sliceLine (tower unit : Nat) : Nat := 2 ^ 64 + tower * 2 ^ 56 + unit

/-- The slice of a number. -/
def sliceOf (line : Nat) : Nat := if line < 2 ^ 64 then memTower (line * 128) else (line - 2 ^ 64) / 2 ^ 56

/-- The slice that is the agent of a host line (spec R359), by the number of the line. -/
def agentSlice (unit : Nat) : Nat :=
  let pa := unit * 128 % 2 ^ 48
  bits pa 9 7 ^^^ bits pa 12 10 ^^^ bits pa 15 13

/-- The other entries of the set of a number, last used first: one of the 65,536 sets of its slice (spec R353). -/
def State.dirSet (s : State) (line : Nat) : List DirEntry :=
  s.dir.filter (fun d => d.line != line && sliceOf d.line == sliceOf line && d.line % 65536 == line % 65536)

/-- The entry that makes room for a number: none where it has one or the set has a free way (spec R353). -/
def State.dirVictim (s : State) (line : Nat) : Option DirEntry :=
  if s.dir.any (fun d => d.line == line) || decide ((s.dirSet line).length < 16) then none
  else (s.dirSet line).reverse.find? (fun d => d.state != .busy)

/-! ### Lines within the module (spec R56, R57, R352) -/

/-- The state of a line in a tile cache. -/
def State.tileLine (s : State) (tile unit : Nat) : Option LineSt :=
  (s.caches.find? (fun c => c.tile == tile && c.unit == unit)).map (fun c => c.st)

/-- The state of a line in the hearth of a tower. -/
def State.hearthLine (s : State) (tower unit : Nat) : Option LineSt :=
  (s.hearths.find? (fun c => c.tower == tower && c.unit == unit)).map (fun c => c.st)

/-- Whether a line in a state may be touched: written in M or E alone (spec R352). -/
def LineSt.serves (x : LineSt) (excl : Bool) : Bool := !excl || x == .e || x == .m

/-- Whether a line in a state is dirty. -/
def LineSt.dirty (x : LineSt) : Bool := x == .m || x == .o

/-- A line after another cache was given a copy of it: it is written no more. -/
def LineSt.shared : LineSt → LineSt
  | .m => .o
  | .e => .s
  | x => x

/-- Whether a space has a share of hearth cache in a tower (spec R298). -/
def State.hasHearth (s : State) (space : BitVec 16) (tower : Nat) : Bool :=
  match s.space? space with
  | some x => decide (0 < x.hc tower)
  | none => false

/-- Some tiles lose a line, and their L1s are told (spec R352). -/
def State.dropTiles (s : State) (unit : Nat) (p : Nat → Bool) : State :=
  if s.caches.any (fun c => c.unit == unit && p c.tile) then
    { s with caches := s.caches.filter (fun c => !(c.unit == unit && p c.tile)) }.probeL1s
      (fun core => s.caches.any (fun c => c.unit == unit && c.tile == core / 4 && p c.tile)) (unit * 128) 128
  else s

/-- The entry of a tower's slice for a line is given up. -/
def State.dropSlice (s : State) (tower unit : Nat) : State :=
  { s with dir := s.dir.filter (fun d => d.line != sliceLine tower unit) }

/-- The hearths of some towers, and the entries that their slices keep, lose a line. -/
def State.dropHearths (s : State) (unit : Nat) (p : Nat → Bool) : State :=
  if s.hearths.any (fun h => h.unit == unit && p h.tower) || s.dir.any (fun d => decide (2 ^ 64 ≤ d.line)) then
    { s with
      hearths := s.hearths.filter (fun h => !(h.unit == unit && p h.tower))
      dir := s.dir.filter (fun d => !(decide (2 ^ 64 ≤ d.line) && d.line % 2 ^ 56 == unit && p (sliceOf d.line))) }
  else s

/-- The hearths of some towers lose a line: their tiles lose it first (spec R354). -/
def State.dropTowers (s : State) (unit : Nat) (p : Nat → Bool) : State :=
  (s.dropTiles unit (fun i => p (i / 16))).dropHearths unit p

/-- Some holders of a line within the module write it no more. -/
def State.shareLine (s : State) (unit : Nat) (tiles towers : Nat → Bool) : State :=
  { s with
    caches := s.caches.map (fun c => if c.unit == unit && tiles c.tile then { c with st := c.st.shared } else c)
    hearths := s.hearths.map (fun h => if h.unit == unit && towers h.tower then { h with st := h.st.shared } else h) }

/-- What the host has answered for a load of a line has served that load: the next one asks again (spec R360). -/
def State.endSnoop (s : State) (line : Nat) : State :=
  let d := s.dirEntry line
  if d.hostS = 0 then s else s.setDir { d with hostS := 0 }

/-- Every copy within the module of a line homed here is recalled for a request of another agent: all of them go, or the owner
becomes a sharer and what is dirty goes home (spec R353, R360). -/
def State.recallInside (s : State) (excl : Bool) (line : Nat) : State :=
  let s := s.endSnoop line
  let unit := s.dev.toNat * 2 ^ 41 + line
  let d := s.dirEntry line
  if d.inside = false then s
  else if excl then (s.dropTowers unit (fun _ => true)).setDir { d with owner := none, hshr := [], sharers := [] }.settled
  else
    let s : State := { s with
      caches := s.caches.map (fun (c : CacheLine) => if c.unit == unit then { c with st := .s } else c)
      hearths := s.hearths.map (fun (h : HearthLine) => if h.unit == unit then { h with st := .s } else h) }
    s.setDir ({ d with
      owner := none
      hshr := match d.owner with | some (.hearth t) => t :: d.hshr | _ => d.hshr
      sharers := match d.owner with | some (.tile i) => i :: d.sharers | _ => d.sharers } : DirEntry).settled

/-! ### Halves of host memory (spec R358, R359) -/

/-- Something is sent toward a host. -/
def State.toHost (s : State) (m : HostMsg) : State := { s with outHost := s.outHost ++ [m] }

/-- The agent's entry of a host line, by the number of the line: the tiles that hold a half, and the one that holds one in ownership
(spec R359). -/
def State.trackHost (s : State) (unit : Nat) : State :=
  let mine := s.halves.filter (fun h => h.unit / 2 == unit)
  let own := mine.find? (fun h => h.st == .e || h.st == .m)
  s.setDir ({ line := sliceLine (agentSlice unit) unit, owner := own.map (fun h => Holder.tile h.tile),
              sharers := (mine.map (fun h => h.tile)).eraseDups,
              state := if mine.any (fun h => h.st == .m) then .m else .s } : DirEntry).settled

/-- A tile gives up a half of host memory (spec R358). -/
def State.evictHalf (s : State) (h : HalfLine) : State :=
  let s := match h.st with
    | .m => s.toHost (.dirtyEvict h.unit (s.mem.readBytes (h.unit * 64) 64))
    | .e => s.toHost (.cleanEvict h.unit)
    | _ => s
  ({ s with halves := s.halves.filter (fun x => x != h) }.trackHost (h.unit / 2)).probeL1s (fun c => c / 4 == h.tile) (h.unit * 64) 64

/-- Tiles other than one lose a half, and their L1s are told (spec R352, R359). -/
def State.takeHalf (s : State) (half tile : Nat) : State :=
  let lost (h : HalfLine) : Bool := h.unit == half && h.tile != tile
  if s.halves.any lost then
    { s with halves := s.halves.filter (fun h => !lost h) }.probeL1s
      (fun c => s.halves.any (fun h => lost h && h.tile == c / 4)) (half * 64) 64
  else s

/-- An entry of a set makes room for another: every copy within the module that it tracks is recalled, of host memory what is dirty goes
home (spec R353). -/
def State.recallEntry (s : State) (d : DirEntry) : State :=
  if d.line < 2 ^ 64 then s.recallInside true d.line
  else if d.line % 2 ^ 56 / 2 ^ 41 = 0xFFF then
    (s.halves.filter (fun h => h.unit / 2 == d.line % 2 ^ 56)).foldl State.evictHalf s
  else s.dropTowers (d.line % 2 ^ 56) (fun t => t == sliceOf d.line)

/-- A way is free for a number; an entry that tracks copies outside is not reused here (`State.dirRecall`). -/
def State.dirRoom (s : State) (line : Nat) : State :=
  match s.dirVictim line with
  | some d => if d.outside then s else s.recallEntry d
  | none => s

/-- The line of a requester in the state that its request gave it, used last. -/
def State.setTileLine (s : State) (tile unit : Nat) (st : LineSt) : State :=
  { s with caches := { tile := tile, unit := unit, st := st } :: s.caches.filter (fun c => !(c.tile == tile && c.unit == unit)) }

/-- The requester-side copy of a hearth, used last. -/
def State.setHearthLine (s : State) (tower : Nat) (space : BitVec 16) (unit : Nat) (st : LineSt) : State :=
  { s with hearths := { tower := tower, space := space, unit := unit, st := st } ::
      s.hearths.filter (fun c => !(c.tower == tower && c.unit == unit)) }

/-- A request within the module for a line homed here is served at the home (spec R353): every other copy is invalidated, or
the owner shares. The state of the copy that the requester receives comes second: E where no other cache holds the line. -/
def State.homeServe (s : State) (line : Nat) (who : Holder) (excl : Bool) : State × LineSt :=
  let s := s.dirRoom line
  let unit := s.dev.toNat * 2 ^ 41 + line
  let d := s.dirEntry line
  let alone := !d.outside && !d.inside
  if excl then
    let s := match who with
      | .tile i => (s.dropTiles unit (fun j => j != i)).dropHearths unit (fun _ => true)
      | .hearth t => s.dropTowers unit (fun u => u != t)
    (s.setDir { d with owner := some who, hshr := [], sharers := [], state := .m }, .m)
  else if alone then (s.setDir { d with owner := some who, state := .e }, .e)
  else
    let s := s.shareLine unit (fun i => some (Holder.tile i) != some who) (fun t => some (Holder.hearth t) != some who)
    let dirty := s.caches.any (fun c => c.unit == unit && c.st == .o) || s.hearths.any (fun h => h.unit == unit && h.st == .o)
    let keep := if dirty then d.owner else none
    let old := if dirty then none else d.owner
    let d := { d with
      owner := keep
      hshr := ((match who with | .hearth t => [t] | _ => []) ++ (match old with | some (.hearth t) => [t] | _ => []) ++ d.hshr).eraseDups
      sharers := ((match who with | .tile i => [i] | _ => []) ++ (match old with | some (.tile i) => [i] | _ => []) ++ d.sharers).eraseDups
      state := if dirty then .o else .s }
    (s.setDir d, .s)

/-- A request of a tile is served by its own tower's slice, which has the line for the tower (spec R354, R364). `top` is the
state of the tower's copy. -/
def State.sliceServe (s : State) (tile unit : Nat) (top : LineSt) (excl : Bool) : State :=
  let n := sliceLine (tile / 16) unit
  let s := s.dirRoom n
  let d := s.dirEntry n
  let mine (i : Nat) : Bool := i / 16 == tile / 16 && i != tile
  if excl then
    let s := s.dropTiles unit mine
    (s.setDir { d with owner := some (.tile tile), sharers := [], state := .m }).setTileLine tile unit .m
  else
    let s := s.shareLine unit mine (fun _ => false)
    let others := s.caches.any (fun c => c.unit == unit && mine c.tile)
    let alone := !others && (top == .e || top == .m)
    let dirty := s.caches.any (fun c => c.unit == unit && mine c.tile && c.st == .o)
    let s := if alone then s.setDir { d with owner := some (.tile tile), sharers := [], state := .e }
      else
        let old := match d.owner with | some (.tile i) => if dirty then [] else [i] | _ => []
        s.setDir { d with
          owner := if dirty then d.owner else none
          sharers := (tile :: (old ++ d.sharers)).eraseDups
          state := if dirty then .o else .s }
    s.setTileLine tile unit (if alone then .e else .s)

/-! ### Room in the caches (spec R56, R57) -/

/-- A tile gives up a line that it holds; what is dirty goes to the home or to the hearth, which tracks an owner no more. A
clean line goes without a message. -/
def State.evictTile (s : State) (tile unit : Nat) : State :=
  match s.tileLine tile unit with
  | none => s
  | some st =>
    let s := { s with caches := s.caches.filter (fun c => !(c.tile == tile && c.unit == unit)) }
    if st.dirty then
      let give (s : State) (line : Nat) : State :=
        let d := s.dirEntry line
        if d.owner == some (.tile tile) then s.setDir ({ d with owner := none } : DirEntry).settled else s
      let s := give s (sliceLine (tile / 16) unit)
      if unit / 2 ^ 41 = s.dev.toNat then give s (unit % 2 ^ 41) else s
    else s

/-- The set of a tile cache that a line falls into: one of 1,024 (spec R56). -/
def cacheSet (unit : Nat) : Nat := unit % 1024

/-- The lines of a tile's set, last used first: of module and peer memory, and of host memory. -/
def State.tileSet (s : State) (tile unit : Nat) : List Nat :=
  (s.caches.filter (fun c => c.tile == tile && cacheSet c.unit == cacheSet unit)).map (fun c => c.unit)
/-- The host lines of a tile's set, last used first. -/
def State.hostSet (s : State) (tile unit : Nat) : List Nat :=
  ((s.halves.filter (fun h => h.tile == tile && cacheSet (h.unit / 2) == cacheSet unit)).map (fun h => h.unit / 2)).eraseDups
/-- The decided cells that take a way of a tile's set (spec R55, R56). -/
def State.cellSet (s : State) (tile unit : Nat) : List CellCopy :=
  (s.tile tile).cells.filter (fun c => cacheSet (c.key / 128) == cacheSet unit)

/-- A tile cache has a way for a line: the line of module or peer memory that was used longest ago goes, or with none a host
line or a decided cell. -/
def State.tileRoom (s : State) (tile unit : Nat) : State :=
  let lines := s.tileSet tile unit
  let hosts := s.hostSet tile unit
  let cells := s.cellSet tile unit
  if lines.contains unit || hosts.contains unit || decide (lines.length + hosts.length + cells.length < 16) then s
  else
    match lines.getLast?, hosts.getLast?, cells.getLast? with
    | some u, _, _ => s.evictTile tile u
    | none, some u, _ => (s.halves.filter (fun h => h.tile == tile && h.unit / 2 == u)).foldl State.evictHalf s
    | none, none, some c => s.setTile tile { s.tile tile with cells := (s.tile tile).cells.filter (fun x => x != c) }
    | none, none, none => s

/-- The hearth of a tower gives up a line: its tiles lose it first, and its home is told (spec R353, R354). -/
def State.evictHearth (s : State) (tower unit : Nat) : State :=
  let s := s.dropTowers unit (fun t => t == tower)
  let d := s.dirEntry (unit % 2 ^ 41)
  if unit / 2 ^ 41 = s.dev.toNat then
    s.setDir ({ d with
      owner := if d.owner == some (.hearth tower) then none else d.owner
      hshr := d.hshr.filter (fun t => t != tower) } : DirEntry).settled
  else s

/-- A space's share of a hearth has room for a line: the line that was used longest ago goes, and its tiles lose it first. -/
def State.hearthRoom (s : State) (tower : Nat) (space : BitVec 16) (unit : Nat) : State :=
  let mine := s.hearths.filter (fun h => h.tower == tower && h.space == space)
  let cap := match s.space? space with | some x => x.hc tower * 8192 | none => 0
  if mine.any (fun h => h.unit == unit) || decide (mine.length < cap) then s
  else
    match mine.getLast? with
    | some h => s.evictHearth tower h.unit
    | none => s

/-! ### What an access of a tile does (spec R354, R358, R359, R364) -/

/-- A tile comes to hold a line homed here, shared or to write it. While the host may hold a half of the line no tile keeps it, and
each access that meets such a half is answered by the host first (spec R360). -/
def State.reachLocal (s : State) (tile : Nat) (space : BitVec 16) (excl : Bool) (unit : Nat) : State :=
  let line := unit % 2 ^ 41
  let tower := tile / 16
  let d := s.dirEntry line
  if d.host ≠ 0 then
    let s := s.endSnoop line
    if excl then s.recallInside true line else s
  else
  let s := s.tileRoom tile unit
  if tower != memTower (line * 128) && s.hasHearth space tower then
    match s.hearthLine tower unit with
    | some top =>
      if top.serves excl then (s.setHearthLine tower space unit (if excl then .m else top)).sliceServe tile unit top excl
      else
        let (s, top) := s.homeServe line (.hearth tower) excl
        (s.setHearthLine tower space unit top).sliceServe tile unit top excl
    | none =>
      let (s, top) := (s.hearthRoom tower space unit).homeServe line (.hearth tower) excl
      (s.setHearthLine tower space unit top).sliceServe tile unit top excl
  else
    let (s, st) := s.homeServe line (.tile tile) excl
    s.setTileLine tile unit st

/-- A shared line of a peer that the module's caches had dropped is theirs again: its home still counts the module (log entry 71). -/
def State.unghost (s : State) (unit : Nat) : State :=
  if s.ghosts.contains unit then
    { s with
      ghosts := s.ghosts.filter (fun u => u != unit)
      remote := { unit := unit, st := .s } :: s.remote }
  else s

/-- A tile comes to hold a line of a peer that the module holds, through its tower's hearth where the space has one there. -/
def State.reachPeer (s : State) (tile : Nat) (space : BitVec 16) (excl : Bool) (unit : Nat) : State :=
  if s.remote.all (fun r => r.unit != unit) && !s.ghosts.contains unit then s
  else
  let s := s.unghost unit
  let tower := tile / 16
  let s := s.tileRoom tile unit
  let s := if excl then s.dropTowers unit (fun t => t != tower)
    else s.shareLine unit (fun i => i / 16 != tower) (fun t => t != tower)
  let s := if s.hasHearth space tower then (s.hearthRoom tower space unit).setHearthLine tower space unit (if excl then .m else .s) else s
  s.sliceServe tile unit (if excl then .m else .s) excl

/-- A tile comes to hold a half of host memory that the module holds. Its agent gives a half to one tile alone for ownership
(spec R359). -/
def State.reachHalf (s : State) (tile : Nat) (excl : Bool) (half : Nat) : State :=
  let s := s.tileRoom tile (half / 2)
  let n := sliceLine (agentSlice (half / 2)) (half / 2)
  match s.halves.find? (fun h => h.unit == half) with
  | none => s
  | some h =>
    let own := h.st == .e || h.st == .m
    let s := if own then s.takeHalf half tile else s
    let s := s.dirRoom n
    let mine : HalfLine := { tile := tile, unit := half, st := if excl then .m else h.st }
    { s with halves := mine :: s.halves.filter (fun x => !(x.unit == half && x.tile == tile)) }.trackHost (half / 2)

/-- A tile's access to a line, by the number of the line: it hits, or its request is served. -/
def State.reachLine (s : State) (tile : Nat) (space : BitVec 16) (excl : Bool) (unit : Nat) : State :=
  match s.tileLine tile unit with
  | some st =>
    if st.serves excl then s.setTileLine tile unit (if excl then .m else st)
    else if unit / 2 ^ 41 = s.dev.toNat then s.reachLocal tile space excl unit
    else s.reachPeer tile space excl unit
  | none =>
    if unit / 2 ^ 41 = s.dev.toNat then s.reachLocal tile space excl unit
    else s.reachPeer tile space excl unit

/-- The numbers of the units of `size` bytes that a range touches. -/
def unitsOf (size key n : Nat) : List Nat := upto (key / size) ((key + n - 1) / size + 1 - key / size)

/-- The hearth of a tower takes a requester-side copy of a line homed in another tower, where a space has a share there (spec R211,
R354). -/
def State.reachHearth (s : State) (tower : Nat) (space : BitVec 16) (unit : Nat) : State :=
  if s.hasHearth space tower && (s.hearthLine tower unit).isNone && unit / 2 ^ 41 == s.dev.toNat &&
      tower != memTower (unit % 2 ^ 41 * 128) && (s.dirEntry (unit % 2 ^ 41)).host == 0 then
    let (s, top) := (s.hearthRoom tower space unit).homeServe (unit % 2 ^ 41) (.hearth tower) false
    s.setHearthLine tower space unit top
  else s

/-- The tile caches after a tile has touched some places, all of them ready. -/
def State.reach (s : State) (tile : Nat) (space : BitVec 16) (excl : Bool) : List Loc → State
  | [] => s
  | l :: r =>
    if l.win.isSome || 2 ^ 60 ≤ l.key then s.reach tile space excl r
    else if l.key / 2 ^ 48 = 0xFFF then
      ((unitsOf 64 l.key l.n).foldl (fun a h => a.reachHalf tile excl h) s).reach tile space excl r
    else ((unitsOf 128 l.key l.n).foldl (fun a u => a.reachLine tile space excl u) s).reach tile space excl r

/-- The caches after an operation that the home performs (spec R214): one that may write invalidates every copy within the module. Of
host memory the tile performs it. -/
def State.reachHome (s : State) (tile : Nat) (excl : Bool) : List Loc → State
  | [] => s
  | l :: r =>
    if l.win.isSome || 2 ^ 60 ≤ l.key then s.reachHome tile excl r
    else if l.key / 2 ^ 48 = 0xFFF then ((unitsOf 64 l.key l.n).foldl (fun a h => a.reachHalf tile excl h) s).reachHome tile excl r
    else if l.key / 2 ^ 48 = s.dev.toNat then
      ((unitsOf 128 l.key l.n).foldl (fun a u => a.recallInside excl (u % 2 ^ 41)) s).reachHome tile excl r
    else s.reachHome tile excl r

end Sys2Proof.Machine
end

