-- ==== Sys2Proof/Machine/Access.lean ====
section
/-! DEFINITION. Performing accesses: bytes and windows, full and empty bits, lines held of peers and hosts, accesses
that stay outstanding, and what they wake (spec 03, 07, 24). -/

namespace Sys2Proof.Machine

/-! ### Reading bytes -/

/-- The shelves of a tower that are usable now (spec R73, R126). -/
def State.shelfUp (s : State) (t : Nat) : BitVec 4 :=
  let x := s.tower t
  if bit s.present.toNat t then ~~~ (x.fused ||| x.parked ||| x.throttled) else 0

/-- SENSE of a sample (spec R73). -/
def senseOf (r : Option (BitVec 11)) : Nat :=
  match r with
  | some x => x.toNat / 16
  | none => 0x8000

/-- The supervisor reading of a sample (spec R378). -/
def readingOf (r : Option (BitVec 11)) : Nat :=
  match r with
  | some x => x.toNat
  | none => 0x8000

/-- The latest sample of a sensor. -/
def State.sensor (s : State) (i : Nat) : Option (BitVec 11) := (s.sensors.find? (fun p => p.1 == i)).map (fun p => p.2)

/-- A byte of a thermal and status window (spec R72, R73, R378): the low byte of each TWRSTAT, and the samples of the sensors, of
which both readings are made. -/
def windowByte (tower : Nat → Nat) (sample : Nat → Option (BitVec 11)) (off : Nat) : Byte :=
  if off < 0x40 then (if off % 8 = 0 then BitVec.ofNat 8 (tower (off / 8)) else 0)
  else if off < 0x8000 then BitVec.ofNat 8 (senseOf (sample ((off - 0x1000) / 2)) / 256 ^ (off % 2))
  else BitVec.ofNat 8 (readingOf (sample ((off - 0x8000) / 2)) / 256 ^ (off % 2))

/-- A byte of the window of this device. -/
def State.statusByte (s : State) (off : Nat) : Byte :=
  windowByte (fun t => (s.shelfUp t).toNat * 2 + b2n (s.tower t).hthrot) s.sensor off

/-- A byte of the window of a peer: what its towers and its sensors say in a cycle are free values (log entry 17). -/
def State.peerByte (s : State) (dev : BitVec 12) (off : Nat) : Byte :=
  windowByte (fun t => (Config.peerTower dev t s.clock).toNat) (fun i => Config.peerSample dev i s.clock) off

/-- The byte at a place: memory, or a status window. -/
def State.byteAt (s : State) (k : Nat) : Byte :=
  if k < 2 ^ 62 then s.mem.read k
  else
    let dev := (k - 2 ^ 62) / 2 ^ 40
    let off := k % 2 ^ 40
    if dev = s.dev.toNat then s.statusByte off else s.peerByte (BitVec.ofNat 12 dev) off

/-- Bytes from a place. -/
def State.bytesAt (s : State) (k n : Nat) : List Byte := (upto k n).map s.byteAt

/-- The bytes of an access. -/
def State.readLocs (s : State) (ls : List Loc) : List Byte := ls.flatMap (fun l => s.bytesAt l.key l.n)

/-- The number that an access reads. -/
def State.valueAt (s : State) (ls : List Loc) : Nat := ofBytes (s.readLocs ls)

/-! ### Scratch images and full and empty bits (spec R54, R74) -/

/-- The space, device and core of a core scratch place. -/
def coreKeyParts (k : Nat) : BitVec 16 × BitVec 12 × Nat :=
  let x := (k - 2 ^ 60) / 2 ^ 19
  (BitVec.ofNat 16 (x / 2 ^ 21), BitVec.ofNat 12 (x / 2 ^ 9 % 2 ^ 12), x % 2 ^ 9)

/-- The image of a core scratch place. -/
def State.imageAt (s : State) (k : Nat) : Option Image :=
  let (sp, dev, core) := coreKeyParts k
  (s.space? sp).bind (fun x => x.image? dev core)

/-- A state with the image of a core scratch place changed; a new one is created empty (spec R275). -/
def State.setImage (s : State) (k : Nat) (scsz : BitVec 8) (f : Image → Image) : State :=
  let (sp, dev, core) := coreKeyParts k
  match s.space? sp with
  | none => s
  | some x =>
    match x.image? dev core with
    | some i => s.setSpace { x with images := x.images.map (fun j => if j = i then f i else j) }
    | none =>
      s.setSpace { x with images := f { dev := dev, core := core, scsz := scsz, settled := false, guarded := [], full := [] } :: x.images }

/-- The line number of a core scratch place within its image. -/
def lineNo (k : Nat) : Nat := k % 2 ^ 19 / 128

/-- Whether a place lies on a guarded, empty line. -/
def State.guardedEmpty (s : State) (k : Nat) : Bool :=
  isCoreKey k &&
    match s.imageAt k with
    | some i => i.guarded.contains (lineNo k) && !i.full.contains (lineNo k)
    | none => false

/-- Whether the line of a place is full. -/
def State.isFull (s : State) (k : Nat) : Bool :=
  match s.imageAt k with
  | some i => i.full.contains (lineNo k)
  | none => false

/-- A list of line numbers with one added or taken out. -/
def setLine (l : List Nat) (n : Nat) (on : Bool) : List Nat :=
  let r := l.filter (fun x => x != n)
  if on then n :: r else r

/-- Change the full bit of a line. -/
def State.setFull (s : State) (k : Nat) (scsz : BitVec 8) (on : Bool) : State :=
  s.setImage k scsz (fun i => { i with full := setLine i.full (lineNo k) on })

/-- Change the guarded bit of a line. -/
def State.setGuard (s : State) (k : Nat) (scsz : BitVec 8) (on : Bool) : State :=
  s.setImage k scsz (fun i => { i with guarded := setLine i.guarded (lineNo k) on })

/-- The first access to a core's scratch creates the space's image for it (spec R54). -/
def State.noteImages (s : State) (scsz : BitVec 8) : List Loc → State
  | [] => s
  | l :: r =>
    if l.win = some .core && (s.imageAt l.key).isNone then (s.setImage l.key scsz id).noteImages scsz r
    else s.noteImages scsz r

/-- The lines that an access touches, by their numbers. -/
def linesAt (ls : List Loc) : List Nat := ls.flatMap (fun l => unitsOf 128 l.key l.n)

/-- The lines of an access that are guarded and empty. -/
def State.emptyLines (s : State) (ls : List Loc) : List Nat := (linesAt ls).filter (fun n => s.guardedEmpty (n * 128))

/-! ### Waking (spec R23, R26, R209) -/

/-- A parked thread that has left PARKED. -/
def Thread.awake (t : Thread) : Thread :=
  { t with
    state := if t.held then .resident else .dormant
    parkc := 0
    parkva := 0
    wait := .none }

/-- A parked thread that a core holds leaves PARKED. One that no core holds leaves it by PARK_WAKE, which writes its
header. -/
def State.wake (s : State) (t : Thread) : State :=
  if t.state = .parked ∧ t.held ∧ t.trapStage = .none then s.setThread t.awake else s

/-- Threads whose wait a test accepts leave PARKED. -/
def State.wakeAll (s : State) (p : Thread → Bool) : List Thread → State
  | [] => s
  | t :: r => if t.state = .parked && p t then (s.wake t).wakeAll p r else s.wakeAll p r

/-- Threads that wait on the line of a place by LDSY leave PARKED. -/
def State.wakeLine (s : State) (k : Nat) : State :=
  s.wakeAll (fun t => match t.wait with | .line j => j / 128 == k / 128 | _ => false) s.all

/-- The bytes that a load puts into a register (spec R205). -/
def pieceBytes (p : LoadPiece) (bs : List Byte) : List Byte :=
  if p.sext then leBytes p.width (cut (8 * p.width) (signed (8 * p.n) (ofBytes bs)))
  else leBytes p.width (ofBytes bs)

/-- The parts of a load reach their registers. -/
def State.loadPieces (s : State) (t : Thread) : List LoadPiece → Thread
  | [] => t
  | p :: r =>
    let u := t.writeRegs p.dst (pieceBytes p (s.bytesAt p.key p.n))
    s.loadPieces (if p.width = 0 then u else u.wrote (linesOf [(p.dst, p.width)])) r

/-- The L1 of a core forgets its lines of some places: a later load must not read an older value than a read of these
places that went past the L1, or than an atomic on them (spec R140, R214). -/
def State.forgetL1 (s : State) (core : Nat) (rs : List (Nat × Nat)) : State :=
  let c := s.core core
  if c.l1.isEmpty then s
  else s.setCore core { c with l1 := c.l1.filter (fun l => !rangesMeet [(l.key, 128)] rs) }

/-- An acquire of a thread at a scope wider than CORE drops the lines of its space from the L1 of its core (spec R55). -/
def State.acquireFor (s : State) (t : Thread) (scope : Scope) : State :=
  let i := posCore t.cur
  let c := s.core i
  if scope = .core || c.l1.isEmpty then s
  else s.setCore i { c with l1 := c.l1.filter (fun l => l.space != t.space) }

/-- The focus thread fetches nothing performed before this (spec R162): its own stores outstanding now come first, those among
them which some copy of a REPLICA page does not hold yet. -/
def State.refetch (s : State) (scope : Scope) : State :=
  let s := if scope = .core || s.forwards.isEmpty then s
    else { s with forwards := s.forwards.map (fun f => if f.thread = s.thr.key then { f with firm := true } else f) }
  if scope = .core || s.thr.accs.isEmpty then s else s.put { s.thr with fetchFrom := s.accCount }

/-- An acquire of the focus thread. -/
def State.acquire (s : State) (scope : Scope) : State := (s.acquireFor s.thr scope).refetch scope

/-! ### Stores -/

/-- Bytes that replace others within a line's data. -/
def patch (data : List Byte) (at_ : Nat) (a : Nat) (bs : List Byte) : List Byte :=
  (upto 0 data.length).map (fun i =>
    if a ≤ at_ + i ∧ at_ + i < a + bs.length then bs.getD (at_ + i - a) 0 else data.getD i 0)

/-- A store updates the L1 lines of its core that hold its bytes (spec R55). -/
def Core.storeL1 (c : Core) (key : Nat) (bs : List Byte) : Core :=
  { c with l1 := c.l1.map (fun l => { l with data := patch l.data l.key key bs }) }

/-- A part of a thread's store is applied; the other copies of a REPLICA page follow later (spec R66). The L1 of its core takes it in the
lines of its place; it forgets those of the other copies, which do not hold it yet (spec R55). -/
def State.storePiece (s : State) (t : Thread) (p : StorePiece) (firm : Bool := false) : State :=
  let s := s.store p.key p.bytes
  let c := s.core (posCore t.cur)
  let s := if c.l1.isEmpty then s else s.setCore (posCore t.cur) (c.storeL1 p.key p.bytes)
  if p.copies.isEmpty then s
  else { s.forgetL1 (posCore t.cur) (p.copies.map (fun k => (k, p.bytes.length))) with
    forwards := s.forwards ++
      [{ thread := t.key, bytes := p.bytes, primary := p.key, copies := p.copies, left := p.copies, firm := firm }] }

/-- The parts of a store are applied in order. -/
def State.storePieces (s : State) (t : Thread) (ps : List StorePiece) (firm : Bool := false) : State :=
  match ps with
  | [] => s
  | p :: r => (s.storePiece t p firm).storePieces t r firm

/-- The parts of a store of a value. -/
def storeParts : List Loc → List Byte → List StorePiece
  | [], _ => []
  | l :: r, bs => { key := l.key, bytes := bs.take l.n, copies := l.copies } :: storeParts r (bs.drop l.n)

/-- Record the state of a line in a list. -/
def setUnit (l : List Remote) (unit : Nat) (st : HalfSt) : List Remote :=
  let r := l.filter (fun x => x.unit != unit)
  if st = .i then r else { unit := unit, st := st } :: r

/-- After a store, a host half or peer line that it wrote is M (spec R358). -/
def State.dirtied (s : State) : List Loc → State
  | [] => s
  | l :: r =>
    if l.win.isSome || 2 ^ 60 ≤ l.key || l.key / 2 ^ 48 = s.dev.toNat then s.dirtied r
    else if l.key / 2 ^ 48 = 0xFFF then
      ({ s with halves := s.halves.map (fun (h : HalfLine) => if (unitsOf 64 l.key l.n).contains h.unit then { h with st := .m } else h) }).dirtied r
    else ({ s with remote := (unitsOf 128 l.key l.n).foldl (fun a h => setUnit a h .m) s.remote }).dirtied r

/-! ### Replica forwarding (spec R66) -/

/-- The place of a forward in a copy. -/
def Forward.copyLoc (f : Forward) (k : Nat) : Loc := { va := 0, n := f.bytes.length, key := k }

/-- The requester of the traffic that brings stores to the copies of REPLICA pages. -/
def copierThread (s : State) : Thread := { launch := 0, index := 0xFFFFFFFD, cur := posOf s.dev 0 }

/-- The home of a copy applies the bytes of a forward: no other cache of the module keeps the line. -/
def State.forwardTo (s : State) (f : Forward) (k : Nat) : State :=
  ((s.reachHome (posTile (copierThread s).cur) true [f.copyLoc k]).store k f.bytes).dirtied [f.copyLoc k]

/-- Copies take the bytes of a forward. -/
def State.applyForward (s : State) (f : Forward) (copies : List Nat) : State :=
  match copies with
  | [] => s
  | k :: r => (s.forwardTo f k).applyForward f r

/-- Everything the primaries have applied up to and including the last store of a thread reaches every copy. -/
def State.flushForwards (s : State) (k : Key) : List Forward → State
  | [] => { s with forwards := [] }
  | f :: r =>
    if (f :: r).any (fun g => g.thread == k) then (s.applyForward f f.left).flushForwards k r
    else { s with forwards := f :: r }

/-! ### Outstanding accesses (spec R142, R380) -/

/-- The place ranges of an outstanding access, every copy of a REPLICA page among them. -/
def Acc.ranges : Acc → List (Nat × Nat)
  | .store _ ps => ps.flatMap (fun p => (p.key :: p.copies).map (fun k => (k, p.bytes.length)))
  | .load _ ps => ps.map (fun p => (p.key, p.n))
  | .fence _ _ => []

/-- Whether an access is stores to core scratch alone. -/
def Acc.scratchStore : Acc → Bool
  | .store _ ps => ps.all (fun p => isCoreKey p.key)
  | _ => false

/-- The cores whose scratch some ranges touch, each by a number of its own. -/
def scratchHomes (rs : List (Nat × Nat)) : List Nat := (rs.filter (fun r => isCoreKey r.1)).map (fun r => r.1 / 2 ^ 19)

/-- Whether two lists of ranges touch the scratch of one core (spec R144). -/
def homesMeet (a b : List (Nat × Nat)) : Bool := (scratchHomes a).any (scratchHomes b).contains

/-- A fence whose earlier accesses are performed: one with LL makes the thread's later loads miss the L1 (spec R55, R147). -/
def State.passFence (s : State) (t : Thread) (c : Scope) (kinds : BitVec 4) : State :=
  if bit kinds.toNat 1 then s.acquireFor t c else s

/-- Whether some store of a thread to bytes of some ranges has not reached every copy of its page (spec R66). -/
def State.ownForward (s : State) (k : Key) (rs : List (Nat × Nat)) : Bool :=
  s.forwards.any (fun f => f.thread == k && rangesMeet ((f.primary :: f.copies).map (fun x => (x, f.bytes.length))) rs)

/-- Ranges as places. -/
def rangeLocs (rs : List (Nat × Nat)) : List Loc := rs.map (fun r => { va := r.1, n := r.2, key := r.1 })

/-- Perform an outstanding access of a thread. The copies of a store before which fetches wait are waited for too (spec R162). A load of
bytes of a store of the thread that not every copy holds yet comes after the copies (spec R66). -/
def State.performAcc (s : State) (t : Thread) (a : Acc) : State × Thread :=
  match a with
  | .store n ps =>
    ((s.reach (posTile t.cur) t.space true (rangeLocs (ps.map (fun p => (p.key, p.bytes.length))))).storePieces t ps
      (decide (n < t.fetchFrom)), t)
  | .load _ ps =>
    let s := if s.ownForward t.key a.ranges then s.flushForwards t.key s.forwards else s
    let s := s.reach (posTile t.cur) t.space false (rangeLocs a.ranges)
    (s.forgetL1 (posCore t.cur) a.ranges, s.loadPieces t ps)
  | .fence c k => (s.passFence t c k, t)

/-- Perform outstanding accesses in order. -/
def State.performAll (s : State) (t : Thread) : List Acc → State × Thread
  | [] => (s, t)
  | a :: r => let (s', t') := s.performAcc t a; s'.performAll t' r

/-- Every earlier access of a thread is performed at every scope: the thread's record in the state is the updated
one. A release, an eviction and a migration wait for this (spec R25, R27, R145). -/
def State.drainThread (s : State) (t : Thread) : State :=
  if t.accs.isEmpty && s.forwards.isEmpty then s
  else
    let (s', t') := s.performAll t t.accs
    let s' := s'.setThread { t' with accs := [] }
    s'.flushForwards t.key s'.forwards

/-- The same for the focus thread. -/
def State.drain (s : State) : State := s.drainThread s.thr

/-- Some store of a thread has not reached every copy of its page. -/
def State.unheld (s : State) (k : Key) : Bool := s.forwards.any (fun f => f.thread == k)

/-- Fences before which nothing is outstanding are passed (spec R147): they order nothing any more. -/
def State.passFences (s : State) (t : Thread) (unheld : Bool) : List Acc → State × List Acc
  | .fence c k :: r =>
    if unheld && bit k.toNat 2 then (s, .fence c k :: r) else (s.passFence t c k).passFences t unheld r
  | l => (s, l)

/-- Whether an access that is performed now must first see the focus thread's outstanding ones performed: they share
a byte or the scratch of a core, or they hold a load and it stores, or a FENCE stands between (spec R140, R142, R144, R147). -/
def Thread.mustDrain (t : Thread) (isStore : Bool) (rs : List (Nat × Nat)) : Bool :=
  t.accs.any (fun a =>
    rangesMeet a.ranges rs || homesMeet a.ranges rs ||
    match a with
    | .load _ _ => isStore
    | .store _ _ => false
    | .fence _ _ => true)

/-- The stores to core scratch with which a thread's outstanding accesses begin are performed. -/
def State.performScratch (s : State) (t : Thread) : State :=
  let (s, t) := s.performAll t (t.accs.takeWhile Acc.scratchStore)
  let (s, rest) := s.passFences t (s.unheld t.key) (t.accs.dropWhile Acc.scratchStore)
  s.setThread { t with accs := rest }

/-- Before a thread's access to the scratch of a core: what other threads of its core have issued to that core's scratch is
performed (spec R144, R276). -/
def State.scratchFirst (s : State) (t : Thread) (rs : List (Nat × Nat)) : List Thread → State
  | [] => s
  | u :: r =>
    if u.key != t.key && posCore u.cur == posCore t.cur && u.accs.any (fun a => a.scratchStore && homesMeet a.ranges rs) then
      (s.performScratch u).scratchFirst t rs r
    else s.scratchFirst t rs r

/-- The ranges of places. -/
def locRanges (ls : List Loc) : List (Nat × Nat) := ls.map (fun l => (l.key, l.n))

/-- A FENCE that the focus thread has outstanding is passed before its next access looks at the L1: with LL that one misses there (spec
R55, R147). -/
def State.fenced (s : State) : State :=
  if s.thr.accs.any (fun a => match a with | .fence _ _ => true | _ => false) then s.drain else s

/-- Before an access of a thread is performed: earlier ones that R142 orders before it are. A load of bytes of a store
that the copies do not hold yet waits for them (spec R66). -/
def State.settleFor (s : State) (t : Thread) (isStore : Bool) (rs : List (Nat × Nat)) : State :=
  let s := s.scratchFirst t rs s.all
  if t.mustDrain isStore rs || s.ownForward t.key rs then s.drainThread t else s

/-- The same for the focus thread. -/
def State.settle (s : State) (isStore : Bool) (ls : List Loc) : State := s.settleFor s.thr isStore (locRanges ls)

/-- Whether a place lies in this module's memory, outside the windows, on a line that no peer or host holds. -/
def State.ownLine (s : State) (l : Loc) : Bool :=
  l.win.isNone && decide (l.key / 2 ^ 48 = s.dev.toNat) &&
    !s.dir.any (fun d => d.line == l.key % 2 ^ 48 / 128 && (d.outside || d.state == .busy))

/-- Whether a load may be left outstanding. -/
def State.mayDefer (s : State) (ls : List Loc) : Bool := s.late && ls.all s.ownLine

/-- Whether a place is the scratch of a core other than the one that a thread runs on. -/
def farScratch (t : Thread) (l : Loc) : Bool :=
  l.win == some .core && (coreKeyParts l.key).2 != (posDev t.cur, posCore t.cur)

/-- Whether a store may be left outstanding. One to the scratch of the thread's own core is applied in the next cycle (spec
R276, R380); one to another core's scratch may stay so after others of its kind alone. -/
def State.mayDeferStore (s : State) (ls : List Loc) : Bool :=
  s.late && (ls.all (fun l => s.ownLine l || l.win == some .hearth) ||
    (ls.all (farScratch s.thr) && s.thr.accs.all Acc.scratchStore))

/-- Whether the focus thread is alone in its instance of a scope within the device: no core there holds another thread, and no
queue holds a command. -/
def State.aloneIn (s : State) (sc : Scope) : Bool :=
  match sc with
  | .device | .sys => false
  | _ => s.threads.all (fun t => !t.held || !sameInstance sc t.cur s.thr.cur) &&
      s.tiles.all (fun t => t.2.queues.all (fun q => q.2.cmds.isEmpty))

/-- Before a release of the focus thread at a scope, which accesses `ls`: its earlier accesses are performed at that scope. In
a cycle that leaves accesses outstanding they may stay so where no other agent of the scope's instance is there to see them
(spec R138, R146, R150); a thread that comes there later finds them performed (`State.joined`). Stores to REPLICA pages do not
stay so (spec R153). -/
def State.releaseAt (s : State) (sc : Scope) (ls : List Loc) : State :=
  let copies := s.unheld s.thr.key || s.thr.accs.any (fun a => match a with | .store _ ps => ps.any (fun p => !p.copies.isEmpty) | _ => false)
  let s := s.settle true ls
  if s.late && s.aloneIn sc && !copies then s else s.drain

/-! ### Lines of peers and hosts (spec R352 to R365) -/

/-- Whether a place lies in the memory of a peer device. -/
def State.isPeer (s : State) (key : Nat) : Bool :=
  decide (key < 2 ^ 60) && key / 2 ^ 48 != s.dev.toNat && key / 2 ^ 48 != 0xFFF

/-- Send a protocol message to a device (spec R365). -/
def State.send (s : State) (m : PeerMsg) : State := { s with outPeer := s.outPeer ++ [m] }

/-- A tag that no unanswered transaction toward a device uses (spec R365). -/
def State.freeTag (s : State) (dev : BitVec 12) : Option (BitVec 10) :=
  ((upto 0 1024).find? (fun n => !s.txns.any (fun x => x.dev == dev && x.tag == BitVec.ofNat 10 n && x.answer.isNone))).map (BitVec.ofNat 10)

/-- Bits 47:4 of a local physical address. -/
def addrField (k : Nat) : BitVec 44 := BitVec.ofNat 44 (k % 2 ^ 48 / 16)

/-- Whether a transaction brings a line, once or to keep. -/
def Txn.fills (x : Txn) : Bool := x.opc == .rds || x.opc == .rdo || x.opc == .upg || x.opc == .rdc

/-- The module holds a line of a peer no more, in none of its caches. -/
def State.dropRemote (s : State) (unit : Nat) : State :=
  (({ s with
      remote := setUnit s.remote unit .i
      ghosts := s.ghosts.filter (fun u => u != unit) }.dropTowers unit (fun _ => true)).forwardProbe (unit * 128) 128)

/-- A thread has no more use of what its fills brought: probes that were held for it are applied from now on, and what a probe
overtook is gone (spec R157). -/
def State.unhold (s : State) (k : Key) : State :=
  if s.txns.isEmpty then s
  else { s with txns := s.txns.filter (fun (x : Txn) => !(x.thread == some k && x.fills && x.answer == some .done)) }

/-- Begin a transaction at a peer unless one for the same thing is outstanding or no tag is free. What it brings to keep goes `into` a
tile's cache. -/
def State.ask (s : State) (t : Option Key) (here : Pos) (scope : Scope) (opc : Opc) (key : Nat) (arg : BitVec 9)
    (payload : List Byte) (va level : Nat := 0) (claims : List (BitVec 2 × Word) := []) (pass : Option Passport := none)
    (into : Option (Nat × BitVec 16) := none) (entry : Nat := 0) : State :=
  let dev := BitVec.ofNat 12 (key / 2 ^ 48)
  let s : State := { s with txns := s.txns.filter (fun (x : Txn) => !(x.thread == t && x.key == key && x.fills && x.answer == some .done)) }
  if s.txns.any (fun x => x.opc == opc && x.key == key && x.thread == t && x.dev == dev) then s
  else
    match s.freeTag dev with
    | none => s
    | some tag =>
      { s.send { dst := dev, opc := opc, pos := posHigh here, tag := tag, scope := scope, addr := addrField key, arg := arg, payload := payload,
                 claims := claims, pass := pass } with
        txns := s.txns ++ [{ tag := tag, dev := dev, opc := opc, key := key, thread := t, arg := arg, va := va, level := level,
                             entry := BitVec.ofNat 128 entry, into := into }] }

/-- An arrival goes to a peer. Each one is a request of its own, for which a tag is free (`State.canAsk`). -/
def State.sendArrival (s : State) (t : Option Key) (here : Pos) (key : Nat) (payload : List Byte) : State :=
  let dev := BitVec.ofNat 12 (key / 2 ^ 48)
  match s.freeTag dev with
  | none => s
  | some tag =>
    { s.send { dst := dev, opc := .arrv, pos := posHigh here, tag := tag, scope := .sys, addr := addrField key, arg := 0, payload := payload } with
      txns := s.txns ++ [{ tag := tag, dev := dev, opc := .arrv, key := key, thread := t }] }

/-- Whether a request for a place can be sent: at a peer, a tag is free. -/
def State.canAsk (s : State) (key : Nat) : Bool := !s.isPeer key || (s.freeTag (BitVec.ofNat 12 (key / 2 ^ 48))).isSome

/-- The state in which the module holds a peer line: S for one that its home still counts, though no cache holds it (log entry 71). -/
def State.lineState (s : State) (line : Nat) : HalfSt :=
  match s.remote.find? (fun r => r.unit == line) with
  | some r => r.st
  | none => if s.ghosts.contains line then .s else .i

/-- The state in which the module holds a host half. -/
def State.halfState (s : State) (half : Nat) : HalfSt :=
  match s.halves.find? (fun r => r.unit == half) with
  | some r => r.st
  | none => .i

/-- A request waits for what lets it go on. -/
def State.await (s : State) (line : Nat) (e : Instr) : State :=
  { s with waiting := s.waiting ++ [{ line := line, event := e }] }

/-! ### The queue of a line at its home (spec R356) -/

/-- Whether another request stands before this one in the queue of a line. An event that was called stands first. -/
def State.behind (s : State) (line : Nat) (r : LineReq) : Bool :=
  match s.lineQueue.find? (fun q => q.line == line) with
  | none => false
  | some q =>
    match r with
    | .event _ => !s.called.contains line
    | _ => q.req != r

/-- Whether the bias of the page of a line is being flipped: requests that arrive now wait (spec R361). -/
def State.flipping (s : State) (line : Nat) : Bool := s.flips.any (fun x => x.page == some (line / 1024))

/-- A request takes its place in the queue of a line: the first one again if it was called, else the last. A tile has one place
for one request. -/
def State.lineUp (s : State) (line : Nat) (r : LineReq) : State :=
  let q : Queued := { line := line, req := r }
  match r with
  | .event _ =>
    if s.called.contains line then
      { s with
        lineQueue := q :: s.lineQueue
        called := s.called.filter (fun n => n != line) }
    else { s with lineQueue := s.lineQueue ++ [q] }
  | _ => if s.lineQueue.contains q then s else { s with lineQueue := s.lineQueue ++ [q] }

/-- The first request in the queue of a line is tried next if it is an event; a tile's comes by itself. -/
def State.callNext (s : State) (line : Nat) : State :=
  match s.lineQueue.find? (fun q => q.line == line) with
  | some { req := .event e, .. } =>
    if s.called.contains line then s
    else { s with
      lineQueue := s.lineQueue.erase { line := line, req := .event e }
      called := line :: s.called
      turns := Turn.again e :: s.turns }
  | _ => s

/-- The requests that wait so are tried next, in their order, and then the queue of the line. -/
def State.release (s : State) (line : Nat) : State :=
  let s := s.callNext line
  if s.waiting.isEmpty then s
  else
    { s with
      waiting := s.waiting.filter (fun w => w.line != line)
      turns := (s.waiting.filter (fun w => w.line == line)).map (fun w => Turn.again w.event) ++ s.turns }

/-- A request has been served: the next one in the queue of its line comes, and after a tile's what waits for the tile's line. -/
def State.served (s : State) (line : Nat) (r : LineReq) : State :=
  if s.lineQueue.isEmpty && s.called.isEmpty then s
  else
    match r with
    | .event _ => { s with called := s.called.filter (fun n => n != line) }.callNext line
    | _ => { s with lineQueue := s.lineQueue.filter (fun (q : Queued) => q != ({ line := line, req := r } : Queued)) }.release line

/-- What an access finds at the coherence machinery: it may go on, or it has asked and waits, or a request of its
thread has failed at a peer. -/
inductive Ready
  | ok
  | later (s : State)
  | trap (s : State) (t : Trap)
  deriving DecidableEq, Repr

/-- The failed transaction of a thread for a place, if there is one. -/
def State.failedTxn (s : State) (t : Key) (key : Nat) : Option (Txn × BitVec 4 × BitVec 4) :=
  s.txns.findSome? (fun x =>
    if x.thread == some t && x.key == key then
      match x.answer with
      | some (.failed c k) => some (x, c, k)
      | _ => none
    else none)

/-- The trap of a failed transaction, which is then forgotten. -/
def State.failTrap (s : State) (x : Txn) (cls cause : BitVec 4) (va level : Nat) : Ready :=
  .trap { s with txns := s.txns.filter (fun y => y != x) }
    { cls := classOfCode cls.toNat, cause := cause.toNat, detail := nakDetail cls.toNat x.key level, va := BitVec.ofNat 64 va }

/-- Whether what a requester asked for once has come (spec R78, R220). -/
def State.streamed (s : State) (k : Key) (key : Nat) : Bool :=
  s.txns.any (fun x => x.thread == some k && x.key == key && x.opc == .rdc && x.answer == some .done)

/-- Whether this device waits for a copy of a line of a peer. -/
def State.filling (s : State) (unit : Nat) : Bool :=
  s.txns.any (fun x => (x.opc == .rds || x.opc == .rdo || x.opc == .upg) && x.key / 128 == unit && x.answer.isNone)

/-- Whether a write-back of a line is on its way to its home. -/
def State.writingBack (s : State) (unit : Nat) : Bool := s.txns.any (fun x => x.opc == Opc.wb && x.key / 128 == unit && x.answer.isNone)

/-- Whether this thread may touch 128-byte line `line` of a peer (spec R354, R365), of which it touches the bytes from `va` on a
page of `level`. With `once` no copy is kept. The device asks for a line once at a time, and not before its own write-back of the line
is there (log entry 71). -/
def State.readyPeer (s : State) (t : Thread) (excl : Bool) (line va : Nat) (level : Nat := 0) (once : Bool := false) : Ready :=
  let key := line * 128
  match s.failedTxn t.key key with
  | some (x, c, k) => s.failTrap x c k va level
  | none =>
    let st := s.lineState line
    if st = .e || st = .m || (st = .s && !excl) || (once && s.streamed t.key key) then .ok
    else if (!once && s.filling line) || s.writingBack line then .later s
    else .later (s.ask (some t.key) t.cur t.scope
      (if excl then (if st = .s then .upg else .rdo) else if once then .rdc else .rds) key 0 [] va level
      (into := if once then none else some (posTile t.cur, t.space)))

/-- The requests for a half that a host has not answered. -/
def halfRequests (half : Nat) : List HostMsg := [.rdShared half, .rdOwn half, .rdOwnNoData half, .rdCurr half]

/-- Whether a half of host memory may be touched (spec R358): a store that writes all of it asks without data. With `once` no copy
is kept (spec R78, R357). -/
def State.readyHost (s : State) (t : Thread) (excl whole : Bool) (half : Nat) (once : Bool := false) : Ready :=
  let st := s.halfState half
  if st = .e || st = .m || (st = .s && !excl) || (once && s.streamed t.key (half * 64)) then .ok
  else if s.outHost.any (fun x => (halfRequests half).contains x) then Ready.later s
  else if once && !excl then
    let a := s.toHost (.rdCurr half)
    .later { a with txns := s.txns ++ [{ tag := 0, dev := 0xFFF, opc := .rdc, key := half * 64, thread := some t.key }] }
  else
    let a := s.toHost (if excl then (if whole then .rdOwnNoData half else .rdOwn half) else .rdShared half)
    .later { a with halfAsks := s.halfAsks ++ [(half, posTile t.cur)] }

/-- What a requester asked for once is used up. -/
def State.endStream (s : State) (k : Key) : State :=
  if s.txns.isEmpty then s
  else { s with txns := s.txns.filter (fun x => !(x.thread == some k && x.opc == .rdc && x.answer == some .done)) }

/-- A probe that a home sends to a device (spec R353, R365). -/
def probe (dev : BitVec 12) (opc : Opc) (key : Nat) : PeerMsg :=
  { dst := dev, opc := opc, pos := 0, tag := 0, scope := .sys, addr := addrField key, arg := 0, payload := [] }

/-- The devices that an invalidation of a line goes to: with ROVF, every other device of the space (spec R354). -/
def State.sharersOf (s : State) (space : BitVec 16) (d : DirEntry) : List (BitVec 12) :=
  if d.rovf then
    match s.space? space with
    | some x => x.devtab.filter (fun v => v != s.dev)
    | none => ((s.spaces.flatMap (fun x => x.devtab)).filter (fun v => v != s.dev)).eraseDups
  else d.rdev

/-- Whether the peers let a line of this module's own memory be touched: an owner is downgraded or invalidated, and
sharers are invalidated for a store (spec R353). -/
def State.readyAmongPeers (s : State) (space : BitVec 16) (excl : Bool) (line : Nat) : Ready :=
  let d := s.dirEntry line
  let key := s.dev.toNat * 2 ^ 48 + line * 128
  if d.state = .busy then .later s
  else
    match d.ownerDev with
    | some o =>
      .later ((s.send (probe o (if excl then .pinv else .pshr) key)).setDir { d with state := .busy, down := !excl })
    | none =>
      let others := s.sharersOf space d
      if excl && others ≠ [] then
        .later (({ s with outPeer := s.outPeer ++ others.map (fun o => probe o .pinv key) }).setDir
          { d with state := .busy, down := false, rdev := others })
      else .ok

/-- The home recalls what peers hold of an entry's line (spec R353, R361). -/
def State.recallPeers (s : State) (d : DirEntry) : State :=
  let key := s.dev.toNat * 2 ^ 48 + d.line * 128
  let devs := (match d.ownerDev with | some o => [o] | none => []) ++ s.sharersOf 0 d
  if devs.isEmpty then (if d.rovf then s.setDir ({ d with rovf := false } : DirEntry).settled else s)
  else
    ({ s with outPeer := s.outPeer ++ devs.map (fun o => probe o .prcl key) }).setDir
      { d with state := .busy, down := false, rdev := d.rdev ++ (if d.rovf then devs.filter (fun x => !d.rdev.contains x) else []) }

/-- The home takes back from the host the halves of an entry's line that it may hold (spec R360, R361). -/
def State.recallHost (s : State) (d : DirEntry) : State :=
  let halves := (((upto 0 2).filter (bit d.host.toNat)).map (fun h => d.line * 2 + h)).filter (fun h => !s.bisnp.any (fun b => b.1 == h))
  { s with
    bisnp := s.bisnp ++ halves.map (fun h => (h, true))
    outHost := s.outHost ++ halves.map (fun h => .biSnp h true) }

/-- The home recalls what peers and the host hold of an entry's line, so that the entry can be reused (spec R353). -/
def State.recallOut (s : State) (d : DirEntry) : State := (s.recallHost d).recallPeers d

/-- Whether a line of this module's own memory may be touched, of which `halves` are touched: a host that may hold one of them is
snooped, and peers are probed (spec R353, R360). A line without an entry needs a way for one. -/
def State.readyLocal (s : State) (space : BitVec 16) (excl : Bool) (line : Nat) (halves : List Nat := [0, 1]) : Ready :=
  if s.dir.all (fun d => d.line != line) then
    match s.dirVictim line with
    | some d => if d.outside then .later (if s.bisnp.any (fun b => b.1 / 2 == d.line) then s else s.recallOut d) else .ok
    | none => .ok
  else
    let d := s.dirEntry line
    let host := halves.filter (fun h => bit d.host.toNat h && (excl || !bit d.hostS.toNat h))
    if d.state ≠ .busy ∧ host ≠ [] then
      let hs := host.map (fun h => line * 2 + h)
      let fresh := hs.filter (fun h => !s.bisnp.any (fun b => b.1 == h))
      .later { s with
        bisnp := s.bisnp ++ fresh.map (fun h => (h, excl))
        outHost := s.outHost ++ fresh.map (fun h => .biSnp h excl) }
    else s.readyAmongPeers space excl line

/-- Whether a tile may touch a line of this module's own memory: it holds the line, or its request is served at the home, in its
turn (spec R352, R356). -/
def State.readyTile (s : State) (tile : Nat) (space : BitVec 16) (excl : Bool) (line : Nat) (halves : List Nat) : Ready :=
  let r := LineReq.tile tile space excl halves
  if (s.tileLine tile (s.dev.toNat * 2 ^ 41 + line)).any (fun st => st.serves excl) then .ok
  else if s.behind line r || s.flipping line then .later (s.lineUp line r)
  else
    match s.readyLocal space excl line halves with
    | .later s' => .later (s'.lineUp line r)
    | x => x

/-- Whether every unit in a list is ready; the first that is not decides. -/
def readyAll (f : Nat → Ready) : List Nat → Ready
  | [] => .ok
  | n :: r =>
    match f n with
    | .ok => readyAll f r
    | x => x

/-- Whether some places cover a half of host memory (spec R358). -/
def coverHalf (ls : List Loc) (half : Nat) : Bool :=
  (upto (half * 64) 64).all (fun b => ls.any (fun l => decide (l.key ≤ b) && decide (b < l.key + l.n)))

/-- The halves of a line that a place touches. -/
def Loc.halvesOn (l : Loc) (n : Nat) : List Nat := ((unitsOf 64 l.key l.n).filter (fun h => h / 2 == n)).map (fun h => h % 2)

/-- Whether one part of an access may be performed now; `all` are the places of the whole access. -/
def State.readyLoc (s : State) (t : Thread) (excl : Bool) (l : Loc) (all : List Loc := [l]) (once : Bool := false) : Ready :=
  if l.win.isSome || 2 ^ 60 ≤ l.key then .ok
  else if l.key / 2 ^ 48 = s.dev.toNat then
    if s.dir.isEmpty && s.lineQueue.isEmpty && s.flips.isEmpty then .ok
    else readyAll (fun n => s.readyTile (posTile t.cur) t.space excl (n % 2 ^ 41) (l.halvesOn n)) (unitsOf 128 l.key l.n)
  else if l.key / 2 ^ 48 = 0xFFF then
    readyAll (fun h => s.readyHost t excl (coverHalf all h) h once) (unitsOf 64 l.key l.n)
  else readyAll (fun n => s.readyPeer t excl n (l.va + (n * 128 - l.key)) l.level once) (unitsOf 128 l.key l.n)

/-- The same for the parts of a list. -/
def State.readyList (s : State) (t : Thread) (excl : Bool) (all : List Loc) (once : Bool) : List Loc → Ready
  | [] => .ok
  | l :: r =>
    match s.readyLoc t excl l all once with
    | .ok => s.readyList t excl all once r
    | x => x

/-- Whether an access may be performed now, and what the module asks for if not. With `once` it keeps no copy of what peers and
hosts own (spec R78). -/
def State.ready (s : State) (t : Thread) (excl : Bool) (ls : List Loc) (once : Bool := false) : Ready := s.readyList t excl ls once ls

/-- The requests of a tile for the lines of this module's own memory that some places touch. -/
def State.homeRequests (s : State) (tile : Nat) (space : BitVec 16) (excl : Bool) (ls : List Loc) : List Queued :=
  (ls.filter (fun l => l.win.isNone && decide (l.key / 2 ^ 48 = s.dev.toNat))).flatMap (fun l =>
    (unitsOf 128 l.key l.n).map (fun n => { line := n % 2 ^ 41, req := .tile tile space excl (l.halvesOn n) }))

/-- Accesses to MOBILE pages are counted for the residency logic (spec R324, R376). -/
def State.counted (s : State) (ls : List Loc) : State :=
  let ms := ls.filter (fun l => l.win.isNone && eMobile l.entry)
  if ms.isEmpty then s
  else { s with counts := ms.foldl (fun a l => Tab.put a (l.key / 2 ^ 17) (Tab.get a (l.key / 2 ^ 17) 0 + 1)) s.counts }

/-- A requester's ready access reaches its places: its tile comes to hold the lines, and its requests leave the queues. With
`home` the home performs the access, and no cache of the module keeps a line (spec R214). One through a streaming record allocates
no line (spec R78). -/
def State.took (s : State) (t : Thread) (excl : Bool) (ls : List Loc) (home : Bool := false) (once : Bool := false) : State :=
  let own (l : Loc) : Bool := l.win.isNone && decide (l.key / 2 ^ 48 = s.dev.toNat)
  let a :=
    if once then ((ls.filter own).flatMap (fun l => unitsOf 128 l.key l.n)).foldl (fun b n => b.endSnoop (n % 2 ^ 41)) s
    else if home then s.reachHome (posTile t.cur) excl ls
    else s.reach (posTile t.cur) t.space excl ls
  let a := a.counted ls
  if s.lineQueue.isEmpty then a
  else (s.homeRequests (posTile t.cur) t.space excl ls).foldl (fun b q => b.served q.line q.req) a

/-! ### Page-table entries and outstanding accesses whose lines others hold -/

/-- The walker asks for the line of a page-table entry that it cannot read yet (spec R314). At a home of this module it waits in its
turn, as a request of the tile (spec R356, R361). -/
def State.wantEntry (s : State) (by_ : Key) (here : Pos) (need : Option Nat) : State :=
  match need with
  | none => s
  | some key =>
    let r := if key / 2 ^ 48 = s.dev.toNat then s.readyTile (posTile here) 0 false (key % 2 ^ 48 / 128) [key / 64 % 2]
      else if key / 2 ^ 48 = 0xFFF then s.readyHost { cur := here } false false (key / 64)
      else s.readyPeer { launch := by_.launch, index := by_.index, cur := here } false (key / 128) 0
    match r with
    | .later s' => s'
    | _ => s

/-- Whether the outstanding accesses of a thread may be performed now: a peer or a host may have taken a line since one
of them issued (spec R158). -/
def State.accsReady (s : State) (t : Thread) : Ready :=
  let one (a : Acc) : List Loc := a.ranges.map (fun r => { va := r.1, n := r.2, key := r.1 : Loc })
  let go (st : Bool) : Ready :=
    s.ready t st ((t.accs.filter (fun a => match a with | .store _ _ => st | .load _ _ => !st | .fence _ _ => false)).flatMap one)
  let copies := if s.forwards.any (fun f => f.thread == t.key) then
    s.ready (copierThread s) true (s.forwards.flatMap (fun f => f.left.map f.copyLoc)) else .ok
  if t.accs.isEmpty then copies
  else
    match go true with
    | .ok => (match go false with | .ok => copies | x => x)
    | x => x

/-! ### Loads that waited on guarded lines (spec R75, R209) -/

/-- Nominal cycles of a load from the scratch of a core at position `a`, for a thread at position `b` (spec R58). -/
def scratchLatency (a b : Pos) : Nat :=
  if sameInstance .core a b then 4
  else if sameInstance .tile a b then 6
  else if sameInstance .group a b then 8
  else if posTower a = posTower b then 30
  else 70

/-- Nominal cycles of a load from a place, for a thread at a position: of memory, those of a line that the tile cache holds. -/
def keyLatency (key : Nat) (cur : Pos) : Nat :=
  if isCoreKey key then
    let (_, dev, core) := coreKeyParts key
    scratchLatency (posOf dev core) cur
  else 24

/-- The bytes that a load has read after it waited are usable after its latency, counted from the next cycle of its core, in which it
issues (spec R75, R276). -/
def Thread.busyFrom (t : Thread) (cycle : Nat) (ps : List LoadPiece) : Thread :=
  { t with busy := t.busy ++ (ps.filter (fun p => p.width != 0)).map (fun p =>
      { lo := p.dst, n := p.width, till := cycle + 1 + keyLatency p.key t.cur : Busy }) }

/-- Plain loads whose lines are no longer guarded and empty read them, after what R142 orders before them, and their
threads go on; an instruction of another kind issues again, and so does a load that a bad granule now meets (spec R344). -/
def State.resumeLoads (s : State) : List Thread → State
  | [] => s
  | t :: r =>
    match t.waitLoad with
    | some w =>
      if w.lines.any (fun n => s.guardedEmpty (n * 128)) then s.resumeLoads r
      else if w.again || w.pieces.any (fun p => (s.badByte p.key p.n).isSome) then (s.setThread { t with waitLoad := none }).resumeLoads r
      else if s.accsReady t = .ok then
        let s := s.settleFor t false (w.pieces.map (fun p => (p.key, p.n)))
        let u := (s.find t.key).getD t
        let s := s.forgetL1 (posCore u.cur) (w.pieces.map (fun p => (p.key, p.n)))
        let now := max (s.core (posCore u.cur)).cycle s.clock
        (s.setThread { ((s.loadPieces u w.pieces).advance.busyFrom now w.pieces) with waitLoad := none }).resumeLoads r
      else s.resumeLoads r
    | none => s.resumeLoads r

/-- A line was set full, or lost its guard: loads that wait on it read it first, then parked threads wake. -/
def State.lineOpened (s : State) (k : Nat) : State := (s.resumeLoads s.all).wakeLine k

/-! ### The L1 -/

/-- An atomic invalidates the issuing core's L1 line of its bytes (spec R214). -/
def State.dropL1 (s : State) (ls : List Loc) : State := s.forgetL1 (posCore s.thr.cur) (locRanges ls)

/-- The L1 line that holds the bytes of a plain load (spec R55): same space, same line of addresses, and a resolving
position that agrees under the masking of the mapping that filled it. -/
def State.l1Line (s : State) (w : Who) (va n : Nat) : Option L1Line :=
  (s.core (posCore w.here)).l1.find? (fun l =>
    l.space == w.space && l.va.toNat == va / 128 * 128 && decide (va % 128 + n ≤ 128) &&
      match l.dom with
      | none => true
      | some d => sameInstance d l.pos (if l.repl then w.pr else w.pk))

/-- The bytes that the L1 holds of a plain load. -/
def State.l1Hit (s : State) (w : Who) (va n : Nat) : Option (List Byte) :=
  (s.l1Line w va n).map (fun l => (l.data.drop (va % 128)).take n)

/-- Where an access lands that an L1 line serves. -/
def L1Line.place (l : L1Line) (va n : Nat) : Loc :=
  { va := va, n := n, key := l.key + va % 128, entry := l.entry.toNat, level := l.level }

/-- The checks of a plain load. One that an L1 line serves uses no bank: the tag stands in for the translation (spec R320). -/
def State.loadAccess (s : State) (w : Who) (va : Word) (n align : Nat) : Found :=
  match s.addrCheck w .load va.toNat n align, (if (winOf va.toNat).isSome then none else s.l1Line w va.toNat n) with
  | .ok _, some l =>
    let x := l.place va.toNat n
    if (eSup x.entry && !w.priv) || s.darkCheck x != .ok () then s.access w .load va n align else .ok [x]
  | _, _ => s.access w .load va n align

/-! ### L1 fills (spec R51, R52, R55) -/

/-- The domain of a code. -/
def domScope (d : Nat) : Scope :=
  match d with
  | 0 => .core | 1 => .tile | 2 => .group | 3 => .tower | _ => .device

/-- How a mapping masks the resolving position of the L1 lines that it fills. -/
def maskOf (e : Nat) : Option Scope × Bool :=
  match eKind e with
  | 1 => (some (domScope (eDom e)), false)
  | 2 => (some (domScope (eDom e)), true)
  | _ => (none, false)

/-- The lines of a core's L1 region (spec R52). -/
def Core.l1Lines (c : Core) : Nat := match c.mode with | some m => m.l1sz.toNat * 32 | none => 0

/-- A core whose L1 region is not overfull: the oldest lines go, and a decided cell copy takes a line. -/
def Core.fitL1 (c : Core) : Core :=
  let cells := c.cells.take c.l1Lines
  { c with
    cells := cells
    l1 := c.l1.take (c.l1Lines - cells.length) }

/-- Whether the module holds every byte of a line: of host memory both halves. -/
def State.wholeLine (s : State) (key : Nat) : Bool :=
  if key / 2 ^ 48 = 0xFFF then s.halfState (key / 64) != .i && s.halfState (key / 64 + 1) != .i
  else key / 2 ^ 48 == s.dev.toNat || s.lineState (key / 128) != .i

/-- Whether a copy of a REPLICA page still lacks a store of a thread of a core on a line (spec R66). -/
def State.lacksForward (s : State) (core key : Nat) : Bool :=
  s.forwards.any (fun f => f.left.any (fun k => overlaps (k, f.bytes.length) (key, 128)) &&
    match s.find f.thread with
    | some t => posCore t.cur == core
    | none => false)

/-- The L1 of a requester's core takes the line of an address, which a plain load at `l` has brought. No window fills it, and no
line that is bad or of which the module lacks a part. -/
def State.fillOne (s : State) (w : Who) (l : Loc) (line : Nat) : State :=
  let i := posCore w.here
  let c := s.core i
  let key := line * 128 - l.va + l.key - (l.va - line * 128)
  if l.win.isSome || c.l1Lines == 0 || !s.wholeLine key || (s.badByte key 128).isSome || s.lacksForward i key then s
  else
    let (dom, repl) := maskOf l.entry
    let x : L1Line := { space := w.space, va := BitVec.ofNat 64 (line * 128), dom := dom, repl := repl,
                        pos := if repl then w.pr else w.pk, key := key, entry := BitVec.ofNat 128 l.entry, level := l.level,
                        data := s.bytesAt key 128 }
    s.setCore i { c with l1 := x :: c.l1.filter (fun y =>
      !(y.space == x.space && y.va == x.va && y.dom == x.dom && y.pos == x.pos)) }.fitL1

/-- The L1 takes the lines that plain loads at some places have brought (spec R55), after what it held of their bytes. -/
def State.fillFrom (s : State) (w : Who) : List Loc → State
  | [] => s
  | l :: r =>
    if l.win.isSome || l.key / 2 ^ 60 ≠ 0 then s.fillFrom w r
    else ((unitsOf 128 l.va l.n).foldl (fun a n => a.fillOne w l n) s).fillFrom w r

end Sys2Proof.Machine
end

