-- ==== Sys2Proof/Machine/Slots.lean ====
section
/-! DEFINITION. Accumulator slots: ACCSTAT, slot images, draining, binding and the claims that name them
(spec R48, R130 to R136, R255). -/

namespace Sys2Proof.Machine

/-! ### ACCSTAT (spec R130) -/

/-- SSTATE of an ACCSTAT value. -/
def accState (x : Word) : Nat := bits x.toNat 31 30
/-- A value with bits `hi` to `lo` replaced. -/
def setBits (x : Word) (hi lo v : Nat) : Word :=
  BitVec.ofNat 64 (x.toNat % 2 ^ lo + v % 2 ^ (hi - lo + 1) * 2 ^ lo + x.toNat / 2 ^ (hi + 1) * 2 ^ (hi + 1))
/-- SSTATE replaced. -/
def setAccState (x : Word) (v : Nat) : Word := setBits x 31 30 v
/-- FROW. -/
def accFrow (x : Word) : Nat := bits x.toNat 39 32

/-- The slot that a command names. -/
def Work.slot? : Work → Option Nat
  | .mma n .. => some n
  | .mzero n => some n
  | .mresume n _ => some n
  | _ => none

/-- A slot is busy while q4 holds a command that names it (spec R133). -/
def TileSt.slotBusy (t : TileSt) (n : Nat) : Bool :=
  (t.queue 4).cmds.any (fun c => c.work.slot? == some n)

/-- The claim of a thread under a name. -/
def Thread.claim? (t : Thread) (name : BitVec 2) : Option Claim := t.claims.find? (fun c => c.name == name)

/-- A thread with a claim's binding changed. -/
def Thread.rebind (t : Thread) (name : BitVec 2) (p : Option (Nat × Nat)) : Thread :=
  { t with claims := t.claims.map (fun c => if c.name = name then { c with phys := p } else c) }

/-- Some slot that the thread has bound is busy. -/
def State.slotsBusy (s : State) (t : Thread) : Bool :=
  t.claims.any (fun c => match c.phys with | some (tile, n) => (s.tile tile).slotBusy n | none => false)

/-- The size of a slot image (spec R254). -/
def imageSize : Nat := 131328

/-- The bytes of a slot image from `off`, `n` of them (spec R255). -/
def SlotSt.imageBytes (x : SlotSt) (off n : Nat) : List Byte :=
  let status := leBytes 256 (pack [(64, x.accstat.toNat), (64, x.eopb.toNat), (1024, x.erec.toNat)])
  (x.data.readBytes off (min n (131072 - off))) ++
    (upto (max off 131072) (off + n - max off 131072)).map (fun i => status.getD (i - 131072) 0)

/-- A slot from the bytes of an image. -/
def SlotSt.ofImage (x : SlotSt) (bs : List Byte) : SlotSt :=
  let st := ofBytes (bs.drop 131072)
  { x with
    data := freshCells 0 (bs.take 131072)
    bad := []
    accstat := BitVec.ofNat 64 (bits st 63 0)
    eopb := BitVec.ofNat 64 (bits st 127 64)
    erec := BitVec.ofNat 1024 (bits st 1151 128) }

/-- The places of a save area that a drain writes; a trap where it has none, or one of its layers is off. -/
def State.areaFound (s : State) (t : Thread) (area : Word) : Res (List Loc) :=
  (Res.map (s.locate (s.who { t with priv := true } .none) .store) (parts area.toNat imageSize)).bind (fun ls =>
    (Res.all s.darkCheck ls).bind (fun _ => .ok ls))

/-- Write the bytes of an image to its places. -/
def State.writeImage (s : State) (x : SlotSt) (area : Nat) : List Loc → State
  | [] => s
  | l :: r => (s.store l.key (x.imageBytes (l.va - area) l.n)).writeImage x area r

/-- Whether the save area of a claim may be written now, where the claim has a slot: it has places, and no other agent holds its lines. A
trap says that the drain is lost: here, or at the home, which has refused it (spec R136, R347). -/
def State.drainReady (s : State) (t : Thread) (c : Claim) : Ready :=
  match c.phys, s.areaFound t c.area with
  | none, _ => .ok
  | some _, .ok ls => s.ready t true ls
  | some _, .wait n => .later (s.wantEntry t.key t.cur n)
  | some _, .trap x => .trap s x

/-- The same for several claims: what is lost is no more waited for. -/
def State.drainsReady (s : State) (t : Thread) : List Claim → Ready
  | [] => .ok
  | c :: r =>
    match s.drainReady t c with
    | .later s' => .later s'
    | _ => s.drainsReady t r

/-- Drain the slot of a claim to its save area and free it; the second part says whether the bytes arrived
(spec R136, R347). -/
def State.drainSlot (s : State) (t : Thread) (c : Claim) : State × Bool :=
  match c.phys with
  | none => (s, true)
  | some (tile, n) =>
    let x := (s.tile tile).slot n
    let free (s : State) : State := s.setTile tile ((s.tile tile).setSlot n {})
    match s.areaFound t c.area with
    | .ok ls =>
      match s.ready t true ls with
      | .trap s' _ => (free s', false)
      | _ => ((((free s).took t true ls (home := true)).writeImage x c.area.toNat ls).dirtied ls, true)
    | _ => (free s, false)

/-- Drain every claim; the list gives the save areas whose bytes are lost. -/
def State.drainSlots (s : State) (t : Thread) : List Claim → State × List Word
  | [] => (s, [])
  | c :: r =>
    let (s', ok) := s.drainSlot t c
    let (s'', lost) := s'.drainSlots t r
    (s'', if ok then lost else c.area :: lost)

/-- The thread's claims, none of them bound. -/
def Thread.unbound (t : Thread) : Thread := { t with claims := t.claims.map (fun c => { c with phys := none }) }

/-- A physical slot loses its owner. Until the commands that name it have completed it is not free (spec R195). -/
def State.freeSlot (s : State) (tile n : Nat) : State :=
  let x := s.tile tile
  s.setTile tile (x.setSlot n (if x.slotBusy n then { x.slot n with owner := none } else {}))

/-- End every claim of a thread without writing its save areas (spec R195 step 3): its slots become free and the pins
of the claims go. -/
def State.endClaims (s : State) (t : Thread) : State :=
  let s := t.claims.foldl (fun a c =>
    match c.phys with
    | some (tile, n) => a.freeSlot tile n
    | none => a) s
  { s with pins := s.pins.filter (fun p =>
      match p.owner with
      | .claim k _ => k != t.key
      | .epilogue k _ => k != t.key
      | _ => true) }

/-- Whether the claim under a name has a FAULTED slot. -/
def SlotSt.faulted (x : SlotSt) : Bool := accState x.accstat == 3

end Sys2Proof.Machine
end

