-- ==== Sys2Proof/Machine/Lifecycle.lean ====
section
/-! DEFINITION. How a thread leaves a core: eviction, migration, the end of a thread, and how it waits for memory of
its own (spec R23, R25, R27, R31, R195, R346). -/

namespace Sys2Proof.Machine

/-- A class ENGINE trap (spec R343). -/
def engineTrap (cause row : Nat) (va : Word := 0) : Trap := { cls := .engine, cause := cause, detail := row, va := va }

/-- The trap that losses of an eviction set off: a drain that did not arrive, or register lines that could not be
written back (spec R13, R347). -/
def lossTrap (t : Thread) (areas : List Word) (lines : List Nat) (header : Bool) : Option Trap :=
  match areas with
  | a :: _ => some (engineTrap 7 0 a)
  | [] =>
    match lines with
    | j :: _ => some (ctxfTrap 3 j (t.ctx.toNat + 256 + 128 * j))
    | [] => if header then none else some (ctxfTrap 3 0xFFF t.ctx.toNat)

/-! ### Contexts in memory that other agents may hold (spec R24, R325, R365) -/

/-- Bytes of a thread's context: the address and the count of the header and of register lines. -/
def Thread.ctxBytes (t : Thread) (lines : List Nat) : List (Nat × Nat) :=
  (t.ctx.toNat, 256) :: lines.map (fun j => (t.ctx.toNat + 256 + 128 * j, 128))

/-- Whether bytes of a context may be touched: their page is not being moved, and no other agent holds their lines. -/
def State.ctxReady (s : State) (t : Thread) (excl : Bool) (x : Nat × Nat) : Ready :=
  match s.leaf t.key t.space (posTower t.cur) x.1 with
  | .wait n => .later (s.wantEntry t.key t.cur n)
  | _ =>
    match s.ctxPlace t x.1 x.2 with
    | some f => s.readyLoc t excl { va := x.1, n := x.2, key := f }
    | none => .ok

/-- What several of them wait for. A request that failed counts as one that came back: log entry 60. -/
def State.ctxLater (s : State) (t : Thread) (excl : Bool) : List (Nat × Nat) → Option State
  | [] => none
  | x :: r =>
    match s.ctxReady t excl x with
    | .later s' => some s'
    | _ => s.ctxLater t excl r

/-- The places of bytes of a context. -/
def State.ctxLocs (s : State) (t : Thread) (xs : List (Nat × Nat)) : List Loc :=
  xs.filterMap (fun x => (s.ctxPlace t x.1 x.2).map (fun f => { va := x.1, n := x.2, key := f : Loc }))

/-- Go on once bytes of a context may be touched. They are touched at their homes: no cache of the module keeps their lines. -/
def State.ctxWhen (s : State) (t : Thread) (excl : Bool) (f : State → State) (xs : List (Nat × Nat)) : State :=
  match s.ctxLater t excl xs with
  | some s' => s'
  | none => f (s.took t excl (s.ctxLocs t xs) (home := true))

/-- Lines of a context in the memory of a peer or a host are dirty after they were written. -/
def State.ctxDirtied (s : State) (t : Thread) (xs : List (Nat × Nat)) : State :=
  s.dirtied (s.ctxLocs t xs)

/-- A thread that no core holds. -/
def Thread.released (t : Thread) : Thread :=
  { t with
    held := false
    slot := none
    regs := []
    lines := []
    dirty := []
    alloc := []
    fresh := false
    badLines := t.lostMarks
    recent := []
    usedAt := []
    owed := []
    busy := []
    accs := []
    waitLoad := none
    stall := 0
    readyAt := 0
    took := false
    leaving := false }

/-- A thread traps for what it lost and not for an instruction (spec R23): its trap is to be recorded, it stays in its
state until then, and waits for nothing any more. -/
def Thread.trapLost (t : Thread) (now : Nat) (x : Trap) (stage : TrapStage) : Thread :=
  { (t.trap now x) with
    trapStage := stage
    parkc := 0
    parkva := 0
    wait := .none }

/-- A thread that leaves ACTIVE is owed nothing any more (spec R199). -/
def State.unowe (s : State) (k : Key) : State :=
  if s.all.all (fun t => t.owed.isEmpty) then s
  else s.mapThreads (fun t => if t.owed.isEmpty then t else { t with owed := t.owed.filter (fun x => x != k) })

/-- Answers of peers to a thread are forgotten. -/
def State.dropAnswers (s : State) (k : Key) : State :=
  if s.txns.isEmpty then s else { s with txns := s.txns.filter (fun y => !(y.thread == some k && y.answer.isSome)) }

/-- Steps 2 to 6 of R25 for a thread whose slots are not busy, leaving it with state `st`. With losses it becomes a
trapped thread whose record is still to be written, unless a trap is on its way already. -/
def State.evictTo (s : State) (t : Thread) (st : ThState) : State :=
  let s := s.drainThread t
  let t := ((s.find t.key).getD t).regroup
  let (s, areas) := s.drainSlots t t.claims
  let t := t.unbound
  let (s, lost) := s.writeLines t t.dirtyLines
  let fits := (s.headerPlace t).isSome
  let u := match t.trapStage, lossTrap t areas lost fits with
    | .none, some x => t.trapLost s.clock x .evicted
    | .none, none => { t with state := st }
    | _, _ => { t with trapStage := .evicted }
  let s := ((s.writeHeader u u.state.code).getD s).ctxDirtied t (t.ctxBytes t.dirtyLines)
  ((s.setThread u.released).dropAnswers t.key).unowe t.key

/-- Whether every result of a thread's words has been written (spec R25 step 1, R195 step 1). -/
def State.quiet (s : State) (t : Thread) : Bool :=
  let now := max (s.core (posCore t.cur)).cycle s.clock
  t.busy.all (fun b => decide (b.till ≤ now))

/-- Whether an operation of a thread at a peer is under way, or done and not yet taken (spec R214, R365). One that a parked thread
waits with changes nothing. -/
def State.opPending (s : State) (t : Thread) : Bool :=
  t.state != .parked && t.trapStage == .none && s.txns.any (fun x => x.thread == some t.key && (x.opc == .amo || x.opc == .cell || x.opc == .arrv))

/-- Whether a thread may be evicted now: a core holds it, its results are written, its slots are not busy, and no operation of it is
under way at a peer (spec R25, R136). A group that it has begun is issued again from its first word, as if the eviction had come
before it (spec R170). -/
def State.mayEvict (s : State) (t : Thread) : Bool :=
  t.held && s.quiet t && !s.slotsBusy t && !s.opPending t && t.trapStage != .evicted

/-- The state that an eviction leaves a thread in (spec R23). -/
def Thread.evictedState (t : Thread) : ThState := if t.state = .parked then .parked else .dormant

/-- Evict a thread where that may happen now; it waits for lines that other agents hold. -/
def State.evict (s : State) (t : Thread) : State :=
  if s.mayEvict t then
    match s.accsReady t, s.drainsReady t t.claims with
    | .later s', _ => s'
    | _, .later s' => s'
    | _, _ => s.ctxWhen t true (fun s => s.evictTo t t.evictedState) (t.ctxBytes t.dirtyLines)
  else s

/-- Up to seven lines used last, for a crumb (spec R28). -/
def Thread.hotLines (t : Thread) : List Nat :=
  ((t.recent ++ t.lines).filter (fun j => t.lines.contains j)).eraseDups.take 7

/-- HOTL of a list of lines (spec R11). -/
def hotField (ls : List Nat) : BitVec 63 := BitVec.ofNat 63 (pack (ls.map (fun j => (9, j))))

/-- The lines that HOTL and HOTN name. -/
def hotOf (hotl : BitVec 63) (hotn : BitVec 3) : List Nat :=
  (upto 0 hotn.toNat).map (fun j => bits hotl.toNat (9 * j + 8) (9 * j))

/-- What goes with the thread of a crumb. -/
def State.passport (s : State) (t : Thread) (tower : Bool) : Option Passport :=
  (s.launch? t.key.launch).map (fun l =>
    { thread := t.key, ctx := t.ctx, record := l.record, origin := l.origin, arrivals := l.arrivals, done := l.done, tower := tower })

/-- Steps 3 and 4 of R27, or the trap of a loss on the way. `next` is where the thread goes on after arrival. -/
def State.sendOff (s : State) (dest : Pos) (tower : Bool) (next : Word) : State :=
  let t := s.thr
  let (s, areas) := s.drainSlots t t.claims
  let (s, lost) := s.writeLines t t.dirtyLines
  let fits := (s.headerPlace t).isSome
  match lossTrap t areas lost fits with
  | some x =>
    let u := t.unbound.trapLost s.clock x .evicted
    (((s.writeHeader u u.state.code).getD s).ctxDirtied t (t.ctxBytes t.dirtyLines)).setThread u.released
  | none =>
    let u := { t.unbound with
      pc := next
      travelPc := t.groupStart
      group := {}
      afterHint := false
      state := .travelling
      dest := dest
      crumbTower := tower
      hotl := hotField t.hotLines
      hotn := BitVec.ofNat 3 t.hotLines.length }
    let s := ((s.writeHeader u 6).getD s).ctxDirtied t (t.ctxBytes t.dirtyLines)
    let s := if posDev dest = s.dev then s
      else
        let lines := (t.hotLines.map (fun j => t.regs.readBytes (128 * j) 128)).flatten
        s.ask (some t.key) t.cur .sys .crumb ((posDev dest).toNat * 2 ^ 48) 0 ((leBytes 128 (u.header 6)) ++ lines)
          (claims := t.claims.map (fun c => (c.name, c.area))) (pass := s.passport t tower)
    s.setThread u.released

/-- Whether a crumb toward a destination can leave: a peer device needs a free tag. -/
def State.canLeave (s : State) (dest : Pos) : Bool := posDev dest == s.dev || (s.freeTag (posDev dest)).isSome

/-- Whether a command that the thread has issued stands in q4 of its tile, or names a slot of it (spec R27 step 2). -/
def State.matrixBusy (s : State) (t : Thread) : Bool :=
  s.slotsBusy t || ((s.tile (posTile t.cur)).queue 4).cmds.any (fun c => c.by_.key == t.key)

/-- Steps 1 to 4 of R27: the focus thread leaves for a destination. While its matrix commands are under way, or its
context waits for another agent, it waits. -/
def State.depart (s : State) (dest : Pos) (tower : Bool) (next : Word) : State :=
  if s.matrixBusy s.thr || !s.canLeave dest then s
  else
    let s := s.drain
    match s.drainsReady s.thr s.thr.claims with
    | .later s' => s'
    | _ => s.ctxWhen s.thr true (fun s => s.sendOff dest tower next) (s.thr.ctxBytes s.thr.dirtyLines)

/-- Whether a destination exists, lies in the partition of a thread's space, and is a device of the space (spec R31); none where
this device has not learnt it: log entry 23. -/
def State.destThere (s : State) (space : BitVec 16) (p : Pos) : Option Bool :=
  match (s.space? space).bind (fun x => x.devSlot (posDev p)) with
  | some _ => s.towerThere (partOf space) (posDev p) (posTower p)
  | none => some false

/-- The focus thread travels for an access at `va`; it issues its group again after arrival (spec R29). A destination that
does not exist or lies outside the partition traps before departure (spec R31). -/
def State.travel (s : State) (dest : Pos) (va : Nat) : State :=
  match s.destThere s.thr.space dest with
  | some true => s.depart dest true s.thr.groupStart
  | some false => s.takeTrap { cls := .addr, cause := 5, va := BitVec.ofNat 64 va }
  | none => s

/-- Go on with what a check found that may have walked the page table: the walker asks for an entry that it lacks. -/
def State.resolved {α : Type} (s : State) (r : Res α) (f : α → Out) : Out :=
  match r with
  | .ok a => f a
  | .trap t => .next (s.takeTrap t)
  | .wait n => .next (s.wantEntry s.thr.key s.thr.cur n)

/-- Go on with what an access found. -/
def State.found (s : State) (x : Found) (f : List Loc → Out) : Out :=
  match x with
  | .ok ls => f ls
  | .trap t => .next (s.takeTrap t)
  | .wait n => .next (s.wantEntry s.thr.key s.thr.cur n)
  | .travel d va => .next (s.travel d va)

/-- Go on once the coherence machinery lets the focus thread touch the places, in the state in which its tile holds their lines or,
with `home`, no cache of the module does. -/
def State.whenReady (s : State) (excl : Bool) (ls : List Loc) (f : State → Out) (home : Bool := false) : Out :=
  match s.ready s.thr excl ls with
  | .ok => f (s.took s.thr excl ls home)
  | .later s' => .next s'
  | .trap s' t => .next (s'.takeTrap t)

/-- The same for a read of which no copy is kept. -/
def State.whenRead (s : State) (ls : List Loc) (f : State → Out) : Out :=
  match s.ready s.thr false ls true with
  | .ok => f ((s.took s.thr false ls false true).endStream s.thr.key)
  | .later s' => .next s'
  | .trap s' t => .next (s'.takeTrap t)

/-- The focus thread leaves its waiting instruction and parks. -/
def State.parkNow (s : State) (cause : BitVec 4) (va : Word) (w : Wait) : State := s.put (s.thr.park cause va w)

/-! ### Barriers and the end of a thread (spec R218, R195, R328) -/

/-- Extent of level `k`, counted from 0 (spec R14). -/
def Launch.extent (l : Launch) (k : Nat) : Nat := l.field (1024 + 64 * k + 31) (1024 + 64 * k)
/-- Domain code of level `k`, counted from 0. -/
def Launch.dom (l : Launch) (k : Nat) : Nat := l.field (1024 + 64 * k + 34) (1024 + 64 * k + 32)
/-- Scope code of level `k`, counted from 0. -/
def Launch.levelScope (l : Launch) (k : Nat) : Nat := l.field (1024 + 64 * k + 38) (1024 + 64 * k + 36)
/-- NLEV, the number of levels less one. -/
def Launch.nlev (l : Launch) : Nat := l.field 330 328
/-- E1 × … × Ek (spec R226). -/
def Launch.prod (l : Launch) : Nat → Nat
  | 0 => 1
  | k + 1 => l.prod k * l.extent k
/-- The number of threads (spec R17). -/
def Launch.size (l : Launch) : Nat := l.prod (l.nlev + 1)
/-- The instance of level `k`, counted from 0, that a flat index lies in. -/
def Launch.inst (l : Launch) (k x : Nat) : Nat := x / l.prod (k + 1)
/-- The launch queue. -/
def Launch.queue (l : Launch) : Nat := l.field 341 336
/-- The register-space size of its threads. -/
def Launch.regBytes (l : Launch) : Nat := (l.field 230 224 + 1) * 512
/-- The context address of a flat index (spec R17). -/
def Launch.ctx (l : Launch) (x : Nat) : Nat := l.field 191 128 + x * (256 + l.regBytes)
/-- Whether the top level is bound to SYSTEM (spec R330). -/
def Launch.spans (l : Launch) : Bool := l.dom l.nlev == 5

/-- How often a thread has arrived at level `k`. -/
def Launch.arrived (l : Launch) (k x : Nat) : Nat := Tab.get l.arrivals (k * 2 ^ 32 + x) 0

/-- Whether barrier `m` of an instance of level `k` has completed: every participant is DONE or has arrived `m` times
(spec R218). -/
def Launch.barrierDone (l : Launch) (k inst m : Nat) : Bool :=
  let size := l.prod (k + 1)
  let here (x : Nat) : Bool := x / size == inst
  let came := (l.arrivals.filter (fun p => p.1 / 2 ^ 32 == k && here (p.1 % 2 ^ 32) && decide (m ≤ p.2))).map (fun p => p.1 % 2 ^ 32)
  let gone := (l.done.eraseDups.filter here).filter (fun x => !came.contains x)
  decide (size ≤ came.length + gone.length)

/-- Whether the barrier that a thread's BARG names has completed. -/
def State.barrierOpen (s : State) (t : Thread) : Bool :=
  match s.launch? t.launch with
  | some l =>
    let k := bits t.barg.toNat 30 28
    l.barrierDone k (l.inst k t.index.toNat) (l.arrived k t.index.toNat)
  | none => true

/-- Participants parked at barriers that have completed leave PARKED. -/
def State.wakeBarriers (s : State) : State :=
  s.wakeAll (fun t => match t.wait with | .barrier _ _ => s.barrierOpen t | _ => false) s.all

/-! ### Arrival words (spec R96 to R98) -/

/-- ArrivalAdd of R97 on the 128 bits of a word. -/
def arrivalAdd (w n : Nat) (err dgerr : Bool) : Nat :=
  let target := bits w 31 0
  let count := (bits w 63 32 + n) % 2 ^ 32
  let gen := bits w 95 64
  let (count, gen) := if target = 0 then (count, gen) else (count % target, (gen + count / target) % 2 ^ 32)
  pack [(32, target), (32, count), (32, gen), (3, bits w 98 96), (1, b2n (bit w 99 || err)), (1, b2n (bit w 100 || dgerr)),
    (27, bits w 127 101)]

/-- A word's generation has reached `g` (spec R220). -/
def genReached (w : Nat) (g : BitVec 32) : Bool :=
  decide ((BitVec.ofNat 32 (bits w 95 64) - g).toNat < 2 ^ 31)

/-- An arrival word at a place takes a new value, and threads that wait for its generation leave PARKED. -/
def State.arriveWord (s : State) (key w : Nat) : State :=
  let s := s.store key (leBytes 16 w)
  s.wakeAll (fun t => match t.wait with | .gen k g => k == key && genReached w g | _ => false) s.all

/-- An arrival word at a place is updated. -/
def State.arrive (s : State) (key n : Nat) (err dgerr : Bool) : State :=
  s.arriveWord key (arrivalAdd (s.mem.readNum key 16) n err dgerr)

/-- What ARW makes of a word (spec R219): a count of 0 raises no generation, where the loop of R97 would for a word whose
COUNT software set to its TARGET or above (log entry 101). -/
def arwAdd (w n : Nat) : Nat := if n = 0 then w else arrivalAdd w n false false

/-- Whether a launch stands in its queue here. -/
def Launch.queued (l : Launch) : Bool := !l.localDone && !l.waiting && !l.guest

/-- The running launch of a queue: the first accepted one (spec R328). -/
def State.running (s : State) (q : Nat) : Option Launch := s.launches.find? (fun l => l.queue == q && l.queued)

end Sys2Proof.Machine
end

