-- ==== Sys2Proof/Machine/Launch.lean ====
section
/-! DEFINITION. Trap records and their queues, the end of threads and launches, and the submission of launch records
(spec R14 to R19, R195, R304, R305, R328 to R330, R345). -/

namespace Sys2Proof.Machine

/-! ### Trap records (spec R305, R345) -/

/-- The record of a thread's trap. -/
def Thread.record (t : Thread) : Nat :=
  pack [(64, t.trpc.toNat), (64, t.trva.toNat), (64, t.ctx.toNat), (56, t.trinfo.toNat), (8, t.trclass.toNat),
    (32, t.cur.toNat), (32, t.index.toNat), (32, t.launch.toNat), (16, t.space.toNat), (16, 0),
    (64, (nsecOf t.trapAt).toNat)]

/-- A record that names no thread: WDOG, and ENGINE cause 8. -/
def plainRecord (x : Trap) (space : BitVec 16) (launch : BitVec 32) (nsec : Word) : Nat :=
  pack [(64, 0), (64, x.va.toNat), (64, 0), (56, x.info.toNat), (8, x.cls.code.toNat), (32, 0), (32, 0),
    (32, launch.toNat), (16, space.toNat), (16, 0), (64, nsec.toNat)]

/-- A record of no thread: it comes after those of the traps that occurred before it on the device (spec R305). -/
def State.postLate (s : State) (space : BitVec 16) (r : Nat) : State :=
  match s.space? space with
  | none => s
  | some x => s.setSpace { x with tqLate := x.tqLate ++ [(s.clock, r)] }

/-! ### Writes and arrivals of the device itself (spec R16, R305, R309) -/

/-- The name under which the firmware's requests go to peers; no thread bears it. -/
def firmwareKey : Key := ⟨0, 0xFFFFFFFE⟩

/-- The requester of the firmware's coherence traffic. -/
def firmwareThread (space : BitVec 16) : Thread := { launch := firmwareKey.launch, index := firmwareKey.index, space := space }

/-- The place of a posted write or arrival. -/
def Posted.loc (p : Posted) : Loc := { va := 0, n := if p.bytes.isEmpty then 16 else p.bytes.length, key := p.key }

/-- A posted write or arrival is over. The pins that it kept go, and a completion arrival of a launch that was not performed
leaves a record (spec R16, R309). -/
def State.postedDone (s : State) (p : Posted) (ok : Bool) : State :=
  match p.launch, p.cmnt with
  | none, none => s
  | none, some n => { s with pins := s.pins.filter (fun x => x.owner != PinOwner.cmnt n) }
  | some id, _ =>
    let s := { s with pins := s.pins.filter (fun x => x.owner != PinOwner.doneaw id) }
    if ok then s else s.postLate p.space (plainRecord { engineTrap 8 0 with va := p.va } p.space id s.nsec)

/-- Whether an arrival on a word of this module or a host is not performed: its layer is off, or it lies on a bad granule. -/
def State.postedFails (s : State) (p : Posted) : Bool :=
  p.bytes.isEmpty &&
    ((decide (p.key / 2 ^ 48 = s.dev.toNat) && s.powerOf (layerOf (p.key % 2 ^ 48)) == .off) || (s.badByte p.key 16).isSome)

/-- A posted write or arrival is performed. -/
def State.performPosted (s : State) (p : Posted) : State :=
  (if p.bytes.isEmpty then (s.dirtied [p.loc]).arrive p.key 1 false false else (s.store p.key p.bytes).dirtied [p.loc]).postedDone p true

/-- Posted entry `n` is performed, after those of its space before it, once no other agent holds its line; an arrival at a
peer is sent once, when a tag is free, and answered. -/
def State.runPosted (s : State) (n : Nat) : State :=
  match s.posted[n]? with
  | none => s
  | some p =>
    let rest : State := { s with posted := without s.posted n }
    if (s.posted.take n).any (fun q => q.space == p.space) || p.sent then s
    else if s.canAsk p.key = false then s
    else if s.isPeer p.key && p.bytes.isEmpty then
      { s with posted := adjust s.posted n (fun q => { q with sent := true }) }.sendArrival (some firmwareKey) (posOf s.dev 0) p.key
        (leBytes 16 1)
    else if s.postedFails p then rest.postedDone p false
    else
      match s.readyLoc (firmwareThread p.space) true p.loc with
      | .ok => (rest.took (firmwareThread p.space) true [p.loc] (home := true)).performPosted p
      | .later s' => s'
      | .trap s' _ => { s' with posted := without s'.posted n }.postedDone p false

/-- A write or an arrival is posted, and performed where that may happen now. -/
def State.post (s : State) (p : Posted) : State := { s with posted := s.posted ++ [p] }.runPosted s.posted.length

/-- A peer has answered an arrival that the device posted. -/
def State.postedAnswer (s : State) (key : Nat) (ok : Bool) : State :=
  match s.posted.find? (fun p => p.sent && p.key == key) with
  | some p => { s with posted := s.posted.filter (fun q => q != p) }.postedDone p ok
  | none => s

/-! ### Trap queues (spec R305) -/

/-- The slots of a trap queue. -/
def SpaceSt.tqSize (x : SpaceSt) : Nat := 2 ^ x.field 228 224

/-- The slot of a queue that the next record goes into. -/
def SpaceSt.tqNext (x : SpaceSt) : Loc :=
  { va := 0, n := 64, key := x.field 127 64 + 64 * ((x.tqHead + x.tqCount) % x.tqSize) }

/-- Whether the slot of the next record may be written: no other agent holds its line. -/
def State.recordReady (s : State) (x : SpaceSt) : Ready := s.readyLoc (firmwareThread x.id) true x.tqNext

/-- A record goes into the first free slot of a queue, and the word of TQAW receives one arrival. -/
def State.writeRecord (s : State) (x : SpaceSt) (r : BitVec 512) : State :=
  let s := (s.took (firmwareThread x.id) true [x.tqNext] (home := true)).store x.tqNext.key (leBytes 64 r.toNat)
  let s := (s.dirtied [x.tqNext]).setSpace { x with tqCount := x.tqCount + 1 }
  if x.field 191 128 = 0 then s else s.post { space := x.id, key := x.field 191 128 }

/-- A record of a space: it takes the next SEQ, and stays pending while the queue is full, its slot cannot be written or
others are pending. -/
def State.postRecord (s : State) (space : BitVec 16) (k : Option Key) (r : Nat) : State :=
  match s.space? space with
  | none => s
  | some x =>
    let seq := x.tqSeq + 1
    let r : BitVec 512 := BitVec.ofNat 512 (r + seq.toNat * 2 ^ 448)
    let x := { x with tqSeq := seq }
    if x.tqPend.isEmpty && decide (x.tqCount < x.tqSize) && s.recordReady x == .ok then (s.setSpace x).writeRecord x r
    else s.setSpace { x with tqPend := x.tqPend ++ [(k, r)] }

/-- Pending records of a space reach the queue in their order, as far as it has room and its slots can be written; the
line of a slot that cannot be is asked for. -/
def State.flushRecords (s : State) (id : BitVec 16) : Nat → State
  | 0 => s
  | fuel + 1 =>
    match s.space? id with
    | none => s
    | some x =>
      match x.tqPend with
      | (_, r) :: rest =>
        if x.tqCount < x.tqSize then
          match s.recordReady x with
          | .ok =>
            let x := { x with tqPend := rest }
            ((s.setSpace x).writeRecord x r).flushRecords id fuel
          | .later s' => s'
          | .trap s' _ => s'
        else s
      | [] => s

/-- Whether no trap of a space that occurred at a time or before it still waits for its record. -/
def State.recordsBefore (s : State) (space : BitVec 16) (time : Nat) : Bool :=
  s.all.all (fun u => u.space != space || u.trapStage == .none || decide (time < u.trapAt))

/-- The records of no thread whose turn has come are posted. -/
def State.postDue (s : State) (space : BitVec 16) : Nat → State
  | 0 => s
  | fuel + 1 =>
    match s.space? space with
    | none => s
    | some x =>
      match x.tqLate with
      | (time, r) :: rest =>
        if s.recordsBefore space time then ((s.setSpace { x with tqLate := rest }).postRecord space none r).postDue space fuel
        else s
      | [] => s

/-- The records of no thread of a space that are due. -/
def State.postDueAll (s : State) (space : BitVec 16) : State :=
  s.postDue space (match s.space? space with | some x => x.tqLate.length | none => 0)

/-- A record of no thread is posted, at once where no earlier trap waits for its record. -/
def State.postPlain (s : State) (space : BitVec 16) (r : Nat) : State := (s.postLate space r).postDueAll space

/-- Pending records of a thread are discarded (spec R307, R348). -/
def State.dropPending (s : State) (space : BitVec 16) (k : Key) : State :=
  match s.space? space with
  | none => s
  | some x =>
    if x.tqPend.any (fun p => p.1 == some k) then
      s.setSpace { x with tqPend := x.tqPend.filter (fun p => p.1 != some k) }
    else s

/-! ### The end of launches (spec R195, R328, R330) -/

/-- DEVLIST entries in use. -/
def Launch.devlist (l : Launch) : List (BitVec 12) :=
  (upto 0 (l.field 348 344)).map (fun i => BitVec.ofNat 12 (l.field (1536 + 16 * i + 11) (1536 + 16 * i)))

/-- How many threads of a spanning launch with more than one level stand on a device (spec R332). -/
def Launch.shareOf (l : Launch) (dev : BitVec 12) : Nat :=
  let n := l.devlist.length
  let top := l.extent l.nlev
  (((upto 0 n).filter (fun p => l.devlist.getD p 0xFFF == dev)).map (fun p => (top + n - 1 - p) / n)).sum * l.prod l.nlev

/-- The device of a spanning launch that runs a flat index, if the record decides it (spec R332). -/
def Launch.deviceOf (l : Launch) (x : Nat) : Option (BitVec 12) :=
  if l.nlev = 0 then none
  else l.devlist[l.inst (l.nlev - 1) x % l.devlist.length]?

/-- Whether a flat index belongs to this device. -/
def Launch.here (l : Launch) (dev : BitVec 12) (x : Nat) : Bool :=
  !l.spans || (if l.nlev = 0 then l.granted.contains x else l.deviceOf x == some dev)

/-- Whether every thread that this device runs, or will run, is DONE. -/
def Launch.allDone (l : Launch) (dev : BitVec 12) : Bool :=
  let n := (l.done.eraseDups.filter (l.here dev)).length
  if l.spans then
    if l.nlev = 0 then
      (l.noMore || (l.origin == dev && decide (l.size ≤ l.nextIndex))) && l.granted.all (fun x => l.done.contains x)
    else decide (l.shareOf dev ≤ n)
  else decide (l.size ≤ n)

/-- The completion arrival of a launch, or the record that says that it was not performed (spec R16). -/
def State.doneArrival (s : State) (l : Launch) : State :=
  match l.aw with
  | none => s
  | some k =>
    (s.post { space := l.space, key := k, launch := some l.id, va := BitVec.ofNat 64 (l.field 575 512) }).postDueAll l.space

/-- A launch is complete: its origin adds the arrival, once, and its queue moves on. -/
def State.completed (s : State) (l : Launch) : State :=
  (s.doneArrival l).setLaunch { l with aw := none, localDone := true }

/-- A spanning launch is complete on this device, which tells the origin. -/
def State.closeHere (s : State) (l : Launch) : State :=
  let s' := s.setLaunch { l with reported := s.dev :: l.reported, localDone := true }
  if l.origin = s.dev then s' else { s' with outLaunch := s'.outLaunch ++ [.report l.origin l.id] }

/-- The record of a launch goes. -/
def State.forget (s : State) (id : BitVec 32) : State :=
  { s with launches := s.launches.filter (fun y => y.id != id) }

/-- Whether every device of a launch has reported, which its origin alone learns. -/
def Launch.allReported (l : Launch) (dev : BitVec 12) : Bool :=
  l.origin == dev && l.devlist.all (fun d => l.reported.contains d)

/-- Whether every thread of a launch is DONE, on whatever device. -/
def Launch.everyDone (l : Launch) : Bool := decide (l.size ≤ l.done.eraseDups.length)

/-- The record of a guest launch goes with its last thread here. -/
def State.settleGuest (s : State) (l : Launch) : State :=
  if s.all.any (fun t => t.key.launch == l.id && t.state != .done) then s else s.forget l.id

/-- Look whether a launch has completed here, and what follows if so. A device that is not the origin of a spanning launch
keeps its record while a thread of it is not DONE elsewhere, for a kill (spec R304). -/
def State.settleLaunch (s : State) (id : BitVec 32) : State :=
  match s.launch? id with
  | none => s
  | some l =>
    if l.guest then s.settleGuest l
    else if l.spans then
      let s := if l.allDone s.dev && !l.reported.contains s.dev then s.closeHere l else s
      match s.launch? id with
      | none => s
      | some l =>
        let s := if l.allReported s.dev then s.completed l else s
        if l.allDone s.dev && (if l.origin = s.dev then l.allReported s.dev else l.everyDone) then s.forget id else s
    else if l.allDone s.dev then (s.completed l).forget id
    else s

/-- The first number from `n` on that a list does not hold, as far as `fuel` goes. -/
def skipIn (l : List Nat) (n : Nat) : Nat → Nat
  | 0 => n
  | fuel + 1 => if l.contains n then skipIn l (n + 1) fuel else n

/-- The next flat index that an origin hands out is the first from `n` on that is not DONE (spec R304, R330). -/
def Launch.skipTo (l : Launch) (n : Nat) : Launch := { l with nextIndex := skipIn l.done n l.done.length }

/-- A flat index of a launch is DONE (spec R195, R218, R328). -/
def State.learnDone (s : State) (id : BitVec 32) (x : Nat) : State :=
  match s.launch? id with
  | none => s
  | some l =>
    let l := { l with done := x :: l.done.filter (fun y => y != x) }
    let s := s.setLaunch (l.skipTo l.nextIndex)
    (s.wakeBarriers).settleLaunch id

/-- The other devices of a spanning launch. -/
def Launch.others (l : Launch) (dev : BitVec 12) : List (BitVec 12) :=
  if l.spans then (l.devlist.filter (fun d => d != dev)).eraseDups else []

/-- The devices that learn what threads of a launch do here: those that run it; of a launch that does not span devices, its origin, and
from there the devices to which threads of it have gone (spec R27, R218). -/
def State.told (s : State) (l : Launch) : List (BitVec 12) :=
  if l.guest && l.origin != s.dev && !l.spans then [l.origin]
  else
    let gone := (s.away.filter (fun a => a.thread.launch == l.id)).map (fun a => a.dev)
    ((if l.guest && l.origin != s.dev then [l.origin] else []) ++ l.others s.dev ++ gone).eraseDups

/-- A flat index of a launch reaches DONE on this device, which the other devices of the launch learn: its threads count
there for barriers and for a kill (spec R218, R304, R330). -/
def State.indexDone (s : State) (id : BitVec 32) (x : Nat) : State :=
  match s.launch? id with
  | none => s
  | some l =>
    { s with outLaunch := s.outLaunch ++ (s.told l).map (fun d => LaunchMsg.gone d ⟨id, BitVec.ofNat 32 x⟩) }.learnDone id x

/-- A thread is DONE: its record keeps its name and place, and nothing of it is left on a core. -/
def Thread.finished (t : Thread) (pc : Word) : Thread :=
  { t.released with
    state := .done
    pc := pc
    group := {}
    afterHint := false
    claims := []
    trapStage := .none
    parkc := 0
    parkva := 0
    wait := .none }

/-- A kill (spec R23, R195, R348): a travelling thread is killed when its crumb arrives or returns. A kill performs nothing
of what the thread has outstanding: its stores stay so, and its loads are nobody's any more. -/
def State.killThread (s : State) (t : Thread) : State :=
  if t.state = .done then s
  else if t.state = .travelling ∧ t.trapStage = .none then s.setThread { t with killed := true }
  else
    let s := (s.endClaims t).setThread { t.finished t.pc with
      accs := t.accs.filter (fun a => match a with | .load _ _ => false | _ => true) }
    ((s.dropAnswers t.key).dropPending t.space t.key).indexDone t.key.launch t.key.index.toNat

/-- A kill of a flat index that is still CREATED: it is never materialised (spec R304). -/
def State.killCreated (s : State) (l : Launch) (x : Nat) : State :=
  (s.setLaunch { l with handed := x :: l.handed }).indexDone l.id x

/-- Whether a flat index is CREATED and this device's to materialise or to hand out. -/
def Launch.createdAt (l : Launch) (dev : BitVec 12) (x : Nat) : Bool :=
  !l.handed.contains x && !l.done.contains x && !l.guest &&
    (l.here dev x || (l.spans && l.nlev == 0 && l.origin == dev && decide (l.nextIndex ≤ x)))

/-- A kill of a thread that a peer has accepted goes there (spec R23, R304). -/
def State.killAway (s : State) (k : Key) : State :=
  { s with outLaunch := s.outLaunch ++ (s.away.filter (fun a => a.thread == k)).map (fun a => LaunchMsg.killThread a.dev k) }

/-- A thread is to be killed, as another device says: one that this device holds, or has not materialised, or gave away. -/
def State.killNamed (s : State) (k : Key) : State :=
  match s.find k with
  | some t => s.killThread t
  | none =>
    match s.launch? k.launch with
    | some l => if l.createdAt s.dev k.index.toNat then s.killCreated l k.index.toNat else s.killAway k
    | none => s.killAway k

/-- Kill the threads of a list. -/
def State.killAll (s : State) : List Key → State
  | [] => s
  | k :: r =>
    match s.find k with
    | some t => (s.killThread t).killAll r
    | none => s.killAll r

/-- Whether some thread of a launch that this device runs is not DONE. -/
def State.launchLive (s : State) (id : BitVec 32) : Bool :=
  match s.launch? id with
  | some l => !l.allDone s.dev
  | none => false

/-- Every thread of a launch on this device is killed, CREATED ones included (spec R23, R304, R330). -/
def State.killHere (s : State) (id : BitVec 32) : State :=
  match s.launch? id with
  | none => s
  | some l =>
    let live := (s.all.filter (fun t => t.key.launch == id && t.state != .done)).map Thread.key
    let flying := (s.all.filter (fun t => t.key.launch == id && t.state == .travelling)).map (fun t => t.key.index.toNat)
    let s := s.killAll live
    match s.launch? id with
    | none => s
    | some l' =>
      let rest := (upto 0 l.size).filter (fun x => !l'.done.contains x && !flying.contains x)
      let gone := s.away.filter (fun a => a.thread.launch == id)
      let s := { s with
        away := s.away.filter (fun a => a.thread.launch != id)
        outLaunch := s.outLaunch ++ gone.map (fun (a : Away) => LaunchMsg.killThread a.dev a.thread) }
      let s := s.setLaunch { l' with handed := rest ++ l'.handed, done := rest ++ l'.done, noMore := true }
      (s.wakeBarriers).settleLaunch id

/-! ### Submission locks (spec R330) -/

/-- A lock of a queue of this device is given to the device that is next to have it. -/
def State.grantLock (s : State) (q : Nat) : State :=
  match Tab.get s.locks q [] with
  | d :: _ =>
    if d = s.dev then s else { s with outLaunch := s.outLaunch ++ [LaunchMsg.locked d q] }
  | [] => s

/-- A device wants the lock of a queue of this device: it has it at once, or after those that asked before. -/
def State.wantLock (s : State) (q : Nat) (dev : BitVec 12) : State :=
  let ds := Tab.get s.locks q []
  let s := { s with locks := Tab.put s.locks q (ds ++ [dev]) }
  if ds.isEmpty then s.grantLock q else s

/-- A device gives back the lock of a queue of this device, or no longer wants it. -/
def State.dropLock (s : State) (q : Nat) (dev : BitVec 12) : State :=
  let ds := Tab.get s.locks q []
  let s := { s with locks := Tab.put s.locks q (ds.erase dev) }
  if ds.head? = some dev then s.grantLock q else s

/-- The lock of a queue of a device is given back. -/
def State.giveBack (s : State) (q : Nat) (dev : BitVec 12) : State :=
  if dev = s.dev then s.dropLock q dev else { s with outLaunch := s.outLaunch ++ [LaunchMsg.unlock dev q] }

/-- The locks that a submission holds, or has asked for, are given back. -/
def State.giveBackAll (s : State) (q : Nat) : List (BitVec 12) → State
  | [] => s
  | d :: r => (s.giveBack q d).giveBackAll q r

/-- The devices whose locks a launch's submission takes, in increasing number. -/
def Launch.lockOrder (l : Launch) : List (BitVec 12) := (l.devlist.eraseDups).mergeSort (fun a b => decide (a.toNat ≤ b.toNat))

/-- The lock that a submission waits for, if it has asked for one. -/
def Submission.wanted (u : Submission) (l : Launch) : List (BitVec 12) :=
  if u.asked then (l.lockOrder.drop u.held.length).take 1 else []

/-- A submission is given up: its locks go back. -/
def State.dropSubmission (s : State) (u : Submission) : State :=
  let s := { s with submitting := s.submitting.filter (fun v => v != u) }
  match s.launch? u.id with
  | some l => s.giveBackAll l.queue (u.held ++ u.wanted l)
  | none => s

/-- A kill of a launch, forwarded to every device of its DEVLIST (spec R330). One whose record its origin has not sent yet is unknown
to the others. -/
def State.killLaunch (s : State) (id : BitVec 32) : State :=
  match s.launch? id with
  | none => s
  | some l =>
    match s.submitting.find? (fun u => u.id == id) with
    | some u => ((s.dropSubmission u).setLaunch { l with reported := l.devlist.filter (fun d => d != s.dev) }).killHere id
    | none => ({ s with outLaunch := s.outLaunch ++ (s.told l).map (fun d => LaunchMsg.kill d id) }).killHere id

/-- Whether a launch queue holds 16 launches that have not completed here (spec R328). -/
def State.queueFull (s : State) (q : Nat) : Bool :=
  decide (16 ≤ (s.launches.filter (fun y => y.queue == q && y.queued)).length)

/-- Whether a launch queue takes a submission: it holds fewer than 16 launches accepted here that have not completed, those that still
wait to join it among them, and none of these was accepted before and has not joined it yet (spec R328, R329). -/
def State.queueOpen (s : State) (q : Nat) : Bool :=
  decide ((s.launches.filter (fun y => y.queue == q && !y.localDone && !y.guest)).length < 16) &&
    s.submitting.all (fun u => (s.launch? u.id).all (fun l => l.queue != q)) &&
    s.recordsIn.all (fun r => bits r.record.toNat 341 336 != q)

/-- The launch of a record from its origin. -/
def LaunchIn.queue (r : LaunchIn) : Nat := bits r.record.toNat 341 336

/-- A recorded launch joins its queue, as the last one. -/
def State.joinQueue (s : State) (id : BitVec 32) : State :=
  match s.launch? id with
  | some l => { s with launches := s.launches.filter (fun y => y.id != id) ++ [{ l with waiting := false }] }
  | none => s

/-- A recorded launch joins its queue, or waits for room there after those that came before it (spec R328, R330). -/
def State.lineUpLaunch (s : State) (l : Launch) : State :=
  if s.queueFull l.queue || s.recordsIn.any (fun x => x.queue == l.queue) then
    { s with recordsIn := s.recordsIn ++ [{ origin := l.origin, id := l.id, space := l.space, record := l.record }] }
  else s.joinQueue l.id

/-- A submission goes on: it asks for the next lock, or has them all, appends its launch to the queue of every device, and gives the
locks back (spec R330). -/
def State.advanceSubmission (s : State) (u : Submission) : State :=
  match s.launch? u.id with
  | none => { s with submitting := s.submitting.filter (fun v => v != u) }
  | some l =>
    match l.lockOrder.drop u.held.length with
    | [] =>
      let s := if l.localDone then s.joinQueue l.id else s.lineUpLaunch l
      let s := { s with outLaunch := s.outLaunch ++ (l.others s.dev).map (fun d => LaunchMsg.record d l.id l.space l.record) }
      s.dropSubmission u
    | d :: _ =>
      let had (v : Submission) : State := { s with submitting := s.submitting.map (fun w => if w = u then v else w) }
      if u.asked then
        if d = s.dev ∧ (Tab.get s.locks l.queue []).head? = some s.dev then had { u with held := u.held ++ [d], asked := false } else s
      else if d = s.dev then
        -- an own submission that waits for this lock has its turn first
        if s.submitting.any (fun v => v != u && (v.held.contains d || v.asked) && (Tab.get s.locks l.queue []).contains d &&
            (s.launch? v.id).any (fun m => m.queue == l.queue)) then s
        else (had { u with asked := true }).wantLock l.queue d
      else { had { u with asked := true } with outLaunch := s.outLaunch ++ [LaunchMsg.lock d l.queue] }

/-- A device has given its lock of a queue to this one. -/
def State.lockGiven (s : State) (dev : BitVec 12) (q : Nat) : State :=
  match s.submitting.find? (fun u => u.asked && (s.launch? u.id).any (fun l => l.queue == q && (u.wanted l).contains dev)) with
  | some u => { s with submitting := s.submitting.map (fun v => if v = u then { u with held := u.held ++ [dev], asked := false } else v) }
  | none => { s with outLaunch := s.outLaunch ++ [LaunchMsg.unlock dev q] }

/-! ### Submission (spec R14 to R16, R304, R330) -/

/-- The fields of a record that must be zero. -/
def recordReserved (r : Nat) : Bool :=
  bits r 2047 1792 == 0 && (upto 0 16).all (fun i => bits r (1536 + 16 * i + 15) (1536 + 16 * i + 12) == 0) &&
    (upto 0 8).all (fun i => !bit r (1024 + 64 * i + 35) && bits r (1024 + 64 * i + 63) (1024 + 64 * i + 39) == 0) &&
    bits r 1023 576 == 0 && bits r 511 462 == 0 && bits r 383 349 == 0 && bits r 343 342 == 0 &&
    bits r 335 331 == 0 && bits r 319 280 == 0 && bits r 255 231 == 0 && !bit r 199

/-- The checks of R15 but 10, as the code of the first that fails. NDEV of 17 to 31, outside the range of R14 and named by no row of
R15, fails as code 6: log entry 111. -/
def recordCode (x : SpaceSt) (l : Launch) (hostOrPriv : Bool) : Nat :=
  let r := l.record.toNat
  let n := l.nlev
  let tlen := bits r 461 448
  let levels := upto 0 (n + 1)
  let ndev := bits r 348 344
  if !(recordReserved r && bits r 1 0 == 0 && bits r 135 128 == 0 && (tlen == 0 || bits r 386 384 == 0)) then 1
  else if !(viewsOk (bits r 198 192) (bits r 207 200) (bits r 215 208) (bits r 223 216) (bits r 230 224) &&
      decide (tlen * 8 ≤ l.regBytes)) then 2
  else if !(decide (16 ≤ bits r 263 256) && bits r 263 256 + bits r 271 264 + bits r 279 272 == 124) then 3
  else if !(levels.all (fun k => decide (1 ≤ l.extent k) && decide (l.dom k ≤ 5) && decide (l.levelScope k ≤ 5) &&
      decide (l.dom k ≤ l.levelScope k)) && (upto 0 n).all (fun k => decide (l.dom k ≤ l.dom (k + 1)))) then 4
  else if 2 ^ 32 < l.size then 5
  else if !((decide (1 ≤ ndev) == l.spans) && decide (ndev ≤ 16) && l.devlist.all (fun d => x.devtab.contains d)) then 6
  else if bit r 327 && !hostOrPriv then 7
  else 0

/-- The frame of DONEAW (spec R15 code 10, R16), none when DONEAW is 0: the check fails when it does not qualify, and waits
while its page is being moved (spec R325). -/
def State.resolveDoneaw (s : State) (w : Who) (aw : Nat) : Res (Option Loc) :=
  let bad : Res (Option Loc) := .trap (addrTrap 3 aw)
  if aw = 0 then .ok none
  else if aw % 16 ≠ 0 || decide (2 ^ 57 ≤ aw) || (winOf aw).isSome then bad
  else
    match s.locate w .arrive (aw, 16) with
    | .ok l => if eKind l.entry = 2 || eKind l.entry = 3 then bad else .ok (some l)
    | .trap _ => bad
    | .wait n => .wait n

/-- A page's pin. -/
def pinOf (space : BitVec 16) (l : Loc) (o : PinOwner) : Pin :=
  { space := space, va := BitVec.ofNat 64 (l.va / pageSize l.level * pageSize l.level), level := l.level,
    entry := BitVec.ofNat 128 l.entry, owner := o }

/-- The next value of the launch counter: it starts at 1 and skips 0 (spec R304). -/
def nextCount (c : BitVec 20) : BitVec 20 := if c + 1 = 0 then 1 else c + 1

/-- How a submission ends: a code with what gd receives, or it waits, for its queue (spec R328, R329) or for the page of
DONEAW. -/
inductive Submitted
  | code (s : State) (x : Word)
  | later (s : State)
  deriving DecidableEq, Repr

/-- Submit a record (spec R304): `part` is the submitter's partition, `w` resolves DONEAW. One that spans devices waits while this
device has not learnt what a listed device has loaded (log entry 23); once accepted, it joins its queues under their submission locks
(spec R330). -/
def State.submit (s : State) (record : BitVec 2048) (space : BitVec 16) (part : Nat) (w : Who) (hostOrPriv : Bool) :
    Submitted :=
  let id : BitVec 32 := s.dev ++ nextCount s.launchCount
  let l : Launch := { id := id, space := space, record := record, origin := s.dev }
  let l := { l with localDone := l.spans && !l.devlist.contains s.dev }
  if l.queue / 8 ≠ part then .code s 8
  else
    match s.space? space with
    | none => .code s 9
    | some x =>
      match recordCode x l hostOrPriv with
      | 0 =>
        match s.resolveDoneaw w (l.field 575 512) with
        | .trap _ => .code s 10
        | .wait n => .later (s.wantEntry w.by_ w.here n)
        | .ok aw =>
          let others := l.others s.dev
          if others.any (fun d => (s.peer d).loaded.any (fun ls => ls.all (fun x => x.1 != space))) then .code s 9
          else if others.any (fun d => (s.peer d).loaded.isNone) || !s.queueOpen l.queue then .later s
          else
            let l := { l with
              aw := aw.map (fun a => a.key)
              waiting := !others.isEmpty }
            .code { s with
                launches := s.launches ++ [l]
                launchCount := nextCount s.launchCount
                pins := (match aw with | some a => [pinOf space a (.doneaw id)] | none => []) ++ s.pins
                submitting := s.submitting ++ (if others.isEmpty then [] else [{ id := id }]) }
              (BitVec.ofNat 64 (id.toNat * 2 ^ 32))
      | c + 1 => .code s (BitVec.ofNat 64 (c + 1))

/-- The position that a submitter without one resolves from (spec R16). -/
def State.hostPos (s : State) (part : Nat) : Pos :=
  posOf s.dev (((upto 0 8).find? (fun t => s.towerIn part t)).getD 0 * 64)

end Sys2Proof.Machine
end

