-- ==== Sys2Proof/Machine/Memory.lean ====
section
/-! DEFINITION. Loads, stores, acquire loads, release stores, core scratch synchronisation and prefetch
(spec R202 to R211). -/

namespace Sys2Proof.Machine

/-! ### Loads -/

/-- The parts of a load of the bytes at some places into `width` register bytes from `dst`. -/
def loadParts (dst width : Nat) (sext : Bool) : List Loc → List LoadPiece
  | [] => []
  | [l] => [{ key := l.key, n := l.n, dst := dst, width := width, sext := sext }]
  | l :: r => { key := l.key, n := l.n, dst := dst, width := l.n } :: loadParts (dst + l.n) (width - l.n) sext r

/-- The parts of a load into a scalar register; into g0 they are discarded (spec R206). -/
def scalarParts (d : BitVec 6) (sext : Bool) (ls : List Loc) : List LoadPiece :=
  if d = 0 then (loadParts 0 0 false ls).map (fun p => { p with width := 0 })
  else loadParts (8 * d.toNat) 8 sext ls

/-- A value of `n` bytes as the 64 bits that a load writes. -/
def loaded (sext : Bool) (n x : Nat) : Word := if sext then sextBytes n x else BitVec.ofNat 64 x

/-- The focus thread waits, ACTIVE, until every guarded line of some places is full (spec R75). -/
def State.waitFull (s : State) (ls : List Loc) (ps : List LoadPiece) (again : Bool) : State :=
  s.put { s.thr with waitLoad := some { lines := linesAt (ls.filter (fun l => isCoreKey l.key)), pieces := ps, again := again } }

/-- An access of the focus thread is left outstanding (spec R380). -/
def State.defer (s : State) (f : Nat → Acc) : State :=
  { s with
    thr := { s.thr with accs := s.thr.accs ++ [f s.accCount] }
    accCount := s.accCount + 1 }

/-- The bytes that the L1 of the core gives for a plain load (spec R55, R139); it holds no window. -/
def State.l1Bytes (s : State) (w : Who) (va n : Nat) (ls : List Loc) : Option (List Byte) :=
  if ls.any (fun l => l.win.isSome) then none else s.l1Hit w va n

/-- A plain load of `n` bytes into scalar register `d` from places that passed every check (spec R205, R206). -/
def State.loadFrom (s : State) (w : Who) (va : Word) (n : Nat) (sext : Bool) (d : BitVec 6) (ls : List Loc) : State :=
  let s := s.noteImages w.scsz ls
  let lines := s.emptyLines ls
  let ps := scalarParts d sext ls
  if lines ≠ [] then s.waitFull ls ps false
  else
    if (s.l1Bytes w va.toNat n ls).isNone && s.mayDefer ls then (s.defer (fun k => .load k ps)).upd Thread.advance
    else
      let s := s.settle false ls
      let hit := s.l1Bytes w va.toNat n ls
      let bs := hit.getD (s.readLocs ls)
      let s := if hit.isSome then s else (s.forgetL1 (posCore w.here) (locRanges ls)).fillFrom w ls
      s.put (s.thr.setG d (loaded sext n (ofBytes bs))).advance

/-- LDB to LDD. One that an L1 line serves asks no home (spec R139). -/
def State.load (s : State) (d a : BitVec 6) (i : BitVec 12) (n : Nat) (sext : Bool) : Out :=
  s.checked { imm := true, view := true } false { g := [d, a] }
    (let s := s.fenced
     let va := s.thr.g a + s.thr.imm i
     let w := s.who s.thr s.thr.view
     s.found (s.loadAccess w va n 1) (fun ls =>
       if ((s.settle false ls).l1Bytes w va.toNat n ls).isSome then .next (s.loadFrom w va n sext d ls)
       else s.whenReady false ls (fun s => .next (s.loadFrom w va n sext d ls))))

/-- LDB. -/
def execLdb (d a : BitVec 6) (i : BitVec 12) (s : State) : Out := s.load d a i 1 true
/-- LDBZ. -/
def execLdbz (d a : BitVec 6) (i : BitVec 12) (s : State) : Out := s.load d a i 1 false
/-- LDH. -/
def execLdh (d a : BitVec 6) (i : BitVec 12) (s : State) : Out := s.load d a i 2 true
/-- LDHZ. -/
def execLdhz (d a : BitVec 6) (i : BitVec 12) (s : State) : Out := s.load d a i 2 false
/-- LDW. -/
def execLdw (d a : BitVec 6) (i : BitVec 12) (s : State) : Out := s.load d a i 4 true
/-- LDWZ. -/
def execLdwz (d a : BitVec 6) (i : BitVec 12) (s : State) : Out := s.load d a i 4 false
/-- LDD. -/
def execLdd (d a : BitVec 6) (i : BitVec 12) (s : State) : Out := s.load d a i 8 false

/-! ### Stores -/

/-- A store of the focus thread is performed now. -/
def State.storeNow (s : State) (ls : List Loc) (bs : List Byte) : State :=
  (s.storePieces s.thr (storeParts ls bs)).dirtied ls

/-- A plain store of bytes to places that passed every check (spec R206). -/
def State.storeTo (s : State) (w : Who) (ls : List Loc) (bs : List Byte) : State :=
  let s := s.noteImages w.scsz ls
  if s.mayDeferStore ls then (s.scratchFirst s.thr (locRanges ls) s.all).defer (fun k => .store k (storeParts ls bs))
  else (s.settle true ls).storeNow ls bs

/-- STB to STD. -/
def State.storeInsn (s : State) (d a : BitVec 6) (i : BitVec 12) (n : Nat) : Out :=
  s.checked { imm := true, view := true } false { g := [d, a] }
    (let va := s.thr.g a + s.thr.imm i
     let w := s.who s.thr s.thr.view
     s.found (s.access w .store va n 1) (fun ls =>
       s.whenReady true ls (fun s => .next ((s.storeTo w ls (leBytes n (s.thr.g d).toNat)).upd Thread.advance))))

/-- STB. -/
def execStb (d a : BitVec 6) (i : BitVec 12) (s : State) : Out := s.storeInsn d a i 1
/-- STH. -/
def execSth (d a : BitVec 6) (i : BitVec 12) (s : State) : Out := s.storeInsn d a i 2
/-- STW. -/
def execStw (d a : BitVec 6) (i : BitVec 12) (s : State) : Out := s.storeInsn d a i 4
/-- STD. -/
def execStd (d a : BitVec 6) (i : BitVec 12) (s : State) : Out := s.storeInsn d a i 8

/-! ### Acquire loads and release stores (spec R207, R208) -/

/-- The address of the split-immediate form. -/
def Thread.splitVa (t : Thread) (a : BitVec 6) (o : BitVec 10) : Word := t.g a + o.signExtend 64

/-- LDA: at a scope wider than CORE it does not take its bytes from the L1. -/
def State.loadAcquire (s : State) (w : Who) (va : Word) (n : Nat) (d : BitVec 6) (ls : List Loc) : State :=
  let s := s.noteImages w.scsz ls
  let lines := s.emptyLines ls
  if lines ≠ [] then s.waitFull ls [] true
  else
    let s := s.settle false ls
    let hit := if s.thr.scope = .core && !ls.any (fun l => l.win.isSome) then s.l1Hit w va.toNat n else none
    let x := match hit with
      | some bs => ofBytes bs
      | none => s.valueAt ls
    let s := if hit.isSome then s else s.dropL1 ls
    ((s.put (s.thr.setG d (BitVec.ofNat 64 x))).acquire s.thr.scope).upd Thread.advance

/-- LDA. -/
def execLda (d a : BitVec 6) (z : Size) (o : BitVec 10) (s : State) : Out :=
  s.checked { view := true, scope := true } false { g := [d, a] }
    (let s := s.fenced
     let va := s.thr.splitVa a o
     let n := sizeBytes z
     let w := s.who s.thr s.thr.view
     s.found (if s.thr.scope = .core then s.loadAccess w va n n else s.access w .load va n n) (fun ls =>
       s.whenReady false ls (fun s => .next (s.loadAcquire w va n d ls))))

/-- A release store: performed after every earlier access; on a REPLICA page every copy holds it before the thread
goes on (spec R66, R208). -/
def State.storeRelease (s : State) (w : Who) (ls : List Loc) (bs : List Byte) : State :=
  let s := ((s.noteImages w.scsz ls).releaseAt s.thr.scope ls).storeNow ls bs
  s.flushForwards s.thr.key s.forwards

/-- The places of a store in every copy of a REPLICA page. -/
def copyLocs (ls : List Loc) : List Loc := ls.flatMap (fun l => { l with copies := [] } :: l.copies.map (fun k => { l with key := k, copies := [] }))

/-- STL: on a REPLICA page the lines of every copy must be at hand. -/
def execStl (d a : BitVec 6) (z : Size) (o : BitVec 10) (s : State) : Out :=
  s.checked { view := true, scope := true } false { g := [d, a] }
    (let va := s.thr.splitVa a o
     let n := sizeBytes z
     let w := s.who s.thr s.thr.view
     s.found (s.access w .store va n n) (fun ls =>
       s.whenReady true (copyLocs ls) (fun s => .next ((s.storeRelease w ls (leBytes n (s.thr.g d).toNat)).upd Thread.advance))))

/-! ### Core scratch synchronisation (spec R74, R76, R209, R210) -/

/-- The number of the first place of an access. -/
def firstKey (ls : List Loc) : Nat := (ls.head?.map (fun l => l.key)).getD 0

/-- LDSY at the line's home: park, or read and set empty. -/
def State.loadSync (s : State) (w : Who) (va : Word) (d : BitVec 6) (ls : List Loc) : State :=
  let s := s.noteImages w.scsz ls
  let k := firstKey ls
  if s.isFull k = false then s.parkNow 1 va (.line k)
  else
    let s := (s.settle true ls).setFull k w.scsz false
    ((s.put (s.thr.setG d (BitVec.ofNat 64 (s.valueAt ls)))).acquire s.thr.scope).upd Thread.advance

/-- LDSY. -/
def execLdsy (d a : BitVec 6) (z : Size) (o : BitVec 10) (s : State) : Out :=
  s.checked { view := true, scope := true } false { g := [d, a] }
    (let va := s.thr.splitVa a o
     let n := sizeBytes z
     let w := s.who s.thr s.thr.view
     s.found (s.access w .scratch va n n) (fun ls => .next (s.loadSync w va d ls)))

/-- STF at the line's home: write, set full, and let those that wait go on. -/
def State.storeFull (s : State) (w : Who) (ls : List Loc) (bs : List Byte) : State :=
  let s := (s.noteImages w.scsz ls).releaseAt s.thr.scope ls
  let k := firstKey ls
  (((s.storeNow ls bs).upd Thread.advance).setFull k w.scsz true).lineOpened k

/-- STF. -/
def execStf (d a : BitVec 6) (z : Size) (o : BitVec 10) (s : State) : Out :=
  s.checked { view := true, scope := true } false { g := [d, a] }
    (let va := s.thr.splitVa a o
     let n := sizeBytes z
     let w := s.who s.thr s.thr.view
     s.found (s.access w .fill va n n) (fun ls => .next (s.storeFull w ls (leBytes n (s.thr.g d).toNat))))

/-- FEST on one line. -/
def State.festLine (s : State) (scsz : BitVec 8) (k : Nat) (g f : BitOp) : State :=
  let s := match g with
    | .keep => s
    | .set => s.setGuard k scsz true
    | .clear => s.setGuard k scsz false
  let s := match f with
    | .keep => s
    | .set => s.setFull k scsz true
    | .clear => s.setFull k scsz false
  if f = .set then s.lineOpened k
  else if g = .clear then s.resumeLoads s.all
  else s

/-- FEST over a range of lines, in rising address order. -/
def State.festLines (s : State) (scsz : BitVec 8) (g f : BitOp) : List Nat → State
  | [] => s
  | k :: r => (s.festLine scsz k g f).festLines scsz g f r

/-- The checks of FEST on its operands (spec R210). -/
def State.festCheck (s : State) (w : Who) (va n : Nat) : Res Unit :=
  let off := va % 2 ^ 40
  if 2 ^ 57 ≤ va then .trap (addrTrap 1 va)
  else if va % 128 ≠ 0 then .trap (addrTrap 2 va)
  else (s.viewCheck w va).bind (fun _ =>
    if winOf va ≠ some .core then .trap (addrTrap 3 va)
    else Res.need (decide (n = 0 ∨ off + 128 * n ≤ s.coreScratchSize w)) (addrTrap 3 (va + (s.coreScratchSize w - off))))

/-- FEST. -/
def execFest (a b : BitVec 6) (g f : BitOp) (s : State) : Out :=
  s.checked { view := true } false { g := [a, b] }
    (let va := (s.thr.g a).toNat
     let n := (s.thr.g b).toNat
     let w := s.who s.thr s.thr.view
     s.after (s.festCheck w va n) (fun _ =>
       let k := coreKey w.space (posDev w.pk) (posCore w.pk) (va % 2 ^ 40)
       let s := if n = 0 then s else (s.settle true [{ va := va, n := 128 * n, key := k }]).noteImages w.scsz
         [{ va := va, n := 128 * n, key := k, win := some .core }]
       .next ((s.upd Thread.advance).festLines w.scsz g f ((upto 0 n).map (fun j => k + 128 * j)))))

/-! ### L1 fills and PREF (spec R55, R211) -/

/-- A plain load of one byte of a requester, without a result, as far as a tier: the line of an address comes to the L1, to the tile
cache, or to the hearth, where the access passes every check, meets no window and travels nowhere; else nothing happens. A line
that another agent holds is asked for. -/
def State.prefetch (s : State) (t : Tier) (w : Who) (va : Word) : State :=
  match s.access w .load va 1 1 with
  | .ok [l] =>
    if l.win.isSome then s
    else
      match s.ready s.thr false [l] with
      | .ok =>
        (match t with
         | .l1 => if (s.l1Line w va.toNat 1).isSome then s else (s.took s.thr false [l]).fillFrom w [l]
         | .tile => s.took s.thr false [l]
         | .hearth => s.reachHearth (posTower s.thr.cur) s.thr.space (l.key / 128))
      | .later s' => s'
      | .trap _ _ => s
  | _ => s

/-- PREF. -/
def execPref (t : Tier) (a : BitVec 6) (i : BitVec 12) (s : State) : Out :=
  s.checked { imm := true, view := true } false { g := [a] }
    (.next ((s.prefetch t (s.who s.thr s.thr.view) (s.thr.g a + s.thr.imm i)).upd Thread.advance))

end Sys2Proof.Machine
end

