-- ==== Sys2Proof/Machine/Sync.lean ====
section
/-! DEFINITION. Atomics, fences, barriers, arrival words and crust cells (spec R212 to R224). -/

namespace Sys2Proof.Machine

/-! ### Requests that a peer's home performs (spec R214, R365) -/

/-- Where an operation of the focus thread at an address stands that it has begun at a peer: it is translated once (spec R321). -/
def State.begun (s : State) (opc : Opc) (arg : BitVec 9) (va : Word) (n : Nat) : Option Loc :=
  (s.txns.find? (fun x => x.thread == some s.thr.key && x.opc == opc && x.arg == arg && x.va == va.toNat)).map (fun x =>
    { va := x.va, n := n, key := if opc = .rdc then x.key + x.va % 128 else x.key, entry := x.entry.toNat, level := x.level })

/-- The focus thread has a peer perform an operation: it asks once, waits, and goes on with the answer. `pause` is
what waiting looks like. -/
def State.atPeer (s : State) (opc : Opc) (l : Loc) (arg : BitVec 9) (payload : List Byte)
    (pause : State → State) (f : State → Nat → State) : Out :=
  match s.txns.find? (fun x => x.thread == some s.thr.key && x.key == l.key && x.opc == opc && x.arg == arg) with
  | none => .next (pause (s.ask (some s.thr.key) s.thr.cur s.thr.scope opc l.key arg payload l.va l.level
      (entry := l.entry)))
  | some x =>
    let s' := { s with txns := s.txns.filter (fun y => y != x) }
    match x.answer with
    | none => .next (pause s)
    | some .done => .next (f s' 0)
    | some (.value b) => .next (f s' b.toNat)
    | some (.failed c k) =>
      .next (s'.takeTrap { cls := classOfCode c.toNat, cause := k.toNat, detail := nakDetail c.toNat l.key l.level, va := BitVec.ofNat 64 l.va })

/-- The place of an access that is one part. -/
def onePlace (ls : List Loc) : Loc := ls.head?.getD { va := 0, n := 0, key := 0 }

/-! ### Atomics (spec R212 to R215) -/

/-- Whether the order is a release. -/
def ordRel (o : AmoOrd) : Bool := o == .rel || o == .ar
/-- Whether the order is an acquire. -/
def ordAcq (o : AmoOrd) : Bool := o == .acq || o == .ar

/-- The new value of an atomic over `n` bytes, none where nothing is stored, and the flags of fadd. -/
def amoNew (fn : AmoFn) (n old op exp : Nat) : Option Nat × Flags :=
  let s (x : Nat) : Int := signed (8 * n) x
  match fn with
  | .add => (some ((old + op) % 2 ^ (8 * n)), 0)
  | .and => (some (old &&& op), 0)
  | .or => (some (old ||| op), 0)
  | .xor => (some (old ^^^ op), 0)
  | .min => (some (if s op < s old then op else old), 0)
  | .max => (some (if s old < s op then op else old), 0)
  | .minz => (some (min old op), 0)
  | .maxz => (some (max old op), 0)
  | .swap => (some op, 0)
  | .cas => (if old = exp then some op else none, 0)
  | .fadd =>
    let r := FFmt.f32.finish .rne .dflt ((FFmt.f32.decode old).add .rne (FFmt.f32.decode op))
    (some r.1, r.2)

/-- ARG of AMO (spec R365). -/
def amoArg (fn : AmoFn) (ord : AmoOrd) (n : Nat) : BitVec 9 := BitVec.ofNat 9 (fn.code.toNat + 16 * ord.code.toNat + 64 * (n / 8))

/-- The old value returns to the thread, with the flags of fadd; an acquire acts. -/
def State.amoResult (s : State) (d : BitVec 6) (n : Nat) (fn : AmoFn) (ord : AmoOrd) (old : Nat) (fl : Flags) : State :=
  let x := if fn = .fadd then BitVec.ofNat 64 old else sextBytes n old
  let s' := s.put ((s.thr.setG d x).raise fl)
  (if ordAcq ord then s'.acquire s.thr.scope else s').upd Thread.advance

/-- The indivisible step of an atomic at places of this module or of a host (spec R213, R214). The L1 line of its own core goes at
once; those of other cores hear of the invalidation of their tiles' lines (spec R352). A half of host memory is in M afterwards though
cas stored nothing (spec R358). -/
def State.amoHere (s : State) (d : BitVec 6) (n : Nat) (fn : AmoFn) (ord : AmoOrd) (ls : List Loc) (op exp : Nat) : State :=
  let old := s.valueAt ls
  let (new, fl) := amoNew fn n old op exp
  let s' := match new with
    | some x => s.storeNow ls (leBytes n x)
    | none => s.dirtied ls
  (s'.dropL1 ls).amoResult d n fn ord old fl

/-- An atomic at a peer's home. -/
def State.atomicPeer (s : State) (d : BitVec 6) (ord : AmoOrd) (fn : AmoFn) (n : Nat) (l : Loc) (op exp : Nat) : Out :=
  s.atPeer .amo l (amoArg fn ord n) (leBytes 8 op ++ leBytes 8 exp) id
    (fun s old => (s.dropL1 [l]).amoResult d n fn ord (old % 2 ^ (8 * n)) (amoNew fn n (old % 2 ^ (8 * n)) op exp).2)

/-- AMOW and AMOD. -/
def State.atomic (s : State) (d a b : BitVec 6) (ord : AmoOrd) (fn : AmoFn) (n : Nat) : Out :=
  s.checked { view := true, scope := true } false { g := [d, a, b] }
    (if n = 8 ∧ fn = .fadd then .next (s.takeTrap (s.thr.illegal 5))
     else
      let va := s.thr.g a
      let w := s.who s.thr s.thr.view
      let op := (s.thr.g b).toNat % 2 ^ (8 * n)
      let exp := (s.thr.g d).toNat % 2 ^ (8 * n)
      match s.begun .amo (amoArg fn ord n) va n with
      | some l => s.atomicPeer d ord fn n l op exp
      | none =>
        s.found (s.access w (.atomic (decide (fn = .fadd))) va n n) (fun ls =>
          let s := s.noteImages w.scsz ls
          let lines := s.emptyLines ls
          if lines ≠ [] then .next (s.waitFull ls [] true)
          else
            let s := if ordRel ord then s.releaseAt s.thr.scope ls else s.settle true ls
            if s.isPeer (firstKey ls) then s.atomicPeer d ord fn n (onePlace ls) op exp
            else s.whenReady true ls (fun s => .next (s.amoHere d n fn ord ls op exp)) true))

/-- AMOW. -/
def execAmow (d a b : BitVec 6) (ord : AmoOrd) (fn : AmoFn) (s : State) : Out := s.atomic d a b ord fn 4
/-- AMOD; fadd is not a function of it. -/
def execAmod (d a b : BitVec 6) (ord : AmoOrd) (fn : AmoFn) (s : State) : Out := s.atomic d a b ord fn 8

/-! ### FENCE (spec R147, R216) -/

/-- FENCE: it takes a slot and holds back only later accesses of its later kinds. -/
def State.fence (s : State) (c : Scope) (kinds : BitVec 4) : State :=
  let k := kinds.toNat
  let orders := decide (4 ≤ k) && k % 4 != 0
  let open_ := !s.thr.accs.isEmpty || s.forwards.any (fun f => f.thread == s.thr.key)
  let s' := if orders && open_ then s.defer (fun _ => .fence c kinds) else s
  (if bit k 1 then s'.acquire c else s').upd Thread.advance

/-- FENCE. -/
def execFence (c : Scope) (kinds : BitVec 4) (s : State) : Out := s.checked {} false {} (.next (s.fence c kinds))

/-! ### BAR (spec R217, R218) -/

/-- BARG of a pending arrival. -/
def bargOf (level : BitVec 3) (m : Nat) : BitVec 32 := BitVec.ofNat 32 (pack [(28, m), (3, level.toNat), (1, 1)])

/-- The scope of a BAR: its own, or the level's SCOPE. -/
def barScope (l : Launch) (c : Option Scope) (level : BitVec 3) : Scope :=
  match c with
  | some x => x
  | none => (Scope.ofCode (BitVec.ofNat 3 (l.levelScope level.toNat))).getD .sys

/-- A launch that has taken note of an arrival of a flat index at its `m`-th barrier of a level. -/
def Launch.noteArrival (l : Launch) (level : BitVec 3) (x m : Nat) : Launch :=
  { l with arrivals := Tab.put l.arrivals (level.toNat * 2 ^ 32 + x) m }

/-- The arrival of the focus thread at its next barrier of a level, which the other devices of its launch learn. -/
def State.barArrive (s : State) (l : Launch) (level : BitVec 3) : State :=
  let x := s.thr.index.toNat
  let m := l.arrived level.toNat x + 1
  let s := { s.setLaunch (l.noteArrival level x m) with
    outLaunch := s.outLaunch ++ (s.told l).map (fun d => LaunchMsg.came d ⟨l.id, s.thr.index⟩ level m) }
  s.put { s.thr with barg := bargOf level m }

/-- The devices to which this one gave threads of a launch: it passes on to them what others tell of it. -/
def State.guestsOf (s : State) (id : BitVec 32) : List (BitVec 12) :=
  ((s.away.filter (fun a => a.thread.launch == id)).map (fun a => a.dev)).eraseDups

/-- What another device tells of a launch whose record this device has not received yet is kept for it. -/
def State.keepEarly (s : State) (k : Key) (t : Turn) : State :=
  if bits k.launch.toNat 31 20 = s.dev.toNat then s else { s with early := s.early ++ [t] }

/-- Another device says that a thread arrived at its `m`-th barrier of a level (spec R218): arrivals only rise. -/
def State.cameAt (s : State) (k : Key) (level : BitVec 3) (m : Nat) : State :=
  match s.launch? k.launch with
  | none => s.keepEarly k (.came k level m)
  | some l =>
    let x := k.index.toNat
    if m ≤ l.arrived level.toNat x then s
    else
      let s := { s.setLaunch (l.noteArrival level x m) with
        outLaunch := s.outLaunch ++ (s.guestsOf l.id).map (fun d => LaunchMsg.came d k level m) }
      s.wakeBarriers

/-- What follows an arrival: the focus thread completes or parks, and the others that wait look again. -/
def State.barWait (s : State) (c : Scope) : State :=
  if s.barrierOpen s.thr then ((s.put { s.thr with barg := 0 }).acquire c).upd Thread.advance
  else s.parkNow 3 0 (.barrier (s.thr.barg.extractLsb' 28 3) (s.thr.barg.extractLsb' 0 28))

/-- BAR. In a thread whose LAUNCHID, altered in its header, names no launch that this device has recorded, it is illegal: log entry
113. -/
def execBar (c : Option Scope) (level : BitVec 3) (s : State) : Out :=
  s.checked {} false {}
    (match s.launch? s.thr.launch with
     | none => .next (s.takeTrap (s.thr.illegal 5))
     | some l =>
       if l.nlev < level.toNat then .next (s.takeTrap (s.thr.illegal 5))
       else
         let sc := barScope l c level
         if bit s.thr.barg.toNat 31 then .next (s.barWait sc)
         else .next (((s.releaseAt sc []).barArrive l level).barWait sc).wakeBarriers)

/-! ### Arrival words (spec R219, R220) -/

/-- The release scope in an arrival word. The spec gives no meaning to the codes 6 and 7 in memory: the model reads them as
SYSTEM, the widest (log entry 101). -/
def wordScope (x : Nat) : Scope := (Scope.ofCode (BitVec.ofNat 3 (bits x 98 96))).getD .sys

/-- An arrival at a peer's home. -/
def State.arwPeer (s : State) (d : BitVec 6) (n : Nat) (l : Loc) : Out :=
  s.atPeer .arrv l 0 (leBytes 16 n) id (fun s x => (s.dropL1 [l]).result d (BitVec.ofNat 64 (bits x 95 64)))

/-- ARW: a release into the word at the word's SCOPE. -/
def execArw (d a b : BitVec 6) (s : State) : Out :=
  s.checked { view := true } false { g := [d, a, b] }
    (let va := s.thr.g a
     let w := s.who s.thr s.thr.view
     let n := (s.thr.g b).toNat % 2 ^ 32
     match s.begun .arrv 0 va 16 with
     | some l => s.arwPeer d n l
     | none =>
     s.found (s.access w .arrive va 16 16) (fun ls =>
       let k := firstKey ls
       let sc := if s.isPeer k then .sys else wordScope (s.valueAt ls)
       let s := (s.noteImages w.scsz ls).releaseAt sc ls
       if s.isPeer k then s.arwPeer d n (onePlace ls)
       else s.whenReady true ls (fun s =>
         let s := s.dropL1 ls
         let x := arwAdd (s.valueAt ls) n
         .next (((s.result d (BitVec.ofNat 64 (bits x 95 64))).dirtied ls).arriveWord k x)) true))

/-- What AWAIT writes to gd. -/
def awaitResult (x : Nat) : Word :=
  BitVec.ofNat 64 (bits x 95 64 + b2n (bit x 99) * 2 ^ 32 + b2n (bit x 100) * 2 ^ 33)

/-- AWAIT with the word that it read at the word's home: it completes, or parks. -/
def State.awaitWord (s : State) (d : BitVec 6) (va : Word) (k : Nat) (g : BitVec 32) (x : Nat) : State :=
  if genReached x g then ((s.put (s.thr.setG d (awaitResult x))).acquire (wordScope x)).upd Thread.advance
  else s.parkNow 2 va (.gen k g)

/-- AWAIT looks at the word at some places, past the L1. A word of a peer whose line this module does not hold is read there without a
copy (spec R365). -/
def State.awaitAt (s : State) (w : Who) (d : BitVec 6) (va : Word) (g : BitVec 32) (ls : List Loc) : Out :=
  let k := firstKey ls
  let look (s : State) : Out :=
    let s := ((s.noteImages w.scsz ls).settle true ls).dropL1 ls
    .next (s.awaitWord d va k g (s.valueAt ls))
  if s.isPeer k && s.lineState (k / 128) == .i then s.whenRead ls look else s.whenReady false ls look

/-- AWAIT. -/
def execAwait (d a b : BitVec 6) (s : State) : Out :=
  s.checked { view := true } false { g := [d, a, b] }
    (let va := s.thr.g a
     let w := s.who s.thr s.thr.view
     let g : BitVec 32 := (s.thr.g b).setWidth 32
     match s.begun .rdc 0 va 16 with
     | some l => s.awaitAt w d va g [l]
     | none => s.found (s.access w .arrive va 16 16) (fun ls => s.awaitAt w d va g ls))

/-! ### Crust cells (spec R69, R221 to R224) -/

/-- Whether a cell is malformed (spec R69). -/
def cellBad (c : Nat) : Bool :=
  let st := bits c 81 80
  let gen := bits c 79 64
  st == 3 || bits c 127 103 != 0 || (st == 2 && gen != 0xFFFF) || (gen == 0xFFFF && st != 2)

/-- A cell from its fields. -/
def cellOf (value gen st winner : Nat) : Nat := pack [(64, value), (16, gen), (2, st), (21, winner)]

/-- The result of a cell operation: the value, the status register, whether a decided cell was returned, and the cell
afterwards where it changes; none where CRD.w must wait. -/
structure CellRes where
  value : Nat
  status : Nat
  decided : Bool
  new : Option Nat
  deriving DecidableEq, Repr

/-- The status register of R221. -/
def statusOf (w st gen : Nat) : Nat := w * 2 ^ 18 + st * 2 ^ 16 + gen

/-- What an operation of another generation, or on a retired cell, returns. -/
def cellMiss (c : Nat) : CellRes :=
  let st := bits c 81 80
  let gen := bits c 79 64
  if st = 2 then { value := 0, status := statusOf 0 3 0xFFFF, decided := false, new := none }
  else
    let (v, w) := if st = 0 then (0, 0) else (bits c 63 0, bits c 102 82)
    { value := v, status := statusOf w 2 gen, decided := st == 1, new := none }

/-- PROP at the home (spec R222). -/
def propAt (c value g win : Nat) : CellRes :=
  let st := bits c 81 80
  if st = 2 ∨ g ≠ bits c 79 64 then cellMiss c
  else if st = 0 then
    { value := value, status := statusOf win 0 g, decided := true, new := some (cellOf value g 1 win) }
  else
    { value := bits c 63 0, status := statusOf (bits c 102 82) 1 g, decided := true, new := none }

/-- CRD at the home (spec R223). -/
def crdAt (c g : Nat) (wait : Bool) : Option CellRes :=
  let st := bits c 81 80
  if st = 2 ∨ g ≠ bits c 79 64 then some (cellMiss c)
  else if st = 1 then
    some { value := bits c 63 0, status := statusOf (bits c 102 82) 0 g, decided := true, new := none }
  else if wait then none
  else some { value := 0, status := statusOf 0 1 g, decided := false, new := none }

/-- CRCY at the home (spec R224). -/
def crcyAt (c g : Nat) : CellRes :=
  let st := bits c 81 80
  let gen := bits c 79 64
  if st = 2 then { value := 0, status := statusOf 0 3 0xFFFF, decided := false, new := none }
  else if g ≠ gen then { value := 0, status := statusOf 0 2 gen, decided := false, new := none }
  else
    { value := 0, status := statusOf 0 0 (g + 1), decided := false,
      new := some (cellOf 0 (g + 1) (if g + 1 = 0xFFFF then 2 else 0) 0) }

/-- The trap of a malformed cell. -/
def cellTrap (va : Word) : Trap := { cls := .data, cause := 3, va := va }

/-- Threads that wait on a cell in CRD.w look again. -/
def State.wakeCell (s : State) (k : Nat) : State :=
  s.wakeAll (fun t => match t.wait with | .cell j _ => j == k | _ => false) s.all

/-- The cell at a place takes a new value. -/
def State.cellWrite (s : State) (k : Nat) (new : Option Nat) : State :=
  match new with
  | some c => ((s.store k (leBytes 16 c)).wakeCell k).release (k / 128)
  | none => s

/-- A decided cell at a place leaves a copy in the L1 and the tile cache (spec R55, R221). -/
def State.keepCell (s : State) (l : Loc) (r : CellRes) : State :=
  if r.decided then
    let x : CellCopy := { key := l.key, space := s.thr.space, va := BitVec.ofNat 64 l.va, entry := BitVec.ofNat 128 l.entry, level := l.level,
                          gen := BitVec.ofNat 16 r.status, value := BitVec.ofNat 64 r.value, winner := BitVec.ofNat 21 (r.status / 2 ^ 18) }
    let i := posCore s.thr.cur
    let c := s.core i
    let s := s.setCore i { c with cells := x :: c.cells.filter (fun y => y != x) }.fitL1
    let s := s.tileRoom (i / 4) (l.key / 128)
    let t := s.tile (i / 4)
    s.setTile (i / 4) { t with cells := x :: t.cells.filter (fun y => y.key != x.key || y.gen != x.gen) }
  else s

/-- What a decided copy answers. -/
def CellCopy.answer (c : CellCopy) : CellRes :=
  { value := c.value.toNat, status := statusOf c.winner.toNat 0 c.gen.toNat, decided := true, new := none }

/-- A decided copy that the thread's tile cache holds of a place. -/
def State.cellCopy? (s : State) (k g : Nat) : Option CellRes :=
  ((s.tile (posTile s.thr.cur)).cells.find? (fun c => c.key == k && c.gen.toNat == g)).map CellCopy.answer

/-- Where a decided copy of the L1 stands. -/
def CellCopy.place (c : CellCopy) : Loc := { va := c.va.toNat, n := 16, key := c.key, entry := c.entry.toNat, level := c.level }

/-- A decided copy that the thread's L1 holds of an address that passes the checks before translation: its tag stands in for the
translation (spec R203, R320). -/
def State.l1Cell? (s : State) (w : Who) (va : Word) (g : Nat) : Option CellCopy :=
  (s.core (posCore w.here)).cells.find? (fun c => c.space == w.space && c.va == va && c.gen.toNat == g &&
    s.addrCheck w .crd va.toNat 16 16 == .ok () && (w.priv || !eSup c.entry.toNat) && s.darkCheck c.place == .ok ())

/-- ST of a status. -/
def stOf (status : Nat) : Nat := bits status 17 16

/-- A PROP or CRD result reaches the thread; `acq` is the set of ST values that acquire. -/
def State.cellResult (s : State) (d b : BitVec 6) (l : Loc) (r : CellRes) (acq : List Nat) : State :=
  let s := s.keepCell l r
  let sc := s.thr.scope
  let s := s.put ((s.thr.setG d (BitVec.ofNat 64 r.value)).setG b (BitVec.ofNat 64 r.status))
  (if acq.contains (stOf r.status) then s.acquire sc else s).upd Thread.advance

/-- The payload of CELL (spec R365). -/
def cellPayload (value : Word) (g : Nat) : List Byte := leBytes 16 (pack [(64, value.toNat), (16, g)])

/-- The answer of CELL to a PROP or a CRD: value and status. Of a stale result it does not say whether the cell was decided:
it was where the value or the winner is not 0 (log entry 102). -/
def cellAnswer (prop : Bool) (x : Nat) : CellRes :=
  let st := bits x 127 64
  let v := bits x 63 0
  { value := v, status := st, new := none
    decided := match stOf st with
      | 0 => true
      | 1 => prop
      | 2 => v != 0 || bits st 38 18 != 0
      | _ => false }

/-- PROP at a peer's home. -/
def State.propPeer (s : State) (d b : BitVec 6) (v : Word) (g : Nat) (l : Loc) : Out :=
  s.atPeer .cell l 0 (cellPayload v g) id (fun s x => s.cellResult d b l (cellAnswer true x) [0, 1, 2])

/-- PROP: never answered from a copy. A win releases; every result but retired acquires (spec R222). -/
def execProp (d a b : BitVec 6) (s : State) : Out :=
  s.checked { view := true, scope := true } false { g := [d, a, b] }
    (if d = b then .next (s.takeTrap (s.thr.illegal 5))
     else
      let va := s.thr.g a
      let g := (s.thr.g b).toNat % 2 ^ 16
      let v := s.thr.g d
      match s.begun .cell 0 va 16 with
      | some l => s.propPeer d b v g l
      | none =>
      s.found (s.access (s.who s.thr s.thr.view) .prop va 16 16) (fun ls =>
        let s := s.releaseAt s.thr.scope ls
        let k := firstKey ls
        if s.isPeer k then s.propPeer d b v g (onePlace ls)
        else s.whenReady true ls (fun s =>
          let c := s.valueAt ls
          if cellBad c then .next (s.takeTrap (cellTrap va))
          else
            let r := propAt c v.toNat g (posHigh s.thr.cur).toNat
            .next (((s.dirtied ls).cellResult d b (onePlace ls) r [0, 1, 2]).cellWrite k r.new)) true))

/-- CRD at a peer's home. -/
def State.crdPeer (s : State) (d b : BitVec 6) (va : Word) (g : Nat) (wait : Bool) (l : Loc) : Out :=
  s.atPeer .cell l (1 + if wait then 4 else 0) (cellPayload 0 g)
    (fun s => if wait then s.parkNow 4 va (.cell l.key (BitVec.ofNat 16 g)) else s)
    (fun s x => s.cellResult d b l (cellAnswer false x) [0])

/-- CRD: a decided copy answers, of the L1 without a translation; else the home. A decided result acquires. -/
def execCrd (d a b : BitVec 6) (wait : Bool) (s : State) : Out :=
  s.checked { view := true, scope := true } false { g := [d, a, b] }
    (if d = b then .next (s.takeTrap (s.thr.illegal 5))
     else
      let va := s.thr.g a
      let g := (s.thr.g b).toNat % 2 ^ 16
      match s.begun .cell (1 + if wait then 4 else 0) va 16, s.l1Cell? (s.who s.thr s.thr.view) va g with
      | some l, _ => s.crdPeer d b va g wait l
      | none, some c => .next ((s.settle true [c.place]).cellResult d b c.place c.answer [0])
      | none, none =>
      s.found (s.access (s.who s.thr s.thr.view) .crd va 16 16) (fun ls =>
        let s := s.settle true ls
        let k := firstKey ls
        match s.cellCopy? k g with
        | some r => .next (s.cellResult d b (onePlace ls) r [0])
        | none =>
          if s.isPeer k then s.crdPeer d b va g wait (onePlace ls)
          else s.whenReady false ls (fun s =>
            let c := s.valueAt ls
            if cellBad c then .next (s.takeTrap (cellTrap va))
            else
              match crdAt c g wait with
              | none => .next (s.parkNow 4 va (.cell k (BitVec.ofNat 16 g)))
              | some r => .next (s.cellResult d b (onePlace ls) r [0])) true))

/-- CRCY at a peer's home. -/
def State.crcyPeer (s : State) (b : BitVec 6) (g : Nat) (l : Loc) : Out :=
  s.atPeer .cell l 2 (cellPayload 0 g) id (fun s x => s.result b (BitVec.ofNat 64 (bits x 127 64)))

/-- CRCY: needs the steward right; one that advances the cell releases. -/
def execCrcy (a b : BitVec 6) (s : State) : Out :=
  s.checked { view := true, scope := true } false { g := [a, b] }
    (let va := s.thr.g a
     let g := (s.thr.g b).toNat % 2 ^ 16
     match s.begun .cell 2 va 16 with
     | some l => s.crcyPeer b g l
     | none =>
     s.found (s.access (s.who s.thr s.thr.view) .crcy va 16 16) (fun ls =>
       let s := s.releaseAt s.thr.scope ls
       let k := firstKey ls
       if s.isPeer k then s.crcyPeer b g (onePlace ls)
       else s.whenReady true ls (fun s =>
         let c := s.valueAt ls
         if cellBad c then .next (s.takeTrap (cellTrap va))
         else
           let r := crcyAt c g
           .next (((s.dirtied ls).result b (BitVec.ofNat 64 r.status)).cellWrite k r.new)) true))

end Sys2Proof.Machine
end

