-- ==== Sys2Proof/Machine/Apply.lean ====
section
/-! DEFINITION. The events by which accesses that were left outstanding are performed, and by which the copies of a
REPLICA page follow their primary (spec R66, R139, R142, R147, R380). -/

namespace Sys2Proof.Machine

/-- The number of an outstanding access; a fence has none. -/
def Acc.number : Acc → Option Nat
  | .store n _ => some n
  | .load n _ => some n
  | .fence _ _ => none

/-- Whether an access is a load. -/
def Acc.isLoad : Acc → Bool
  | .load _ _ => true
  | _ => false

/-- Whether an access is a store. -/
def Acc.isStore : Acc → Bool
  | .store _ _ => true
  | _ => false

/-- Whether accesses before a fence hold back an access after it (spec R147): one of a named earlier kind is not yet
performed. `unheld` says that some store of the thread has not reached every copy of its page. -/
def fenceHolds (kinds : BitVec 4) (before : List Acc) (unheld : Bool) (a : Acc) : Bool :=
  let k := kinds.toNat
  ((bit k 1 && a.isLoad) || (bit k 0 && a.isStore)) &&
    ((bit k 3 && before.any Acc.isLoad) || (bit k 2 && (unheld || before.any Acc.isStore)))

/-- Whether the accesses of a thread before `a` let it be performed (spec R140, R142, R144, R147). `before` has the nearest
first. -/
def mayPerform (a : Acc) (unheld : Bool) : List Acc → Bool
  | [] => true
  | b :: r =>
    (match b with
      | .fence _ k => !fenceHolds k r unheld a
      | _ => !(rangesMeet b.ranges a.ranges || homesMeet b.ranges a.ranges || (b.isLoad && a.isStore))) && mayPerform a unheld r

/-- The accesses before number `n`, the nearest first, and that access. -/
def splitAcc (n : Nat) (before : List Acc) : List Acc → Option (List Acc × Acc)
  | [] => none
  | a :: r => if a.number = some n then some (before, a) else splitAcc n (a :: before) r

/-- Outstanding access `n` of a thread is performed, if its order allows it and no other agent holds its line (spec R158).
A load of bytes of the thread's own store waits until every copy holds them (spec R66). -/
def State.performOne (s : State) (k : Key) (n : Nat) (load : Bool) : State :=
  match s.find k with
  | none => s
  | some t =>
    match splitAcc n [] t.accs with
    | none => s
    | some (before, a) =>
      if a.isLoad = load ∧ mayPerform a (s.unheld k) before ∧ ¬(load ∧ s.ownForward k a.ranges) then
        match s.accsReady { t with accs := [a] } with
        | .later s' => s'
        | _ =>
          let (s, t) := s.performAcc t a
          let rest := t.accs.filter (fun b => b.number != some n)
          let (s, rest) := s.passFences t (s.unheld k) rest
          s.setThread { t with accs := rest }
      else s

/-- STORE_APPLIED. -/
def execStoreApplied (k : Key) (n : Nat) (s : State) : Out := .next (s.performOne k n false)

/-- LOAD_PERFORMED. -/
def execLoadPerformed (k : Key) (n : Nat) (s : State) : Out := .next (s.performOne k n true)

/-- Whether an earlier forward still has to reach the same copy as `key` is of `f`. -/
def earlierForward (fs : List Forward) (f : Forward) (key : Nat) : Bool :=
  fs.any (fun g => g.left.any (fun k => k + f.primary == key + g.primary))

/-- Fences of a thread that wait for no copy any more are passed. -/
def State.refence (s : State) (k : Key) : State :=
  match s.find k with
  | some t =>
    match t.accs with
    | .fence _ _ :: _ =>
      let (s, rest) := s.passFences t (s.unheld k) t.accs
      s.setThread { t with accs := rest }
    | _ => s
  | none => s

/-- REPLICA_FORWARD: a copy applies the store of forward `n` after every store that the primary applied before, once no
other agent holds its line. -/
def execReplicaForward (n : Nat) (copy : BitVec 9) (s : State) : Out :=
  match s.forwards[n]? with
  | none => .next s
  | some f =>
    match f.left[copy.toNat]? with
    | none => .next s
    | some key =>
      if earlierForward (s.forwards.take n) f key then .next s
      else
        let left := without f.left copy.toNat
        let l := f.copyLoc key
        let go (s : State) : Out :=
          let s := s.forwardTo f key
          .next ({ s with forwards := if left.isEmpty then without s.forwards n
                                      else adjust s.forwards n (fun g => { g with left := left }) }.refence f.thread)
        match s.readyLoc (copierThread s) true l with
        | .ok => go s
        | .later s' => .next s'
        | .trap s' _ => go s'

end Sys2Proof.Machine
end

