-- ==== Sys2Proof/Machine/Control.lean ====
section
/-! DEFINITION. Control instructions and prefixes (spec R169, R171, R192 to R198, R228 to R230). -/

namespace Sys2Proof.Machine

/-- A conditional branch (spec R192). -/
def State.branch (s : State) (a b : BitVec 6) (o : BitVec 12) (c : Word → Word → Bool) : Out :=
  s.control { g := [a, b] }
    (.next (s.put (if c (s.thr.g a) (s.thr.g b) then s.thr.jump (branchTarget s.thr.pc o) else s.thr.advance)))

/-- BEQ. -/
def execBeq (a b : BitVec 6) (o : BitVec 12) (s : State) : Out := s.branch a b o (fun a b => a == b)
/-- BNE. -/
def execBne (a b : BitVec 6) (o : BitVec 12) (s : State) : Out := s.branch a b o (fun a b => a != b)
/-- BLT, signed. -/
def execBlt (a b : BitVec 6) (o : BitVec 12) (s : State) : Out := s.branch a b o (fun a b => a.slt b)
/-- BGE, signed. -/
def execBge (a b : BitVec 6) (o : BitVec 12) (s : State) : Out := s.branch a b o (fun a b => !a.slt b)
/-- BLTZ, unsigned. -/
def execBltz (a b : BitVec 6) (o : BitVec 12) (s : State) : Out := s.branch a b o (fun a b => a.ult b)
/-- BGEZ, unsigned. -/
def execBgez (a b : BitVec 6) (o : BitVec 12) (s : State) : Out := s.branch a b o (fun a b => !a.ult b)

/-- JAL (spec R193). -/
def execJal (d : BitVec 6) (o : BitVec 18) (s : State) : Out :=
  s.control { g := [d] } (.next (s.put ((s.thr.setG d (s.thr.pc + 4)).jump (jumpTarget s.thr.pc o))))

/-- JALR (spec R193): the target is computed from the old gA; a target that is not word-aligned traps. -/
def execJalr (d a : BitVec 6) (i : BitVec 12) (s : State) : Out :=
  s.control { g := [d, a] }
    (let t := s.thr.g a + i.signExtend 64
     if t.toNat % 4 ≠ 0 then .next (s.takeTrap { cls := .addr, cause := 6, va := t })
     else .next (s.put ((s.thr.setG d (s.thr.pc + 4)).jump t)))

/-- TRAP (spec R194): its code goes to TRINFO. -/
def execTrapInsn (i : BitVec 12) (s : State) : Out :=
  s.control {} (.next (s.takeTrap { cls := .trap, cause := i.toNat }))

/-- BRK (spec R194). -/
def execBrk (i : BitVec 12) (s : State) : Out :=
  s.control {} (.next (s.takeTrap { cls := .brk, cause := i.toNat }))

/-- Steps 2 to 5 of EXIT (spec R195). -/
def State.exit (s : State) : State :=
  let s := s.drain
  let t := s.thr
  let s := s.endClaims t
  let u := t.finished (t.pc + 4)
  let s := ((s.writeHeader u 7).getD s).ctxDirtied t (t.ctxBytes [])
  (s.put u).indexDone t.key.launch t.key.index.toNat

/-- EXIT (spec R195): it waits for the results of earlier words, and for the header's line; a header that its page does not
take traps (spec R13). -/
def execExit (s : State) : Out :=
  s.control {}
    (if s.quiet s.thr = false then .next s
     else
      let lost := (s.headerPlace s.thr).isNone
      .next (s.ctxWhen s.thr true (fun s => if lost then s.takeTrap (ctxfTrap 3 0xFFF s.thr.ctx.toNat) else s.exit) (s.thr.ctxBytes [])))

/-! ### Prefixes (spec R169, R171, R197, R228 to R230) -/

/-- A prefix word joins the group: a second one of its kind makes the group trap. -/
def State.prefixed (s : State) (again : Bool) (regs : List (BitVec 6)) (f : Group → Group) : Out :=
  if again then .next (s.takeTrap (s.thr.illegal 2))
  else if s.thr.has { g := regs } = false then .next (s.takeTrap (s.thr.illegal 4))
  else
    let g := f s.thr.group
    .next (s.put { s.thr with
      pc := s.thr.pc + 4
      group := { g with len := g.len + 1, start := s.thr.groupStart }
      afterHint := false })

/-- PFXI. -/
def execPfxi (p : BitVec 24) (s : State) : Out :=
  s.prefixed s.thr.group.imm.isSome [] (fun g => { g with imm := some p })

/-- PFXV; the other viewpoint prefix is of its kind. -/
def execPfxv (self : Bool) (p : BitVec 21) (s : State) : Out :=
  s.prefixed s.thr.group.view.isSome [] (fun g => { g with view := some (.pos self p) })

/-- PFXVG; its register is read when the group's instruction issues. -/
def execPfxvg (self : Bool) (r : BitVec 6) (s : State) : Out :=
  s.prefixed s.thr.group.view.isSome [r] (fun g => { g with view := some (.reg self r) })

/-- PFXS. -/
def execPfxs (c : Scope) (s : State) : Out :=
  s.prefixed s.thr.group.scope.isSome [] (fun g => { g with scope := some c })

/-- PFXM. -/
def execPfxm (o : OvfMode) (r : Option RMode) (s : State) : Out :=
  s.prefixed s.thr.group.mods.isSome [] (fun g => { g with mods := some (o, r) })

/-! ### Hints (spec R198, R200, R201) -/

/-- A HINT acts when it issues; after a prefix it traps. -/
def State.hint (s : State) (f : Thread → Thread) : Out :=
  if s.thr.group.len ≠ 0 then .next (s.takeTrap (s.thr.illegal 2))
  else .next (s.put { (f s.thr).advance with afterHint := true })

/-- NOP. -/
def execNop (s : State) : Out := s.hint id

/-- HINT 2, n (spec R200). -/
def execHintStall (n : BitVec 10) (s : State) : Out := s.hint (fun t => { t with stall := n.toNat })

/-- HINT 3, p (spec R201): PRIO only falls. -/
def execHintPrio (p : BitVec 4) (s : State) : Out :=
  s.hint (fun t => { t with prio := if p.toNat < t.prio.toNat then p else t.prio })

end Sys2Proof.Machine
end

