-- ==== Sys2Proof/Machine/Vector.lean ====
section
/-! DEFINITION. Vector register instructions (spec 02 R39 to R44, 12 R231 to R242). -/

namespace Sys2Proof.Machine

/-! ### Types, elements and activity -/

/-- The floating-point format of an element type, if it is one. -/
def floatOf : ETy → Option FFmt
  | .f32 => some .f32 | .bf16 => some .bf16 | .f16 => some .f16 | .e4m3 => some .e4m3 | .e5m2 => some .e5m2
  | _ => none
/-- Whether a type is signed. -/
def isSigned : ETy → Bool
  | .s32 | .s16 | .s8 => true
  | _ => false
/-- Bits of an element. -/
def eBits (t : ETy) : Nat := 8 * t.size

/-- ETYPE of the thread. -/
def Thread.ety (t : Thread) : ETy := (ETy.ofCode (t.vtype.extractLsb' 0 4)).getD .f32
/-- VL of the thread. -/
def Thread.vl (t : Thread) : Nat := bits t.vtype.toNat 16 8

/-- Element `i` of vector register `n`, elements of `size` bytes; out of range it reads as zero (spec R34, R242). -/
def Thread.elem (t : Thread) (n : BitVec 6) (size i : Nat) : Nat :=
  if size * i + size ≤ 256 then t.regs.readNum (t.vOff n + size * i) size else 0

/-- Bit `i` of a mask register: bit i mod 8 of byte i div 8 (spec R43). -/
def Thread.maskBitOf (t : Thread) (n : BitVec 6) (i : Nat) : Bool :=
  bit (t.regs.read (t.vOff n + i / 8)).toNat (i % 8)

/-- Whether mask field `k` selects element `i`. -/
def Thread.selected (t : Thread) (k : BitVec 3) (i : Nat) : Bool := k == 0 || t.maskBitOf (k.setWidth 6) i

/-- Whether element `i` is active (spec R42). -/
def Thread.active (t : Thread) (k : BitVec 3) (i : Nat) : Bool := decide (i < t.vl) && t.selected k i

/-- The mask register that a field names. -/
def maskNames (k : BitVec 3) : List (BitVec 6) := if k = 0 then [] else [k.setWidth 6]

/-- The number that stands in an element that `.any` covers, none where it keeps its value (spec R44). -/
def anyElem (n : Nat) : Option Nat := if Config.anyKeeps n then none else some (Config.anyValue n).toNat

/-- Vector register `d` written: element `i` of `count` takes `f i`; where that is none the policy decides. -/
def State.writeElems (s : State) (d : BitVec 6) (size count : Nat) (p : Bool) (f : Nat → Option Nat) : State :=
  let t := s.thr
  let pick (i : Nat) : Nat :=
    match f i with
    | some x => x
    | none => ((if p then anyElem (s.freeCount + i) else none)).getD (t.elem d size i)
  let u := t.writeRegs (t.vOff d) ((upto 0 count).flatMap (fun i => leBytes size (pick i)))
  { s with
    thr := u
    freeCount := if p then s.freeCount + count else s.freeCount }

/-- The flags of the active elements. -/
def flagsOf (n : Nat) (act : Nat → Bool) (f : Nat → Nat × Flags) : Flags :=
  (upto 0 n).foldl (fun a i => if act i then a ||| (f i).2 else a) 0

/-- Write the results of the active elements with their flags, and go on. -/
def State.vresult (s : State) (d : BitVec 6) (size count : Nat) (p : Bool) (act : Nat → Bool) (f : Nat → Nat × Flags) :
    State :=
  ((s.writeElems d size count p (fun i => if act i then some (f i).1 else none)).upd
    (fun t => t.raise (flagsOf count act f))).upd Thread.advance

/-- An element of type `t` as a number with the sign of its type. -/
def intOf (t : ETy) (x : Nat) : Int := if isSigned t then signed (eBits t) x else (x % 2 ^ eBits t : Nat)

/-- An integer clamped to the range of a type (spec R109, R231). -/
def clampTo (t : ETy) (x : Int) : Int :=
  let lo : Int := if isSigned t then -(2 ^ (eBits t - 1) : Nat) else 0
  let hi : Int := if isSigned t then (2 ^ (eBits t - 1) : Nat) - 1 else (2 ^ eBits t : Nat) - 1
  max lo (min hi x)

/-- An integer result: wrapped, or clamped under SAT; it raises no flag (spec R231). -/
def intOut (t : ETy) (ovf : OvfMode) (x : Int) : Nat := cut (eBits t) (if ovf = .sat then clampTo t x else x)

/-! ### Element-wise arithmetic and logic (spec R235, R236) -/

/-- An element-wise instruction over registers a, b and d. -/
def State.vmap (s : State) (mods : Bool) (d a b : BitVec 6) (k : BitVec 3) (p : Bool) (ok : Bool)
    (f : Nat → Nat → Nat → Nat × Flags) : Out :=
  s.checked { mods := mods } false { v := [d, a, b] ++ maskNames k }
    (if ok = false then .next (s.takeTrap (s.thr.illegal 5))
     else
      let t := s.thr
      let n := t.ety.size
      .next (s.vresult d n t.ety.vlmax p (t.active k) (fun i => f (t.elem a n i) (t.elem b n i) (t.elem d n i))))

/-- An arithmetic member: `ff` for floating-point types, `fi` for integers. -/
def State.varith (s : State) (d a b : BitVec 6) (k : BitVec 3) (p : Bool) (ff : Fp → Fp → Fp → Fp × Flags)
    (fi : Int → Int → Int → Int) : Out :=
  let t := s.thr
  s.vmap true d a b k p true (fun x y z =>
    match floatOf t.ety with
    | some f => f.finish (t.rmode .rne) t.ovf (ff (f.decode x) (f.decode y) (f.decode z))
    | none => (intOut t.ety t.ovf (fi (intOf t.ety x) (intOf t.ety y) (intOf t.ety z)), 0))

/-- VADD. -/
def execVadd (d a b : BitVec 6) (k : BitVec 3) (p : Bool) (s : State) : Out :=
  s.varith d a b k p (fun x y _ => x.add (s.thr.rmode .rne) y) (fun x y _ => x + y)
/-- VSUB. -/
def execVsub (d a b : BitVec 6) (k : BitVec 3) (p : Bool) (s : State) : Out :=
  s.varith d a b k p (fun x y _ => x.add (s.thr.rmode .rne) y.negate) (fun x y _ => x - y)
/-- VMUL. -/
def execVmul (d a b : BitVec 6) (k : BitVec 3) (p : Bool) (s : State) : Out :=
  s.varith d a b k p (fun x y _ => x.mul y) (fun x y _ => x * y)
/-- VFMA. -/
def execVfma (d a b : BitVec 6) (k : BitVec 3) (p : Bool) (s : State) : Out :=
  s.varith d a b k p (fun x y z => x.fma (s.thr.rmode .rne) y z) (fun x y z => x * y + z)

/-- The smaller or the larger of two elements of a type. -/
def pickElem (t : ETy) (wantMax : Bool) (x y : Nat) : Nat × Flags :=
  match floatOf t with
  | some f => f.select wantMax x y
  | none => (if (decide (intOf t x < intOf t y)) != wantMax then x else y, 0)

/-- VMIN. -/
def execVmin (d a b : BitVec 6) (k : BitVec 3) (p : Bool) (s : State) : Out :=
  s.vmap false d a b k p true (fun x y _ => pickElem s.thr.ety false x y)
/-- VMAX. -/
def execVmax (d a b : BitVec 6) (k : BitVec 3) (p : Bool) (s : State) : Out :=
  s.vmap false d a b k p true (fun x y _ => pickElem s.thr.ety true x y)

/-- The absolute value of an element (spec R236). -/
def absElem (t : ETy) (ovf : OvfMode) (x : Nat) : Nat :=
  match floatOf t with
  | some f => x % f.sign
  | none => if isSigned t then intOut t ovf (intOf t x).natAbs else x

/-- VABS: no flag. -/
def execVabs (d a : BitVec 6) (k : BitVec 3) (p : Bool) (s : State) : Out :=
  s.vmap true d a a k p true (fun x _ _ => (absElem s.thr.ety s.thr.ovf x, 0))

/-- VAND. -/
def execVand (d a b : BitVec 6) (k : BitVec 3) (p : Bool) (s : State) : Out :=
  s.vmap false d a b k p true (fun x y _ => (x &&& y, 0))
/-- VOR. -/
def execVor (d a b : BitVec 6) (k : BitVec 3) (p : Bool) (s : State) : Out :=
  s.vmap false d a b k p true (fun x y _ => (x ||| y, 0))
/-- VXOR. -/
def execVxor (d a b : BitVec 6) (k : BitVec 3) (p : Bool) (s : State) : Out :=
  s.vmap false d a b k p true (fun x y _ => (x ^^^ y, 0))
/-- VSHL. -/
def execVshl (d a b : BitVec 6) (k : BitVec 3) (p : Bool) (s : State) : Out :=
  let n := eBits s.thr.ety
  s.vmap false d a b k p true (fun x y _ => (x * 2 ^ (y % n) % 2 ^ n, 0))
/-- VSHR. -/
def execVshr (d a b : BitVec 6) (k : BitVec 3) (p : Bool) (s : State) : Out :=
  let n := eBits s.thr.ety
  s.vmap false d a b k p true (fun x y _ => (x / 2 ^ (y % n), 0))
/-- VSAR. -/
def execVsar (d a b : BitVec 6) (k : BitVec 3) (p : Bool) (s : State) : Out :=
  let n := eBits s.thr.ety
  s.vmap false d a b k p true (fun x y _ => (cut n (signed n x / (2 ^ (y % n) : Nat)), 0))

/-- VRCP: f32 only; the payload of PFXM is ignored. -/
def execVrcp (d a : BitVec 6) (k : BitVec 3) (p : Bool) (s : State) : Out :=
  s.vmap true d a a k p (decide (s.thr.ety = .f32)) (fun x _ _ => approx (FFmt.f32.decode x).recip)
/-- VRSQ. -/
def execVrsq (d a : BitVec 6) (k : BitVec 3) (p : Bool) (s : State) : Out :=
  s.vmap true d a a k p (decide (s.thr.ety = .f32)) (fun x _ _ => approx (FFmt.f32.decode x).rsqrt)
/-- VEXP2. -/
def execVexp2 (d a : BitVec 6) (k : BitVec 3) (p : Bool) (s : State) : Out :=
  s.vmap true d a a k p (decide (s.thr.ety = .f32)) (fun x _ _ => approx (FFmt.f32.decode x).exp2)

/-! ### Compares and selection (spec R237, R238) -/

/-- A mask register's new byte `j`: active bits take the relation, the others follow the policy. -/
def State.maskByte (s : State) (d : BitVec 6) (p : Bool) (act rel : Nat → Bool) (j : Nat) : Byte :=
  BitVec.ofNat 8 (pack ((upto (8 * j) 8).map (fun i => (1, b2n
    (if act i then rel i
     else match (if p then anyElem (s.freeCount + i) else none) with
      | some x => bit x 0
      | none => s.thr.maskBitOf d i)))))

/-- A compare writes a mask. -/
def State.vcmp (s : State) (d a b : BitVec 6) (k : BitVec 3) (p : Bool) (ff : Fp → Fp → Bool × Flags)
    (fi : Int → Int → Bool) : Out :=
  s.checked {} false { v := [d, a, b] ++ maskNames k }
    (let t := s.thr
     let n := t.ety.size
     let rel (i : Nat) : Bool × Flags := match floatOf t.ety with
       | some f => ff (f.decode (t.elem a n i)) (f.decode (t.elem b n i))
       | none => (fi (intOf t.ety (t.elem a n i)) (intOf t.ety (t.elem b n i)), 0)
     let bs := (upto 0 (t.ety.vlmax / 8)).map (s.maskByte d p (t.active k) (fun i => (rel i).1))
     let fl := flagsOf t.ety.vlmax (t.active k) (fun i => (0, (rel i).2))
     .next { s with
       thr := ((t.writeRegs (t.vOff d) bs).raise fl).advance
       freeCount := if p then s.freeCount + t.ety.vlmax else s.freeCount })

/-- VCMPEQ. -/
def execVcmpeq (d a b : BitVec 6) (k : BitVec 3) (p : Bool) (s : State) : Out :=
  s.vcmp d a b k p fpEq (fun x y => decide (x = y))
/-- VCMPLT. -/
def execVcmplt (d a b : BitVec 6) (k : BitVec 3) (p : Bool) (s : State) : Out :=
  s.vcmp d a b k p fpLt (fun x y => decide (x < y))
/-- VCMPLE. -/
def execVcmple (d a b : BitVec 6) (k : BitVec 3) (p : Bool) (s : State) : Out :=
  s.vcmp d a b k p fpLe (fun x y => decide (x ≤ y))

/-- VSEL: the mask selects; no element below VL is masked off. -/
def execVsel (d a b : BitVec 6) (k : BitVec 3) (p : Bool) (s : State) : Out :=
  s.checked {} false { v := [d, a, b] ++ maskNames k }
    (if k = 0 then .next (s.takeTrap (s.thr.illegal 5))
     else
      let t := s.thr
      let n := t.ety.size
      .next (s.vresult d n t.ety.vlmax p (fun i => decide (i < t.vl))
        (fun i => (if t.selected k i then t.elem a n i else t.elem b n i, 0))))

/-! ### Conversion (spec R239) -/

/-- Whether a conversion between floating-point formats is exact (spec R112). -/
def widens (f g : FFmt) : Bool :=
  match f, g with
  | .f32, .f32 => false
  | _, .f32 => true
  | .e4m3, .f16 | .e4m3, .bf16 | .e5m2, .f16 | .e5m2, .bf16 => true
  | _, _ => false

/-- One element converted. -/
def convElem (t u : ETy) (m : RMode) (ovf : OvfMode) (x : Nat) : Nat × Flags :=
  if t = u then (x, 0)
  else
    match floatOf t, floatOf u with
    | some f, some g => if widens f g then f.widen g x else f.convert g m ovf x
    | some f, none => let (v, fl) := (f.decode x).toInt m (isSigned u) (eBits u); (cut (eBits u) v, fl)
    | none, some g => g.rnd m ovf (Fp.ofInt (intOf t x))
    | none, none => (if u.size < t.size then intOut u ovf (intOf t x) else cut (eBits u) (intOf t x), 0)

/-- The block length of error feedback. -/
def feedbackLen : Feedback → Nat
  | .none => 0 | .b16 => 16 | .b32 => 32 | .b256 => 256

/-- Values by index, with error feedback over blocks of `b` (spec R113): what the active indexes of each block give. -/
def efBlocks (f : FFmt) (ovf : OvfMode) (b count : Nat) (act : Nat → Bool) (x : Nat → Nat) : List (Nat × Nat) × Flags :=
  let blocks := (upto 0 ((count + b - 1) / b)).map (fun m =>
    let is := (upto (b * m) (min b (count - b * m))).filter act
    let (ys, fl) := efBlock f ovf 0 (is.map x)
    (is.zip ys, fl))
  (blocks.flatMap (fun p => p.1), blocks.foldl (fun a p => a ||| p.2) 0)

/-- VCVT. -/
def execVcvt (d a : BitVec 6) (u : ETy) (k : BitVec 3) (p : Bool) (ef : Feedback) (s : State) : Out :=
  s.checked { mods := true } false { v := [d, a] ++ maskNames k }
    (let t := s.thr
     let narrow := decide (u = .bf16 ∨ u = .f16 ∨ u = .e4m3 ∨ u = .e5m2)
     if u.vlmax < t.vl ∨ (ef ≠ .none ∧ !(t.ety = .f32 && narrow)) then .next (s.takeTrap (s.thr.illegal 5))
     else
      let x (i : Nat) := t.elem a t.ety.size i
      match ef, floatOf u with
      | .none, _ => .next (s.vresult d u.size u.vlmax p (t.active k) (fun i => convElem t.ety u (t.rmode .rne) t.ovf (x i)))
      | _, none => .next (s.takeTrap (s.thr.illegal 5))
      | ef, some g =>
        let (ys, fl) := efBlocks g t.ovf (feedbackLen ef) t.vl (t.active k) x
        .next (((s.writeElems d u.size u.vlmax p (fun i => (ys.find? (fun y => y.1 == i)).map (fun y => y.2))).upd
          (fun t => t.raise fl)).upd Thread.advance))

/-! ### Reduction and dot product (spec R240, R241) -/

/-- Comb of R240. -/
def comb (f : Nat → Nat → Nat × Flags) (x y : Option Nat) : Option Nat × Flags :=
  match x, y with
  | none, _ => (y, 0)
  | _, none => (x, 0)
  | some a, some b => let (r, fl) := f a b; (some r, fl)

/-- One level of the tree. -/
def combLevel (f : Nat → Nat → Nat × Flags) : List (Option Nat) → List (Option Nat) × Flags
  | x :: y :: r =>
    let (z, f1) := comb f x y
    let (zs, f2) := combLevel f r
    (z :: zs, f1 ||| f2)
  | l => (l, 0)

/-- The tree, level by level. -/
def combTree (f : Nat → Nat → Nat × Flags) : Nat → List (Option Nat) → Option Nat × Flags
  | 0, l => (l.head?.getD none, 0)
  | n + 1, l =>
    let (l', f1) := combLevel f l
    let (r, f2) := combTree f n l'
    (r, f1 ||| f2)

/-- The operation of VRED on two elements. -/
def redOp (t : Thread) (op : RedOp) (x y : Nat) : Nat × Flags :=
  match op with
  | .min => pickElem t.ety false x y
  | .max => pickElem t.ety true x y
  | .add =>
    match floatOf t.ety with
    | some f => f.finish (t.rmode .rne) t.ovf ((f.decode x).add (t.rmode .rne) (f.decode y))
    | none => (intOut t.ety t.ovf (intOf t.ety x + intOf t.ety y), 0)

/-- VRED: element 0 is always written, the others are tail. -/
def execVred (d a b : BitVec 6) (k : BitVec 3) (p : Bool) (op : RedOp) (s : State) : Out :=
  s.checked { mods := true } false { v := [d, a, b] ++ maskNames k }
    (let t := s.thr
     let n := t.ety.size
     let ys := (upto 0 t.ety.vlmax).map (fun i => if t.active k i then some (t.elem a n i) else none)
     let (y, f1) := combTree (redOp t op) 8 ys
     let (r, f2) := comb (redOp t op) (some (t.elem b n 0)) y
     .next (s.vresult d n t.ety.vlmax p (fun i => i == 0) (fun _ => (r.getD 0, f1 ||| f2))))

/-- Source elements per lane (spec R241). -/
def dotRatio : ETy → Option Nat
  | .bf16 | .f16 | .s16 | .z16 => some 2
  | .e4m3 | .e5m2 | .s8 | .z8 => some 4
  | _ => none

/-- One lane of VDOT: the products of a lane are added exactly to it and rounded once. A NaN product raises NV
(spec R241). -/
def dotLane (t : Thread) (a b d : BitVec 6) (r j : Nat) : Nat × Flags :=
  let n := t.ety.size
  let qs := upto (r * j) r
  let lane := t.elem d 4 j
  match floatOf t.ety with
  | some f =>
    let c := FFmt.f32.decode lane
    let ms := qs.map (fun q => ((f.decode (t.elem a n q)).mul (f.decode (t.elem b n q))).1)
    let (x, fl) := Fp.sum (t.rmode .rne) (c :: ms)
    FFmt.f32.finish (t.rmode .rne) t.ovf (x, fl ||| c.sig ||| (if ms.any Fp.isNan then fNV else 0))
  | none =>
    let x : Int := qs.foldl (fun acc q => acc + intOf t.ety (t.elem a n q) * intOf t.ety (t.elem b n q)) (signed 32 lane)
    (intOut .s32 t.ovf x, 0)

/-- VDOT. -/
def execVdot (d a b : BitVec 6) (k : BitVec 3) (p : Bool) (s : State) : Out :=
  s.checked { mods := true } false { v := [d, a, b] ++ maskNames k }
    (let t := s.thr
     match dotRatio t.ety with
     | none => .next (s.takeTrap (s.thr.illegal 5))
     | some r =>
       if t.vl % r ≠ 0 then .next (s.takeTrap (s.thr.illegal 5))
       else .next (s.vresult d 4 64 p (fun j => decide (j < t.vl / r) && t.selected k j) (dotLane t a b d r)))

/-! ### Moving elements (spec R242) -/

/-- An instruction that moves elements: active element `i` takes `f i`. -/
def State.vmove (s : State) (names : Names) (d : BitVec 6) (k : BitVec 3) (p : Bool) (f : Thread → Nat → Nat → Nat) : Out :=
  s.checked {} false { names with v := names.v ++ maskNames k }
    (let t := s.thr
     let n := t.ety.size
     .next (s.vresult d n t.ety.vlmax p (t.active k) (fun i => (f t n i, 0))))

/-- VBCST. -/
def execVbcst (d a : BitVec 6) (k : BitVec 3) (p : Bool) (s : State) : Out :=
  s.vmove { g := [a], v := [d] } d k p (fun t n _ => (t.g a).toNat % 2 ^ (8 * n))
/-- VBCST.el. -/
def execVbcstEl (d a n : BitVec 6) (k : BitVec 3) (p : Bool) (s : State) : Out :=
  s.vmove { v := [d, a] } d k p (fun t z _ => t.elem a z n.toNat)
/-- VPERM. -/
def execVperm (d a b : BitVec 6) (k : BitVec 3) (p : Bool) (s : State) : Out :=
  s.vmove { v := [d, a, b] } d k p (fun t n i => t.elem a n (t.elem b n i))
/-- VSLIDE.dn. -/
def execVslideDn (d a n : BitVec 6) (k : BitVec 3) (p : Bool) (s : State) : Out :=
  s.vmove { v := [d, a] } d k p (fun t z i => t.elem a z (i + n.toNat))
/-- VSLIDE.up. -/
def execVslideUp (d a n : BitVec 6) (k : BitVec 3) (p : Bool) (s : State) : Out :=
  s.vmove { v := [d, a] } d k p (fun t z i => if i < n.toNat then 0 else t.elem a z (i - n.toNat))
/-- VTRN.lo. -/
def execVtrnLo (d a b : BitVec 6) (k : BitVec 3) (p : Bool) (s : State) : Out :=
  s.vmove { v := [d, a, b] } d k p (fun t n i => if i % 2 = 0 then t.elem a n i else t.elem b n (i - 1))
/-- VTRN.hi. -/
def execVtrnHi (d a b : BitVec 6) (k : BitVec 3) (p : Bool) (s : State) : Out :=
  s.vmove { v := [d, a, b] } d k p (fun t n i => if i % 2 = 0 then t.elem a n (i + 1) else t.elem b n i)

/-- The bits set in mask `a` below `n`. -/
def Thread.maskCount (t : Thread) (a : BitVec 6) (n : Nat) : Nat := ((upto 0 n).filter (t.maskBitOf a)).length

/-- VIOTA: integer types only. -/
def execViota (d a : BitVec 6) (k : BitVec 3) (p : Bool) (s : State) : Out :=
  s.checked {} false { v := [d, a] ++ maskNames k }
    (if (floatOf s.thr.ety).isSome then .next (s.takeTrap (s.thr.illegal 5))
     else
      let t := s.thr
      .next (s.vresult d t.ety.size t.ety.vlmax p (t.active k)
        (fun i => (t.maskCount a (min i t.vl) % 2 ^ eBits t.ety, 0))))
/-- VIOTA.idx: integer types only. -/
def execViotaIdx (d : BitVec 6) (k : BitVec 3) (p : Bool) (s : State) : Out :=
  s.checked {} false { v := [d] ++ maskNames k }
    (if (floatOf s.thr.ety).isSome then .next (s.takeTrap (s.thr.illegal 5))
     else
      let t := s.thr
      .next (s.vresult d t.ety.size t.ety.vlmax p (t.active k) (fun i => (i % 2 ^ eBits t.ety, 0))))

/-- VEXT: ignores VL. -/
def execVext (d a b : BitVec 6) (s : State) : Out :=
  s.checked {} false { g := [d, b], v := [a] }
    (let t := s.thr
     let i := (t.g b).toNat
     let x : Int := if i < t.ety.vlmax then intOf t.ety (t.elem a t.ety.size i) else 0
     .next (s.result d (BitVec.ofInt 64 x)))

/-- VINS: ignores VL; every other element is unchanged. -/
def execVins (d a b : BitVec 6) (s : State) : Out :=
  s.checked {} false { g := [a, b], v := [d] }
    (let t := s.thr
     let i := (t.g b).toNat
     let u := if i < t.ety.vlmax then t.writeRegs (t.vOff d + t.ety.size * i) (leBytes t.ety.size (t.g a).toNat) else t
     .next (s.put u.advance))

/-- VPOPC. -/
def execVpopc (d a : BitVec 6) (k : BitVec 3) (s : State) : Out :=
  s.checked {} false { g := [d], v := [a] ++ maskNames k }
    (let t := s.thr
     .next (s.result d (BitVec.ofNat 64
       ((upto 0 t.ety.vlmax).filter (fun i => t.active k i && t.maskBitOf a i)).length)))

/-- VCFG (spec R234). -/
def execVcfg (d a : BitVec 6) (t : ETy) (s : State) : Out :=
  s.checked {} false { g := [d, a] }
    (let vl := min (s.thr.g a).toNat t.vlmax
     .next (s.put (({ s.thr with vtype := BitVec.ofNat 64 (vl * 256 + t.code.toNat) }).setG d (BitVec.ofNat 64 vl)).advance))

end Sys2Proof.Machine
end

