-- ==== Sys2Proof/Machine/Layout.lean ====
section
/-! DEFINITION. Layout records: their fields and checks, element addresses, block formats, and the layout table of a
space (spec R78 to R84, R107, R108, R247, R250). -/

namespace Sys2Proof.Machine

/-! ### Fields (spec R78, R79) -/

/-- BASE. -/
def recBase (r : BitVec 1024) : Nat := bits r.toNat 63 0
/-- NDIM. -/
def recNdim (r : BitVec 1024) : Nat := bits r.toNat 66 64
/-- FMT. -/
def recFmt (r : BitVec 1024) : Nat := bits r.toNat 71 68
/-- BPERM. -/
def recBperm (r : BitVec 1024) : Nat := bits r.toNat 73 72
/-- VSRC. -/
def recVsrc (r : BitVec 1024) : Bool := bit r.toNat 76
/-- VPOS. -/
def recVpos (r : BitVec 1024) : Pos := r.extractLsb' 96 32
/-- MKIND 1: a read through the record allocates no line in a tile cache or a hearth cache. MKIND 2 places lines as MKIND 0 does: log
entry 120. -/
def recStream (r : BitVec 1024) : Bool := bits r.toNat 75 74 == 1
/-- EXT of dimension `i`. -/
def recExt (r : BitVec 1024) (i : Nat) : Nat := bits r.toNat (128 + 96 * i + 31) (128 + 96 * i)
/-- STRIDE of dimension `i`. -/
def recStride (r : BitVec 1024) (i : Nat) : Int := signed 64 (bits r.toNat (128 + 96 * i + 95) (128 + 96 * i + 32))

/-- Whether a format code is a block format. -/
def fmtBlock (c : Nat) : Bool := decide (11 ≤ c) && decide (c ≤ 14)
/-- Bytes of an element; an MXFP4 byte holds two elements. -/
def fmtSize (c : Nat) : Nat :=
  match ETy.ofCode (BitVec.ofNat 4 c) with
  | some t => t.size
  | none => 1
/-- Element bytes of a block (spec R80). -/
def blockBytes (c : Nat) : Nat := if c = 13 then 16 else 32
/-- The blocks of a page (spec R80). -/
def blocksIn (c psize : Nat) : Nat := psize / (blockBytes c + 1)

/-- Check 1 of R83: what the record alone decides. -/
def recOk (r : BitVec 1024) : Bool :=
  let x := r.toNat
  let n := recNdim r
  bits x 1023 800 == 0 && bits x 95 77 == 0 && !bit x 67 && n != 0 && recFmt r != 15 && bits x 75 74 != 3 &&
    recBperm r != 3 && (upto n (7 - n)).all (fun i => bits x (128 + 96 * i + 95) (128 + 96 * i) == 0) &&
    if fmtBlock (recFmt r) then
      recBperm r == 0 && recStride r 0 == 1 && (upto 1 (n - 1)).all (fun i => recStride r i % 32 == 0) &&
        (recFmt r != 13 || recExt r 0 % 2 == 0)
    else recBperm r == 0 || decide (2 ≤ n)

/-! ### Element addresses (spec R80, R81) -/

/-- Where an element stands: its first byte, its bytes, for MXFP4 whether it is the high half of its byte, and for a
block format the scale byte of its block. -/
structure Elem where
  va : Nat
  n : Nat
  high : Option Bool := none
  scale : Option Nat := none
  deriving DecidableEq, Repr

/-- A coordinate is a signed 32-bit value (spec R81); a sum of two wraps: log entry 93. -/
def wrap32 (x : Int) : Int := signed 32 (cut 32 x)

/-- ElementAddress; none for a clipped element. `psize` is the size of the page of BASE. -/
def elemAt (r : BitVec 1024) (psize : Nat) (c : Nat → Int) : Option Elem :=
  let dims := upto 0 (recNdim r)
  let x (i : Nat) : Int := wrap32 (c i)
  if dims.any (fun i => decide (x i < 0) || decide ((recExt r i : Int) ≤ x i)) then none
  else
    let e : Int := dims.foldl (fun a i => a + x i * recStride r i) 0
    let f := recFmt r
    if fmtBlock f then
      let b := blockBytes f
      let n := blocksIn f psize
      let page : Int := recBase r + e / (32 * n : Nat) * psize
      let p := (e % (32 * n : Nat)).toNat
      some { va := cut 64 (page + (b * (p / 32) + p % 32 * b / 32 : Nat)), n := 1,
             high := if f = 13 then some (p % 2 == 1) else none,
             scale := some (cut 64 (page + (n * b + p / 32 : Nat))) }
    else
      let va := cut 64 ((recBase r : Int) + e * fmtSize f)
      let y := (x 1).toNat
      let perm := match recBperm r with | 1 => y % 8 * 16 | 2 => y / 2 % 8 * 16 | _ => 0
      some { va := va ^^^ perm, n := fmtSize f }

/-- The size of the page that holds BASE of a block-format record; a window counts as 128 KiB pages (spec R80). -/
def State.recPage (s : State) (by_ : Key) (space : BitVec 16) (tower : Nat) (r : BitVec 1024) : Nat :=
  if fmtBlock (recFmt r) && (winOf (recBase r)).isNone then
    match s.leaf by_ space tower (recBase r) with
    | .ok (_, level) => pageSize level
    | _ => 2 ^ 17
  else 2 ^ 17

/-- The span of a record (spec R83): its first byte and the byte after its last, whole pages for a block format; none
where an extent is 0. -/
def recSpan (r : BitVec 1024) (psize : Nat) : Option (Int × Int) :=
  let dims := upto 0 (recNdim r)
  if dims.any (fun i => recExt r i == 0) then none
  else
    let reach (i : Nat) : Int := ((recExt r i : Int) - 1) * recStride r i
    let lo : Int := dims.foldl (fun a i => a + min 0 (reach i)) 0
    let hi : Int := dims.foldl (fun a i => a + max 0 (reach i)) 0
    let base : Int := recBase r
    let f := recFmt r
    if fmtBlock f then
      let per : Int := (32 * blocksIn f psize : Nat)
      let page := base - base % psize
      some (page + lo / per * psize, page + (hi / per + 1) * psize)
    else some (base + lo * fmtSize f, base + (hi + 1) * fmtSize f)

/-! ### Block elements (spec R107, R108) -/

/-- The element format of a block format to which values are converted; to TS8 none is (spec R108, log entry 94). -/
def blockFmt (c : Nat) : FFmt := match c with | 11 => .e4m3 | 12 => .e5m2 | _ => .e2m1

/-- The value of a TS8 element. -/
def ts8 (x : Nat) : Fp :=
  let term (c : Nat) (neg : Bool) : Int := if c = 7 then 0 else (if neg then -1 else 1) * (2 ^ (6 - c) : Nat)
  let v := term (bits x 6 4) (bit x 7) + term (bits x 2 0) (bit x 3)
  .fin (decide (v < 0)) v.natAbs (-6) false

/-- The value of a block element with its E8M0 scale (spec R106, R107). -/
def blockVal (c code scale : Nat) : Fp :=
  if scale = 0xFF then .nan false
  else
    match (if c = 14 then ts8 code else (blockFmt c).decode code) with
    | .fin n m e k => .fin n m (e + scale - 127) k
    | x => x

/-- The code of an element in the bytes that hold it. -/
def elemCode (high : Option Bool) (x : Nat) : Nat :=
  match high with
  | none => x
  | some h => if h then x / 16 else x % 16

/-- A byte with an element's code put in. -/
def putCode (high : Option Bool) (old code : Nat) : Nat :=
  match high with
  | none => code
  | some h => if h then old % 16 + code % 16 * 16 else old / 16 * 16 + code % 16

/-! ### Who accesses through a record (spec R82) -/

/-- What a thread leaves with a command that it issues. -/
def State.issuer (s : State) (t : Thread) : Issuer :=
  { key := t.key, space := t.space, anchor := t.anchor, cur := t.cur, priv := t.sup, prio := t.prio, order := t.order,
    ftz16 := t.ftz16, scsz := s.scszOf t.launch }

/-- The requester of an access through a record, at a position. A position field whose bits 10:0 are not zero is no
viewpoint, which LREG does not look at: log entry 92. -/
def recWho (b : Issuer) (here : Pos) (r : BitVec 1024) : Who :=
  if recVsrc r then
    { by_ := b.key, space := b.space, pk := recVpos r, pr := recVpos r, here := here, priv := b.priv, scsz := b.scsz, view := true,
      viewBad := (recVpos r).extractLsb' 0 11 != (0 : BitVec 11) }
  else
    { by_ := b.key, space := b.space, pk := b.anchor, pr := b.cur, here := here, priv := b.priv, scsz := b.scsz, view := false,
      viewBad := false }

/-- The places of bytes that a record leads to; the thermal and status window serves no such access (spec R72). -/
def State.recAccess (s : State) (w : Who) (write : Bool) (va n : Nat) : Res (List Loc) :=
  (s.addrCheck w .store va n 1).bind (fun _ => Res.map (s.locate w (if write then .store else .load)) (parts va n))

/-! ### The layout table (spec R78, R83, R84, R250) -/

/-- The record registered under an index of a space's table on this device. -/
def State.layout? (s : State) (space : BitVec 16) (i : Nat) : Option (BitVec 1024) :=
  (s.space? space).bind (fun x => (x.layouts.find? (fun p => p.1 == i)).map (fun p => p.2))

/-- The pages from an address up to another, each with its leaf, the lowest first. -/
def State.pagesFrom (s : State) (by_ : Key) (space : BitVec 16) (tower hi : Nat) : Nat → Nat → Res (List (Nat × Nat × Nat))
  | 0, _ => .ok []
  | fuel + 1, va =>
    if hi ≤ va then .ok []
    else
      match s.leaf by_ space tower va with
      | .trap t => .trap t
      | .wait n => .wait n
      | .ok (e, level) =>
        let page := va / pageSize level * pageSize level
        match s.pagesFrom by_ space tower hi fuel (page + pageSize level) with
        | .ok r => .ok ((page, e, level) :: r)
        | .trap t => .trap t
        | .wait n => .wait n

/-- The pages of a range that lie below the windows, from the 128 KiB unit of its first byte. -/
def State.pagesOf (s : State) (by_ : Key) (space : BitVec 16) (tower lo hi : Nat) : Res (List (Nat × Nat × Nat)) :=
  let lo := lo / 2 ^ 17 * 2 ^ 17
  let hi := min hi (2 ^ 57 - 2 ^ 43)
  s.pagesFrom by_ space tower hi ((hi - lo) / 2 ^ 17 + 1) lo

/-- Whether the page size of BASE is known: it waits for an entry that the walker lacks, or for the end of a move. -/
def State.recKnown (s : State) (t : Thread) (r : BitVec 1024) : Res Unit :=
  if fmtBlock (recFmt r) && (winOf (recBase r)).isNone then
    match s.leaf t.key t.space (posTower t.cur) (recBase r) with
    | .wait n => .wait n
    | _ => .ok ()
  else .ok ()

/-- Check 3 of R83. -/
def spanHigh (lo hi : Int) : Res Unit :=
  Res.need (decide (¬(lo < hi ∧ (lo < 0 ∨ (2 ^ 57 : Int) < hi))))
    (addrTrap 1 (if lo < 0 then cut 64 lo else max lo.toNat (2 ^ 57)))

/-- Check 5 of R83 for a page. -/
def pageOk (p : Nat × Nat × Nat) : Res Unit :=
  if eKind p.2.1 = 3 then .trap { cls := .amotype, cause := 1, va := BitVec.ofNat 64 p.1 }
  else if eTravel p.2.1 then .trap (xlatTrap 6 p.2.2 p.1)
  else .ok ()

/-- Checks 3 to 6 of R83 for a record of index `i`, and the pins of its registration. -/
def State.spanPins (s : State) (t : Thread) (i : Nat) (r : BitVec 1024) : Res (List Pin) :=
  let tower := posTower t.cur
  let psize := s.recPage t.key t.space tower r
  let (lo, hi) := (recSpan r psize).getD (recBase r, recBase r)
  (spanHigh lo hi).bind (fun _ =>
    (if lo < hi then s.pagesOf t.key t.space tower lo.toNat hi.toNat else .ok []).bind (fun ps =>
      (Res.all pageOk ps).bind (fun _ =>
        let want := if fmtBlock (recFmt r) then recFmt r else 0
        if (fmtBlock (recFmt r) && recBase r % psize != 0) || ps.any (fun p => eFmt p.2.1 != want) then
          .trap (engineTrap 3 6)
        else
          .ok (ps.map (fun p => { space := t.space, va := BitVec.ofNat 64 p.1, level := p.2.2,
                                  entry := BitVec.ofNat 128 p.2.1, owner := .layout i })))))

/-- Checks 1 to 6 of R83, and the pins of a registration. A failing check of class ENGINE gives its number (spec R343). -/
def State.registerPins (s : State) (t : Thread) (i : Nat) (r : BitVec 1024) : Res (List Pin) :=
  if recOk r = false then .trap (engineTrap 3 1)
  else if (s.layout? t.space i).isSome then .trap (engineTrap 3 2)
  else (s.recKnown t r).bind (fun _ => s.spanPins t i r)

/-- The pins of a registered record, held anew by another owner (spec R84). -/
def State.capture (s : State) (space : BitVec 16) (i : Nat) (o : PinOwner) : List Pin :=
  (s.pins.filter (fun p => p.space == space && p.owner == PinOwner.layout i)).map (fun p => { p with owner := o })

/-- LREG: the image is read with plain loads, and registered as one step, which is a store for R142 (spec R250). -/
def execLreg (a : BitVec 6) (l : BitVec 5) (s : State) : Out :=
  s.checked {} false { g := [a] }
    (let va := s.thr.g a
     let w := s.who s.thr .none
     s.found (s.access w .load va 128 128) (fun ls =>
       s.whenReady false ls (fun s =>
         let s := s.noteImages w.scsz ls
         let lines := s.emptyLines ls
         if lines ≠ [] then .next (s.waitFull ls [] true)
         else
           let s := ((s.settle false ls).settle true []).dropL1 ls
           let r := BitVec.ofNat 1024 (s.valueAt ls)
           s.resolved (s.registerPins s.thr l.toNat r) (fun ps =>
             match s.space? s.thr.space with
             | some x =>
               .next ({ s.setSpace { x with layouts := Tab.put x.layouts l.toNat r } with pins := ps ++ s.pins }.upd
                 Thread.advance)
             | none => .next (s.takeTrap (engineTrap 3 0))))))

/-- LFREE: the index is free at once; a free one traps. It is a store for R142 (spec R250). -/
def execLfree (l : BitVec 5) (s : State) : Out :=
  s.checked {} false {}
    (let s := s.settle true []
     match s.space? s.thr.space, s.layout? s.thr.space l.toNat with
     | some x, some _ =>
       .next ({ s.setSpace { x with layouts := Tab.drop x.layouts l.toNat } with
         pins := s.pins.filter (fun p => !(p.space == x.id && p.owner == PinOwner.layout l.toNat)) }.upd Thread.advance)
     | _, _ => .next (s.takeTrap (engineTrap 3 0)))

/-- What LQRY writes. -/
def queryBytes (r : Option (BitVec 1024)) : List Byte :=
  match r with
  | some x => leBytes 256 (x.toNat + 2 ^ 1024)
  | none => leBytes 256 0

/-- LQRY, a load for R142 (spec R250). -/
def execLqry (d : BitVec 6) (l : BitVec 5) (s : State) : Out :=
  s.checked {} false { v := [d] }
    (let s := s.settle false []
     .next (s.put (s.thr.writeRegs (s.thr.vOff d) (queryBytes (s.layout? s.thr.space l.toNat))).advance))

end Sys2Proof.Machine
end

