-- ==== Sys2Proof/Machine/Queue.lean ====
section
/-! DEFINITION. The queues of a tile: accepting, starting and completing commands, and the queue instructions
(spec R85 to R88, R252, R271 to R273). -/

namespace Sys2Proof.Machine

/-- The tile on which a thread runs. -/
def Thread.tile (t : Thread) : Nat := posTile t.cur

/-- Code of a queue. -/
def queueNo : Queue → Nat
  | .q0 => 0 | .q1 => 1 | .q2 => 2 | .q3 => 3 | .q4 => 4

/-- Whether q4 takes a command that a thread issues: fewer than 28 direct ones stand there (spec R270). -/
def TileSt.openEntry (t : TileSt) : Bool := decide (((t.queue 4).cmds.filter (fun c => c.direct)).length < 28)

/-- Whether a queue takes a command that a thread issues (spec R85, R270). -/
def TileSt.hasRoom (t : TileSt) (q : Nat) : Bool :=
  if q = 4 then t.openEntry else decide ((t.queue q).cmds.length < 32)

/-- Whether the entry of q4 that is kept for a copy queue is free (spec R270). A follow-on that finds it taken enters all the same: log
entry 98. -/
def TileSt.keptEntry (t : TileSt) (q : Nat) : Bool := (t.queue 4).cmds.all (fun c => c.kept != some q)

/-- The tickets that a command entering a queue must wait for (spec R88). -/
def TileSt.marksFor (t : TileSt) (q : Nat) : List (Nat × Nat) :=
  (t.gates.filter (fun g => bit g.mask.toNat q)).flatMap (fun g => g.marks)

/-- The ticket that the next command of a queue receives (spec R87). -/
def TileSt.nextTicket (t : TileSt) (q : Nat) : Nat := (t.queue q).enq + 1

/-- A queue accepts a command. -/
def TileSt.accept (t : TileSt) (q : Nat) (b : Issuer) (direct : Bool) (w : Work) (kept : Option Nat := none) : TileSt :=
  let x := t.queue q
  let c : Cmd := { ticket := t.nextTicket q, by_ := b, direct := direct, kept := kept, after := t.marksFor q, work := w }
  t.setQueue q { x with
    enq := t.nextTicket q
    cmds := x.cmds ++ [c] }

/-- Whether a command may start: the tickets that it waits for are done. -/
def TileSt.mayStart (t : TileSt) (c : Cmd) : Bool := c.after.all (fun m => decide (m.2 ≤ (t.queue m.1).done))

/-- The command at the head of a queue, if it may start. -/
def TileSt.headCmd (t : TileSt) (q : Nat) : Option Cmd :=
  match (t.queue q).cmds with
  | c :: _ => if t.mayStart c then some c else none
  | [] => none

/-- Threads that wait for a ticket of a queue look again (spec R26, R273). -/
def State.wakeTickets (s : State) (tile q : Nat) : State :=
  let done := ((s.tile tile).queue q).done
  s.wakeAll (fun t => match t.wait with
    | .ticket i r k => i == tile && queueNo r == q && decide (k.toNat ≤ done)
    | _ => false) s.all

/-- The name under which the engine that serves a queue asks peers: it names no thread, since no launch is 0. -/
def engineKey (tile q : Nat) : Key := ⟨0, BitVec.ofNat 32 (8 * tile + q)⟩

/-- The command at the head of a queue completes: DONE takes its ticket, its pins go, a slot that no claim holds any
more becomes free, and waiters look again (spec R84, R87, R195). -/
def State.completeCmd (s : State) (tile q : Nat) : State :=
  let t := s.tile tile
  let x := t.queue q
  match x.cmds with
  | [] => s
  | c :: r =>
    let t := t.setQueue q { x with
      done := c.ticket
      cmds := r }
    let t := match c.work.slot? with
      | some n => if (t.slot n).owner.isNone && !t.slotBusy n then t.setSlot n {} else t
      | none => t
    let s := s.setTile tile t
    let s := if s.txns.isEmpty then s
      else { s with txns := s.txns.filter (fun x => !(x.thread == some (engineKey tile q) && x.answer.isSome)) }
    let s := if s.pins.any (fun p => p.owner == .command tile q c.ticket) then
        { s with pins := s.pins.filter (fun p => p.owner != PinOwner.command tile q c.ticket) }
      else s
    s.wakeTickets tile q

/-- The command at the head of a queue goes on with its work changed. -/
def State.setWork (s : State) (tile q : Nat) (w : Work) : State :=
  let t := s.tile tile
  let x := t.queue q
  s.setTile tile (t.setQueue q { x with cmds := adjust x.cmds 0 (fun c => { c with work := w }) })

/-- The requester of an engine's coherence traffic: no thread of its own. -/
def engineThread (b : Issuer) (tile q : Nat) : Thread :=
  { launch := 0, index := (engineKey tile q).index, space := b.space, anchor := b.anchor, cur := b.cur,
    priv := b.priv }

/-- The position from which a tile's engines reach memory (spec R82, R319). -/
def State.tilePos (s : State) (tile : Nat) : Pos := posOf s.dev (4 * tile)

/-- The focus thread hands a command to a queue (spec R151, R252): its earlier accesses are performed first, and gd
receives the ticket. -/
def State.enqueue (s : State) (d : BitVec 6) (q : Nat) (w : Work) (pins : PinOwner → List Pin) : State :=
  let s := s.drain
  let i := s.thr.tile
  let t := s.tile i
  let ticket := t.nextTicket q
  let s := s.setTile i (t.accept q (s.issuer s.thr) true w)
  let s := match pins (.command i q ticket) with
    | [] => s
    | ps => { s with pins := ps ++ s.pins }
  s.result d (BitVec.ofNat 64 ticket)

/-! ### QFENCE, QSEQ, QWAIT -/

/-- QFENCE over the queues of a mask. -/
def TileSt.fence (t : TileSt) (m : BitVec 5) : TileSt :=
  let open_ (g : Gate) : Bool := g.marks.any (fun x => decide ((t.queue x.1).done < x.2))
  let marks := ((upto 0 5).filter (bit m.toNat)).map (fun q => (q, (t.queue q).enq))
  { t with gates := t.gates.filter open_ ++ [{ mask := m, marks := marks }] }

/-- QFENCE: an empty set of queues traps. -/
def execQfence (m : BitVec 5) (s : State) : Out :=
  s.checked {} false {}
    (if m = 0 then .next (s.takeTrap (s.thr.illegal 5))
     else .next ((s.setTile s.thr.tile ((s.tile s.thr.tile).fence m)).upd Thread.advance))

/-- QSEQ. -/
def execQseq (d : BitVec 6) (k : SeqKind) (q : Queue) (s : State) : Out :=
  s.checked {} false { g := [d] }
    (let x := (s.tile s.thr.tile).queue (queueNo q)
     .next (s.result d (BitVec.ofNat 64 (match k with | .enq => x.enq | .done => x.done))))

/-- QWAIT. -/
def execQwait (d a : BitVec 6) (q : Queue) (s : State) : Out :=
  s.checked {} false { g := [d, a] }
    (let x := (s.tile s.thr.tile).queue (queueNo q)
     let k := s.thr.g a
     if x.enq < k.toNat then .next (s.takeTrap (engineTrap 6 0))
     else if x.done < k.toNat then .next (s.parkNow 5 0 (.ticket s.thr.tile q k))
     else .next (((s.put (s.thr.setG d (BitVec.ofNat 64 x.done))).acquire .device).upd Thread.advance))

end Sys2Proof.Machine
end

