-- ==== Sys2Proof/Machine/Matrix.lean ====
section
/-! DEFINITION. The matrix instructions, and what the matrix engine does when a command reaches the head of q4
(spec R119 to R136, R254 to R268, R312, R350). -/

namespace Sys2Proof.Machine

/-! ### Binding slots (spec R48, R136) -/

/-- What binding a slot name finds. -/
inductive Bound
  | ok (s : State) (tile n : Nat)
  | trap (s : State) (t : Trap)
  | wait (s : State)
  deriving DecidableEq, Repr

/-- A physical slot of a tile that no claim holds and no command names. -/
def TileSt.freeSlot? (t : TileSt) : Option Nat :=
  (upto 0 4).find? (fun n => (t.slot n).owner.isNone && !t.slotBusy n)

/-- The claimant that gives its slot up: not ACTIVE, of lowest priority. Where none of the slots that it has bound here is
free of commands, it gives none up yet (spec R136). Of several such claimants, and of several such slots, the first in the state's
lists: log entry 107. -/
def State.slotVictim (s : State) (tile : Nat) : Option (Thread × Claim) :=
  let bound (u : Thread) : List Claim := u.claims.filter (fun c => match c.phys with | some (i, _) => i == tile | none => false)
  let idle (c : Claim) : Bool := match c.phys with | some (_, n) => !(s.tile tile).slotBusy n | none => false
  match least (fun u => u.prio.toNat) (s.all.filter (fun u => u.state != .active && !(bound u).isEmpty)) with
  | some u => ((bound u).find? idle).map (fun c => (u, c))
  | none => none

/-- The claimant of a drain that was lost is to be trapped (spec R347). -/
def Thread.lostSlot (t : Thread) (now : Nat) (area : Word) : Thread :=
  if t.trapStage = .none then t.trapLost now (engineTrap 7 0 area) .delivered else t

/-- What the need for a physical slot finds. -/
inductive Room
  | ok (s : State) (n : Nat)
  | wait (s : State)
  deriving DecidableEq, Repr

/-- A free physical slot of a tile, made by draining a claimant where none is free: the drain waits for save-area lines that other
agents hold. -/
def State.roomForSlot (s : State) (tile : Nat) : Room :=
  match (s.tile tile).freeSlot? with
  | some n => .ok s n
  | none =>
    match s.slotVictim tile with
    | none => .wait s
    | some (u, c) =>
      match s.drainReady u c with
      | .later s' => .wait s'
      | _ =>
        let (s, arrived) := s.drainSlot u c
        let u := u.rebind c.name none
        let s := s.setThread (if arrived then u else u.lostSlot s.clock c.area)
        match (s.tile tile).freeSlot? with
        | some n => .ok s n
        | none => .wait s

/-- A slot name of the focus thread is bound to a physical slot of its tile, refilled from the save area. `row` is the
row of the entry's check table that asks for the claim. -/
def State.bindSlot (s : State) (name : BitVec 2) (row : Nat) : Bound :=
  match s.thr.claim? name with
  | none => .trap s (engineTrap 1 row)
  | some c =>
    match c.phys with
    | some (i, n) => .ok s i n
    | none =>
      let w := s.who { s.thr with priv := true } .none
      match Res.map (s.locate w .load) (parts c.area.toNat imageSize) with
      | .trap t => .trap s t
      | .wait n => .wait (s.wantEntry s.thr.key s.thr.cur n)
      | .ok ls =>
        match (Res.all s.darkCheck ls).bind (fun _ => Res.all (s.dataCheck .load) ls) with
        | .trap t => .trap s t
        | .wait n => .wait (s.wantEntry s.thr.key s.thr.cur n)
        | .ok _ =>
          match s.ready s.thr false ls with
          | .later s' => .wait s'
          | .trap s' t => .trap s' t
          | .ok =>
            match (s.took s.thr false ls).roomForSlot s.thr.tile with
            | .wait s => .wait s
            | .ok s n =>
              let i := s.thr.tile
              let x : SlotSt := { (SlotSt.ofImage {} (s.readLocs ls)) with owner := some (s.thr.key, name) }
              .ok ((s.setTile i ((s.tile i).setSlot n x)).put (s.thr.rebind name (some (i, n)))) i n

/-- Go on with a bound slot. -/
def State.bound (s : State) (name : BitVec 2) (row : Nat) (f : State → Nat → Nat → Out) : Out :=
  match s.bindSlot name row with
  | .ok s i n => f s i n
  | .trap s t => .next (s.takeTrap t)
  | .wait s => .next s

/-- Whether a slot is FAULTED for an instruction that names it: an accepted MZERO or MRESUME returns it to busy (spec R133,
R135). A command that is to be discarded leaves it FAULTED: log entry 96. -/
def TileSt.isFaulted (t : TileSt) (n : Nat) : Bool :=
  (t.slot n).faulted && !(t.queue 4).cmds.any (fun c => match c.work with
    | .mzero m => m == n
    | .mresume m _ => m == n
    | _ => false)

/-- Go on with a bound slot that is not FAULTED (spec R135). -/
def State.boundOk (s : State) (name : BitVec 2) (row : Nat) (f : State → Nat → Nat → Out) : Out :=
  s.bound name row (fun s i n =>
    if (s.tile i).isFaulted n then .next (s.takeTrap (engineTrap 2 row)) else f s i n)

/-- Go on with a slot that is not busy; a busy one holds the instruction back (spec R133). -/
def State.whenIdle (s : State) (i n : Nat) (f : Out) : Out := if (s.tile i).slotBusy n then .next s else f

/-- Go on with a bound slot that is neither busy nor FAULTED: a busy one holds the instruction back first (spec R265,
R266). -/
def State.boundIdle (s : State) (name : BitVec 2) (f : State → Nat → Nat → Out) : Out :=
  s.bound name 0 (fun s i n => s.whenIdle i n
    (if ((s.tile i).slot n).faulted then .next (s.takeTrap (engineTrap 2 0)) else f s i n))

/-! ### MCLAIM and MFREE (spec R254, R256) -/

/-- The pages that places lie on, outside the windows. -/
def pagesOfLocs (ls : List Loc) : List Loc :=
  ls.foldl (fun a l =>
    if l.win.isSome || a.any (fun x => x.va / pageSize x.level == l.va / pageSize l.level) then a else a ++ [l]) []

/-- Checks 2 to 6 of R254 on a save area. -/
def State.areaCheck (s : State) (w : Who) (va : Nat) : Res (List Loc) :=
  (s.addrCheck w .store va imageSize 256).bind (fun _ =>
    (Res.map (s.locate w .store) (parts va imageSize)).bind (fun ls =>
      let page (l : Loc) : Nat := l.va / pageSize l.level * pageSize l.level
      let out := ls.filter (fun l => l.win.isNone)
      (Res.all (fun l => if eTravel l.entry then .trap (xlatTrap 6 l.level (page l)) else .ok ()) out).bind (fun _ =>
        (Res.all (fun l => if eKind l.entry = 2 then
            .trap { cls := .repl, cause := 3, va := BitVec.ofNat 64 l.va } else .ok ()) out).bind (fun _ =>
          (Res.all (fun l => if eKind l.entry = 3 then
              .trap { cls := .amotype, cause := 1, va := BitVec.ofNat 64 l.va } else .ok ()) out).bind (fun _ =>
            (Res.all (fun l => if eFmt l.entry ≠ 0 then .trap (engineTrap 3 6) else .ok ()) out).bind (fun _ =>
              .ok ls))))))

/-- ACCSTAT of a slot just claimed (spec R130). -/
def accReset : Word := setAccState 0 1

/-- MCLAIM. -/
def execMclaim (a : BitVec 6) (c : BitVec 2) (s : State) : Out :=
  s.checked {} false { g := [a] }
    (if (s.thr.claim? c).isSome then .next (s.takeTrap (engineTrap 1 1))
     else
      let va := s.thr.g a
      s.resolved (s.areaCheck (s.who s.thr .none) va.toNat) (fun ls =>
        match s.roomForSlot s.thr.tile with
        | .wait s => .next s
        | .ok s n =>
          let i := s.thr.tile
          let k := s.thr.key
          let pins := (pagesOfLocs ls).map (fun l => pinOf s.thr.space l (.claim k c))
          let s := s.setTile i ((s.tile i).setSlot n { accstat := accReset, owner := some (k, c) })
          .next ({ s with pins := pins ++ s.pins }.upd (fun t =>
            { t with claims := { name := c, area := va, phys := some (i, n) } :: t.claims }.advance))))

/-- Pins of the epilogue record that a claim holds (spec R255). -/
def State.dropEpilogue (s : State) (o : Option (Key × BitVec 2)) : State :=
  match o with
  | some (k, c) => { s with pins := s.pins.filter (fun p => p.owner != PinOwner.epilogue k c) }
  | none => s

/-- MFREE: the slot's contents and every pin of the claim go. -/
def execMfree (c : BitVec 2) (s : State) : Out :=
  s.checked {} false {}
    (s.bound c 0 (fun s i n => s.whenIdle i n
      (let k := s.thr.key
       let s := (s.setTile i ((s.tile i).setSlot n {})).dropEpilogue (some (k, c))
       .next ({ s with pins := s.pins.filter (fun p => p.owner != PinOwner.claim k c) }.upd (fun t =>
         { t with claims := t.claims.filter (fun x => x.name != c) }.advance)))))

/-! ### Slot data and status (spec R265 to R268) -/

/-- The trap of a read of slot bytes that a bad granule holds, none where all are good: the address is that of the granule in the
slot's image (spec R343, R350, log entry 106). -/
def SlotSt.badRead (x : SlotSt) (area : Word) (off n : Nat) : Option Trap :=
  ((upto (off / 16) (n / 16)).find? x.bad.contains).map (fun g =>
    { cls := .data, cause := 1, va := area + BitVec.ofNat 64 (16 * g) })

/-- MREAD: a quarter row of the slot. -/
def execMread (d a : BitVec 6) (c : BitVec 2) (s : State) : Out :=
  s.checked {} false { g := [a], v := [d] }
    (s.boundIdle c (fun s i n =>
      let x := (s.thr.g a).toNat
      if 2 ^ 9 ≤ x then .next (s.takeTrap (engineTrap 3 0))
      else
        let off := 1024 * (x % 128) + 256 * (x / 128)
        let y := (s.tile i).slot n
        match y.badRead ((s.thr.claim? c).elim 0 (fun k => k.area)) off 256 with
        | some t => .next (s.takeTrap t)
        | none => .next (s.put (s.thr.writeRegs (s.thr.vOff d) (y.data.readBytes off 256)).advance)))

/-- The image's bytes go to the places of an access. -/
def State.storeImage (s : State) (x : SlotSt) (va : Nat) : List Loc → State
  | [] => s
  | l :: r => (s.storeNow [l] (x.imageBytes (l.va - va) l.n)).storeImage x va r

/-- MDRAIN: the image is written with plain stores. -/
def execMdrain (a : BitVec 6) (c : BitVec 2) (s : State) : Out :=
  s.checked {} false { g := [a] }
    (s.bound c 0 (fun s i n => s.whenIdle i n
      (let va := s.thr.g a
       let w := s.who s.thr .none
       s.found (s.access w .store va imageSize 256) (fun ls =>
         s.whenReady true ls (fun s =>
           let s := (s.noteImages w.scsz ls).settle true ls
           .next ((s.storeImage ((s.tile i).slot n) va.toNat ls).upd Thread.advance))))))

/-- Whether MFILL accepts the status image of an image (spec R266). -/
def imageOk (bs : List Byte) : Bool :=
  let st := ofBytes (bs.drop 131072)
  bits st 63 40 == 0 && bits st 29 20 == 0 && !bit st 15 && bits st 31 30 == 1 && decide (bits st 11 8 ≤ 3) &&
    bits st 2047 64 == 0

/-- MFILL: the whole image is read, then the slot written. -/
def execMfill (a : BitVec 6) (c : BitVec 2) (s : State) : Out :=
  s.checked {} false { g := [a] }
    (s.boundIdle c (fun s i n =>
      let va := s.thr.g a
      let w := s.who s.thr .none
      s.found (s.access w .load va imageSize 256) (fun ls =>
        s.whenReady false ls (fun s =>
          let s := s.noteImages w.scsz ls
          if s.emptyLines ls ≠ [] then .next (s.waitFull ls [] true)
          else
            let s := (s.settle false ls).dropL1 ls
            let bs := s.readLocs ls
            if imageOk bs = false then .next (s.takeTrap (engineTrap 3 0))
            else
              let t := s.tile i
              .next ((s.setTile i (t.setSlot n ((t.slot n).ofImage bs))).upd Thread.advance)))))

/-- ACCSTAT as MSTAT reads it: a slot that is not FAULTED reads as busy while commands name it (spec R130, R133, R135,
R267). -/
def TileSt.accRead (t : TileSt) (n : Nat) : Word :=
  let x := t.slot n
  if t.isFaulted n then x.accstat else if t.slotBusy n then setAccState x.accstat 2 else x.accstat

/-- MSTAT: it waits for no command (spec R133, R267). -/
def execMstat (d : BitVec 6) (c : BitVec 2) (s : State) : Out :=
  s.checked {} false { g := [d] } (s.bound c 0 (fun s i n => .next (s.result d ((s.tile i).accRead n))))

/-- MMODE. -/
def execMmode (d : BitVec 6) (order ftz : Bool) (s : State) : Out :=
  s.checked {} false { g := [d] }
    (let old := b2n s.thr.order * 2 + b2n s.thr.ftz16
     .next (s.put { (s.thr.setG d (BitVec.ofNat 64 old)) with
       order := order
       ftz16 := ftz }.advance))

/-! ### Formats (spec R119) -/

/-- K_shelf of a weight format, none for a code that is no weight format. -/
def kShelf (c : Nat) : Option Nat :=
  match c with
  | 1 | 2 => some 32
  | 3 | 4 | 11 | 12 => some 64
  | 13 | 14 => some 128
  | _ => none

/-- Whether a weight and an activation format pair. -/
def pairs (wf af : Nat) : Bool :=
  match wf with
  | 1 | 2 | 13 => af == wf
  | _ => af == 3 || af == 4 || af == 11 || af == 12

/-- The zero-valued code of a weight format (spec R258). -/
def zeroCode (c : Nat) : BitVec 16 := if c = 14 then 0x77 else 0

/-- The value of a code of an operand format, without or with a block scale; FP16 subnormals read as zero under FTZ16
(spec R103, R107). -/
def operandVal (c : Nat) (ftz : Bool) (code scale : Nat) : Fp :=
  if fmtBlock c then blockVal c code scale
  else
    match floatOf ((ETy.ofCode (BitVec.ofNat 4 c)).getD .f32) with
    | none => .fin false 0 0 false
    | some f =>
      if ftz && f = .f16 && decide (code % 0x8000 < 0x400) then .fin (bit code 15) 0 0 false else f.decode code

/-! ### Issue checks (spec R257, R258, R260) -/

/-- The bytes of elements of a record and of the scales of their blocks, as address and count. -/
def elemSpots (e : Elem) : List (Nat × Nat) :=
  (e.va, e.n) :: (match e.scale with | some v => [(v, 1)] | none => [])

/-- The element of a record at (x, y). -/
def elem2 (r : BitVec 1024) (psize : Nat) (x y : Int) : Option Elem :=
  elemAt r psize (fun i => if i = 0 then x else if i = 1 then y else 0)

/-- The elements of a rectangle of a record, its columns from `x`, `w` of them, its rows from `y`, `h` of them. -/
def rectElems (r : BitVec 1024) (psize : Nat) (x : Int) (w : Nat) (y : Int) (h : Nat) : List Elem :=
  (upto 0 h).flatMap (fun j => (upto 0 w).filterMap (fun i => elem2 r psize (x + (i : Nat)) (y + (j : Nat))))

/-- The permissions that an engine command needs for elements of a registered record (spec R317): of the pages that it
touches, as their pinned entries give them. -/
def State.pinCheck (s : State) (space : BitVec 16) (i : Nat) (priv write : Bool) (es : List Elem) : Res Unit :=
  let pins := s.capture space i (.layout i)
  Res.all (fun (x : Nat × Nat) =>
    match pins.find? (fun p => p.covers space x.1) with
    | none => .ok ()
    | some p =>
      let e := p.entry.toNat
      if eSup e && !priv then .trap (xlatTrap 4 p.level x.1)
      else if write && !eW e then .trap (xlatTrap 3 p.level x.1)
      else .ok ()) (es.flatMap elemSpots)

/-- The bytes that the elements of a record reach, from the first to the byte after the last: in a block format those of
the first element and of the last scale (spec R80, R83); none where an extent is 0. -/
def recReach (r : BitVec 1024) (psize : Nat) : Option (Int × Int) :=
  let f := recFmt r
  if fmtBlock f then
    let dims := upto 0 (recNdim r)
    if dims.any (fun i => recExt r i == 0) then none
    else
      let reach (i : Nat) : Int := ((recExt r i : Int) - 1) * recStride r i
      let lo : Int := dims.foldl (fun a i => a + min 0 (reach i)) 0
      let hi : Int := dims.foldl (fun a i => a + max 0 (reach i)) 0
      let b : Int := (blockBytes f : Nat)
      let n : Int := (blocksIn f psize : Nat)
      let page (e : Int) : Int := recBase r + e / (32 * n) * psize
      let at_ (e : Int) : Int := e % (32 * n)
      some (page lo + (b * (at_ lo / 32) + at_ lo % 32 * b / 32), page hi + (n * b + at_ hi / 32) + 1)
  else recSpan r psize

/-- Every window offset reachable in a record is valid (spec R51, R54, R72). -/
def State.spanCheck (s : State) (w : Who) (r : BitVec 1024) : Res Unit :=
  (s.viewCheck w (recBase r)).bind (fun _ =>
    match recReach r (s.recPage w.by_ w.space (posTower w.here) r) with
    | none => .ok ()
    | some (lo, hi) => s.addrCheck w .store lo.toNat (hi - lo).toNat 1)

/-- A tile whose four shelves are all fused off rejects every matrix command (spec R126): log entry 96. -/
def State.shelfCheck (s : State) (tile row : Nat) : Res Unit :=
  Res.need ((s.tower (tile / 16)).fused != 0xF) (engineTrap 9 row)

/-- The column extent that the active plane will have when a command accepted now starts (spec R120, R258, R259). -/
def TileSt.pendNw (t : TileSt) : Nat :=
  ((t.queue 4).cmds.foldl (fun (a : Nat × Nat) c =>
    match c.work with
    | .mldw r _ no => (a.1, min 256 (recExt r 1 - no.toNat))
    | .mswap => (a.2, a.1)
    | _ => a) (t.active.nw, t.shadow.nw)).1

/-- KO and KA: bits 31:0 of an operand a, signed. -/
def loHalf (x : Word) : Int := signed 32 x.toNat
/-- NO and RA: bits 63:32, signed. -/
def hiHalf (x : Word) : Int := signed 32 (x.toNat / 2 ^ 32)

/-- MLDW. -/
def execMldw (d a b : BitVec 6) (s : State) : Out :=
  s.checked {} false { g := [d, a, b] }
    (let i := s.thr.tile
     if (s.tile i).hasRoom 4 = false then .next s
     else
      let x := s.thr.g a
      let y := (s.thr.g b).toNat
      let bad := engineTrap 3 0
      match s.layout? s.thr.space (y % 32) with
      | none => .next (s.takeTrap bad)
      | some r =>
        if 32 ≤ y ∨ recNdim r < 2 ∨ kShelf (recFmt r) = none ∨ loHalf x < 0 ∨ hiHalf x < 0 ∨
            (fmtBlock (recFmt r) ∧ loHalf x % 32 ≠ 0) then .next (s.takeTrap bad)
        else
          let w := recWho (s.issuer s.thr) s.thr.cur r
          let ko := (x.extractLsb' 0 32).toNat
          let no := (x.extractLsb' 32 32).toNat
          let es := rectElems r (s.recPage s.thr.key s.thr.space (posTower s.thr.cur) r) ko
            (min (4 * (kShelf (recFmt r)).getD 0) (recExt r 0 - ko)) no (min 256 (recExt r 1 - no))
          s.after ((s.spanCheck w r).bind (fun _ =>
              (s.pinCheck s.thr.space (y % 32) s.thr.sup false es).bind (fun _ => s.shelfCheck i 0))) (fun _ =>
            let sp := s.thr.space
            let s := s.enqueue d 4 (.mldw r (x.extractLsb' 0 32) (x.extractLsb' 32 32)) (s.capture sp (y % 32))
            let t := s.tile i
            .next (s.setTile i { t with pendShadow := some (BitVec.ofNat 4 (recFmt r)) })))

/-- MSWAP. -/
def execMswap (d : BitVec 6) (s : State) : Out :=
  s.checked {} false { g := [d] }
    (let i := s.thr.tile
     if (s.tile i).hasRoom 4 = false then .next s
     else
      s.after (s.shelfCheck i 0) (fun _ =>
        let s := s.enqueue d 4 .mswap (fun _ => [])
        let t := s.tile i
        .next (s.setTile i { t with
          pendActive := t.pendShadow
          pendShadow := t.pendActive })))

/-- Fields of operand b of MMA and MMAE (spec R257). -/
structure MmaOp where
  m : Nat
  la : Nat
  le : Nat
  rnd : RMode
  ef : Nat
  ovf : Option OvfMode
  ec : Int
  er : Int
  deriving DecidableEq, Repr

/-- Operand b taken apart. -/
def mmaOp (y : Word) : MmaOp :=
  let x := y.toNat
  { m := bits x 7 0, la := bits x 12 8, le := bits x 17 13,
    rnd := (RMode.ofCode (BitVec.ofNat 3 (bits x 19 18))).getD .rne, ef := bits x 21 20,
    ovf := OvfMode.ofCode (BitVec.ofNat 2 (bits x 23 22)), ec := signed 20 (bits x 43 24), er := signed 20 (bits x 63 44) }

/-- Whether an activation record lies in core scratch of a core of the tile, or in hearth scratch of its tower
(spec R122, R260 check 4). -/
def State.actSource (s : State) (w : Who) (tile : Nat) (r : BitVec 1024) : Bool :=
  let (lo, hi) := (recSpan r (2 ^ 17)).getD (recBase r, recBase r + 1)
  posDev w.pk == s.dev && winOf lo.toNat == winOf (hi - 1).toNat &&
    match winOf (recBase r) with
    | some .core => posCore w.pk / 4 == tile
    | some .hearth => posTower w.pk == tile / 16
    | _ => false

/-- The formats that an epilogue writes (spec R260 check 6). -/
def epiFmt (c : Nat) : Bool := decide (c ≤ 4) || (decide (11 ≤ c) && decide (c ≤ 13))

/-- Of checks of one row, the trap at the lowest address (spec R343); while one of them waits, all do. -/
def lowest (xs : List (Res Unit)) : Res Unit :=
  match xs.findSome? (fun x => match x with | .wait n => some n | _ => none) with
  | some n => .wait n
  | none =>
    match least (fun t => t.va.toNat) (xs.filterMap (fun x => match x with | .trap t => some t | _ => none)) with
    | some t => .trap t
    | none => .ok ()

/-- Checks 2 to 9 of R260 and the permissions of R317: the records of the command. -/
def State.mmaCheck (s : State) (b : Issuer) (tile : Nat) (epi : Bool) (opa opb : Word) : Res (BitVec 1024 × BitVec 1024) :=
  let o := mmaOp opb
  let le? := if epi then s.layout? b.space o.le else none
  let efOk := o.ef == 0 || match le? with | some r => decide (1 ≤ recFmt r) && decide (recFmt r ≤ 4) | none => true
  if !(decide (1 ≤ o.m) && decide (o.m ≤ 128) && (epi || decide (opb.toNat < 2 ^ 13)) && o.ovf.isSome && efOk) then
    .trap (engineTrap 3 2)
  else
    match s.layout? b.space o.la, (if epi then le? else some 0) with
    | some la, some le =>
      let here := s.tilePos tile
      let wa := recWho b here la
      let we := recWho b here le
      if recNdim la < 2 ∨ (epi ∧ recNdim le < 2) then .trap (engineTrap 3 3)
      else if s.actSource wa tile la = false then .trap (engineTrap 4 4)
      else if fmtBlock (recFmt la) ∧ loHalf opa % 32 ≠ 0 then .trap (engineTrap 3 4)
      else if (match (s.tile tile).pendActive with | some f => !pairs f.toNat (recFmt la) | none => false) then
        .trap (engineTrap 4 5)
      else if epi && !(epiFmt (recFmt le) && (!fmtBlock (recFmt le) || o.ec % 32 == 0)) then .trap (engineTrap 3 6)
      else
        (s.shelfCheck tile 7).bind (fun _ => (lowest (s.spanCheck wa la :: if epi then [s.spanCheck we le] else [])).bind (fun _ =>
          if epi then
            let es := rectElems le (s.recPage b.key b.space (posTower here) le) o.ec (s.tile tile).pendNw o.er o.m
            (Res.all (fun p => if eKind p.entry.toNat = 2 then .trap { cls := .repl, cause := 3, va := p.va } else .ok ())
              (s.capture b.space o.le (.layout o.le))).bind (fun _ =>
                (s.pinCheck b.space o.le b.priv true es).bind (fun _ => .ok (la, le)))
          else .ok (la, 0)))
    | _, _ => .trap (engineTrap 3 3)

/-- MMA and MMAE at issue. -/
def State.mmaIssue (s : State) (epi : Bool) (d a b : BitVec 6) (c : BitVec 2) : Out :=
  s.checked {} false { g := [d, a, b] }
    (s.boundOk c 1 (fun s i n =>
      if (s.tile i).hasRoom 4 = false then .next s
      else
        let opa := s.thr.g a
        let opb := s.thr.g b
        s.after (s.mmaCheck (s.issuer s.thr) i epi opa opb) (fun (la, le) =>
          let o := mmaOp opb
          let sp := s.thr.space
          .next (s.enqueue d 4 (.mma n epi la le opa opb none) (fun w =>
            s.capture sp o.la w ++ (if epi then s.capture sp o.le w else []))))))

/-- MMA. -/
def execMma (d a b : BitVec 6) (c : BitVec 2) (s : State) : Out := s.mmaIssue false d a b c
/-- MMAE. -/
def execMmae (d a b : BitVec 6) (c : BitVec 2) (s : State) : Out := s.mmaIssue true d a b c

/-- MZERO: it is exempt from the FAULTED trap. -/
def execMzero (d : BitVec 6) (c : BitVec 2) (s : State) : Out :=
  s.checked {} false { g := [d] }
    (s.bound c 0 (fun s i n =>
      if (s.tile i).hasRoom 4 = false then .next s
      else s.after (s.shelfCheck i 0) (fun _ => .next (s.enqueue d 4 (.mzero n) (fun _ => [])))))

/-- MRESUME (spec R312): it returns the slot to busy at once (spec R135), so that a second one finds it not FAULTED. -/
def execMresume (d a : BitVec 6) (c : BitVec 2) (s : State) : Out :=
  s.checked {} false { g := [d, a] }
    (s.bound c 1 (fun s i n =>
      let nc := (s.thr.g a).toNat
      if (s.tile i).hasRoom 4 = false then .next s
      else if (s.tile i).isFaulted n = false then .next (s.takeTrap (engineTrap 2 2))
      else if nc < 1 ∨ 256 < nc then .next (s.takeTrap (engineTrap 3 3))
      else s.after (s.shelfCheck i 0) (fun _ => .next (s.enqueue d 4 (.mresume n nc) (fun _ => [])))))

/-! ### At the head of q4: weight planes (spec R120, R258, R259) -/

/-- Every part of an engine's access that is not refused may be performed now: a failed request counts as a failed access, and the
parts after it are asked for all the same (spec R97, R350). -/
def State.engineParts (s : State) (t : Thread) (excl once : Bool) (all : List Loc) : List Loc → Ready
  | [] => .ok
  | l :: r =>
    match s.readyLoc t excl l all once with
    | .later s' => .later s'
    | _ => s.engineParts t excl once all r

/-- Go on once the coherence machinery lets the engine of a queue touch places, in the state in which its tile holds their lines; with
`once` nothing is allocated. -/
def State.engineReady (s : State) (b : Issuer) (tile q : Nat) (excl : Bool) (ls : List Loc) (f : State → Out) (once : Bool := false) : Out :=
  let t := engineThread b tile q
  match s.engineParts t excl once ls ls with
  | .later s' => .next s'
  | _ => f ((s.took t excl ls (once := once)).endStream (engineKey tile q))

/-- Whether an engine's request for a place failed at a peer. -/
def State.refusedAt (s : State) (l : Loc) : Bool :=
  s.txns.any (fun x => x.key / 128 == l.key / 128 && x.thread.any (fun k => k.launch == 0) &&
    match x.answer with
    | some (.failed ..) => true
    | _ => false)

/-- Whether an engine can write places: none of them is dark or refused (spec R77). -/
def State.reachable (s : State) (ls : List Loc) : Bool :=
  ls.all (fun l => decide (s.darkCheck l = .ok ()) && !s.refusedAt l)

/-- Whether places deliver data to an engine (spec R77, R344). -/
def State.delivers (s : State) (ls : List Loc) : Bool :=
  s.reachable ls && ls.all (fun l => (s.badByte l.key l.n).isNone)

/-- The places of bytes for an engine, none where a check fails. -/
def State.enginePlaces (s : State) (w : Who) (write : Bool) (va n : Nat) : Option (List Loc) :=
  match s.recAccess w write va n with
  | .ok ls => some ls
  | _ => none

/-- The number that an engine reads, none for a failed read. -/
def State.engineRead (s : State) (w : Who) (va n : Nat) : Option Nat :=
  match s.enginePlaces w false va n with
  | some ls => if s.delivers ls then some (s.valueAt ls) else none
  | none => none

/-- The places of the elements of a rectangle of a record, scales included. -/
def State.rectPlaces (s : State) (w : Who) (write : Bool) (r : BitVec 1024) (psize : Nat) (cs : List (Int × Int)) : List Loc :=
  cs.flatMap (fun (x, y) =>
    match elemAt r psize (fun i => if i = 0 then x else if i = 1 then y else 0) with
    | none => []
    | some e =>
      (s.enginePlaces w write e.va e.n).getD [] ++
        match e.scale with
        | some v => (s.enginePlaces w write v 1).getD []
        | none => [])

/-- The plane that an MLDW loads. -/
def State.loadPlane (s : State) (w : Who) (r : BitVec 1024) (psize : Nat) (ko no : Nat) : Plane :=
  let f := recFmt r
  let kw := min (4 * (kShelf f).getD 0) (recExt r 0 - ko)
  let nw := min 256 (recExt r 1 - no)
  let cells := (upto 0 kw).flatMap (fun k => (upto 0 nw).map (fun n => (k, n)))
  let got := cells.filterMap (fun (k, n) =>
    (elem2 r psize (ko + k : Nat) (no + n : Nat)).map (fun e => (k, n, e)))
  let scales := got.filterMap (fun (k, n, e) =>
    if k % 32 = 0 then e.scale.map (fun v => (k / 32 * 256 + n, s.engineRead w v 1)) else none)
  let read : List (Nat × Option (BitVec 16)) := got.map (fun (k, n, e) => (k * 256 + n,
    match scales.find? (fun x => x.1 == k / 32 * 256 + n) with
    | some (_, none) => none
    | _ => (s.engineRead w e.va e.n).map (fun x => BitVec.ofNat 16 (elemCode e.high x))))
  { fmt := some (BitVec.ofNat 4 f), kw := kw, nw := nw, codes := read.filterMap (fun (i, x) => x.map (fun c => (i, c))),
    failed := (read.filter (fun x => x.2.isNone)).map (fun x => x.1),
    scales := scales.filterMap (fun (i, x) => x.map (fun v => (i, BitVec.ofNat 8 v))) }

/-- MLDW at the head of q4. -/
def execMldwRun (tile : BitVec 7) (s : State) : Out :=
  let i := tile.toNat
  match (s.tile i).headCmd 4 with
  | some { by_ := b, work := .mldw r ko no, .. } =>
    let w := recWho b (s.tilePos i) r
    let psize := s.recPage b.key b.space (i / 16) r
    let kw := min (4 * (kShelf (recFmt r)).getD 0) (recExt r 0 - ko.toNat)
    let nw := min 256 (recExt r 1 - no.toNat)
    let cs := (upto ko.toNat kw).flatMap (fun (k : Nat) => (upto no.toNat nw).map (fun (n : Nat) => (Int.ofNat k, Int.ofNat n)))
    s.engineReady b i 4 false (s.rectPlaces w false r psize cs) (fun s' =>
      let t := s'.tile i
      .next ((s'.setTile i { t with shadow := s.loadPlane w r psize ko.toNat no.toNat }).completeCmd i 4)) (recStream r)
  | _ => .next s

/-- MSWAP at the head of q4. -/
def execMswapRun (tile : BitVec 7) (s : State) : Out :=
  let i := tile.toNat
  match (s.tile i).headCmd 4 with
  | some { work := .mswap, .. } =>
    let t := s.tile i
    .next ((s.setTile i { t with
      active := t.shadow
      shadow := t.active }).completeCmd i 4)
  | _ => .next s

/-- A slot as MZERO leaves it (spec R264). -/
def SlotSt.zeroed (x : SlotSt) : SlotSt :=
  { x with
    data := []
    bad := []
    accstat := setBits (setBits (setAccState x.accstat 1) 19 0 0) 39 32 0
    erec := 0
    eopb := 0 }

/-- MZERO at the head of q4. -/
def execMzeroRun (tile : BitVec 7) (s : State) : Out :=
  let i := tile.toNat
  match (s.tile i).headCmd 4 with
  | some { work := .mzero n, .. } =>
    let t := s.tile i
    .next (((s.setTile i (t.setSlot n (t.slot n).zeroed)).dropEpilogue (t.slot n).owner).completeCmd i 4)
  | _ => .next s

/-! ### The sum (spec R122 to R128) -/

/-- The FP32 sum of two FP32 encodings (spec R125). -/
def addBits (x y : Nat) : Nat × Flags :=
  FFmt.f32.finish .rne .dflt ((FFmt.f32.decode x).add .rne (FFmt.f32.decode y))

/-- A sum of encodings from the left. -/
def addUp (x : Nat) : List Nat → Nat × Flags
  | [] => (x, 0)
  | y :: r =>
    let (z, f) := addBits x y
    let (q, g) := addUp z r
    (q, f ||| g)

/-- A shelf sum: the exact sum of the products, rounded once; an exact zero is +0 (spec R123, R124). No order of the
products shows in it. -/
def shelfSum (ps : List (Fp × Fp)) : Nat × Flags :=
  let ms := ps.map (fun p => p.1.mul p.2)
  let (x, g) := Fp.sum .rne (ms.map (fun m => m.1))
  let fl := ms.foldl (fun a m => a ||| m.2) g
  match x with
  | .fin _ 0 _ _ => (0, fl)
  | y => FFmt.f32.finish .rne .dflt (y, fl)

/-- The usable shelves from the top, and the others from the top. -/
def shelvesOf (u : BitVec 4) (on : Bool) : List Nat := [3, 2, 1, 0].filter (fun i => bit u.toNat i == on)

/-- A list cut into runs of `n`. -/
def runsOf {α : Type} (n : Nat) : Nat → List α → List (List α)
  | 0, _ => []
  | fuel + 1, l => if l.isEmpty then [] else l.take n :: runsOf n fuel (l.drop n)

/-- The passes of FoldFast: the usable shelves, then the other chunks over them (spec R127). -/
def foldPasses (u : BitVec 4) : List (List Nat) :=
  let on := shelvesOf u true
  on :: runsOf on.length 4 (shelvesOf u false)

/-- The slot element after its shelf sums are combined. -/
def combine (canonical : Bool) (u : BitVec 4) (acc : Nat) (sums : Nat → Nat) : Nat × Flags :=
  let passes := if canonical then [[3, 2, 1, 0]] else foldPasses u
  passes.foldl (fun (a : Nat × Flags) p =>
    match p with
    | [] => a
    | x :: r =>
      let (c, f) := addUp (sums x) (r.map sums)
      let (z, g) := addBits a.1 c
      (z, a.2 ||| f ||| g)) (acc, 0)

/-- Bits 18:16 of ACCSTAT that events set: OF, NV, SAT (spec R124, R130). -/
def accEvents (f : Flags) : BitVec 20 :=
  BitVec.ofNat 20 ((b2n (f &&& fOF != 0) + 2 * b2n (f &&& fNV != 0) + 4 * b2n (f &&& fSAT != 0)) * 2 ^ 16)

/-- The fold descriptor of a command that multiplied (spec R130, R131). -/
def foldDescriptor (t : TowerSt) (u : BitVec 4) (stable : Bool) : Nat :=
  let off := shelvesOf u false
  let n := (foldPasses u).length
  let any_ (x : BitVec 4) : Nat := b2n (off.any (fun i => bit x.toNat i))
  let (ordc, passes) := if off.isEmpty then (0, 1) else if stable then (1, n + 1) else (2, n)
  pack [(4, u.toNat), (4, passes), (4, ordc), (1, any_ t.fused), (1, any_ t.parked), (1, any_ t.throttled)]

/-- A row of activations, none where a read fails (spec R261, R350). -/
def State.actRow (s : State) (w : Who) (r : BitVec 1024) (psize : Nat) (ftz : Bool) (ka row : Int) (keff : Nat) :
    Option (List Fp) :=
  (upto 0 keff).foldr (fun (k : Nat) acc =>
    match acc with
    | none => none
    | some l =>
      match elem2 r psize (ka + Int.ofNat k) row with
      | none => some (.fin false 0 0 false :: l)
      | some e =>
        match s.engineRead w e.va e.n, (match e.scale with | some v => s.engineRead w v 1 | none => some 0x7F) with
        | some x, some sc => some (operandVal (recFmt r) ftz (elemCode e.high x) sc :: l)
        | _, _ => none) (some [])

/-- The weight at (k, n) of a plane. -/
def Plane.value (p : Plane) (ftz : Bool) (k n : Nat) : Fp :=
  match p.fmt with
  | none => .fin false 0 0 false
  | some f =>
    let c := f.toNat
    operandVal c ftz (Tab.get p.codes (k * 256 + n) (zeroCode c)).toNat (Tab.get p.scales (k / 32 * 256 + n) 0x7F).toNat

/-- The factors of a product: those of a weight that could not be read are zeros (spec R258). -/
def Plane.product (p : Plane) (ftz : Bool) (a : Fp) (k n : Nat) : Fp × Fp :=
  if p.failed.contains (k * 256 + n) then (.fin false 0 0 false, .fin false 0 0 false) else (a, p.value ftz k n)

/-- The four shelf sums of an element. In a row whose read failed every product is NaN, that of a weight which failed to load too: log entry
123. -/
def shelfSums (p : Plane) (ftz : Bool) (ks keff : Nat) (row : Option (List Fp)) (n c : Nat) : Nat × Flags :=
  let ksIn := (upto (c * ks) ks).filter (fun k => decide (k < keff))
  match row with
  | none => if ksIn.isEmpty then (0, 0) else (FFmt.f32.nanEnc, fNV)
  | some a => shelfSum (ksIn.map (fun k => p.product ftz (a.getD k (.fin false 0 0 false)) k n))

/-- One slot row updated: its data and the events. -/
def updateRow (p : Plane) (ftz canonical : Bool) (u : BitVec 4) (ks keff m : Nat) (row : Option (List Fp)) (x : Memory × Flags) :
    Memory × Flags :=
  (upto 0 p.nw).foldl (fun (a : Memory × Flags) n =>
    let at_ := 1024 * m + 4 * n
    let sums := (upto 0 4).map (shelfSums p ftz ks keff row n)
    let (y, f) := combine canonical u (a.1.readNum at_ 4) (fun c => (sums.getD c (0, 0)).1)
    let g := sums.foldl (fun acc z => acc ||| z.2) (0 : Flags)
    (a.1.writeNum at_ 4 y, a.2 ||| f ||| g)) x

/-- Bits of ACCSTAT after a command: the descriptor replaced, the sticky flags added (spec R131, R132). -/
def accDone (x : Word) (b : BitVec 20) : Word :=
  setBits (x ||| BitVec.ofNat 64 (b.toNat / 2 ^ 16 * 2 ^ 16)) 15 0 (b.toNat % 2 ^ 16)

/-- MMA and MMAE at the head of q4 (spec R126, R261). CAUSE of a descriptor of no products is log entry 97. -/
def execMmaRun (tile : BitVec 7) (s : State) : Out :=
  let i := tile.toNat
  match (s.tile i).headCmd 4 with
  | some { by_ := b, work := .mma n epi act erec opa opb none, .. } =>
    let t := s.tile i
    let x := t.slot n
    let u := s.shelfUp (i / 16)
    if x.faulted then
      .next ((s.setTile i (t.setSlot n { x with accstat := x.accstat ||| 0x80000 })).completeCmd i 4)
    else if u = 0 then .next s
    else
      let o := mmaOp opb
      let p := t.active
      let ks := (kShelf ((p.fmt.map (fun f => f.toNat)).getD 0)).getD 0
      let keff := (min (p.kw : Int) (recExt act 0 - loHalf opa)).toNat
      let w := recWho b (s.tilePos i) act
      let psize := s.recPage b.key b.space (i / 16) act
      let canonical := b.order || u == 0xF
      let (data, low) :=
        if keff = 0 ∨ p.nw = 0 then (x.data, (0x300 : BitVec 20))
        else
          let (d, fl) := (upto 0 o.m).foldl (fun (a : Memory × Flags) m =>
            updateRow p b.ftz16 canonical u ks keff m
              (s.actRow w act psize b.ftz16 (loHalf opa) (hiHalf opa + m) keff) a) (x.data, (0 : Flags))
          (d, accEvents fl ||| BitVec.ofNat 20 (foldDescriptor (s.tower (i / 16)) u b.order))
      let s := s.setTile i (t.setSlot n { x with data := data, accstat := if epi then x.accstat else accDone x.accstat low })
      if epi then .next (s.setWork i 4 (.mma n epi act erec opa opb (some (p.nw, low))))
      else .next (s.completeCmd i 4)
  | _ => .next s

/-! ### The epilogue (spec R134, R135, R262) -/

/-- One write of an epilogue row. -/
structure EpiWrite where
  va : Nat
  n : Nat
  high : Option Bool
  code : Nat
  deriving DecidableEq, Repr

/-- The block length of an EF code (spec R257). -/
def efLength : Nat → Nat
  | 1 => 16 | 2 => 32 | _ => 256

/-- The writes of one row in an element format: `row` holds the FP32 codes of its columns. -/
def epiElems (o : MmaOp) (f : FFmt) (place : Nat → Option Elem) (row : List Nat) : List EpiWrite × Flags :=
  let ovf := o.ovf.getD .dflt
  let cols := (upto 0 row.length).filterMap (fun n => (place n).map (fun e => (n, e)))
  if o.ef = 0 then
    cols.foldl (fun (a : List EpiWrite × Flags) c =>
      let (y, fl) := FFmt.f32.convert f o.rnd ovf (row.getD c.1 0)
      (a.1 ++ [{ va := c.2.va, n := c.2.n, high := none, code := y }], a.2 ||| fl)) ([], 0)
  else
    let len := efLength o.ef
    (upto 0 (256 / len)).foldl (fun (a : List EpiWrite × Flags) b =>
      let cs := cols.filter (fun c => c.1 / len == b)
      let (ys, fl) := efBlock f ovf 0 (cs.map (fun c => row.getD c.1 0))
      (a.1 ++ (cs.zip ys).map (fun (c, y) => { va := c.2.va, n := c.2.n, high := none, code := y }), a.2 ||| fl)) ([], 0)

/-- The writes of one row in a block format. -/
def epiBlocks (o : MmaOp) (f : Nat) (place : Nat → Option Elem) (row : List Nat) : List EpiWrite × Flags :=
  (upto 0 ((row.length + 31) / 32)).foldl (fun (a : List EpiWrite × Flags) b =>
    let cs := (upto (32 * b) 32).filterMap (fun n => if n < row.length then (place n).map (fun e => (n, e)) else none)
    let xs := (upto (32 * b) 32).map (fun n =>
      if cs.any (fun c => c.1 == n) then FFmt.f32.decode (row.getD n 0) else Fp.fin false 0 0 false)
    let (scale, codes, fl) := mxQuantise (blockFmt f) o.rnd (o.ovf.getD .dflt) xs
    let ws := cs.map (fun c => ({ va := c.2.va, n := 1, high := c.2.high, code := codes.getD (c.1 - 32 * b) 0 } : EpiWrite))
    let sc := (cs.head?.bind (fun c => c.2.scale)).map (fun v => ({ va := v, n := 1, high := none, code := scale } : EpiWrite))
    if cs.isEmpty then a else (a.1 ++ ws ++ sc.toList, a.2 ||| fl)) ([], 0)

/-- The writes of one slot row and their events. -/
def epiRow (o : MmaOp) (r : BitVec 1024) (psize m nc : Nat) (data : Memory) : List EpiWrite × Flags :=
  let row := (upto 0 nc).map (fun n => data.readNum (1024 * m + 4 * n) 4)
  let place (n : Nat) : Option Elem := elem2 r psize (o.ec + n) (o.er + m)
  if fmtBlock (recFmt r) then epiBlocks o (recFmt r) place row
  else
    match floatOf ((ETy.ofCode (BitVec.ofNat 4 (recFmt r))).getD .f32) with
    | some f => epiElems o f place row
    | none => ([], 0)

/-- Granules that writes of an engine cover whole are good again (spec R93, R344). -/
def State.healed (s : State) (ls : List Loc) : State :=
  if s.bad.isEmpty then s
  else
    let covers (b : Nat) : Bool := ls.any (fun l => decide (l.key ≤ b) && decide (b < l.key + l.n))
    { s with bad := s.bad.filter (fun g => !(upto (16 * g) 16).all covers) }

/-- An engine writes an element's code. -/
def State.engineWrite (s : State) (ls : List Loc) (n : Nat) (high : Option Bool) (code : Nat) : State :=
  let old := match high with | some _ => s.valueAt ls | none => 0
  let step (a : State × List Byte) (l : Loc) : State × List Byte := (a.1.store l.key (a.2.take l.n), a.2.drop l.n)
  ((ls.foldl step (s, leBytes n (putCode high old code))).1).dirtied ls

/-- Rows of an epilogue from `m` on: the state, the events, and the first row that is not wholly stored. -/
def State.epilogue (s : State) (w : Who) (o : MmaOp) (r : BitVec 1024) (psize nc : Nat) (data : Memory) :
    Nat → Nat → Flags → State × Flags × Option Nat
  | 0, _, fl => (s, fl, none)
  | k + 1, m, fl =>
    let (ws, f) := epiRow o r psize m nc data
    let ps := ws.map (fun x => (x, s.enginePlaces w true x.va x.n))
    let ok := ps.all (fun (_, p) => match p with
      | some ls => s.reachable ls
      | none => false)
    if ok then
      let s' := ps.foldl (fun a (x, p) => a.engineWrite (p.getD []) x.n x.high x.code) s
      (s'.healed (ps.flatMap (fun (_, p) => p.getD []))).epilogue w o r psize nc data k (m + 1) (fl ||| f)
    else (s, fl ||| f, some m)

/-- The epilogue of the command at the head of q4: its rows are stored, or the slot becomes FAULTED; either way the
command completes. `low` holds the descriptor that the command writes, if it multiplied. -/
def State.finishEpilogue (s : State) (i : Nat) (c : Cmd) (n : Nat) (r : BitVec 1024) (opb : Word) (from_ nc : Nat)
    (low : Option (BitVec 20)) : Out :=
  let o := mmaOp opb
  let w := recWho c.by_ (s.tilePos i) r
  let psize := s.recPage c.by_.key c.by_.space (i / 16) r
  let x := (s.tile i).slot n
  let cs := (upto from_ (o.m - from_)).flatMap (fun m => (upto 0 nc).map (fun k => (o.ec + (k : Nat), o.er + (m : Nat))))
  s.engineReady c.by_ i 4 true (s.rectPlaces w true r psize cs) (fun s =>
    let (s, fl, stop) := s.epilogue w o r psize nc x.data (o.m - from_) from_ 0
     let acc := match low with | some b => accDone x.accstat b | none => x.accstat
     let acc := acc ||| BitVec.ofNat 64 (accEvents fl).toNat
     let t := s.tile i
     match stop with
     | none =>
       let s := s.setTile i (t.setSlot n { x with
         accstat := setBits (setAccState acc 1) 39 32 0
         erec := 0
         eopb := 0 })
       .next ((s.dropEpilogue x.owner).completeCmd i 4)
     | some m =>
       let s := s.setTile i (t.setSlot n { x with
         accstat := setBits (setAccState acc 3) 39 32 m
         erec := r
         eopb := opb })
       let s := match x.owner with
         | some (k, name) => { s with pins := s.pins.map (fun (p : Pin) =>
             if p.owner = PinOwner.command i 4 c.ticket then { p with owner := PinOwner.epilogue k name } else p) }
         | none => s
       .next (s.completeCmd i 4))

/-- The epilogue of an MMAE. -/
def execEpilogueComplete (tile : BitVec 7) (s : State) : Out :=
  let i := tile.toNat
  match (s.tile i).headCmd 4 with
  | some c =>
    (match c.work with
     | .mma n true _ erec _ opb (some (nw, low)) => s.finishEpilogue i c n erec opb 0 nw (some low)
     | _ => .next s)
  | none => .next s

/-- MRESUME at the head of q4: a slot that is FAULTED no longer has nothing left to store. -/
def execMresumeRun (tile : BitVec 7) (s : State) : Out :=
  let i := tile.toNat
  match (s.tile i).headCmd 4 with
  | some c =>
    (match c.work with
     | .mresume n nc =>
       let x := (s.tile i).slot n
       if x.faulted then s.finishEpilogue i c n x.erec x.eopb (accFrow x.accstat) nc none
       else .next (s.completeCmd i 4)
     | _ => .next s)
  | none => .next s

end Sys2Proof.Machine
end

