-- ==== Sys2Proof/Machine/Shake.lean ====
section
/-! DEFINITION. SHAKE256 with 256 bits of output, which the spec names without giving it (spec R94, R368, R373, R375);
log entry 19. -/

namespace Sys2Proof.Machine

/-- Lane (x, y) of the permutation's state stands at place x + 5 y. -/
abbrev Lanes := List Word

/-- A lane. -/
def lane (a : Lanes) (x y : Nat) : Word := a.getD (x % 5 + 5 * (y % 5)) 0

/-- The lanes as a function of their coordinates. -/
def lanesOf (f : Nat → Nat → Word) : Lanes := (upto 0 25).map (fun i => f (i % 5) (i / 5))

/-- θ: each lane takes the parities of two columns. -/
def theta (a : Lanes) : Lanes :=
  let c := (upto 0 5).map (fun x => lane a x 0 ^^^ lane a x 1 ^^^ lane a x 2 ^^^ lane a x 3 ^^^ lane a x 4)
  lanesOf (fun x y => lane a x y ^^^ c.getD ((x + 4) % 5) 0 ^^^ (c.getD ((x + 1) % 5) 0).rotateLeft 1)

/-- The rotation of each lane, at place x + 5 y. -/
def rhoOffsets : List Nat :=
  [0, 1, 62, 28, 27, 36, 44, 6, 55, 20, 3, 10, 43, 25, 39, 41, 45, 15, 21, 8, 18, 2, 61, 56, 14]

/-- ρ and π: lane (x, y), rotated, goes to (y, 2x + 3y). -/
def rhoPi (a : Lanes) : Lanes :=
  lanesOf (fun x y =>
    let u := (x + 3 * y) % 5
    (lane a u x).rotateLeft (rhoOffsets.getD (u + 5 * x) 0))

/-- χ. -/
def chi (a : Lanes) : Lanes := lanesOf (fun x y => lane a x y ^^^ (~~~ lane a (x + 1) y &&& lane a (x + 2) y))

/-- The round constants. -/
def roundConstants : List Word :=
  [0x0000000000000001, 0x0000000000008082, 0x800000000000808A, 0x8000000080008000, 0x000000000000808B,
   0x0000000080000001, 0x8000000080008081, 0x8000000000008009, 0x000000000000008A, 0x0000000000000088,
   0x0000000080008009, 0x000000008000000A] ++
  [0x000000008000808B, 0x800000000000008B, 0x8000000000008089, 0x8000000000008003, 0x8000000000008002,
   0x8000000000000080, 0x000000000000800A, 0x800000008000000A, 0x8000000080008081, 0x8000000000008080,
   0x0000000080000001, 0x8000000080008008]

/-- The permutation of 24 rounds. -/
def keccakF (a : Lanes) : Lanes :=
  roundConstants.foldl (fun a k =>
    match chi (rhoPi (theta a)) with
    | x :: r => (x ^^^ k) :: r
    | [] => []) a

/-- A block of 136 bytes is absorbed. -/
def absorbBlock (a : Lanes) (b : List Byte) : Lanes :=
  keccakF (lanesOf (fun x y =>
    let i := x + 5 * y
    lane a x y ^^^ (if i < 17 then BitVec.ofNat 64 (ofBytes ((b.drop (8 * i)).take 8)) else 0)))

/-- Whole blocks are absorbed one after another. -/
def absorb : Nat → Lanes → List Byte → Lanes
  | 0, a, _ => a
  | n + 1, a, m => absorb n (absorbBlock a (m.take 136)) (m.drop 136)

/-- A message with its padding: bits 1111, then 1 and zeros and 1 up to a whole number of blocks. -/
def padded (m : List Byte) : List Byte :=
  let gap := 136 - m.length % 136
  if gap = 1 then m ++ [0x9F] else m ++ [0x1F] ++ (upto 0 (gap - 2)).map (fun _ => (0 : Byte)) ++ [0x80]

/-- SHAKE256, 256 bits, as a number whose byte k is output byte k (spec R3). -/
def shake256 (m : List Byte) : BitVec 256 :=
  let p := padded m
  let a := absorb (p.length / 136) ((upto 0 25).map (fun _ => (0 : Word))) p
  lane a 3 0 ++ lane a 2 0 ++ lane a 1 0 ++ lane a 0 0

end Sys2Proof.Machine
end

