-- ==== Sys2Proof/Machine/Copy.lean ====
section
/-! DEFINITION. The copy engine: command blocks, the checks at issue, segments, arrival adds, digests and follow-ons
(spec R86, R89 to R95, R269, R270). -/

namespace Sys2Proof.Machine

/-! ### The command block (spec R89) -/

/-- CEXT of dimension `i`. -/
def cbExt (b : BitVec 2048) (i : Nat) : Nat := bits b.toNat (576 + 32 * i + 31) (576 + 32 * i)
/-- SCRD of dimension `i`. -/
def cbSrc (b : BitVec 2048) (i : Nat) : Int := signed 32 (bits b.toNat (128 + 32 * i + 31) (128 + 32 * i))
/-- DCRD of dimension `i`. -/
def cbDst (b : BitVec 2048) (i : Nat) : Int := signed 32 (bits b.toNat (352 + 32 * i + 31) (352 + 32 * i))
/-- FILL. -/
def cbFill (b : BitVec 2048) : Nat := bits b.toNat 127 96
/-- ARRV. -/
def cbArrv (b : BitVec 2048) : Bool := bit b.toNat 87
/-- PADW. -/
def cbPadw (b : BitVec 2048) : Bool := bit b.toNat 85
/-- SETF. -/
def cbSetf (b : BitVec 2048) : Bool := bit b.toNat 84
/-- DREC. -/
def cbDrec (b : BitVec 2048) : Nat := bits b.toNat 76 72
/-- SREC. -/
def cbSrec (b : BitVec 2048) : Nat := bits b.toNat 68 64
/-- AWA. -/
def cbAwa (b : BitVec 2048) : Nat := bits b.toNat 63 0
/-- FOW. -/
def cbFow (b : BitVec 2048) : Ins := b.extractLsb' 1536 32
/-- FOA. -/
def cbFoa (b : BitVec 2048) : Word := b.extractLsb' 1600 64
/-- FOB. -/
def cbFob (b : BitVec 2048) : Word := b.extractLsb' 1664 64
/-- DGST. -/
def cbDgst (b : BitVec 2048) : BitVec 256 := b.extractLsb' 1024 256

/-- Row 1 of R90: reserved bits, the fields that the member does not use (R269), and SCOPE. -/
def cbOk (k : CopyKind) (b : BitVec 2048) : Bool :=
  let x := b.toNat
  bits x 2047 1728 == 0 && bits x 1599 1568 == 0 && bits x 1535 1280 == 0 && bits x 1023 800 == 0 &&
    bits x 95 88 == 0 && !bit x 86 && !bit x 83 && bits x 79 77 == 0 && bits x 71 69 == 0 && decide (bits x 82 80 ≤ 5) &&
    (k == .copym || (bits x 1727 1600 == 0 && bits x 1567 1536 == 0)) && (k == .copyd || bits x 1279 1024 == 0)

/-- Row 2 of R90, over two registered records. -/
def cbRecords (b : BitVec 2048) (src dst : BitVec 1024) : Bool :=
  recNdim src == recNdim dst && recFmt src == recFmt dst &&
    (upto (recNdim src) (7 - recNdim src)).all (fun i => cbExt b i == 0 && cbSrc b i == 0 && cbDst b i == 0) &&
    (!fmtBlock (recFmt src) || (cbSrc b 0 % 32 == 0 && cbDst b 0 % 32 == 0 && cbExt b 0 % 32 == 0))

/-! ### The box (spec R91) -/

/-- The product of the first `n` extents. -/
def cbSpan (b : BitVec 2048) : Nat → Nat
  | 0 => 1
  | n + 1 => cbSpan b n * cbExt b n

/-- Index `i` of tuple number `t`; dimension 0 is fastest. -/
def cbIndex (b : BitVec 2048) (t i : Nat) : Nat := t / cbSpan b i % cbExt b i

/-- The source and the destination element of tuple `t`. -/
def cbPair (b : BitVec 2048) (src dst : BitVec 1024) (ps pd t : Nat) : Option Elem × Option Elem :=
  (elemAt src ps (fun i => cbSrc b i + cbIndex b t i), elemAt dst pd (fun i => cbDst b i + cbIndex b t i))

/-- One element that a copy writes: its place, its source or FILL, and the number of its block in the box. -/
structure CopyElem where
  tuple : Nat
  dst : Elem
  src : Option Elem
  deriving DecidableEq, Repr

/-- The elements that a copy writes, in tuple order. -/
def cbElems (b : BitVec 2048) (src dst : BitVec 1024) (ps pd : Nat) : List CopyElem :=
  (upto 0 (cbSpan b (recNdim src))).filterMap (fun t =>
    match cbPair b src dst ps pd t with
    | (_, none) => none
    | (none, some d) => if cbPadw b then some { tuple := t, dst := d, src := none } else none
    | (some x, some d) => some { tuple := t, dst := d, src := some x })

/-- Destination storage that is written as one: an element, or the MXFP4 elements that share a byte; with the scale
byte of the block if its last written element is here, and the source block's scale. -/
structure CopyUnit where
  elems : List CopyElem
  scale : Option (Nat × Option Nat)
  deriving DecidableEq, Repr

/-- Units of a list of elements. -/
def cbUnits (f : Nat) : List CopyElem → List (List CopyElem)
  | [] => []
  | e :: r =>
    match cbUnits f r with
    | (x :: u) :: us => if f = 13 && e.tuple / 2 == x.tuple / 2 then (e :: x :: u) :: us else [e] :: (x :: u) :: us
    | us => [e] :: us

/-- The scale byte of the source block of a tuple: that of any of its elements that is not clipped. -/
def cbScale (b : BitVec 2048) (src dst : BitVec 1024) (ps pd t : Nat) : Option Nat :=
  (upto (t / 32 * 32) 32).findSome? (fun j => (cbPair b src dst ps pd j).1.bind (fun e => e.scale))

/-- Units with the scale bytes that go with them. -/
def withScales (scale : Nat → Option Nat) : List (List CopyElem) → List CopyUnit
  | [] => []
  | u :: r =>
    let rest := withScales scale r
    let sc := match u.head? with
      | some e =>
        let last := match r.head?.bind (fun v => v.head?) with
          | some x => x.tuple / 32 != e.tuple / 32
          | none => true
        if last then e.dst.scale.map (fun v => (v, scale e.tuple)) else none
      | none => none
    { elems := u, scale := sc } :: rest

/-- How many units of a list go into the next run of at most `n`: no cut parts two units that stand in one 16-byte granule
where the run can end before the granule (spec R86, R93). -/
def runLength {α : Type} (granule : α → Nat) (n : Nat) (l : List α) : Nat :=
  match l[n]? with
  | none => l.length
  | some x =>
    let same := ((l.take n).reverse.takeWhile (fun y => granule y == granule x)).length
    if same < n then n - same else n

/-- A list cut into runs; `fuel` bounds their number. -/
def cutFrom {α : Type} (granule : α → Nat) (n : Nat) : Nat → List α → List (List α)
  | 0, _ => []
  | fuel + 1, l =>
    if l.isEmpty then []
    else
      let k := max 1 (runLength granule n l)
      l.take k :: cutFrom granule n fuel (l.drop k)

/-- A list cut into runs of at most `n`; at least one. A copy that writes nothing so has one empty segment, which adds 0 to the arrival
word (spec R92 states no add for it): log entry 108. -/
def cutRuns {α : Type} (granule : α → Nat) (n : Nat) (l : List α) : List (List α) :=
  if l.isEmpty then [[]] else cutFrom granule n l.length l

/-- The 16-byte granule of addresses that a unit begins in. -/
def CopyUnit.granule (u : CopyUnit) : Nat := (u.elems.head?.map (fun e => e.dst.va / 16)).getD 0

/-- The segments of a copy (spec R86). The scale bytes do not count in the cut: log entry 50. -/
def cbSegments (b : BitVec 2048) (src dst : BitVec 1024) (ps pd : Nat) : List (List CopyUnit) :=
  let f := recFmt src
  let us := withScales (cbScale b src dst ps pd) (cbUnits f (cbElems b src dst ps pd))
  cutRuns CopyUnit.granule (4096 / fmtSize f) us

/-- The storage bytes that a segment writes. -/
def segCount (f : Nat) (us : List CopyUnit) : Nat :=
  us.foldl (fun a u => a + fmtSize f + (if u.scale.isSome then 1 else 0)) 0

/-! ### The checks at issue (spec R90, R317) -/

/-- Row 4 on one box: the offsets that it reaches. -/
def State.boxCheck (s : State) (w : Who) (es : List Elem) : List (Res Unit) :=
  (es.flatMap elemSpots).map (fun x => s.addrCheck w .store x.1 x.2 1)

/-- Row 4 on AWA: alignment, high bits, and windows but the thermal and status window, which row 6 refuses. -/
def State.awaCheck (s : State) (w : Who) (va : Nat) : Res Unit :=
  if va = 0 then .ok ()
  else if winOf va = some .status ∧ va % 16 = 0 ∧ va < 2 ^ 57 then .ok ()
  else s.addrCheck w .arrive va 16 16

/-- Rows 5 and 6 on AWA, by the page that it lies on; permissions come after R90 (spec R317). In the thermal and status window CAUSE is
1: log entry 127. -/
def State.awaPage (s : State) (w : Who) (va : Nat) : Res Unit :=
  if va = 0 then .ok ()
  else if winOf va = some .status then .trap { cls := .amotype, cause := 1, va := BitVec.ofNat 64 va }
  else
    (s.locate { w with priv := true } .load (va, 16)).bind (fun l =>
      if l.win.isNone && eKind l.entry = 2 then .trap { cls := .repl, cause := 3, va := BitVec.ofNat 64 va }
      else if l.win.isNone && eKind l.entry = 3 then .trap { cls := .amotype, cause := 1, va := BitVec.ofNat 64 va }
      else .ok ())

/-- The place of AWA, with the permissions that it needs. It keeps the place while the command is outstanding, and a
movement of its page waits for the command: log entry 40. -/
def State.awaPlace (s : State) (w : Who) (va : Nat) : Res (Option Loc) :=
  if va = 0 then .ok none else (s.locate w .arrive (va, 16)).bind (fun l => .ok (some l))

/-- A REPLICA page in the destination record's span (row 5). -/
def State.replSpan (s : State) (space : BitVec 16) (i : Nat) : Res Unit :=
  Res.all (fun p => if eKind p.entry.toNat = 2 then .trap { cls := .repl, cause := 3, va := p.va } else .ok ())
    (s.capture space i (.layout i))

/-- The slot name in a follow-on word. -/
def fowSlot (w : Ins) : BitVec 2 := w.extractLsb' 4 2

/-- Row 3 on a follow-on word (spec R270). Its bits 3:0, which R260 leaves reserved, are not looked at: log entry 109. -/
def State.fowCheck (s : State) (w : Ins) : Res Unit :=
  if (w.extractLsb' 24 8 ≠ 0xC4 ∧ w.extractLsb' 24 8 ≠ 0xC5) ∨ fd w ≠ 0 then .trap (engineTrap 3 3)
  else if (s.thr.claim? (fowSlot w)).isNone then .trap (engineTrap 1 3)
  else .ok ()

/-- Permissions of the bytes that a copy reads or writes (spec R91, R317). -/
def State.touchCheck (s : State) (w : Who) (write : Bool) (xs : List (Nat × Nat)) : Res Unit :=
  Res.all (fun x => (s.recAccess w write x.1 x.2).bind (fun _ => .ok ())) xs

/-- The checks of R90 in their order, then those of R317; the records and the arrival word's place. -/
def State.copyCheck (s : State) (k : CopyKind) (b : BitVec 2048) : Res (BitVec 1024 × BitVec 1024 × Option Nat) :=
  let t := s.thr
  let tower := posTower t.cur
  if cbOk k b = false then .trap (t.illegal 3)
  else
    match s.layout? t.space (cbSrec b), s.layout? t.space (cbDrec b) with
    | some src, some dst =>
      if cbRecords b src dst = false then .trap (engineTrap 3 2)
      else
        let ps := s.recPage t.key t.space tower src
        let pd := s.recPage t.key t.space tower dst
        let pairs := (upto 0 (cbSpan b (recNdim src))).map (cbPair b src dst ps pd)
        let clipped := pairs.any (fun p => p.1.isNone || p.2.isNone)
        let ws := recWho (s.issuer t) t.cur src
        let wd := recWho (s.issuer t) t.cur dst
        let wa := s.who t .none
        let es := cbElems b src dst ps pd
        let read := es.flatMap (fun e => (e.src.map (fun x => (x.va, x.n))).toList ++
          (e.dst.scale.bind (fun _ => (cbScale b src dst ps pd e.tuple).map (fun v => (v, 1)))).toList)
        (if k = .copyd then Res.need (!clipped) (engineTrap 3 3)
         else if k = .copym then s.fowCheck (cbFow b) else .ok ()).bind (fun _ =>
          (lowest (s.boxCheck ws (pairs.filterMap (fun p => p.1)) ++ s.boxCheck wd (pairs.filterMap (fun p => p.2)) ++
            [s.awaCheck wa (cbAwa b)])).bind (fun _ =>
            (s.replSpan t.space (cbDrec b)).bind (fun _ => (s.awaPage wa (cbAwa b)).bind (fun _ =>
              (s.touchCheck ws false read).bind (fun _ => (s.touchCheck wd true (es.flatMap (fun e => elemSpots e.dst))).bind (fun _ =>
                (s.awaPlace wa (cbAwa b)).bind (fun aw => .ok (src, dst, aw.map (fun l => l.key)))))))))
    | _, _ => .trap (engineTrap 3 2)

/-- A copy instruction: a full queue holds it back (spec R85); q4 is no copy queue. -/
def State.copyIssue (s : State) (k : CopyKind) (d a : BitVec 6) (q : Queue) : Out :=
  s.checked {} false { g := [d], v := [a] }
    (if q = .q4 then .next (s.takeTrap (s.thr.illegal 5))
     else if (s.tile s.thr.tile).hasRoom (queueNo q) = false then .next s
     else
      let b := BitVec.ofNat 2048 (ofBytes (s.thr.v a))
      s.resolved (s.copyCheck k b) (fun (src, dst, aw) =>
        let sp := s.thr.space
        let page (r : BitVec 1024) : Nat := s.recPage s.thr.key sp (posTower s.thr.cur) r
        let segs := cbSegments b src dst (page src) (page dst)
        .next (s.enqueue d (queueNo q) (.copy k b src dst aw (upto 0 segs.length) [] [])
          (fun o => s.capture sp (cbSrec b) o ++ s.capture sp (cbDrec b) o))))

/-- COPY. -/
def execCopy (d a : BitVec 6) (q : Queue) (s : State) : Out := s.copyIssue .copy d a q
/-- COPYM. -/
def execCopym (d a : BitVec 6) (q : Queue) (s : State) : Out := s.copyIssue .copym d a q
/-- COPYD. -/
def execCopyd (d a : BitVec 6) (q : Queue) (s : State) : Out := s.copyIssue .copyd d a q

/-! ### Segments (spec R86, R91 to R95) -/

/-- Whether the copy engine of a tile serves a queue next: its head command has segments left and the highest priority,
and among equals it is the first after the queue served last. -/
def TileSt.serves (t : TileSt) (q : Nat) : Bool :=
  let ready (r : Nat) : Option Nat :=
    match t.headCmd r with
    | some { work := .copy _ _ _ _ _ (_ :: _) _ _, by_ := b, .. } => some b.prio.toNat
    | _ => none
  match ready q with
  | none => false
  | some p =>
    (upto 0 4).all (fun r =>
      match ready r with
      | none => true
      | some x => decide (x < p) ||
          (x == p && decide ((q + 3 - t.lastq.toNat) % 4 ≤ (r + 3 - t.lastq.toNat) % 4)))

/-- One write of a segment: where, which half of the byte for MXFP4, and the number; none where its source did not
deliver. -/
structure CopyWrite where
  locs : List Loc
  n : Nat
  high : Option Bool
  code : Nat
  deriving DecidableEq, Repr

/-- The requesters of a copy's two sides at a tile. -/
def State.copyWho (s : State) (c : Issuer) (tile : Nat) (r : BitVec 1024) : Who := recWho c (s.tilePos tile) r

/-- The writes of an element. -/
def State.elemWrite (s : State) (ws wd : Who) (b : BitVec 2048) (f : Nat) (e : CopyElem) : Option CopyWrite :=
  match s.enginePlaces wd true e.dst.va e.dst.n,
    (match e.src with
      | none => some (cbFill b % 2 ^ (8 * fmtSize f) % (if f = 13 then 16 else 2 ^ 32))
      | some x => (s.engineRead ws x.va x.n).map (elemCode x.high)) with
  | some ls, some y => if s.reachable ls then some { locs := ls, n := e.dst.n, high := e.dst.high, code := y } else none
  | _, _ => none

/-- The write of a scale byte. -/
def State.scaleWrite (s : State) (ws wd : Who) (x : Nat × Option Nat) : Option CopyWrite :=
  match s.enginePlaces wd true x.1 1,
    (match x.2 with
      | none => some 0x7F
      | some v => s.engineRead ws v 1) with
  | some ls, some y => if s.reachable ls then some { locs := ls, n := 1, high := none, code := y } else none
  | _, _ => none

/-- The writes of a unit. -/
def State.unitWrites (s : State) (ws wd : Who) (b : BitVec 2048) (f : Nat) (u : CopyUnit) : List (Option CopyWrite) :=
  u.elems.map (s.elemWrite ws wd b f) ++ (match u.scale with | some x => [s.scaleWrite ws wd x] | none => [])

/-- Places that a copy's segment writes. -/
def State.segPlaces (s : State) (w : Who) (us : List CopyUnit) : List Loc :=
  (us.flatMap (fun u => u.elems.map (fun e => (e.dst.va, e.dst.n)) ++
    (match u.scale with | some x => [(x.1, 1)] | none => []))).flatMap (fun x => (s.enginePlaces w true x.1 x.2).getD [])

/-- Places that a copy's segment reads. -/
def State.segSources (s : State) (w : Who) (us : List CopyUnit) : List Loc :=
  (us.flatMap (fun u => u.elems.filterMap (fun e => e.src.map (fun x => (x.va, x.n))) ++
    (match u.scale with | some (_, some v) => [(v, 1)] | _ => []))).flatMap
      (fun x => (s.enginePlaces w false x.1 x.2).getD [])

/-- The core scratch lines of places. -/
def scratchLines (ls : List Loc) : List Nat :=
  ((ls.filter (fun l => l.win == some .core)).flatMap (fun l => unitsOf 128 l.key l.n)).eraseDups

/-- Lines become full, and what waits on them goes on (spec R74). -/
def State.fillLines (s : State) (scsz : BitVec 8) : List Nat → State
  | [] => s
  | n :: r => ((s.setFull (n * 128) scsz true).lineOpened (n * 128)).fillLines scsz r

/-- The images of places are created (spec R54). -/
def State.writeAll (s : State) : List CopyWrite → State
  | [] => s
  | x :: r => (s.engineWrite x.locs x.n x.high x.code).writeAll r

/-- q4 accepts a follow-on of a copy queue, or does not (spec R95, R270). The second part says whether it did. Bits 3:0 of its word are
not looked at: log entry 109. -/
def State.followOn (s : State) (tile q : Nat) (c : Issuer) (b : BitVec 2048) : State × Bool :=
  let w := cbFow b
  let name := fowSlot w
  let epi := w.extractLsb' 24 8 == (0xC5 : BitVec 8)
  match (s.find c.key).bind (fun t => t.claim? name) with
  | some { phys := some (i, n), .. } =>
    if i = tile && !(s.tile tile).isFaulted n then
      match s.mmaCheck c tile epi (cbFoa b) (cbFob b) with
      | .ok (la, le) =>
        let o := mmaOp (cbFob b)
        let owner : PinOwner := .command tile 4 ((s.tile tile).nextTicket 4)
        let pins := s.capture c.space o.la owner ++ (if epi then s.capture c.space o.le owner else [])
        let t := (s.tile tile).accept 4 c false (.mma n epi la le (cbFoa b) (cbFob b) none)
          (if (s.tile tile).keptEntry q then some q else none)
        ({ s.setTile tile t with pins := pins ++ s.pins }, true)
      | _ => (s, false)
    else (s, false)
  | _ => (s, false)

/-- What the checks of a follow-on wait for, if they wait: it does then not enter q4 yet, as MMA would not issue (spec R95). -/
def State.followNeed (s : State) (tile : Nat) (c : Issuer) (b : BitVec 2048) : Option (Option Nat) :=
  match (s.find c.key).bind (fun t => t.claim? (fowSlot (cbFow b))) with
  | some { phys := some (i, n), .. } =>
    if i = tile && !(s.tile tile).isFaulted n then
      match s.mmaCheck c tile ((cbFow b).extractLsb' 24 8 == (0xC5 : BitVec 8)) (cbFoa b) (cbFob b) with
      | .wait need => some need
      | _ => none
    else none
  | _ => none

/-- An arrival of an engine: here, or at a peer; none while no tag is free there. A word that a dark layer or a bad
granule holds receives nothing: log entry 51. -/
def State.engineArrive (s : State) (tile q key n : Nat) (err dgerr : Bool) : Option State :=
  if s.isPeer key then
    let dev := BitVec.ofNat 12 (key / 2 ^ 48)
    (s.freeTag dev).map (fun tag =>
      { s.send { dst := dev, opc := .arrv, pos := posHigh (s.tilePos tile), tag := tag, scope := .sys,
                 addr := addrField key, arg := 0,
                 payload := leBytes 16 (n + b2n err * 2 ^ 32 + b2n dgerr * 2 ^ 33) } with
        txns := s.txns ++ [{ tag := tag, dev := dev, opc := .arrv, key := key, thread := some (engineKey tile q) }] })
  else
    let l : Loc := { va := 0, n := 16, key := key, win := if isCoreKey key then some .core else if isHearthKey key then some .hearth else none }
    if s.delivers [l] then some ((s.dirtied [l]).arrive key n err dgerr) else some s

/-- Arrivals of the engine of a queue that its peers have not confirmed. -/
def State.arriving (s : State) (tile q : Nat) : Bool :=
  s.txns.any (fun x => x.thread == some (engineKey tile q) && x.opc == .arrv && x.answer.isNone)

/-- The add that a segment makes, if it makes one: count, ERR, DGERR (spec R92, R94, R97). -/
def segAdd (k : CopyKind) (b : BitVec 2048) (last : Bool) (n total : Nat) (failed anyFailed dropped : Bool)
    (stream : List Byte) : Option (Nat × Bool × Bool) :=
  let dg := k == .copyd && shake256 stream != cbDgst b
  if cbArrv b then (if last then some (1, anyFailed || dropped, dg) else none)
  else if k = .copyd then (if last then some (total, anyFailed, dg) else none)
  else some (n, failed || dropped, false)

/-- The bytes of a segment in digest order. -/
def State.segStream (s : State) (w : Who) (us : List CopyUnit) : List Byte :=
  us.flatMap (fun u =>
    (((u.elems.take 1).map (fun e => (e.dst.va, e.dst.n))) ++ (match u.scale with | some x => [(x.1, 1)] | none => [])).flatMap
      (fun x => s.readLocs ((s.enginePlaces w true x.1 x.2).getD [])))

/-- What a copy command works on at its tile: its segments, the requesters of its two sides, what it has read ahead, and the segments that
one write performs. -/
structure CopyJob where
  tile : Nat
  q : Nat
  by_ : Issuer
  kind : CopyKind
  block : BitVec 2048
  src : BitVec 1024
  dst : BitVec 1024
  aw : Option Nat
  segs : List (List CopyUnit)
  ws : Who
  wd : Who
  read : List (Nat × List Byte)
  together : List Nat := []
  deriving DecidableEq, Repr

/-- The job of the head command of a copy queue. -/
def State.copyJob (s : State) (i q : Nat) (c : Issuer) (k : CopyKind) (b : BitVec 2048) (src dst : BitVec 1024)
    (aw : Option Nat) (read : List (Nat × List Byte)) : CopyJob :=
  let page (r : BitVec 1024) : Nat := s.recPage c.key c.space (i / 16) r
  { tile := i, q := q, by_ := c, kind := k, block := b, src := src, dst := dst, aw := aw,
    segs := cbSegments b src dst (page src) (page dst), ws := s.copyWho c i src, wd := s.copyWho c i dst, read := read }

/-- The units of a segment. -/
def CopyJob.units (j : CopyJob) (n : Nat) : List CopyUnit := j.segs.getD n []

/-- The 16-byte granules of places. -/
def granulesOf (ls : List Loc) : List Nat := (ls.flatMap (fun l => unitsOf 16 l.key l.n)).eraseDups

/-- Whether a list of places covers a granule whole. -/
def coversGranule (ls : List Loc) (g : Nat) : Bool :=
  (upto (16 * g) 16).all (fun a => ls.any (fun l => decide (l.key ≤ a) && decide (a < l.key + l.n)))

/-- The segments among `left` that go with segments `ns`, because a granule that the command writes wholly has bytes of
both: one write of the engine performs it (spec R93). -/
def State.withShared (s : State) (j : CopyJob) (left : List Nat) : Nat → List Nat → List Nat
  | 0, ns => ns
  | fuel + 1, ns =>
    let mine := granulesOf (ns.flatMap (fun n => s.segPlaces j.wd (j.units n)))
    match (left.filter (fun m => !ns.contains m)).find? (fun m =>
        let theirs := granulesOf (s.segPlaces j.wd (j.units m))
        let all := (ns ++ left).flatMap (fun n => s.segPlaces j.wd (j.units n))
        theirs.any (fun g => mine.contains g && coversGranule all g)) with
    | some m => s.withShared j left fuel (ns ++ [m])
    | none => ns

/-- The source granules that a copy reads wholly and of which segments `ns` read bytes, as far as another segment that is left
reads bytes of them too (spec R93). -/
def State.sharedSources (s : State) (j : CopyJob) (ns left : List Nat) : List Nat :=
  let places (n : Nat) : List Loc := s.segSources j.ws (j.units n)
  let all := (upto 0 j.segs.length).flatMap places
  let rest := granulesOf ((left.filter (fun m => !ns.contains m)).flatMap places)
  (granulesOf (ns.flatMap places)).filter (fun g => rest.contains g && coversGranule all g)

/-- A state as a copy reads it that has read some granules before. -/
def State.withRead (s : State) (gs : List (Nat × List Byte)) : State :=
  { s with mem := gs.foldl (fun a g => a.writeBytes (16 * g.1) g.2) s.mem }

/-- The places that segment `n` writes, and those that segments have written that go with it as one write (spec R93). -/
def State.placesUpTo (s : State) (j : CopyJob) (n : Nat) (left failed : List Nat) : List Loc :=
  (n :: j.together.filter (fun m => m != n && !left.contains m && !failed.contains m)).flatMap (fun m => s.segPlaces j.wd (j.units m))

/-- Segment `n` of a copy is performed, with its arrival add (spec R91 to R95); none while an arrival finds no free tag, or what the
follow-on's checks need is not at hand. The work that is left goes with it. The last one hands over the follow-on though a segment may
have failed: log entry 110. -/
def State.segment (s : State) (j : CopyJob) (n : Nat) (left failed : List Nat) (wrote : List (Nat × List Byte)) :
    Option (State × List Nat × List Nat × List (Nat × List Byte)) :=
  let us := j.units n
  let places := s.segPlaces j.wd us
  let writes := us.flatMap ((s.withRead j.read).unitWrites j.ws j.wd j.block (recFmt j.src))
  let ok := writes.all Option.isSome
  let left' := left.filter (fun m => m != n)
  let failed' := if ok then failed else n :: failed
  let s1 := if ok then ((s.noteImages j.by_.scsz places).writeAll (writes.filterMap id)).healed (s.placesUpTo j n left failed) else s
  let wrote' := if ok && j.kind == .copyd then wrote ++ [(n, s1.segStream j.wd us)] else wrote
  let done := left'.isEmpty
  if done && j.kind == .copym && (s1.followNeed j.tile j.by_ j.block).isSome then none
  else
  let (s2, took) := if done && j.kind == .copym then s1.followOn j.tile j.q j.by_ j.block else (s1, true)
  let stream := ((upto 0 j.segs.length).map (fun m => Tab.get wrote' m [])).flatten
  let f := recFmt j.src
  let add := segAdd j.kind j.block done (segCount f us) ((j.segs.map (segCount f)).sum) (!ok) (!failed'.isEmpty) (!took) stream
  let s3? := match j.aw, add with
    | some key, some (m, e, g) => s2.engineArrive j.tile j.q key m e g
    | _, _ => some s2
  s3?.map (fun s3 =>
    let open_ := (left' ++ failed').flatMap (fun m => scratchLines (s.segPlaces j.wd (j.units m)))
    let lines := (scratchLines places).filter (fun x => !open_.contains x)
    (if ok && cbSetf j.block then s3.fillLines j.by_.scsz lines else s3, left', failed', wrote'))

/-- Segments are performed one after another, as one step. -/
def State.segments (s : State) (j : CopyJob) : List Nat → List Nat → List Nat → List (Nat × List Byte) →
    Option (State × List Nat × List Nat × List (Nat × List Byte))
  | [], left, failed, wrote => some (s, left, failed, wrote)
  | n :: r, left, failed, wrote =>
    match s.segment j n left failed wrote with
    | some (s', left', failed', wrote') => s'.segments j r left' failed' wrote'
    | none => none

/-- The granules that the command at the head of a queue has read ahead are noted. -/
def State.setRead (s : State) (tile q : Nat) (gs : List (Nat × List Byte)) : State :=
  let t := s.tile tile
  let x := t.queue q
  s.setTile tile (t.setQueue q { x with cmds := adjust x.cmds 0 (fun c => { c with read := gs }) })

/-- The place of a copy's arrival word where it stands in this module's reach, if segments add to it: those that leave none do always
(spec R92, R94). -/
def State.wordPlace (s : State) (j : CopyJob) (last : Bool) : List Loc :=
  match j.aw with
  | some key => if s.isPeer key || !(last || (!cbArrv j.block && j.kind != .copyd)) then [] else [{ va := 0, n := 16, key := key : Loc }]
  | none => []

/-- The places that a copy's segments write, its arrival word among them. -/
def State.copyTargets (s : State) (j : CopyJob) (us : List CopyUnit) (last : Bool) : List Loc :=
  s.segPlaces j.wd us ++ s.wordPlace j last

/-- The state in which segments of a copy are performed: the tile's caches hold what they read and write, and the arrival word is updated
at its home (spec R97). -/
def State.copyReach (s : State) (j : CopyJob) (t : Thread) (us : List CopyUnit) (last : Bool) : State :=
  let a := s.took t false (s.segSources j.ws us) (once := recStream j.src)
  let a := a.took t true (s.segPlaces j.wd us)
  (a.took t true (s.wordPlace j last) (home := true)).endStream t.key

/-- COPY_SEGMENT: segment `n` of the head command of a copy queue is performed, with those that share a granule with it;
with none left the command completes. -/
def execCopySegment (tile : BitVec 7) (q : BitVec 2) (n : Nat) (s : State) : Out :=
  let i := tile.toNat
  let qn := q.toNat
  match (s.tile i).headCmd qn with
  | some { by_ := c, read := read, work := .copy k b src dst aw left failed wrote, .. } =>
    if left.isEmpty then .next (if s.arriving i qn then s else s.completeCmd i qn)
    else if !left.contains n || !(s.tile i).serves qn then .next s
    else
      let j := s.copyJob i qn c k b src dst aw read
      let ns := s.withShared j left left.length [n]
      let j := { j with together := ns }
      let us := ns.flatMap j.units
      let last := ns.length == left.length
      match (if k == .copym && last then s.followNeed i c b else none) with
      | some need => .next (s.wantEntry (engineKey i qn) (s.tilePos i) need)
      | none =>
        let t := engineThread c i qn
        let once := recStream src
        match s.engineParts t false once (s.segSources j.ws us) (s.segSources j.ws us),
          s.engineParts t true false (s.copyTargets j us last) (s.copyTargets j us last) with
        | .later s', _ => .next s'
        | _, .later s' => .next s'
        | _, _ =>
          let shared := (s.sharedSources j ns left).filter (fun g => !read.any (fun x => x.1 == g))
          let gs := read ++ shared.map (fun g => (g, s.bytesAt (16 * g) 16))
          match (s.copyReach j t us last).segments j ns left failed wrote with
          | none => .next s
          | some (s', left', failed', wrote') =>
            let t := s'.tile i
            let s' := ((s'.setTile i { t with lastq := q }).setWork i qn (.copy k b src dst aw left' failed' wrote')).setRead i qn gs
            .next (if left'.isEmpty && !s'.arriving i qn then s'.completeCmd i qn else s')
  | _ => .next s

end Sys2Proof.Machine
end

