-- ==== Sys2Proof/Machine/Float.lean ====
section
/-! DEFINITION. FP32 scalar instructions (spec R187 to R191). -/

namespace Sys2Proof.Machine

/-- F32(n): bits 31:0 of a scalar register. -/
def Thread.f32 (t : Thread) (n : BitVec 6) : Nat := (t.g n).toNat % 2 ^ 32

/-- Write an FP32 or integer result with its flags and go on. -/
def State.resultF (s : State) (d : BitVec 6) (x : Nat × Flags) : State :=
  s.put ((s.thr.setG d (BitVec.ofNat 64 x.1)).raise x.2).advance

/-- A member that rounds: it accepts PFXM. -/
def State.fp (s : State) (regs : List (BitVec 6)) (d : BitVec 6) (x : Nat × Flags) : Out :=
  s.checked { mods := true } false { g := regs } (.next (s.resultF d x))

/-- A member that rounds nothing: no prefix. -/
def State.fpExact (s : State) (d a b : BitVec 6) (x : Nat × Flags) : Out :=
  s.checked {} false { g := [d, a, b] } (.next (s.resultF d x))

/-- The value of a scalar operand. -/
def Thread.fval (t : Thread) (n : BitVec 6) : Fp := FFmt.f32.decode (t.f32 n)

/-- Round an operation's value to FP32 in the group's modes. -/
def Thread.fin32 (t : Thread) (r : RMode) (x : Fp × Flags) : Nat × Flags := FFmt.f32.finish (t.rmode r) t.ovf x

/-- FADD. -/
def execFadd (d a b : BitVec 6) (r : RMode) (s : State) : Out :=
  s.fp [d, a, b] d (s.thr.fin32 r ((s.thr.fval a).add (s.thr.rmode r) (s.thr.fval b)))
/-- FSUB. -/
def execFsub (d a b : BitVec 6) (r : RMode) (s : State) : Out :=
  s.fp [d, a, b] d (s.thr.fin32 r ((s.thr.fval a).add (s.thr.rmode r) (s.thr.fval b).negate))
/-- FMUL. -/
def execFmul (d a b : BitVec 6) (r : RMode) (s : State) : Out :=
  s.fp [d, a, b] d (s.thr.fin32 r ((s.thr.fval a).mul (s.thr.fval b)))
/-- FFMA: a × b + d, rounded once. -/
def execFfma (d a b : BitVec 6) (r : RMode) (s : State) : Out :=
  s.fp [d, a, b] d (s.thr.fin32 r ((s.thr.fval a).fma (s.thr.rmode r) (s.thr.fval b) (s.thr.fval d)))
/-- FDIV. -/
def execFdiv (d a b : BitVec 6) (r : RMode) (s : State) : Out :=
  s.fp [d, a, b] d (s.thr.fin32 r ((s.thr.fval a).div (s.thr.fval b)))
/-- FSQRT. -/
def execFsqrt (d a : BitVec 6) (r : RMode) (s : State) : Out :=
  s.fp [d, a] d (s.thr.fin32 r (s.thr.fval a).sqrt)
/-- FRCP: the rounding code and PFXM are ignored (spec R118). -/
def execFrcp (d a : BitVec 6) (_r : RMode) (s : State) : Out := s.fp [d, a] d (approx (s.thr.fval a).recip)
/-- FRSQ: the rounding code and PFXM are ignored (spec R118). -/
def execFrsq (d a : BitVec 6) (_r : RMode) (s : State) : Out := s.fp [d, a] d (approx (s.thr.fval a).rsqrt)

/-- FMIN (spec R189). -/
def execFmin (d a b : BitVec 6) (s : State) : Out := s.fpExact d a b (FFmt.f32.select false (s.thr.f32 a) (s.thr.f32 b))
/-- FMAX (spec R189). -/
def execFmax (d a b : BitVec 6) (s : State) : Out := s.fpExact d a b (FFmt.f32.select true (s.thr.f32 a) (s.thr.f32 b))

/-- A compare's result as a number. -/
def boolResult (x : Bool × Flags) : Nat × Flags := (b2n x.1, x.2)

/-- FLT (spec R190). -/
def execFlt (d a b : BitVec 6) (s : State) : Out := s.fpExact d a b (boolResult (fpLt (s.thr.fval a) (s.thr.fval b)))
/-- FLE (spec R190). -/
def execFle (d a b : BitVec 6) (s : State) : Out := s.fpExact d a b (boolResult (fpLe (s.thr.fval a) (s.thr.fval b)))
/-- FEQ (spec R190). -/
def execFeq (d a b : BitVec 6) (s : State) : Out := s.fpExact d a b (boolResult (fpEq (s.thr.fval a) (s.thr.fval b)))

/-- The integer that FCVTI writes: sign-extended from s32, zero-extended from z32. -/
def intResult (t : IntTy) (x : Int × Flags) : Nat × Flags :=
  match t with
  | .s32 => (cut 64 x.1, x.2)
  | .z32 => (cut 32 x.1, x.2)

/-- FCVTI (spec R109, R191). -/
def execFcvti (d a : BitVec 6) (t : IntTy) (r : RMode) (s : State) : Out :=
  s.fp [d, a] d (intResult t ((s.thr.fval a).toInt (s.thr.rmode r) (decide (t = .s32)) 32))

/-- FCVTF (spec R109, R191). -/
def execFcvtf (d a : BitVec 6) (t : IntTy) (r : RMode) (s : State) : Out :=
  let x : Int := match t with
    | .s32 => signed 32 (s.thr.g a).toNat
    | .z32 => s.thr.f32 a
  s.fp [d, a] d (s.thr.fin32 r (Fp.ofInt x, 0))

/-- The format of a narrow type. -/
def narrowFmt : NarrowTy → FFmt
  | .bf16 => .bf16 | .f16 => .f16 | .e4m3 => .e4m3 | .e5m2 => .e5m2

/-- FCVTN, narrowing (spec R191). -/
def execFcvtn (d a : BitVec 6) (t : NarrowTy) (r : RMode) (s : State) : Out :=
  s.fp [d, a] d (FFmt.f32.convert (narrowFmt t) (s.thr.rmode r) s.thr.ovf (s.thr.f32 a))

/-- FCVTN.up: exact; the rounding code and PFXM are ignored (spec R112, R187). -/
def execFcvtnUp (d a : BitVec 6) (t : NarrowTy) (_r : RMode) (s : State) : Out :=
  s.fp [d, a] d ((narrowFmt t).widen .f32 ((s.thr.g a).toNat % 2 ^ (narrowFmt t).width))

end Sys2Proof.Machine
end

