-- ==== Sys2Proof/Machine/Position.lean ====
section
/-! DEFINITION. Position, index and migration (spec R225 to R227). -/

namespace Sys2Proof.Machine

/-- The header value that POS reads. -/
def Thread.posValue (t : Thread) (f : PosSel) : Word :=
  match f with
  | .anchor => t.anchor.setWidth 64
  | .cur => t.cur.setWidth 64
  | .space => t.space.setWidth 64
  | .launch => t.launch.setWidth 64

/-- POS. -/
def execPos (d : BitVec 6) (f : PosSel) (s : State) : Out :=
  s.checked {} false { g := [d] } (.next (s.result d (s.thr.posValue f)))

/-- The value of IDX for a flat index, none for a level above NLEV (spec R226). -/
def idxValue (l : Launch) (x : Nat) (f : IdxSel) : Option Nat :=
  match f with
  | .inn k => if k.toNat ≤ l.nlev then some (x / l.prod k.toNat % l.extent k.toNat) else none
  | .ext k => if k.toNat ≤ l.nlev then some (l.extent k.toNat) else none
  | .inst k => if k.toNat ≤ l.nlev then some (x / l.prod (k.toNat + 1)) else none
  | .flat => some x

/-- IDX. In a thread whose LAUNCHID, altered in its header, names no launch that this device has recorded, all but .flat are illegal:
log entry 113. -/
def execIdx (d : BitVec 6) (f : IdxSel) (s : State) : Out :=
  s.checked {} false { g := [d] }
    (match (s.launch? s.thr.launch).bind (fun l => idxValue l s.thr.index.toNat f) with
     | some x => .next (s.result d (BitVec.ofNat 64 x))
     | none =>
       if f = .flat then .next (s.result d (s.thr.index.setWidth 64))
       else .next (s.takeTrap (s.thr.illegal 5)))

/-- Whether a migration destination can be named (spec R31, R227): bits 10:0 are zero, and it is there. -/
def State.destOk (s : State) (t : Thread) (p : Pos) : Option Bool :=
  if p.extractLsb' 0 11 = (0 : BitVec 11) then s.destThere t.space p else some false

/-- MIGR: to the current tile or tower it only performs earlier accesses (spec R30). -/
def execMigr (a : BitVec 6) (tower : Bool) (s : State) : Out :=
  s.checked {} false { g := [a] }
    (let p : Pos := (s.thr.g a).setWidth 32
     match s.destOk s.thr p with
     | none => .next s
     | some false => .next (s.takeTrap { cls := .addr, cause := 5 })
     | some true =>
       if sameInstance (if tower then .tower else .tile) p s.thr.cur then .next (s.drain.upd Thread.advance)
       else .next (s.depart p tower (s.thr.pc + 4)))

end Sys2Proof.Machine
end

