-- ==== Sys2Proof/Machine/Scalar.lean ====
section
/-! DEFINITION. Integer instructions (spec R182 to R186). -/

namespace Sys2Proof.Machine

/-- Format X over two sources: read, compute, write gd, go on. -/
def State.int2 (s : State) (d a b : BitVec 6) (f : Word → Word → Word) : Out :=
  s.checked {} false { g := [d, a, b] } (.next (s.result d (f (s.thr.g a) (s.thr.g b))))

/-- Format X over one source. -/
def State.int1 (s : State) (d a : BitVec 6) (f : Word → Word) : Out :=
  s.checked {} false { g := [d, a] } (.next (s.result d (f (s.thr.g a))))

/-- Format I over a source and the immediate operand, which PFXI may extend. -/
def State.intImm (s : State) (d a : BitVec 6) (i : BitVec 12) (f : Word → Word → Word) : Out :=
  s.checked { imm := true } false { g := [d, a] } (.next (s.result d (f (s.thr.g a) (s.thr.imm i))))

/-- Format I shifts: no PFXI. -/
def State.intShift (s : State) (d a n : BitVec 6) (f : Word → Nat → Word) : Out :=
  s.checked {} false { g := [d, a] } (.next (s.result d (f (s.thr.g a) n.toNat)))

/-- Bits 5:0 of a shift operand. -/
def amount (b : Word) : Nat := b.toNat % 64

/-- A truth value as a register value. -/
def flag (b : Bool) : Word := if b then 1 else 0

/-- Bits 127:64 of the signed product. -/
def mulHigh (a b : Word) : Word := BitVec.ofInt 64 (a.toInt * b.toInt / 2 ^ 64)
/-- Bits 127:64 of the unsigned product. -/
def mulHighZ (a b : Word) : Word := BitVec.ofNat 64 (a.toNat * b.toNat / 2 ^ 64)
/-- The quotient of DIV (spec R184). -/
def quot (a b : Word) : Word :=
  if b = 0 then -1 else BitVec.ofInt 64 (Int.tdiv a.toInt b.toInt)
/-- The remainder of REM (spec R184). -/
def remainder (a b : Word) : Word :=
  if b = 0 then a else BitVec.ofInt 64 (Int.tmod a.toInt b.toInt)
/-- The quotient of DIVZ (spec R184). -/
def quotZ (a b : Word) : Word := if b = 0 then -1 else BitVec.ofNat 64 (a.toNat / b.toNat)
/-- The remainder of REMZ (spec R184). -/
def remainderZ (a b : Word) : Word := if b = 0 then a else BitVec.ofNat 64 (a.toNat % b.toNat)
/-- Leading zeros; 64 for 0. -/
def leadingZeros (a : Word) : Word := if a = 0 then 64 else BitVec.ofNat 64 (63 - a.toNat.log2)
/-- Trailing zeros; 64 for 0. -/
def trailingZeros (a : Word) : Word := BitVec.ofNat 64 (((upto 0 64).find? (bit a.toNat)).getD 64)
/-- One bits. -/
def ones (a : Word) : Word := BitVec.ofNat 64 ((upto 0 64).filter (bit a.toNat)).length
/-- The field that R185 takes: (A >> p) mod 2^l. -/
def bitField (a b : Word) : Nat := a.toNat / 2 ^ (b.toNat % 64) % 2 ^ bits b.toNat 13 8
/-- BFX (spec R185). -/
def extract (a b : Word) : Word :=
  let l := bits b.toNat 13 8
  if l = 0 then 0 else BitVec.ofInt 64 (signed l (bitField a b))
/-- BFI (spec R185). -/
def insertField (d a b : Word) : Word :=
  let p := b.toNat % 64
  let m : Word := BitVec.ofNat 64 ((2 ^ bits b.toNat 13 8 - 1) * 2 ^ p)
  (d &&& ~~~ m) ||| ((a <<< p) &&& m)

/-! ### Register operands (spec R183 to R185) -/

/-- ADD: A + B. -/
def execAdd (d a b : BitVec 6) (s : State) : Out := s.int2 d a b (fun a b => a + b)
/-- SUB: A - B. -/
def execSub (d a b : BitVec 6) (s : State) : Out := s.int2 d a b (fun a b => a - b)
/-- MUL: the low 64 bits of A × B. -/
def execMul (d a b : BitVec 6) (s : State) : Out := s.int2 d a b (fun a b => a * b)
/-- MULH. -/
def execMulh (d a b : BitVec 6) (s : State) : Out := s.int2 d a b mulHigh
/-- MULHZ. -/
def execMulhz (d a b : BitVec 6) (s : State) : Out := s.int2 d a b mulHighZ
/-- DIV (spec R184). -/
def execDiv (d a b : BitVec 6) (s : State) : Out := s.int2 d a b quot
/-- DIVZ (spec R184). -/
def execDivz (d a b : BitVec 6) (s : State) : Out := s.int2 d a b quotZ
/-- REM (spec R184). -/
def execRem (d a b : BitVec 6) (s : State) : Out := s.int2 d a b remainder
/-- REMZ (spec R184). -/
def execRemz (d a b : BitVec 6) (s : State) : Out := s.int2 d a b remainderZ
/-- AND. -/
def execAnd (d a b : BitVec 6) (s : State) : Out := s.int2 d a b (fun a b => a &&& b)
/-- OR. -/
def execOr (d a b : BitVec 6) (s : State) : Out := s.int2 d a b (fun a b => a ||| b)
/-- XOR. -/
def execXor (d a b : BitVec 6) (s : State) : Out := s.int2 d a b (fun a b => a ^^^ b)
/-- ANDN: A AND NOT B. -/
def execAndn (d a b : BitVec 6) (s : State) : Out := s.int2 d a b (fun a b => a &&& ~~~ b)
/-- SHL by B[5:0]. -/
def execShl (d a b : BitVec 6) (s : State) : Out := s.int2 d a b (fun a b => a <<< amount b)
/-- SHR by B[5:0]. -/
def execShr (d a b : BitVec 6) (s : State) : Out := s.int2 d a b (fun a b => a >>> amount b)
/-- SAR by B[5:0]. -/
def execSar (d a b : BitVec 6) (s : State) : Out := s.int2 d a b (fun a b => a.sshiftRight (amount b))
/-- ROL by B[5:0]. -/
def execRol (d a b : BitVec 6) (s : State) : Out := s.int2 d a b (fun a b => a.rotateLeft (amount b))
/-- MIN: the smaller of sA and sB. -/
def execMin (d a b : BitVec 6) (s : State) : Out := s.int2 d a b (fun a b => if a.slt b then a else b)
/-- MAX: the larger of sA and sB. -/
def execMax (d a b : BitVec 6) (s : State) : Out := s.int2 d a b (fun a b => if a.slt b then b else a)
/-- MINZ: the smaller, unsigned. -/
def execMinz (d a b : BitVec 6) (s : State) : Out := s.int2 d a b (fun a b => if a.ult b then a else b)
/-- MAXZ: the larger, unsigned. -/
def execMaxz (d a b : BitVec 6) (s : State) : Out := s.int2 d a b (fun a b => if a.ult b then b else a)
/-- SLT. -/
def execSlt (d a b : BitVec 6) (s : State) : Out := s.int2 d a b (fun a b => flag (a.slt b))
/-- SLTZ. -/
def execSltz (d a b : BitVec 6) (s : State) : Out := s.int2 d a b (fun a b => flag (a.ult b))
/-- SEQ. -/
def execSeq (d a b : BitVec 6) (s : State) : Out := s.int2 d a b (fun a b => flag (a == b))
/-- BFX (spec R185). -/
def execBfx (d a b : BitVec 6) (s : State) : Out := s.int2 d a b extract
/-- BFXZ (spec R185). -/
def execBfxz (d a b : BitVec 6) (s : State) : Out := s.int2 d a b (fun a b => BitVec.ofNat 64 (bitField a b))
/-- CLZ. -/
def execClz (d a : BitVec 6) (s : State) : Out := s.int1 d a leadingZeros
/-- CTZ. -/
def execCtz (d a : BitVec 6) (s : State) : Out := s.int1 d a trailingZeros
/-- POPC. -/
def execPopc (d a : BitVec 6) (s : State) : Out := s.int1 d a ones
/-- BFI (spec R185); it reads gd as well. -/
def execBfi (d a b : BitVec 6) (s : State) : Out := s.int2 d a b (insertField (s.thr.g d))
/-- SEL: A if gd is not 0, else B. -/
def execSel (d a b : BitVec 6) (s : State) : Out := s.int2 d a b (fun a b => if s.thr.g d ≠ 0 then a else b)

/-! ### Immediate operand (spec R186) -/

/-- ADDI. -/
def execAddi (d a : BitVec 6) (i : BitVec 12) (s : State) : Out := s.intImm d a i (fun a b => a + b)
/-- ANDI. -/
def execAndi (d a : BitVec 6) (i : BitVec 12) (s : State) : Out := s.intImm d a i (fun a b => a &&& b)
/-- ORI. -/
def execOri (d a : BitVec 6) (i : BitVec 12) (s : State) : Out := s.intImm d a i (fun a b => a ||| b)
/-- XORI. -/
def execXori (d a : BitVec 6) (i : BitVec 12) (s : State) : Out := s.intImm d a i (fun a b => a ^^^ b)
/-- SLTI. -/
def execSlti (d a : BitVec 6) (i : BitVec 12) (s : State) : Out := s.intImm d a i (fun a b => flag (a.slt b))
/-- SLTZI: unsigned against the sign-extended immediate. -/
def execSltzi (d a : BitVec 6) (i : BitVec 12) (s : State) : Out := s.intImm d a i (fun a b => flag (a.ult b))
/-- SHLI. -/
def execShli (d a n : BitVec 6) (s : State) : Out := s.intShift d a n (fun a n => a <<< n)
/-- SHRI. -/
def execShri (d a n : BitVec 6) (s : State) : Out := s.intShift d a n (fun a n => a >>> n)
/-- SARI. -/
def execSari (d a n : BitVec 6) (s : State) : Out := s.intShift d a n (fun a n => a.sshiftRight n)

end Sys2Proof.Machine
end

