-- ==== Sys2Proof/Machine/System.lean ====
section
/-! DEFINITION. System registers and system instructions (spec R288 to R312). -/

namespace Sys2Proof.Machine

/-! ### Partitions and privilege (spec R289, R290) -/

/-- The partition of a supervisor thread. -/
def Thread.part (t : Thread) : Nat := partOf t.space

/-- Whether a thread of a partition may name a space. -/
def spaceOk (part : Nat) (id : BitVec 16) : Bool :=
  bits id.toNat 15 12 == 0 && bits id.toNat 8 0 != 0 && partOf id == part

/-- A space, tower or queue outside the partition. -/
def outsideTrap : Trap := { cls := .priv, cause := 3 }

/-- The space in an operand. -/
def spaceOf (x : Word) : BitVec 16 := x.extractLsb' 0 16

/-- A privileged instruction: after the checks of R168 every earlier access is performed (spec R302). -/
def State.system (s : State) (n : Names) (f : State → Out) : Out := s.checked {} true n (f s.drain)

/-- A privileged instruction that names a space. Every partition check passes for the firmware (spec R288). -/
def State.onSpace (s : State) (n : Names) (id : BitVec 16) (f : State → Out) : Out :=
  s.system n (fun s => if s.thr.firm || spaceOk s.thr.part id then f s else .next (s.takeTrap outsideTrap))

/-- Whether the focus thread may name a tower. -/
def State.mayName (s : State) (tower : Nat) : Bool := s.thr.firm || s.towerIn s.thr.part tower

/-! ### System registers (spec R291 to R296, R301) -/

/-- The system registers that a thread can name, and what marks them. -/
inductive SysReg | fpst | vtype | cycle | nsec | partn | sdtb | wdlim (q : Nat) | partmap | other
  deriving DecidableEq, Repr

/-- The register of a number. -/
def sysReg (n : BitVec 12) : SysReg :=
  match n.toNat with
  | 0x000 => .fpst | 0x001 => .vtype | 0x002 => .cycle | 0x003 => .nsec | 0x100 => .partn | 0x101 => .sdtb
  | 0x200 => .partmap
  | x => if 0x140 ≤ x ∧ x < 0x180 then .wdlim (x - 0x140) else .other

/-- Reset value of WDLIMq: FENCE 10,000, KILL 1,000, PREEMPT 100. -/
def wdReset : Word := BitVec.ofNat 64 (10000 * 2 ^ 40 + 1000 * 2 ^ 20 + 100)

/-- WDLIMq. -/
def State.wdlimOf (s : State) (q : Nat) : Word := Tab.get s.wdlim q wdReset

/-- TMASK of a partition. -/
def State.towerMask (s : State) (part : Nat) : Nat :=
  ((upto 0 8).map (fun t => b2n (s.towerIn part t) * 2 ^ t)).sum

/-- PARTN of a partition (spec R293). -/
def State.partn (s : State) (part : Nat) : Word :=
  BitVec.ofNat 64 (s.towerMask part * 2 ^ 32 + b2n (bit s.mport.toNat part) * 2 ^ 16 + part)

/-- The value that MFSR reads. -/
def State.sysRead (s : State) (r : SysReg) : Word :=
  match r with
  | .fpst => s.thr.fpst
  | .vtype => s.thr.vtype
  | .cycle => BitVec.ofNat 64 (s.core (posCore s.thr.cur)).cycle
  | .nsec => s.nsec
  | .partn => s.partn s.thr.part
  | .sdtb => Tab.get s.sdtb s.thr.part 0
  | .wdlim q => s.wdlimOf q
  | .partmap => s.partmap.setWidth 64
  | .other => 0

/-- The privilege that a register needs (spec R290). An unassigned number is illegal for the firmware: log entry 99. -/
def Thread.sysCheck (t : Thread) (n : BitVec 12) : Res Unit :=
  let bad : Trap := { cls := .priv, cause := 2, detail := n.toNat }
  match sysReg n with
  | .other => .trap (if t.firm then t.illegal 5 else bad)
  | .partmap => Res.need t.firm bad
  | .partn | .sdtb | .wdlim _ => Res.need t.sup bad
  | _ => .ok ()

/-- The partition of WDLIMq (spec R292). -/
def Thread.queueCheck (t : Thread) (n : BitVec 12) : Res Unit :=
  match sysReg n with
  | .wdlim q => Res.need (t.firm || q / 8 == t.part) outsideTrap
  | _ => .ok ()

/-- The checks of R168 for a word that names a system register: privilege, then registers, then the queue. -/
def State.sysChecked (s : State) (n : BitVec 12) (r : Names) (f : Out) : Out :=
  if s.thr.group.fits {} = false then .next (s.takeTrap (s.thr.illegal 2))
  else s.after (s.thr.sysCheck n) (fun _ => s.checked {} false r (s.after (s.thr.queueCheck n) (fun _ => f)))

/-- MFSR. -/
def execMfsr (d : BitVec 6) (n : BitVec 12) (s : State) : Out :=
  s.sysChecked n { g := [d] } (.next (s.result d (s.sysRead (sysReg n))))

/-- MTSR: a read-only register traps; reserved bits are ignored. -/
def execMtsr (a : BitVec 6) (n : BitVec 12) (s : State) : Out :=
  s.sysChecked n { g := [a] }
    (let x := s.thr.g a
     match sysReg n with
     | .fpst => .next (s.put { s.thr with fpst := x &&& 0x3F }.advance)
     | .partmap => .next ({ s with partmap := x.setWidth 32 }.upd Thread.advance)
     | .wdlim q => .next ({ s with wdlim := Tab.put s.wdlim q (x &&& 0x0FFFFFFFFFFFFFFF) }.upd Thread.advance)
     | _ => .next (s.takeTrap (s.thr.illegal 5)))

/-! ### XINV (spec R303, R321, R323, R326) -/

/-- The 128 KiB units of distinct pinned pages of a space: first unit and count. -/
def State.pinnedUnits (s : State) (space : BitVec 16) : List (Nat × Nat) :=
  let us := ((s.pins.filter (fun p => p.space == space)).map (fun p =>
    (p.va.toNat / pageSize p.level * pageSize p.level / 2 ^ 17, pageSize p.level / 2 ^ 17))).eraseDups
  us.filter (fun u => !us.any (fun v => v != u && decide (v.1 ≤ u.1) && decide (u.1 + u.2 ≤ v.1 + v.2)))

/-- How many units of a range lie in pinned pages. -/
def pinnedIn (us : List (Nat × Nat)) (lo n : Nat) : Nat :=
  (us.map (fun u => min (u.1 + u.2) (lo + n) - max u.1 lo)).sum

/-- Accesses that threads have outstanding are performed. -/
def State.drainAll (s : State) : List Key → State
  | [] => s
  | k :: r =>
    match s.find k with
    | some t => (s.drainThread t).drainAll r
    | none => s.drainAll r

/-- The names of threads that a test selects. -/
def State.keysOf (s : State) (p : Thread → Bool) : List Key := (s.all.filter p).map Thread.key

/-- A load that waits on guarded lines will be issued again. -/
def Thread.again (t : Thread) : Thread :=
  match t.waitLoad with
  | some w => { t with waitLoad := some { w with again := true } }
  | none => t

/-- Drop the entries of the banks and the L1 lines, decided cells among them, of a space that cover a unit from `lo` to `lo + n - 1`: of a large page,
those that stand for any unit of it. The translations of pinned pages are kept, past their pins (spec R303). -/
def State.dropTranslations (s : State) (space : BitVec 16) (lo n : Nat) : State :=
  let inside (u : Nat) : Bool := decide (lo ≤ u) && decide (u < lo + n)
  let meets (level page : Nat) : Bool :=
    let k := pageSize level / 2 ^ 17
    decide (lo < (page + 1) * k) && decide (page * k < lo + n)
  let hit (p : Pin) : Bool := p.space == space && meets p.level (p.va.toNat / pageSize p.level)
  { s with
    kept := (s.pins.filter hit ++ s.kept.filter (fun p => !hit p)).eraseDups
    banks := s.banks.filter (fun b => !(b.space == space && meets b.level (b.unit * 2 ^ 17 / pageSize b.level)))
    uppers := s.uppers.filter (fun u => !(u.space == space && meets u.level u.page))
    cores := s.cores.map (fun c => (c.1, { c.2 with
      l1 := c.2.l1.filter (fun l => !(l.space == space && inside (l.va.toNat / 2 ^ 17)))
      cells := c.2.cells.filter (fun x => !(x.space == space && inside (x.va.toNat / 2 ^ 17))) })) }

/-- The threads, of those that a test selects, that have an access outstanding or a store that some copy of its page does
not hold yet. -/
def State.accKeys (s : State) (p : Thread → Bool) : List Key :=
  s.keysOf (fun t => p t && (!t.accs.isEmpty || s.forwards.any (fun f => f.thread == t.key)))

/-- Whether the outstanding accesses of some thread wait for a line that another agent holds, and what is asked for. -/
def State.accsWait (s : State) (ks : List Key) : Option State :=
  ks.findSome? (fun k =>
    match s.find k with
    | some t => (match s.accsReady t with | .later s' => some s' | _ => none)
    | none => none)

/-- Go on when the outstanding accesses of some threads are performed. -/
def State.whenDrained (s : State) (ks : List Key) (f : State → Out) : Out :=
  match s.accsWait ks with
  | some s' => .next s'
  | none => f (s.drainAll ks)

/-- Whether an operation of a thread of a space is under way at a peer (spec R303, R321). -/
def State.atPeers (s : State) (space : BitVec 16) : Bool :=
  s.txns.any (fun x => (x.opc == .amo || x.opc == .arrv || x.opc == .cell || x.opc == .rdc) &&
    x.thread.any (fun k => match s.find k with
      | some t => t.space == space && t.state != .parked && (x.answer.isNone || t.held)
      | none => false))

/-- Whether a copy command is outstanding whose arrival word was resolved and lies where a test says, by the space and
the address. -/
def State.copyArrives (s : State) (p : BitVec 16 → Nat → Nat → Bool) : Bool :=
  s.tiles.any (fun t => t.2.queues.any (fun q => q.2.cmds.any (fun c =>
    match c.work with
    | .copy _ b _ _ (some key) _ _ _ => p c.by_.space (cbAwa b) key
    | _ => false)))

/-- Whether XINV over a range waits for an access that resolved before the discard and is neither at hand here nor performed
(spec R303 step 3, R321). -/
def State.resolvedIn (s : State) (space : BitVec 16) (lo n : Nat) : Bool :=
  s.atPeers space || s.copyArrives (fun sp va _ => sp == space && decide (lo ≤ va / 2 ^ 17) && decide (va / 2 ^ 17 < lo + n))

/-- XINV over units `lo` to `lo + n - 1`: accesses that resolved with what is dropped are performed. -/
def State.xinv (s : State) (space : BitVec 16) (lo n : Nat) : State :=
  let s := s.drainAll (s.accKeys (fun t => t.space == space))
  (s.dropTranslations space lo n).mapThreads (fun t => if t.space = space then t.again else t)

/-- Whether a device move of a page of the range is in progress; XINV waits for its end. -/
def State.movingIn (s : State) (space : BitVec 16) (lo n : Nat) : Bool :=
  s.moves.any (fun m => m.space == space && decide (lo ≤ m.va.toNat / 2 ^ 17) && decide (m.va.toNat / 2 ^ 17 < lo + n))

/-- The effect of XINV after its checks. -/
def State.invalidate (s : State) (d : BitVec 6) (space : BitVec 16) (lo n : Nat) : Out :=
  if s.movingIn space lo n || s.resolvedIn space lo n then .next s
  else
    s.whenDrained (s.accKeys (fun t => t.space == space)) (fun s =>
      let s := s.xinv space lo n
      .next (s.result d (BitVec.ofNat 64 (pinnedIn (s.pinnedUnits space) lo n))))

/-- XINV of a range. -/
def execXinv (d a b : BitVec 6) (s : State) : Out :=
  let space := spaceOf (s.thr.g d)
  s.onSpace { g := [d, a, b] } space (fun s =>
    let va := (s.thr.g a).toNat
    let n := (s.thr.g b).toNat
    if 2 ^ 57 ≤ va then .next (s.takeTrap (addrTrap 1 va))
    else if va % 2 ^ 17 ≠ 0 ∨ n = 0 then .next (s.takeTrap (addrTrap 2 va))
    else s.invalidate d space (va / 2 ^ 17) n)

/-- XINV.all. -/
def execXinvAll (d : BitVec 6) (s : State) : Out :=
  let space := spaceOf (s.thr.g d)
  s.onSpace { g := [d] } space (fun s => s.invalidate d space 0 (2 ^ 40))

/-! ### CTL.launch -/

/-- CTL.launch. -/
def execCtlLaunch (d a b : BitVec 6) (s : State) : Out :=
  let space := if spaceOf (s.thr.g b) = 0 then s.thr.space else spaceOf (s.thr.g b)
  s.onSpace { g := [d, a, b] } space (fun s =>
    let va := s.thr.g a
    let w := s.who s.thr .none
    s.found (s.access w .load va 256 256) (fun ls =>
      s.whenReady false ls (fun s =>
        let s := s.noteImages w.scsz ls
        if s.emptyLines ls ≠ [] then .next (s.waitFull ls [] true)
        else
          let s := s.dropL1 ls
          let r := s.valueAt ls
          let part := if s.thr.firm then bits r 341 336 / 8 else s.thr.part
          match s.submit (BitVec.ofNat 2048 r) space part { w with space := space } s.thr.sup with
          | .later s' => .next s'
          | .code s x => .next (s.result d x))))

/-! ### CTL.spload and CTL.spdrop (spec R297 to R300) -/

/-- Row 1 of R299. -/
def descFormOk (x : SpaceSt) : Bool :=
  x.field 2047 1024 == 0 && x.field 511 249 == 0 && x.field 248 248 == 1 && x.field 247 243 == 0 &&
    x.field 239 237 == 0 && x.field 231 229 == 0 &&
    (upto 0 8).all (fun t => x.field (512 + 32 * t + 15) (512 + 32 * t + 9) == 0 && x.field (512 + 32 * t + 31) (512 + 32 * t + 25) == 0) &&
    (upto 0 16).all (fun i => x.field (768 + 16 * i + 15) (768 + 16 * i + 12) == 0) &&
    x.field 63 0 % 2 ^ 18 == 0 && x.field 127 64 % (64 * 2 ^ x.field 228 224) == 0 && x.field 191 128 % 16 == 0

/-- Row 3 of R299. -/
def descDevicesOk (dev : BitVec 12) (x : SpaceSt) : Bool :=
  let n := x.field 236 232
  decide (1 ≤ n) && decide (n ≤ 16) && decide x.devtab.Nodup && !x.devtab.contains 0xFFF && x.devtab.contains dev &&
    (upto n (16 - n)).all (fun i => x.field (768 + 16 * i + 15) (768 + 16 * i) == 0)

/-- Row 5 of R299: the shares of R298. -/
def State.descSharesOk (s : State) (x : SpaceSt) : Bool :=
  let part := partOf x.id
  (upto 0 8).all (fun t =>
    if s.towerIn part t then
      let others := s.spaces.filter (fun y => y.id != x.id && partOf y.id == part)
      decide ((others.map (fun y => y.hc t + y.hs t)).sum + x.hc t + x.hs t ≤ 352)
    else x.hc t + x.hs t == 0)

/-- Row 6 of R299: what an update may change (spec R300). -/
def updateOk (old x : SpaceSt) : Bool :=
  (upto 0 8).all (fun t => decide (old.hs t ≤ x.hs t)) && decide (old.devtab <+: x.devtab) &&
    ((old.field 191 64 == x.field 191 64 && old.field 228 224 == x.field 228 224) ||
      (old.tqCount == 0 && old.tqPend.isEmpty))

/-- The code of CTL.spload for a descriptor. -/
def State.descCode (s : State) (x : SpaceSt) : Nat :=
  if descFormOk x = false then 1
  else if x.field 242 240 ≠ partOf x.id then 2
  else if descDevicesOk s.dev x = false then 3
  else if x.field 228 224 < 4 ∨ 16 < x.field 228 224 then 4
  else if s.descSharesOk x = false then 5
  else
    match s.space? x.id with
    | some old => if updateOk old x then 0 else 6
    | none => 0

/-- The lines of a space beyond its share of a hearth are given up there, those used longest ago first (spec R298, R300). -/
def State.fitHearth (s : State) (x : SpaceSt) (tower : Nat) : State :=
  ((s.hearths.filter (fun h => h.tower == tower && h.space == x.id)).drop (x.hc tower * 8192)).foldl
    (fun a h => a.evictHearth tower h.unit) s

/-- A descriptor whose code is 0 is loaded, or updates the loaded one. -/
def State.loadSpace (s : State) (x : SpaceSt) : State :=
  match s.space? x.id with
  | none => { s with spaces := s.spaces ++ [x] }
  | some old =>
    let moved := old.field 191 64 != x.field 191 64 || old.field 228 224 != x.field 228 224
    let s := if old.field 63 0 ≠ x.field 63 0 then s.xinv x.id 0 (2 ^ 40) else s
    let s := if s.hearths.isEmpty then s else (upto 0 8).foldl (fun a t => a.fitHearth x t) s
    s.setSpace { old with
      desc := x.desc
      tqHead := if moved then 0 else old.tqHead }

/-- The place of the descriptor of a space in its partition's table (spec R294). -/
def State.descPlace (s : State) (id : BitVec 16) : Loc :=
  { va := 0, n := 256, key := (Tab.get s.sdtb (partOf id) 0).toNat + 256 * bits id.toNat 8 0 }

/-- The descriptor of a space in its partition's table. -/
def State.descriptor (s : State) (id : BitVec 16) : SpaceSt :=
  { id := id, desc := BitVec.ofNat 2048 (s.mem.readNum (s.descPlace id).key 256) }

/-- CTL.spload. The table is read at its home (spec R294); an update of the table root waits for moves and for accesses under
way, as XINV does. -/
def execCtlSpload (d a _b : BitVec 6) (s : State) : Out :=
  let id := spaceOf (s.thr.g a)
  s.onSpace { g := [d, a, _b] } id (fun s =>
    s.whenReady false [s.descPlace id] (home := true) (fun s =>
      let x := s.descriptor id
      match s.descCode x with
      | 0 =>
        if s.movingIn id 0 (2 ^ 40) || s.resolvedIn id 0 (2 ^ 40) then .next s
        else s.whenDrained (s.accKeys (fun t => t.space == id)) (fun s => .next ((s.loadSpace x).result d 0))
      | c + 1 => .next (s.result d (BitVec.ofNat 64 (c + 1)))))

/-- Whether a space still has a thread that is not DONE, or an engine command. -/
def State.spaceBusy (s : State) (id : BitVec 16) : Bool :=
  s.all.any (fun t => t.space == id && t.state != .done) || s.launches.any (fun l => l.space == id) ||
    s.tiles.any (fun t => t.2.queues.any (fun q => q.2.cmds.any (fun c => c.by_.space == id)))

/-- A tile without the weight planes of a space. -/
def TileSt.forget (t : TileSt) (id : BitVec 16) : TileSt :=
  if t.space = some id then
    { t with
      active := {}
      shadow := {}
      pendActive := none
      pendShadow := none
      space := none }
  else t

/-- Whether a place is scratch of a space. -/
def scratchOf (id : BitVec 16) (k : Nat) : Bool :=
  (isCoreKey k && decide ((k - 2 ^ 60) / 2 ^ 40 = id.toNat)) || (isHearthKey k && decide ((k - 2 ^ 61) / 2 ^ 44 = id.toNat))

/-- A thread whose outstanding stores to the scratch of a dropped space reach nothing any more: their image is gone. -/
def Thread.noScratch (id : BitVec 16) (t : Thread) : Thread :=
  { t with accs := t.accs.filter (fun a =>
      match a with
      | .store _ ps => !ps.any (fun p => scratchOf id p.key)
      | _ => true) }

/-- A space is dropped: its hearth caches give up their lines, and its scratch is gone, with what was to be stored there. The tiles that
served it are given to no space, and their planes are zero (spec R121): log entry 100. -/
def State.dropSpace (s : State) (id : BitVec 16) : State :=
  let s := s.dropTranslations id 0 (2 ^ 40)
  let s := (s.hearths.filter (fun h => h.space == id)).foldl (fun a h => a.evictHearth h.tower h.unit) s
  { s.mapThreads (Thread.noScratch id) with
    spaces := s.spaces.filter (fun x => x.id != id)
    bad := s.bad.filter (fun g => !scratchOf id (16 * g))
    pins := s.pins.filter (fun p => p.space != id)
    kept := s.kept.filter (fun p => p.space != id)
    posted := s.posted.filter (fun p => p.space != id)
    tiles := s.tiles.map (fun t => (t.1, t.2.forget id))
    mem := (s.mem.clear (2 ^ 60 + id.toNat * 2 ^ 40) (2 ^ 40)).clear (2 ^ 61 + id.toNat * 2 ^ 44) (2 ^ 44) }

/-- CTL.spdrop. -/
def execCtlSpdrop (d a _b : BitVec 6) (s : State) : Out :=
  let id := spaceOf (s.thr.g a)
  s.onSpace { g := [d, a, _b] } id (fun s =>
    if (s.space? id).isNone then .next (s.result d 2)
    else if s.spaceBusy id then .next (s.result d 1)
    else .next ((s.dropSpace id).result d 0))

/-! ### CTL.killt and CTL.killl -/

/-- The first trap of an address operand that must be aligned (spec R304). -/
def alignCheck (va align : Nat) : Res Unit :=
  if 2 ^ 57 ≤ va then .trap (addrTrap 1 va) else if va % align ≠ 0 then .trap (addrTrap 2 va) else .ok ()

/-- The flat index of a launch that has a context address. -/
def Launch.indexAt (l : Launch) (ctx : Nat) : Option Nat :=
  let n := 256 + l.regBytes
  let base := l.field 191 128
  if base ≤ ctx ∧ (ctx - base) % n = 0 ∧ (ctx - base) / n < l.size then some ((ctx - base) / n) else none

/-- The oldest accepted launch of a space, of those that have not completed, that has a context address, with the flat index. A
launch counts here by its record, wherever its thread stands: log entry 116. -/
def State.matchContext (s : State) (id : BitVec 16) (ctx : Nat) : Option (Launch × Nat) :=
  (s.launches.filter (fun l => l.space == id)).findSome? (fun l => (l.indexAt ctx).map (fun x => (l, x)))

/-- The header of a context can be read. -/
def State.headerCheck (s : State) (id : BitVec 16) (ctx : Nat) : Res Unit :=
  (s.leaf s.thr.key id (posTower s.thr.cur) ctx).bind (fun _ => .ok ())

/-- gd is written unless the issuer itself is DONE. -/
def State.resultIfAlive (s : State) (d : BitVec 6) (x : Word) : State :=
  if s.thr.state = .done then s else s.result d x

/-- The devices where a thread of a launch may be that this device neither holds nor gave away. -/
def State.mayHold (s : State) (l : Launch) (x : Nat) : List (BitVec 12) :=
  match l.deviceOf x with
  | some d => if d = s.dev then s.told l else [d]
  | none => s.told l

/-- A kill of a thread that another device may hold goes there (spec R23, R304). -/
def State.killElsewhere (s : State) (l : Launch) (x : Nat) : State :=
  { s with outLaunch := s.outLaunch ++ (s.mayHold l x).map (fun d => LaunchMsg.killThread d ⟨l.id, BitVec.ofNat 32 x⟩) }

/-- CTL.killt. -/
def execCtlKillt (d a b : BitVec 6) (s : State) : Out :=
  let id := spaceOf (s.thr.g a)
  s.onSpace { g := [d, a, b] } id (fun s =>
    let ctx := (s.thr.g b).toNat
    s.after (alignCheck ctx 256) (fun _ =>
      match s.matchContext id ctx with
      | none => .next (s.result d 1)
      | some (l, x) =>
        match s.find ⟨l.id, BitVec.ofNat 32 x⟩ with
        | some t =>
          if t.state = .done then .next (s.result d 1)
          else s.resolved (s.headerCheck id ctx) (fun _ => .next ((s.killThread t).resultIfAlive d 0))
        | none =>
          let k : Key := ⟨l.id, BitVec.ofNat 32 x⟩
          if l.done.contains x then .next (s.result d 1)
          else if l.createdAt s.dev x then .next ((s.killCreated l x).result d 0)
          else s.resolved (s.headerCheck id ctx) (fun _ =>
            .next ((if s.away.any (fun a => a.thread == k) then s.killAway k else s.killElsewhere l x).result d 0))))

/-- Whether some thread of a launch is not DONE, as far as this device knows. -/
def State.killable (s : State) (space : BitVec 16) (id : BitVec 32) : Bool :=
  match s.launch? id with
  | some l => l.space == space && (if l.spans then !(l.everyDone || l.allReported s.dev) else !l.allDone s.dev)
  | none => false

/-- CTL.killl. -/
def execCtlKilll (d a b : BitVec 6) (s : State) : Out :=
  let space := spaceOf (s.thr.g a)
  s.onSpace { g := [d, a, b] } space (fun s =>
    let id := (s.thr.g b).extractLsb' 0 32
    if s.killable space id then .next ((s.killLaunch id).resultIfAlive d 0) else .next (s.result d 1))

/-! ### CTL.park and CTL.unpark (spec R126) -/

/-- Park or unpark shelves of a tower. -/
def State.park (s : State) (tower : Nat) (mask : BitVec 4) (on : Bool) : State :=
  let x := s.tower tower
  s.setTower tower { x with parked := if on then x.parked ||| mask else x.parked &&& ~~~mask }

/-- The effect of the two operations. -/
def State.ctlPark (s : State) (d a b : BitVec 6) (on : Bool) : Out :=
  s.system { g := [d, a, b] } (fun s =>
    let x := (s.thr.g a).toNat
    let y := (s.thr.g b).toNat
    if 8 ≤ x ∨ 16 ≤ y then .next (s.result d 0xFF)
    else if s.mayName x = false then .next (s.takeTrap outsideTrap)
    else
      let s := s.park x (BitVec.ofNat 4 y) on
      .next (s.result d ((s.shelfUp x).setWidth 64)))

/-- CTL.park. -/
def execCtlPark (d a b : BitVec 6) (s : State) : Out := s.ctlPark d a b true
/-- CTL.unpark. -/
def execCtlUnpark (d a b : BitVec 6) (s : State) : Out := s.ctlPark d a b false

/-! ### TRQ and TRET (spec R305 to R307) -/

/-- The oldest record of a queue is taken. -/
def State.takeRecord (s : State) (x : SpaceSt) : State :=
  (s.setSpace { x with
    tqHead := (x.tqHead + 1) % x.tqSize
    tqCount := x.tqCount - 1 }).flushRecords x.id x.tqPend.length

/-- TRQ (spec R306): an acquire at DEVICE when it returns a record. -/
def execTrq (d a : BitVec 6) (s : State) : Out :=
  let id := spaceOf (s.thr.g a)
  s.onSpace { g := [a], v := [d] } id (fun s =>
    match s.space? id with
    | some x =>
      if x.tqCount = 0 then .next (s.put (s.thr.writeRegs (s.thr.vOff d) (leBytes 256 0)).advance)
      else
        let l : Loc := { va := 0, n := 64, key := x.field 127 64 + 64 * x.tqHead }
        s.whenReady false [l] (home := true) (fun s =>
          let r := s.mem.readNum l.key 64
          let s := s.put (s.thr.writeRegs (s.thr.vOff d) (leBytes 256 (r + 2 ^ 512))).advance
          .next ((s.acquire .device).takeRecord x))
    | none => .next (s.put (s.thr.writeRegs (s.thr.vOff d) (leBytes 256 0)).advance))

/-- The thread that a context address names here: a TRAPPED one first. -/
def State.contextAt (s : State) (id : BitVec 16) (ctx : Nat) : Option Thread :=
  let ts := s.all.filter (fun t => t.space == id && t.ctx.toNat == ctx && t.state != .done)
  match ts.find? (fun t => t.state == .trapped) with
  | some t => some t
  | none => ts.head?

/-- A TRAPPED thread, or one that STATE at its header's home calls so, is DORMANT; a core that holds a thread keeps it (spec R12). -/
def Thread.resumed (t : Thread) : Thread :=
  if t.held || t.state == .travelling || t.trapStage != .none then t.trapReturn.1
  else { t with
    state := .dormant
    homeless := false
    badLines := []
    parkc := 0
    parkva := 0
    wait := .none }

/-- The thread of a context is resumed, as the device that holds it learns. -/
def State.resume (s : State) (id : BitVec 16) (ctx : Nat) : State :=
  match s.contextAt id ctx with
  | some t => (s.setThread t.resumed).dropPending id t.key
  | none => s

/-- Another device that holds the thread of a context learns of a TRET of it. -/
def State.tellResume (s : State) (id : BitVec 16) (ctx : Nat) : State :=
  match s.contextAt id ctx, s.matchContext id ctx with
  | none, some (l, x) =>
    let k : Key := ⟨l.id, BitVec.ofNat 32 x⟩
    let away := (s.away.filter (fun a => a.thread == k)).map (fun a => a.dev)
    { s with outLaunch := s.outLaunch ++ (if away.isEmpty then s.mayHold l x else away).map (fun d => LaunchMsg.resume d id (BitVec.ofNat 64 ctx)) }
  | _, _ => s

/-- The step of TRET at the header's home: STATE 5 becomes 1. The header of a thread whose trap found no place for it still lies
with the device, which resumes it by its record (spec R13, log entry 117). -/
def State.tret (s : State) (d : BitVec 6) (id : BitVec 16) (ctx : Nat) : State :=
  let q := { s.thr with space := id, ctx := BitVec.ofNat 64 ctx }
  match s.headerPlace q with
  | some f =>
    let lost := (s.contextAt id ctx).any (fun t => t.homeless && t.state == .trapped)
    if (s.mem.read (f + 8)).toNat % 8 = 5 ∨ lost then
      ((((s.writeState q 1).ctxDirtied q (q.ctxBytes [])).tellResume id ctx).resume id ctx).result d 0
    else s.result d 1
  | none =>
    match s.contextAt id ctx with
    | some t => if t.state = .trapped then (s.resume id ctx).result d 0 else s.result d 1
    | none => s.result d 1

/-- TRET. -/
def execTret (d a b : BitVec 6) (s : State) : Out :=
  let id := spaceOf (s.thr.g a)
  s.onSpace { g := [d, a, b] } id (fun s =>
    let ctx := (s.thr.g b).toNat
    s.after (alignCheck ctx 256) (fun _ => s.resolved (s.headerCheck id ctx) (fun _ =>
      let q := { s.thr with space := id, ctx := BitVec.ofNat 64 ctx }
      .next (s.ctxWhen q true (fun s => s.tret d id ctx) (q.ctxBytes [])))))

/-! ### CMNT (spec R309) -/

/-- CMNT. The block is checked as a store too, since the firmware writes its results there: log entry 55. For the firmware it
is illegal (spec R290). -/
def execCmnt (d a b : BitVec 6) (s : State) : Out :=
  if s.thr.firm ∧ s.thr.group.fits {} = true then .next (s.takeTrap (s.thr.illegal 5))
  else s.system { g := [d, a, b] } (fun s =>
    let va := s.thr.g a
    let aw := s.thr.g b
    let w := s.who s.thr .none
    if aw = 0 then .next (s.takeTrap (addrTrap 2 0))
    else
      s.found (s.access w .store va 256 256) (fun ls =>
        s.after (Res.all (s.dataCheck .load) ls) (fun _ =>
          s.found (s.access w .arrive aw 16 16) (fun ws =>
            let part : BitVec 3 := BitVec.ofNat 3 s.thr.part
            if 8 ≤ (s.cmnts.filter (fun c => c.part == part)).length then .next (s.result d 1)
            else
              let c : Cmnt := { id := s.cmntCount, part := part, space := s.thr.space, block := firstKey ls,
                                copies := (ls.head?.map (fun l => l.copies)).getD [], word := firstKey ws }
              let pins := (pagesOfLocs (ls ++ ws)).map (fun l => pinOf s.thr.space l (.cmnt c.id))
              let s := s.noteImages w.scsz (ls ++ ws)
              .next ({ s with
                cmnts := s.cmnts ++ [c]
                cmntCount := s.cmntCount + 1
                pins := pins ++ s.pins }.result d 0)))))

/-! ### LPWR (spec R310) -/

/-- Power states and their codes. -/
def Power.code : Power → Nat
  | .on => 0 | .asleep => 1 | .off => 2

/-- The memory of a layer: first byte and size, on this device. -/
def layerRange (layer : Nat) : Option (Nat × Nat) :=
  let t := layer % 8
  let y := layer / 16
  if y = 15 then some (t * 2 ^ 36, 2 ^ 36)
  else if 6 ≤ y ∧ y ≤ 13 then some (2 ^ 40 + t * 2 ^ 35 + (y - 6) * 2 ^ 32, 2 ^ 32)
  else none

/-- A layer loses its contents: its bytes read as zero when it is on again. -/
def State.zeroLayer (s : State) (layer : Nat) : State :=
  match layerRange layer with
  | none => s
  | some (a, n) =>
    let lo := s.dev.toNat * 2 ^ 48 + a
    { s with
      mem := s.mem.clear lo n
      bad := s.bad.filter (fun g => !(decide (lo ≤ g * 16) && decide (g * 16 < lo + n)))
      cores := s.cores.map (fun c => (c.1, { c.2 with
        l1 := c.2.l1.filter (fun l => !(decide (lo ≤ l.key) && decide (l.key < lo + n))) })) }

/-- What a selector and a state ask for: a status, or a tower, a layer and a state. -/
def powerRequest (a b : Nat) : Option (Nat × Nat × Power) :=
  let y := bits a 7 4
  let st : Option Power := match b with | 0 => some .on | 1 => some .asleep | 2 => some .off | _ => none
  match st with
  | some p =>
    if a < 2 ^ 8 ∧ ¬bit a 3 ∧ (y = 0 ∨ (6 ≤ y ∧ y ≤ 13) ∨ y = 15) then some (a % 8, a, p) else none
  | none => none

/-- A layer takes a power state, once the accesses in flight are performed; the number is what LPWR writes to gd. -/
def State.setPower (s : State) (layer : Nat) (p : Power) : State × Nat :=
  let old := s.powerOf layer
  if p = .off ∧ layer < 16 then (s, old.code * 2 ^ 8 + 1)
  else if p = old then (s, old.code * 2 ^ 8)
  else
    let s := s.drainAll (s.accKeys (fun _ => true))
    let s := if p = .off ∨ old = .off then s.zeroLayer layer else s
    ({ s with power := Tab.put s.power layer p }, old.code * 2 ^ 8)

/-- LPWR. -/
def execLpwr (d a b : BitVec 6) (s : State) : Out :=
  s.system { g := [d, a, b] } (fun s =>
    match powerRequest (s.thr.g a).toNat (s.thr.g b).toNat with
    | none => .next (s.result d 2)
    | some (tower, layer, p) =>
      if s.mayName tower = false then .next (s.takeTrap outsideTrap)
      else
        s.whenDrained (s.accKeys (fun _ => true)) (fun s =>
          let (s, x) := s.setPower layer p
          .next (s.result d (BitVec.ofNat 64 x))))

/-! ### HALT (spec R311) -/

/-- Evict the threads of a list that may be evicted now. -/
def State.evictAll (s : State) : List Key → State
  | [] => s
  | k :: r =>
    match s.find k with
    | some t => (s.evict t).evictAll r
    | none => s.evictAll r

/-- User threads of a space that a core holds. -/
def haltable (id : BitVec 16) (t : Thread) : Bool := t.space == id && !t.priv && t.held

/-- Threads issue nothing more before they are evicted. -/
def State.leave (s : State) (p : Thread → Bool) : State :=
  let mark (t : Thread) : Thread := if t.held && p t then { t with leaving := true } else t
  { s with
    thr := mark s.thr
    threads := s.threads.map mark }

/-- HALT waits until no core holds a user thread of the space. -/
def State.haltWait (s : State) (d : BitVec 6) (id : BitVec 16) : State :=
  let s := (s.evictAll (s.keysOf (haltable id))).leave (haltable id)
  if s.all.any (haltable id) then s.upd (fun t => { t with halting := true })
  else (s.upd (fun t => { t with halting := false })).result d 0

/-- HALT. One of a space that is halted already completes when no core holds a user thread of it, too. Of a space that is not
loaded on the device gd receives 1: log entry 112. -/
def execHalt (d a : BitVec 6) (s : State) : Out :=
  let id := spaceOf (s.thr.g a)
  s.onSpace { g := [d, a] } id (fun s =>
    match s.space? id with
    | none => .next (s.result d 1)
    | some x =>
      if s.thr.halting then .next (s.haltWait d id)
      else if x.halted then .next (if s.all.any (haltable id) then s else s.result d 1)
      else .next ((s.setSpace { x with halted := true }).haltWait d id))

/-- HALT.rel. -/
def execHaltRel (d a : BitVec 6) (s : State) : Out :=
  let id := spaceOf (s.thr.g a)
  s.onSpace { g := [d, a] } id (fun s =>
    match s.space? id with
    | some x =>
      if x.halted then .next ((s.setSpace { x with halted := false }).result d 0) else .next (s.result d 1)
    | none => .next (s.result d 1))

end Sys2Proof.Machine
end

