-- ==== Sys2Proof/Machine/VectorMem.lean ====
section
/-! DEFINITION. Vector and tensor memory instructions (spec R243 to R249). -/

namespace Sys2Proof.Machine

/-! ### Elements, their checks and their order (spec R244, R245) -/

/-- An element that an instruction accesses, and its accesses: one, or with a block format its code and its scale. -/
structure ElemAcc where
  i : Nat
  at_ : List (Word × Nat)
  deriving DecidableEq, Repr

/-- An element whose accesses passed every check, and where they land. -/
structure ElemLocs where
  i : Nat
  locs : List Loc
  deriving DecidableEq, Repr

/-- What the checks of the elements find: those that pass, up to the first that fails. -/
inductive Scan
  | go (es : List ElemLocs) (stop : Option Trap)
  | wait (need : Option Nat)
  | travel (dest : Pos) (va : Nat)
  deriving DecidableEq, Repr

/-- The accesses of one element, checked in order. -/
def foundAll (f : Word → Nat → Found) : List (Word × Nat) → Found
  | [] => .ok []
  | (va, n) :: r =>
    match f va n with
    | .ok ls => (match foundAll f r with | .ok rs => .ok (ls ++ rs) | x => x)
    | x => x

/-- The elements in increasing order. -/
def scanFrom (f : Word → Nat → Found) : List ElemAcc → Scan
  | [] => .go [] none
  | e :: r =>
    match foundAll f e.at_ with
    | .ok ls => (match scanFrom f r with | .go es t => .go ({ i := e.i, locs := ls } :: es) t | x => x)
    | .trap t => .go [] (some { t with elem := e.i })
    | .wait n => .wait n
    | .travel d va => .travel d va

/-- A travel that any active element sets off comes before every element (spec R244). While the page of one is not known yet, the
instruction waits. -/
def scan (f : Word → Nat → Found) (es : List ElemAcc) : Scan :=
  match es.findSome? (fun e => e.at_.findSome? (fun x =>
      match f x.1 x.2 with
      | .travel d va => some (Scan.travel d va)
      | .wait n => some (.wait n)
      | _ => none)) with
  | some x => x
  | none => scanFrom f es

/-- The format field of the page that bytes lie on, 0 where they lie on none; an L1 line that serves a load stands in for the
translation (spec R320). -/
def State.pageFmt (s : State) (w : Who) (k : Kind) (va : Word) (n align : Nat) : Nat × Nat :=
  let hit := if k = .load ∧ (winOf va.toNat).isNone then s.l1Line w va.toNat n else none
  match hit with
  | some l => (eFmt l.entry.toNat, pageSize l.level)
  | none =>
  match (s.addrCheck w k va.toNat n align).bind (fun _ => Res.map (s.locate w k) (parts va.toNat n)) with
  | .ok (l :: _) => if l.win.isNone then (eFmt l.entry, pageSize l.level) else (0, 0)
  | _ => (0, 0)

/-- A trap of an access that a format-typed page does not allow (spec R246). -/
def formatTrap (va : Word) : Trap := { cls := .amotype, cause := 4, va := va }

/-- An element of an instruction that meets no block format. A VLD whose element 0 lies off the format-typed page that a later
element meets does not begin with a block of that page: `blockLoad` says that the types allow such a VLD, and then the address is at
fault (spec R246). -/
def State.plainElem (s : State) (w : Who) (k : Kind) (va : Word) (n : Nat) (blockLoad : Bool := false) : Found :=
  if (s.pageFmt w k va n n).1 ≠ 0 then .trap (if blockLoad then addrTrap 2 va.toNat else formatTrap va)
  else if k = .load then s.loadAccess w va n n
  else s.access w k va n n

/-- Go on once the coherence machinery lets the focus thread touch the elements; a request that failed stops at its
element. What an L1 line serves asks for nothing (spec R139). -/
def State.elemsReady (s : State) (excl : Bool) (es : List ElemLocs) (stop : Option Trap)
    (f : State → List ElemLocs → Option Trap → Out) (hits : Loc → Bool := fun _ => false) (once : Bool := false) : Out :=
  let ls := (es.flatMap (fun e => e.locs)).filter (fun l => !hits l)
  match s.ready s.thr excl ls once with
  | .ok => f (s.took s.thr excl ls false once) es stop
  | .later s' => .next s'
  | .trap s' t =>
    let below := es.takeWhile (fun e => !e.locs.any (fun l => decide (l.va ≤ t.va.toNat) && decide (t.va.toNat < l.va + l.n)))
    f (s'.took s.thr excl (below.flatMap (fun e => e.locs)) false once) below
      (some { t with elem := ((es.drop below.length).head?.map (fun e => e.i)).getD 0 })

/-- Go on with what a scan found. -/
def State.scanned (s : State) (x : Scan) (excl : Bool) (f : State → List ElemLocs → Option Trap → Out) : Out :=
  match x with
  | .go es stop => s.elemsReady excl es stop f
  | .wait n => .next (s.wantEntry s.thr.key s.thr.cur n)
  | .travel d va => .next (s.travel d va)

/-- The instruction ends, or traps at an element. -/
def State.endElems (s : State) (stop : Option Trap) : Out :=
  match stop with
  | none => .next (s.upd Thread.advance)
  | some t => .next (s.takeTrap t)

/-- Whether an L1 line of a requester's core serves a part of a load. -/
def State.l1Serves (s : State) (w : Who) (l : Loc) : Bool := l.win.isNone && (s.l1Line w l.va l.n).isSome

/-- The L1 forgets its lines of bytes that a load takes past it, for nothing that is read after them may be older (spec R140, R245). -/
def State.forgetPast (s : State) (w : Who) (ls : List Loc) : State :=
  s.forgetL1 (posCore w.here) (locRanges (ls.filter (fun l => l.win.isNone && !s.l1Serves w l)))

/-- The L1 takes the lines that a load brought past it (spec R55). -/
def State.passL1 (s : State) (w : Who) (ls : List Loc) : State :=
  (s.forgetPast w ls).fillFrom w (ls.filter (fun l => l.win.isNone && !s.l1Serves w l))

/-- Go on with the elements of a vector load that a scan found: what an L1 line serves after the accesses ordered before it asks for
nothing (spec R139, R142, R148). -/
def State.scannedLoads (s : State) (w : Who) (x : Scan) (f : State → List ElemLocs → Option Trap → Out) : Out :=
  match x with
  | .go es stop =>
    let ls := es.flatMap (fun e => e.locs)
    let s := (if s.mayDefer ls then s else s.settle false ls).forgetPast w ls
    s.elemsReady false es stop f (s.l1Serves w)
  | _ => s.scanned x false f

/-- The bytes of one part of an element, from the L1 where it holds them. -/
def State.locBytes (s : State) (w : Who) (l : Loc) : List Byte :=
  if l.win.isSome then s.bytesAt l.key l.n else (s.l1Hit w l.va l.n).getD (s.bytesAt l.key l.n)

/-! ### Vector loads and stores (spec R243) -/

/-- Elements reach vector register `d`: all of them with what the policy gives the others, or only those below the
element that traps, whose conversions then set no flag (spec R117). -/
def State.vloaded (s : State) (w : Who) (d : BitVec 6) (k : BitVec 3) (p : Bool) (plain : Bool)
    (val : State → ElemLocs → Nat × Flags) (es : List ElemLocs) (stop : Option Trap) : Out :=
  let t := s.thr
  let n := t.ety.size
  let ls := es.flatMap (fun e => e.locs)
  let s := s.noteImages w.scsz ls
  let piece (e : ElemLocs) : List LoadPiece := loadParts (t.vOff d + n * e.i) n false e.locs
  if s.emptyLines ls ≠ [] then .next (s.waitFull ls (es.flatMap piece) (stop.isSome || !plain))
  else if stop.isNone && plain && s.mayDefer ls && !ls.isEmpty then
    let s := s.writeElems d n t.ety.vlmax p (fun i => if t.active k i then some (t.elem d n i) else none)
    .next ((es.foldl (fun a e => a.defer (fun j => .load j (piece e))) s).upd Thread.advance)
  else
    let s := s.settle false ls
    let read := s.passL1 w ls
    match stop with
    | none =>
      let f (i : Nat) : Nat × Flags := match es.find? (fun e => e.i == i) with | some e => val s e | none => (0, 0)
      .next (read.vresult d n t.ety.vlmax p (t.active k) f)
    | some x =>
      let u := es.foldl (fun (a : Thread) e => a.writeRegs (a.vOff d + n * e.i) (leBytes n (val s e).1)) s.thr
      .next ((read.put u).takeTrap x)

/-- The number that one part of an element holds. -/
def State.partValue (s : State) (w : Who) (ls : List Loc) (j : Nat) : Nat :=
  match ls[j]? with
  | some l => ofBytes (s.locBytes w l)
  | none => 0

/-- A vector load with one access per active element. `unit` is VLD. -/
def State.vload (s : State) (d : BitVec 6) (k : BitVec 3) (p : Bool) (addr : Nat → Word) (unit : Bool := false) : Out :=
  let s := s.fenced
  let t := s.thr
  let n := t.ety.size
  let w := s.who t t.view
  let es := ((upto 0 t.ety.vlmax).filter (t.active k)).map (fun i => { i := i, at_ := [(addr i, n)] : ElemAcc })
  let blockLoad := unit && decide (t.ety = .f32 ∨ t.ety = .bf16 ∨ t.ety = .f16)
  s.scannedLoads w (scan (fun va n => s.plainElem w .load va n blockLoad) es) (fun s es stop =>
    s.vloaded w d k p true (fun s e => (s.partValue w e.locs 0, 0)) es stop)

/-- A vector store, element by element. -/
def State.vstore (s : State) (v : BitVec 6) (k : BitVec 3) (addr : Nat → Word) : Out :=
  let t := s.thr
  let n := t.ety.size
  let w := s.who t t.view
  let es := ((upto 0 t.ety.vlmax).filter (t.active k)).map (fun i => { i := i, at_ := [(addr i, n)] : ElemAcc })
  s.scanned (scan (s.plainElem w .store) es) true (fun s es stop =>
    let ls := es.flatMap (fun e => e.locs)
    let s := s.noteImages w.scsz ls
    let bytes (e : ElemLocs) : List Byte := leBytes n (t.elem v n e.i)
    if s.mayDeferStore ls && stop.isNone then
      (es.foldl (fun a e => a.defer (fun j => .store j (storeParts e.locs (bytes e))))
        (s.scratchFirst s.thr (locRanges ls) s.all)).endElems none
    else (es.foldl (fun a e => a.storeNow e.locs (bytes e)) (s.settle true ls)).endElems stop)

/-- The address of element `i` of VLD and VST. -/
def Thread.unitAddr (t : Thread) (a o : BitVec 6) (i : Nat) : Word :=
  t.g a + o.signExtend 64 * 256 + BitVec.ofNat 64 (t.ety.size * i)
/-- The address of element `i` of VLDS and VSTS. -/
def Thread.strideAddr (t : Thread) (a b : BitVec 6) (i : Nat) : Word := t.g a + t.g b * BitVec.ofNat 64 i
/-- The address of element `i` of VGTH and VSCT. -/
def Thread.offsetAddr (t : Thread) (a b : BitVec 6) (i : Nat) : Word := t.g a + sextBytes 4 (t.elem b 4 i)

/-- A VLD from a format-typed page (spec R246). One that fails both by its type and by its address or extent traps for the type: log
entry 121. -/
def State.vloadBlock (s : State) (d : BitVec 6) (k : BitVec 3) (p : Bool) (va : Word) (fmt psize : Nat) : Out :=
  let s := s.fenced
  let t := s.thr
  let w := s.who t t.view
  let b := blockBytes fmt
  let n := blocksIn fmt psize
  let page := va.toNat / psize * psize
  let off := va.toNat % psize
  let j := off / b
  match (if t.ety = .f32 ∨ t.ety = .bf16 ∨ t.ety = .f16 then floatOf t.ety else none) with
  | none => .next (s.takeTrap (formatTrap va))
  | some f =>
    if off % b ≠ 0 ∨ n ≤ j ∨ 32 * (n - j) < t.vl then .next (s.takeTrap (addrTrap 2 va.toNat))
    else
      let es := ((upto 0 t.ety.vlmax).filter (t.active k)).map (fun i =>
        { i := i, at_ := [(BitVec.ofNat 64 (page + b * (j + i / 32) + i % 32 * b / 32), 1),
                          (BitVec.ofNat 64 (page + n * b + j + i / 32), 1)] : ElemAcc })
      s.scannedLoads w (scan (fun va n => s.loadAccess w va n 1) es) (fun s es stop =>
        s.vloaded w d k p false (fun s e =>
          let high := if fmt = 13 then some (e.i % 2 == 1) else none
          let x := blockVal fmt (elemCode high (s.partValue w e.locs 0)) (s.partValue w e.locs 1)
          let (y, g) := f.rnd .rne .dflt x
          (y, x.sig ||| g)) es stop)

/-- The prefixes of vector memory instructions (spec R232). -/
def viewOnly : Accepts := { view := true }

/-- VLD. -/
def execVld (v a : BitVec 6) (o : BitVec 6) (k : BitVec 3) (p : Bool) (s : State) : Out :=
  s.checked viewOnly false { g := [a], v := v :: maskNames k }
    (let t := s.thr
     let va := t.unitAddr a o 0
     let (fmt, psize) := s.pageFmt (s.who t t.view) .load va 1 1
     if fmt ≠ 0 && (upto 0 t.ety.vlmax).any (t.active k) then s.vloadBlock v k p va fmt psize
     else s.vload v k p (t.unitAddr a o) true)
/-- VST. -/
def execVst (v a : BitVec 6) (o : BitVec 6) (k : BitVec 3) (_p : Bool) (s : State) : Out :=
  s.checked viewOnly false { g := [a], v := v :: maskNames k } (s.vstore v k (s.thr.unitAddr a o))
/-- VLDS. -/
def execVlds (v a b : BitVec 6) (k : BitVec 3) (p : Bool) (s : State) : Out :=
  s.checked viewOnly false { g := [a, b], v := v :: maskNames k } (s.vload v k p (s.thr.strideAddr a b))
/-- VSTS. -/
def execVsts (v a b : BitVec 6) (k : BitVec 3) (_p : Bool) (s : State) : Out :=
  s.checked viewOnly false { g := [a, b], v := v :: maskNames k } (s.vstore v k (s.thr.strideAddr a b))
/-- VGTH: VL at most 64. -/
def execVgth (v a b : BitVec 6) (k : BitVec 3) (p : Bool) (s : State) : Out :=
  s.checked viewOnly false { g := [a], v := [v, b] ++ maskNames k }
    (if 64 < s.thr.vl then .next (s.takeTrap (s.thr.illegal 5)) else s.vload v k p (s.thr.offsetAddr a b))
/-- VSCT: VL at most 64. -/
def execVsct (v a b : BitVec 6) (k : BitVec 3) (_p : Bool) (s : State) : Out :=
  s.checked viewOnly false { g := [a], v := [v, b] ++ maskNames k }
    (if 64 < s.thr.vl then .next (s.takeTrap (s.thr.illegal 5)) else s.vstore v k (s.thr.offsetAddr a b))

/-! ### Tensor access (spec R247 to R249) -/

/-- The coordinates that vector register `n` holds, moved to element (j, i) of the tile. -/
def Thread.coord (t : Thread) (n : BitVec 6) (j i : Nat) (x : Nat) : Int :=
  signed 32 (t.elem n 4 x) + (if x = 0 then (i : Int) else if x = 1 then (j : Int) else 0)

/-- The elements of a tile register in (j, i) order: the index j × VLMAX + i and the place. -/
def Thread.tileElems (t : Thread) (r : BitVec 1024) (psize : Nat) (v : BitVec 6) : List (Nat × Elem) :=
  let n := t.ety.vlmax
  (upto 0 (8 * n)).filterMap (fun q => (elemAt r psize (t.coord v (q / n) (q % n))).map (fun e => (q, e)))

/-- Checks 1 and 2 of R248. A TST to TS8, to which no instruction converts (spec R108), fails check 2: log entry 94. -/
def State.tensorCheck (s : State) (l : BitVec 5) (write : Bool) : Res (BitVec 1024) :=
  match s.layout? s.thr.space l.toNat with
  | none => .trap (engineTrap 3 1)
  | some r =>
    if recNdim r < 2 then .trap (engineTrap 3 1)
    else if write && recFmt r == 14 then .trap (engineTrap 3 2)
    else if recFmt r = s.thr.ety.code.toNat then .ok r
    else if fmtBlock (recFmt r) && decide (s.thr.ety = .f32 ∨ s.thr.ety = .bf16 ∨ s.thr.ety = .f16) then .ok r
    else .trap (engineTrap 3 2)

/-- An element index added to a trap. -/
def Res.atElem {α : Type} (x : Res α) (q : Nat) : Res α :=
  match x with
  | .trap t => .trap { t with elem := q }
  | y => y

/-- The places of bytes that TLD reads, by a load (spec R72). -/
def State.tileLoad (s : State) (w : Who) (va n : Nat) : Res (List Loc) :=
  (s.addrCheck w .load va n 1).bind (fun _ => Res.map (s.locate w .load) (parts va n))

/-- The places of an element that TLD reads and, for a block format, of its scale. -/
def State.elemPlaces (s : State) (w : Who) (e : Elem) : Res (List Loc) :=
  (s.tileLoad w e.va e.n).bind (fun a =>
    match e.scale with
    | none => .ok a
    | some v => (s.tileLoad w v 1).bind (fun b => .ok (a ++ b)))

/-- The value of a tile element and the flags of its conversion (spec R246, R248). -/
def State.tileValue (s : State) (w : Who) (t : Thread) (r : BitVec 1024) (e : Elem) (ls : List Loc) : Nat × Flags :=
  let code := elemCode e.high (ofBytes ((ls.take (if e.scale.isSome then ls.length - 1 else ls.length)).flatMap (s.locBytes w)))
  match e.scale, floatOf t.ety with
  | some _, some f =>
    let x := blockVal (recFmt r) code (s.partValue w ls (ls.length - 1))
    let (y, g) := f.rnd .rne .dflt x
    (y, x.sig ||| g)
  | _, _ => (code, 0)

/-- TLD: every element is read before any is written. -/
def execTld (d : BitVec 3) (a : BitVec 6) (l : BitVec 5) (s : State) : Out :=
  s.checked {} false { v := [a], t := true }
    (s.after (s.tensorCheck l false) (fun r =>
      let t := s.thr
      let w := recWho (s.issuer t) t.cur r
      let es := t.tileElems r (s.recPage t.key t.space (posTower t.cur) r) a
      s.resolved (Res.map (fun (q, e) => ((s.elemPlaces w e).bind (fun ls => .ok (q, e, ls))).atElem q) es) (fun xs =>
        s.after (Res.all (fun (q, _, ls) => (Res.all s.darkCheck ls).atElem q) xs) (fun _ =>
          s.after (Res.all (fun (q, _, ls) => (Res.all (s.dataCheck .load) ls).atElem q) xs) (fun _ =>
            s.elemsReady false (xs.map (fun (q, _, ls) => { i := q, locs := ls })) none (once := recStream r) (f := fun s _ stop =>
              let ls := xs.flatMap (fun (_, _, ls) => ls)
              let s := s.noteImages w.scsz ls
              match stop with
              | some x => .next (s.takeTrap x)
              | none =>
                if s.emptyLines ls ≠ [] then .next (s.waitFull ls [] true)
                else
                  let s := (s.settle false ls).forgetPast w ls
                  let n := t.ety.size
                  let ys := xs.map (fun (q, e, ls) => (q, s.tileValue w t r e ls))
                  let out := (upto 0 (8 * t.ety.vlmax)).flatMap (fun q =>
                    leBytes n (match ys.find? (fun y => y.1 == q) with | some y => y.2.1 | none => 0))
                  let fl := ys.foldl (fun a y => a ||| y.2.2) (0 : Flags)
                  .next ((s.passL1 w ls).put ((s.thr.writeRegs (t.tOff d) out).raise fl).advance)))))))

/-- One store of TST: its element, the byte or bytes, and the flags of the block that it completes. -/
structure TileStore where
  q : Nat
  va : Nat
  n : Nat
  high : Option Bool
  code : Nat
  flags : Flags := 0
  deriving DecidableEq, Repr

/-- The stores of one block of a row (spec R114, R249): the scale, then the elements that are not clipped. That the scale comes first, and
is reported at the block's first element that is not clipped, is log entry 121. -/
def Thread.tileBlock (t : Thread) (r : BitVec 1024) (psize : Nat) (d : BitVec 3) (v : BitVec 6) (j b : Nat) : List TileStore :=
  let n := t.ety.vlmax
  let sz := t.ety.size
  let at_ (i : Nat) : Option Elem := elemAt r psize (t.coord v j (32 * b + i))
  let code (i : Nat) : Nat := t.regs.readNum (t.tOff d + (j * n + 32 * b + i) * sz) sz
  let xs := (upto 0 32).map (fun i =>
    match at_ i, floatOf t.ety with
    | some _, some f => f.decode (code i)
    | _, _ => Fp.fin false 0 0 false)
  let (scale, codes, fl) := mxQuantise (blockFmt (recFmt r)) (t.rmode .rne) t.ovf xs
  let els := (upto 0 32).filterMap (fun i => (at_ i).map (fun e =>
    ({ q := j * n + 32 * b + i, va := e.va, n := 1, high := e.high, code := codes.getD i 0 } : TileStore)))
  match els.head?, (upto 0 32).findSome? (fun i => (at_ i).bind (fun e => e.scale)) with
  | some x, some sv => { q := x.q, va := sv, n := 1, high := none, code := scale, flags := fl } :: els
  | _, _ => []

/-- The stores of TST in order. -/
def Thread.tileStores (t : Thread) (r : BitVec 1024) (psize : Nat) (d : BitVec 3) (v : BitVec 6) : List TileStore :=
  let n := t.ety.vlmax
  let sz := t.ety.size
  if fmtBlock (recFmt r) then
    (upto 0 8).flatMap (fun j => (upto 0 (n / 32)).flatMap (fun b => t.tileBlock r psize d v j b))
  else
    (t.tileElems r psize v).map (fun (q, e) =>
      { q := q, va := e.va, n := e.n, high := none, code := t.regs.readNum (t.tOff d + q * sz) sz })

/-- A store of TST is performed. -/
def State.tileStore (s : State) (x : TileStore) (ls : List Loc) : State :=
  let old := match x.high with | some _ => s.valueAt ls | none => 0
  s.storeNow ls (leBytes x.n (putCode x.high old x.code))

/-- The stores of TST that pass their checks, up to the first that does not. -/
def State.tileScan (s : State) (w : Who) : List TileStore → Res (List (TileStore × List Loc) × Option Trap)
  | [] => .ok ([], none)
  | x :: r =>
    match (s.recAccess w true x.va x.n).bind (fun ls => (Res.all s.darkCheck ls).bind (fun _ => .ok ls)) with
    | .ok ls => (s.tileScan w r).bind (fun ys => .ok ((x, ls) :: ys.1, ys.2))
    | .trap t => .ok ([], some { t with elem := x.q })
    | .wait n => .wait n

/-- TST. One that traps sets no flag (spec R117). -/
def execTst (d : BitVec 3) (a : BitVec 6) (l : BitVec 5) (s : State) : Out :=
  let block := match s.layout? s.thr.space l.toNat with | some r => fmtBlock (recFmt r) | none => false
  s.checked { mods := block } false { v := [a], t := true }
    (s.after (s.tensorCheck l true) (fun r =>
      let t := s.thr
      if block && decide (t.coord a 0 0 0 % 32 ≠ 0) then .next (s.takeTrap (engineTrap 3 0))
      else
        let w := recWho (s.issuer t) t.cur r
        s.resolved (s.tileScan w (t.tileStores r (s.recPage t.key t.space (posTower t.cur) r) d a)) (fun (xs, stop) =>
          s.elemsReady true (xs.map (fun (x, ls) => { i := x.q, locs := ls })) stop (fun s es stop =>
            let ls := xs.flatMap (fun (_, ls) => ls)
            let done := xs.take es.length
            let s := done.foldl (fun a (x, ls) => a.tileStore x ls) ((s.noteImages w.scsz ls).settle true ls)
            let fl := if stop.isSome then 0 else done.foldl (fun a (x, _) => a ||| x.flags) (0 : Flags)
            (s.upd (fun t => t.raise fl)).endElems stop))))

end Sys2Proof.Machine
end

