-- ==== Sys2Proof/Machine/Issue.lean ====
section
/-! DEFINITION. Fetching a word, the words that trap, the register bytes that an instruction touches, result
latencies, and which threads of a core are ready (spec R37, R45, R58, R162, R167 to R169, R181, R199, R233, R253,
R337). -/

namespace Sys2Proof.Machine

/-! ### Fetch (spec R162) -/

/-- What a fetch finds. -/
inductive Fetch
  | word (w : Ins)
  | fault (t : Trap)
  | later (s : State)
  deriving DecidableEq, Repr

/-- Whether a thread has an own store to some places outstanding that its fetch must not miss (spec R162). -/
def Thread.ownCode (t : Thread) (ls : List Loc) : Bool :=
  t.accs.any (fun a =>
    match a with
    | .store n _ => decide (n < t.fetchFrom) && rangesMeet a.ranges (locRanges ls)
    | _ => false)

/-- Whether a copy of a REPLICA page that a thread's fetch reads lacks a store of the thread that its fetch must not miss (spec
R66, R162). -/
def State.codeForward (s : State) (t : Thread) (ls : List Loc) : Bool :=
  s.forwards.any (fun f => f.firm && f.thread == t.key && rangesMeet (f.left.map (fun k => (k, f.bytes.length))) (locRanges ls))

/-- Fetch the word at a thread's PC: a 4-byte load without a viewpoint. It is aligned to 4 bytes: at a PC that a header gave another low
bits it traps with class ADDR, cause 2 (log entry 114). -/
def State.fetch (s : State) (t : Thread) : Fetch :=
  match s.access (s.who t .none) .fetch t.pc 4 4 with
  | .ok ls =>
    (match s.ready t false ls with
     | .ok => if t.ownCode ls || s.codeForward t ls then .later s else .word (BitVec.ofNat 32 (s.valueAt ls))
     | .later s' => .later s'
     | .trap _ x => .fault x)
  | .trap x => .fault x
  | .wait n => .later (s.wantEntry t.key t.cur n)
  | .travel _ _ => .later s

/-- FETCH_FAULT: the focus thread's fetch cannot deliver its word, and the whole group traps. -/
def execFetchFault (s : State) : Out :=
  match s.fetch s.thr with
  | .fault x => .next (s.takeTrap x)
  | _ => .next s

/-! ### Words that trap (spec R167 to R169) -/

/-- What an opcode is for the prefix rules. -/
inductive OpRule
  | plain (a : Accepts)
  | control
  | hint
  | prefixWord (n : Nat)
  deriving DecidableEq, Repr

/-- The prefix rule of an assigned opcode; PFXM before TST is accepted with a block-format record only. -/
def opRule (op : Nat) (block : Bool) : OpRule :=
  if 0x40 ≤ op ∧ op ≤ 0x4A then .control
  else if op = 0xF5 then .hint
  else if op = 0xF0 then .prefixWord 0
  else if op = 0xF1 ∨ op = 0xF2 then .prefixWord 1
  else if op = 0xF3 then .prefixWord 2
  else if op = 0xF4 then .prefixWord 3
  else if (0x20 ≤ op ∧ op ≤ 0x23) ∨ op = 0x27 ∨ op = 0x28 then .plain { imm := true }
  else if (0x30 ≤ op ∧ op ≤ 0x33) ∨ (0x36 ≤ op ∧ op ≤ 0x39) ∨ (0x3D ≤ op ∧ op ≤ 0x3F) then .plain { mods := true }
  else if (0x50 ≤ op ∧ op ≤ 0x5A) ∨ op = 0x63 then .plain { imm := true, view := true }
  else if (0x5B ≤ op ∧ op ≤ 0x5E) ∨ op = 0x60 ∨ op = 0x61 ∨ (0x73 ≤ op ∧ op ≤ 0x75) then
    .plain { view := true, scope := true }
  else if op = 0x62 ∨ op = 0x71 ∨ op = 0x72 ∨ (0xA0 ≤ op ∧ op ≤ 0xA5) then .plain { view := true }
  else if (0x80 ≤ op ∧ op ≤ 0x83) ∨ op = 0x86 ∨ (0x91 ≤ op ∧ op ≤ 0x96) then .plain { mods := true }
  else if op = 0xB1 then .plain { mods := block }
  else .plain {}

/-- Whether the prefix rules hold for a word of an opcode that the focus thread fetched. -/
def Thread.prefixOk (t : Thread) (r : OpRule) : Bool :=
  let g := t.group
  match r with
  | .plain a => g.fits a
  | .control => g.len == 0 && !t.afterHint
  | .hint => g.len == 0
  | .prefixWord 0 => g.imm.isNone
  | .prefixWord 1 => g.view.isNone
  | .prefixWord 2 => g.scope.isNone
  | .prefixWord _ => g.mods.isNone

/-- The trap of a word that decodes to nothing: opcode, then prefix rules, then reserved bits (spec R168). -/
def State.wordTrap (s : State) (w : Ins) (e : DecodeError) : Trap :=
  match e with
  | .unassigned => s.thr.illegal 1
  | .reserved =>
    let block := match s.layout? s.thr.space (bits w.toNat 11 7) with
      | some r => fmtBlock (recFmt r)
      | none => false
    let r := opRule (bits w.toNat 31 24) block
    if s.thr.prefixOk r then s.thr.illegal 3
    else if r = .control ∧ s.thr.group.len = 0 then { cls := .ill, cause := 2, detail := 0, va := s.thr.pc }
    else s.thr.illegal 2

/-- ILLEGAL_WORD: a fetched word that stands for no instruction. -/
def execIllegalWord (w : Ins) (s : State) : Out :=
  match decode w with
  | .error e => .next (s.takeTrap (s.wordTrap w e))
  | .ok _ => .next s

/-! ### The register bytes that an instruction touches (spec R37, R45) -/

/-- Byte ranges of the register space: first byte and count. -/
structure Touch where
  reads : List (Nat × Nat) := []
  writes : List (Nat × Nat) := []
  deriving DecidableEq, Repr

/-- The bytes of scalar registers; g0 has none to wait for. -/
def gBytes (l : List (BitVec 6)) : List (Nat × Nat) := (l.filter (fun n => n != 0)).map (fun n => (8 * n.toNat, 8))

/-- Scalar sources and a scalar destination. -/
def gTouch (d : BitVec 6) (l : List (BitVec 6)) : Touch := { reads := gBytes l, writes := gBytes [d] }

/-- Elements of a vector register that a test selects. -/
def Thread.els (t : Thread) (v : BitVec 6) (size count : Nat) (p : Nat → Bool) : List (Nat × Nat) :=
  ((upto 0 count).filter p).map (fun i => (t.vOff v + size * i, size))

/-- All bytes of a vector register. -/
def Thread.vBytes (t : Thread) (v : BitVec 6) : Nat × Nat := (t.vOff v, 256)

/-- The mask bytes that a field names. -/
def Thread.maskBytes (t : Thread) (k : BitVec 3) : List (Nat × Nat) :=
  if k = 0 then [] else [(t.vOff (k.setWidth 6), (t.vl + 7) / 8)]

/-- Active elements of the sources, and of the destination. -/
def Thread.vTouch (t : Thread) (d : BitVec 6) (srcs : List (BitVec 6)) (k : BitVec 3) : Touch :=
  let n := t.ety.size
  { reads := srcs.flatMap (fun v => t.els v n t.ety.vlmax (t.active k)) ++ t.maskBytes k
    writes := t.els d n t.ety.vlmax (t.active k) }

/-- The bytes of a mask register that hold the bits of active elements. -/
def Thread.activeBits (t : Thread) (v : BitVec 6) (k : BitVec 3) : List (Nat × Nat) :=
  ((((upto 0 t.ety.vlmax).filter (t.active k)).map (fun i => i / 8)).eraseDups).map (fun j => (t.vOff v + j, 1))

/-- A compare: the destination's mask bytes are read as well. -/
def Thread.cmpTouch (t : Thread) (d a b : BitVec 6) (k : BitVec 3) : Touch :=
  { reads := t.activeBits d k ++ (t.vTouch d [a, b] k).reads, writes := t.activeBits d k }

/-- One element of a vector register, if it is in range. -/
def Thread.elBytes (t : Thread) (v : BitVec 6) (i : Nat) : List (Nat × Nat) :=
  let n := t.ety.size
  if n * i + n ≤ 256 then [(t.vOff v + n * i, n)] else []

/-- The elements that active elements take: of register `src i`, element `at_ i`; none where that is none. -/
def Thread.moveTouch (t : Thread) (d : BitVec 6) (k : BitVec 3) (f : Nat → Option (BitVec 6 × Nat)) : Touch :=
  let x := t.vTouch d [] k
  { x with reads := ((upto 0 t.ety.vlmax).filter (t.active k)).flatMap (fun i =>
      match f i with | some (v, j) => t.elBytes v j | none => []) ++ x.reads }

/-- A vector load or store: address registers, and the element register. -/
def Thread.vmemTouch (t : Thread) (load : Bool) (v : BitVec 6) (gs vs : List (BitVec 6)) (k : BitVec 3) : Touch :=
  let es := t.els v t.ety.size t.ety.vlmax (t.active k)
  let offs := vs.flatMap (fun b => t.els b 4 64 (fun i => decide (i < t.ety.vlmax) && t.active k i))
  { reads := gBytes gs ++ offs ++ t.maskBytes k ++ (if load then [] else es), writes := if load then es else [] }

/-- The register bytes that the word at hand reads and writes, once what decides them is usable. Events touch none. -/
def Thread.touchAll (t : Thread) (i : Instr) : Touch :=
  match i with
  | .add d a b | .sub d a b | .mul d a b | .mulh d a b | .mulhz d a b | .div d a b | .divz d a b | .rem d a b
  | .remz d a b | .and d a b | .or d a b | .xor d a b | .andn d a b | .shl d a b | .shr d a b | .sar d a b | .rol d a b
  | .min d a b | .max d a b | .minz d a b | .maxz d a b | .slt d a b | .sltz d a b | .seq d a b | .bfx d a b
  | .bfxz d a b | .fmin d a b | .fmax d a b | .flt d a b | .fle d a b | .feq d a b | .fadd d a b _ | .fsub d a b _
  | .fmul d a b _ | .fdiv d a b _ | .mldw d a b | .mma d a b _ | .mmae d a b _ | .arw d a b | .await d a b
  | .ctlLaunch d a b | .ctlSpload d a b | .ctlSpdrop d a b | .ctlKillt d a b | .ctlKilll d a b | .ctlPark d a b
  | .ctlUnpark d a b | .tret d a b | .cmnt d a b | .lpwr d a b => gTouch d [a, b]
  | .bfi d a b | .sel d a b | .ffma d a b _ | .amow d a b _ _ | .amod d a b _ _ | .xinv d a b => gTouch d [a, b, d]
  | .clz d a | .ctz d a | .popc d a | .addi d a _ | .andi d a _ | .ori d a _ | .xori d a _ | .shli d a _ | .shri d a _
  | .sari d a _ | .slti d a _ | .sltzi d a _ | .fsqrt d a _ | .frcp d a _ | .frsq d a _ | .fcvti d a _ _ | .fcvtf d a _ _
  | .fcvtn d a _ _ | .fcvtnUp d a _ _ | .jalr d a _ | .ldb d a _ | .ldbz d a _ | .ldh d a _ | .ldhz d a _ | .ldw d a _
  | .ldwz d a _ | .ldd d a _ | .lda d a _ _ | .ldsy d a _ _ | .vcfg d a _ | .qwait d a _ | .halt d a | .haltRel d a
  | .mresume d a _ => gTouch d [a]
  | .stb d a _ | .sth d a _ | .stw d a _ | .std d a _ | .stl d a _ _ | .stf d a _ _ => { reads := gBytes [d, a] }
  | .beq a b _ | .bne a b _ | .blt a b _ | .bge a b _ | .bltz a b _ | .bgez a b _ | .fest a b _ _ => { reads := gBytes [a, b] }
  | .jal d _ | .pos d _ | .idx d _ | .mswap d | .mzero d _ | .mstat d _ | .mmode d _ _ | .qseq d _ _ | .mfsr d _ => gTouch d []
  | .xinvAll d => gTouch d [d]
  | .pref _ a _ | .migr a _ | .lreg a _ | .mclaim a _ | .mdrain a _ | .mfill a _ | .mtsr a _ => { reads := gBytes [a] }
  | .trapInsn _ | .brk _ | .exit | .fence _ _ | .bar _ _ | .lfree _ | .mfree _ | .qfence _ => {}
  | .prop d a b | .crd d a b _ => { reads := gBytes [d, a, b], writes := gBytes [d, b] }
  | .crcy a b => { reads := gBytes [a, b], writes := gBytes [b] }
  | .vadd d a b k _ | .vsub d a b k _ | .vmul d a b k _ | .vmin d a b k _ | .vmax d a b k _ | .vand d a b k _
  | .vor d a b k _ | .vxor d a b k _ | .vshl d a b k _ | .vshr d a b k _ | .vsar d a b k _ => t.vTouch d [a, b] k
  | .vfma d a b k _ => t.vTouch d [a, b, d] k
  | .vabs d a k _ | .vrcp d a k _ | .vrsq d a k _ | .vexp2 d a k _ => t.vTouch d [a] k
  | .vcmpeq d a b k _ | .vcmplt d a b k _ | .vcmple d a b k _ => t.cmpTouch d a b k
  | .vsel d a b k _ =>
    let n := t.ety.size
    { reads := t.els a n t.vl (t.selected k) ++ t.els b n t.vl (fun i => !t.selected k i) ++ t.maskBytes k
      writes := t.els d n t.vl (fun _ => true) }
  | .vcvt d a u k _ _ =>
    { reads := t.els a t.ety.size t.ety.vlmax (t.active k) ++ t.maskBytes k
      writes := t.els d u.size u.vlmax (t.active k) }
  | .vred d a b k _ _ =>
    let n := t.ety.size
    { reads := (t.vOff b, n) :: t.els a n t.ety.vlmax (t.active k) ++ t.maskBytes k, writes := [(t.vOff d, n)] }
  | .vdot d a b k _ =>
    let r := (dotRatio t.ety).getD 1
    let lane (j : Nat) : Bool := decide (j < t.vl / r) && t.selected k j
    let n := t.ety.size
    { reads := t.els a n t.ety.vlmax (fun i => lane (i / r)) ++ t.els b n t.ety.vlmax (fun i => lane (i / r)) ++
        t.els d 4 64 lane ++ t.maskBytes k
      writes := t.els d 4 64 lane }
  | .vbcst d a k _ => let x := t.vTouch d [] k; { x with reads := gBytes [a] ++ x.reads }
  | .vbcstEl d a n k _ => t.moveTouch d k (fun _ => some (a, n.toNat))
  | .vslideDn d a n k _ => t.moveTouch d k (fun i => some (a, i + n.toNat))
  | .vslideUp d a n k _ => t.moveTouch d k (fun i => if i < n.toNat then none else some (a, i - n.toNat))
  | .vperm d a b k _ =>
    let n := t.ety.size
    let x := t.moveTouch d k (fun i => some (a, t.elem b n i))
    { x with reads := t.els b n t.ety.vlmax (t.active k) ++ x.reads }
  | .vtrnLo d a b k _ => t.moveTouch d k (fun i => some (if i % 2 = 0 then (a, i) else (b, i - 1)))
  | .vtrnHi d a b k _ => t.moveTouch d k (fun i => some (if i % 2 = 0 then (a, i + 1) else (b, i)))
  | .viota d a k _ => let x := t.vTouch d [] k; { x with reads := (t.vOff a, (t.vl + 7) / 8) :: x.reads }
  | .viotaIdx d k _ => t.vTouch d [] k
  | .vext d a b =>
    let i := (t.g b).toNat
    { reads := gBytes [b] ++ (if i < t.ety.vlmax then t.elBytes a i else []), writes := gBytes [d] }
  | .vins d a b =>
    let n := t.ety.size
    let i := (t.g b).toNat
    { reads := gBytes [a, b], writes := if i < t.ety.vlmax then [(t.vOff d + n * i, n)] else [] }
  | .vpopc d a k => { reads := t.activeBits a k ++ t.maskBytes k, writes := gBytes [d] }
  | .vld v a _ k _ => t.vmemTouch true v [a] [] k
  | .vst v a _ k _ => t.vmemTouch false v [a] [] k
  | .vlds v a b k _ => t.vmemTouch true v [a, b] [] k
  | .vsts v a b k _ => t.vmemTouch false v [a, b] [] k
  | .vgth v a b k _ => t.vmemTouch true v [a] [b] k
  | .vsct v a b k _ => t.vmemTouch false v [a] [b] k
  | .tld d a _ => { reads := [(t.vOff a, 28)], writes := [(t.tOff d, 2048)] }
  | .tst d a _ => { reads := [(t.vOff a, 28), (t.tOff d, 2048)] }
  | .lqry d _ => { writes := [t.vBytes d] }
  | .mread d a _ => { reads := gBytes [a], writes := [t.vBytes d] }
  | .copy d a _ | .copym d a _ | .copyd d a _ => { reads := [t.vBytes a], writes := gBytes [d] }
  | .trq d a => { reads := gBytes [a], writes := [t.vBytes d] }
  | _ => {}

/-- The mask field of a word that has one. -/
def Instr.maskField (i : Instr) : BitVec 3 :=
  match i with
  | .vadd _ _ _ k _ | .vsub _ _ _ k _ | .vmul _ _ _ k _ | .vmin _ _ _ k _ | .vmax _ _ _ k _ | .vand _ _ _ k _
  | .vor _ _ _ k _ | .vxor _ _ _ k _ | .vshl _ _ _ k _ | .vshr _ _ _ k _ | .vsar _ _ _ k _ | .vfma _ _ _ k _
  | .vcmpeq _ _ _ k _ | .vcmplt _ _ _ k _ | .vcmple _ _ _ k _ | .vsel _ _ _ k _ | .vred _ _ _ k _ _ | .vdot _ _ _ k _
  | .vperm _ _ _ k _ | .vtrnLo _ _ _ k _ | .vtrnHi _ _ _ k _ => k
  | .vabs _ _ k _ | .vrcp _ _ k _ | .vrsq _ _ k _ | .vexp2 _ _ k _ | .vcvt _ _ _ k _ _ | .vbcst _ _ k _ | .vbcstEl _ _ _ k _
  | .vslideDn _ _ _ k _ | .vslideUp _ _ _ k _ | .viota _ _ k _ | .viotaIdx _ k _ | .vpopc _ _ k => k
  | .vld _ _ _ k _ | .vst _ _ _ k _ | .vlds _ _ _ k _ | .vsts _ _ _ k _ | .vgth _ _ _ k _ | .vsct _ _ _ k _ => k
  | _ => 0

/-- Whether the values of register bytes can be looked at: their lines are resident, and no load to them is outstanding. -/
def Thread.usable (t : Thread) (rs : List (Nat × Nat)) : Bool :=
  (linesOf rs).all t.lines.contains && !t.accs.any (fun a =>
    match a with
    | .load _ ps => ps.any (fun p => p.width != 0 && rs.any (overlaps (p.dst, p.width)))
    | _ => false)

/-- The register bytes that decide which others a word touches: its mask, the indexes of VPERM, the number of VEXT and VINS. -/
def Thread.deciders (t : Thread) (i : Instr) : List (Nat × Nat) :=
  match i with
  | .vext _ _ b | .vins _ _ b => gBytes [b]
  | .vperm _ _ b k _ =>
    let m := t.maskBytes k
    if t.usable m then m ++ t.els b t.ety.size t.ety.vlmax (t.active k) else m
  | _ => t.maskBytes (Instr.maskField i)

/-- The register bytes that the word at hand reads and writes; while those that decide about others are not usable, they alone. -/
def Thread.touch (t : Thread) (i : Instr) : Touch :=
  let x := t.deciders i
  if t.usable x then t.touchAll i else { reads := x }

/-- The touched bytes with the register of a PFXVG of the group, which is read when the group's instruction issues. -/
def Thread.touched (t : Thread) (i : Instr) : Touch :=
  let x := t.touch i
  match t.group.view with
  | some (.reg _ n) => { x with reads := gBytes [n] ++ x.reads }
  | _ => x

/-- Whether ranges cover a whole register line. -/
def coversLine (rs : List (Nat × Nat)) (j : Nat) : Bool :=
  (upto (128 * j) 128).all (fun b => rs.any (fun r => decide (r.1 ≤ b) && decide (b < r.1 + r.2)))

/-- The lines of the register space that an instruction needs and that are not resident; with each, whether it needs a fill: a
line that is written whole and not read does not, and is only allocated (spec R45). -/
def Thread.missing (t : Thread) (i : Instr) : List (Nat × Bool) :=
  let x := t.touched i
  let rl := linesOf x.reads
  (((rl ++ linesOf x.writes).eraseDups.filter (fun j =>
    !t.lines.contains j && decide (j < t.space_bytes / 128))).map (fun j =>
    (j, rl.contains j || !coversLine x.writes j))).filter (fun x => x.2 || !t.alloc.contains x.1)

/-! ### Words that stop before they begin (spec R35, R168) -/

/-- The registers that a word names. -/
def Instr.names (i : Instr) : Names :=
  match i with
  | .add d a b | .sub d a b | .mul d a b | .mulh d a b | .mulhz d a b | .div d a b | .divz d a b | .rem d a b
  | .remz d a b | .and d a b | .or d a b | .xor d a b | .andn d a b | .shl d a b | .shr d a b | .sar d a b | .rol d a b
  | .min d a b | .max d a b | .minz d a b | .maxz d a b | .slt d a b | .sltz d a b | .seq d a b | .bfx d a b
  | .bfxz d a b | .fmin d a b | .fmax d a b | .flt d a b | .fle d a b | .feq d a b | .fadd d a b _ | .fsub d a b _
  | .fmul d a b _ | .fdiv d a b _ | .mldw d a b | .mma d a b _ | .mmae d a b _ | .arw d a b | .await d a b
  | .ctlLaunch d a b | .ctlSpload d a b | .ctlSpdrop d a b | .ctlKillt d a b | .ctlKilll d a b | .ctlPark d a b
  | .ctlUnpark d a b | .tret d a b | .cmnt d a b | .lpwr d a b | .bfi d a b | .sel d a b | .ffma d a b _
  | .amow d a b _ _ | .amod d a b _ _ | .xinv d a b | .prop d a b | .crd d a b _ => { g := [d, a, b] }
  | .clz d a | .ctz d a | .popc d a | .addi d a _ | .andi d a _ | .ori d a _ | .xori d a _ | .shli d a _ | .shri d a _
  | .sari d a _ | .slti d a _ | .sltzi d a _ | .fsqrt d a _ | .frcp d a _ | .frsq d a _ | .fcvti d a _ _ | .fcvtf d a _ _
  | .fcvtn d a _ _ | .fcvtnUp d a _ _ | .jalr d a _ | .ldb d a _ | .ldbz d a _ | .ldh d a _ | .ldhz d a _ | .ldw d a _
  | .ldwz d a _ | .ldd d a _ | .lda d a _ _ | .ldsy d a _ _ | .vcfg d a _ | .qwait d a _ | .halt d a | .haltRel d a
  | .mresume d a _ | .stb d a _ | .sth d a _ | .stw d a _ | .std d a _ | .stl d a _ _ | .stf d a _ _ | .beq d a _
  | .bne d a _ | .blt d a _ | .bge d a _ | .bltz d a _ | .bgez d a _ | .fest d a _ _ | .crcy d a => { g := [d, a] }
  | .jal d _ | .pos d _ | .idx d _ | .mswap d | .mzero d _ | .mstat d _ | .mmode d _ _ | .qseq d _ _ | .mfsr d _
  | .xinvAll d | .pref _ d _ | .migr d _ | .lreg d _ | .mclaim d _ | .mdrain d _ | .mfill d _ | .mtsr d _
  | .pfxvg _ d => { g := [d] }
  | .vadd d a b k _ | .vsub d a b k _ | .vmul d a b k _ | .vmin d a b k _ | .vmax d a b k _ | .vand d a b k _
  | .vor d a b k _ | .vxor d a b k _ | .vshl d a b k _ | .vshr d a b k _ | .vsar d a b k _ | .vfma d a b k _
  | .vcmpeq d a b k _ | .vcmplt d a b k _ | .vcmple d a b k _ | .vsel d a b k _ | .vred d a b k _ _ | .vdot d a b k _
  | .vperm d a b k _ | .vtrnLo d a b k _ | .vtrnHi d a b k _ => { v := [d, a, b] ++ maskNames k }
  | .vabs d a k _ | .vrcp d a k _ | .vrsq d a k _ | .vexp2 d a k _ | .vcvt d a _ k _ _ | .vbcstEl d a _ k _
  | .vslideDn d a _ k _ | .vslideUp d a _ k _ | .viota d a k _ => { v := [d, a] ++ maskNames k }
  | .viotaIdx d k _ => { v := d :: maskNames k }
  | .vbcst d a k _ => { g := [a], v := d :: maskNames k }
  | .vext d a b => { g := [d, b], v := [a] }
  | .vins d a b => { g := [a, b], v := [d] }
  | .vpopc d a k => { g := [d], v := a :: maskNames k }
  | .vld v a _ k _ | .vst v a _ k _ => { g := [a], v := v :: maskNames k }
  | .vlds v a b k _ | .vsts v a b k _ => { g := [a, b], v := v :: maskNames k }
  | .vgth v a b k _ | .vsct v a b k _ => { g := [a], v := [v, b] ++ maskNames k }
  | .tld _ a _ | .tst _ a _ => { v := [a], t := true }
  | .lqry d _ => { v := [d] }
  | .mread d a _ | .trq d a => { g := [a], v := [d] }
  | .copy d a _ | .copym d a _ | .copyd d a _ => { g := [d], v := [a] }
  | _ => {}

/-- Whether a word is for supervisors alone (spec R290). -/
def Instr.needsSup (i : Instr) : Bool :=
  match i with
  | .xinv .. | .xinvAll .. | .ctlLaunch .. | .ctlSpload .. | .ctlSpdrop .. | .ctlKillt .. | .ctlKilll .. | .ctlPark ..
  | .ctlUnpark .. | .trq .. | .tret .. | .cmnt .. | .lpwr .. | .halt .. | .haltRel .. => true
  | _ => false

/-- Whether a word traps at steps 2 to 5 of R168, before it touches a register line. -/
def State.stops (s : State) (t : Thread) (w : Ins) (i : Instr) : Bool :=
  let block := match s.layout? t.space (bits w.toNat 11 7) with
    | some r => fmtBlock (recFmt r)
    | none => false
  !t.prefixOk (opRule (bits w.toNat 31 24) block) || (Instr.needsSup i && !t.sup) || !t.has (Instr.names i) ||
    match i with
    | .mfsr _ n => t.sysCheck n != .ok ()
    | .mtsr _ n => t.sysCheck n != .ok ()
    | _ => false

/-- The lines that a word waits for. -/
def State.lacks (s : State) (t : Thread) (w : Ins) (i : Instr) : List (Nat × Bool) :=
  if (t.missing i).isEmpty || s.stops t w i then [] else t.missing i

/-! ### Result latencies (spec R58, R181, R233, R253); every other latency is timing that the model leaves out -/

/-- Significant bits of the magnitude of a quotient. -/
def sigBits (n : Nat) : Nat := if n = 0 then 0 else n.log2 + 1

/-- Cycles of a division. -/
def divLatency (zero : Bool) (q : Nat) : Nat := if zero then 20 else 20 + (sigBits q + 3) / 4

/-- Nominal cycles of a load whose first byte lands at a place (spec R58, R59); for memory, those of a line that the
tile cache holds (log entry 8). -/
def State.placeLatency (s : State) (t : Thread) (w : Who) (l : Loc) : Nat :=
  let away (tower : Nat) : Nat := if tower = posTower t.cur then 0 else 40
  match l.win with
  | some .core =>
    scratchLatency w.pk t.cur
  | some .hearth => 38 + away (posTower w.pk) + (if (s.tower (posTower w.pk)).hthrot then 16 else 0)
  | some _ => 100
  | none => 24

/-- Nominal cycles of a load of a requester from an address. -/
def State.latencyAt (s : State) (w : Who) (va : Nat) : Nat :=
  let t := s.thr
  if (winOf va).isNone && (s.l1Hit w va 1).isSome then 6
  else
    match s.locate w .load (va, 1) with
    | .ok l => s.placeLatency t w l
    | _ => 24

/-- Nominal cycles of a load of the focus thread from an address. -/
def State.loadLatency (s : State) (va : Nat) : Nat := s.latencyAt (s.who s.thr s.thr.view) va

/-- Those of a vector load: of the active element that takes longest. -/
def State.vloadLatency (s : State) (k : BitVec 3) (addr : Nat → Word) : Nat :=
  let t := s.thr
  (((upto 0 t.ety.vlmax).filter (t.active k)).map (fun i => s.loadLatency (addr i).toNat)).foldl max 1

/-- Those of TLD. -/
def State.tileLatency (s : State) (a : BitVec 6) (l : BitVec 5) : Nat :=
  let t := s.thr
  match s.layout? t.space l.toNat with
  | none => 1
  | some r =>
    let w := recWho (s.issuer t) t.cur r
    ((t.tileElems r (s.recPage t.key t.space (posTower t.cur) r) a).map (fun e => s.latencyAt w e.2.va)).foldl max 1

/-- The result latency of the focus thread's instruction. -/
def State.latency (s : State) (i : Instr) : Nat :=
  let t := s.thr
  let flt := (floatOf t.ety).isSome
  match i with
  | .mul .. | .mulh .. | .mulhz .. => 3
  | .div _ a b => divLatency (t.g b == 0) ((t.g a).toInt.natAbs / (t.g b).toInt.natAbs)
  | .rem _ a b => divLatency (t.g b == 0) ((t.g a).toInt.natAbs / (t.g b).toInt.natAbs)
  | .divz _ a b | .remz _ a b => divLatency (t.g b == 0) ((t.g a).toNat / (t.g b).toNat)
  | .fadd .. | .fsub .. | .fmul .. | .ffma .. | .frcp .. | .frsq .. | .fcvti .. | .fcvtf .. | .fcvtn .. | .fcvtnUp .. => 4
  | .fmin .. | .fmax .. | .flt .. | .fle .. | .feq .. => 2
  | .fdiv .. | .fsqrt .. => 18
  | .ldb _ a o | .ldbz _ a o | .ldh _ a o | .ldhz _ a o | .ldw _ a o | .ldwz _ a o | .ldd _ a o =>
    s.loadLatency (t.g a + t.imm o).toNat
  | .lda _ a _ o | .ldsy _ a _ o => s.loadLatency (t.splitVa a o).toNat
  | .amow _ a _ _ _ | .amod _ a _ _ _ => s.loadLatency (t.g a).toNat + 2
  | .arw _ a _ | .await _ a _ => s.loadLatency (t.g a).toNat
  | .vld _ a o k _ => s.vloadLatency k (t.unitAddr a o)
  | .vlds _ a b k _ => s.vloadLatency k (t.strideAddr a b)
  | .vgth _ a b k _ => s.vloadLatency k (t.offsetAddr a b)
  | .tld _ a l => s.tileLatency a l
  | .mclaim .. => 128
  | .mdrain .. | .mfill .. => 513
  | .vadd .. | .vsub .. => if flt then 6 else 2
  | .vmin .. | .vmax .. | .vabs .. | .vand .. | .vor .. | .vxor .. | .vshl .. | .vshr .. | .vsar .. | .vcmpeq ..
  | .vcmplt .. | .vcmple .. | .vsel .. | .vbcst .. | .vbcstEl .. | .vext .. | .vins .. | .vperm .. | .vslideDn ..
  | .vslideUp .. | .viota .. | .viotaIdx .. | .vpopc .. | .vtrnLo .. | .vtrnHi .. => 2
  | .vcvt .. => 4
  | .vmul .. | .vfma .. | .vdot .. | .vred .. | .vrcp .. | .vrsq .. | .vexp2 .. => 6
  | .mstat .. | .qwait .. | .mfsr .. | .mtsr .. => 2
  | .mread .. => 8
  | _ => 1

/-- Which divider an instruction occupies. -/
inductive Divider | none | int | fp
  deriving DecidableEq, Repr

/-- The divider of an instruction. -/
def dividerOf (i : Instr) : Divider :=
  match i with
  | .div .. | .divz .. | .rem .. | .remz .. => .int
  | .fdiv .. | .fsqrt .. => .fp
  | _ => .none

/-- Whether an instruction goes through the VMU (spec R233, R338). VCFG takes no entry of its dispatch queue: log entry 115. -/
def Instr.isVmu (i : Instr) : Bool :=
  match i with
  | .vadd .. | .vsub .. | .vmin .. | .vmax .. | .vabs .. | .vand .. | .vor .. | .vxor .. | .vshl .. | .vshr .. | .vsar ..
  | .vcmpeq .. | .vcmplt .. | .vcmple .. | .vsel .. | .vbcst .. | .vbcstEl .. | .vext .. | .vins .. | .vperm .. | .vslideDn ..
  | .vslideUp .. | .viota .. | .viotaIdx .. | .vpopc .. | .vtrnLo .. | .vtrnHi .. | .vcvt .. | .vmul .. | .vfma .. | .vdot ..
  | .vred .. | .vrcp .. | .vrsq .. | .vexp2 .. => true
  | _ => false

/-- Whether the thread issues nothing more until an instruction's cycles are over: the transfers of R266, and MCLAIM while
its slot is zeroed (spec R253): log entry 8. -/
def Instr.holds (i : Instr) : Bool :=
  match i with
  | .mclaim .. | .mdrain .. | .mfill .. => true
  | _ => false

/-- The vector register of which an instruction may leave any value in the elements that it does not compute (spec R44). -/
def Instr.anyDest (i : Instr) : Option (BitVec 6) :=
  match i with
  | .vadd d _ _ _ true | .vsub d _ _ _ true | .vmul d _ _ _ true | .vfma d _ _ _ true | .vmin d _ _ _ true
  | .vmax d _ _ _ true | .vabs d _ _ true | .vand d _ _ _ true | .vor d _ _ _ true | .vxor d _ _ _ true
  | .vshl d _ _ _ true | .vshr d _ _ _ true | .vsar d _ _ _ true | .vcmpeq d _ _ _ true | .vcmplt d _ _ _ true
  | .vcmple d _ _ _ true | .vsel d _ _ _ true | .vrcp d _ _ true | .vrsq d _ _ true | .vexp2 d _ _ true
  | .vcvt d _ _ _ true _ | .vred d _ _ _ true _ | .vdot d _ _ _ true | .vbcst d _ _ true | .vbcstEl d _ _ _ true
  | .vperm d _ _ _ true | .vslideDn d _ _ _ true | .vslideUp d _ _ _ true | .viota d _ _ true | .viotaIdx d _ true
  | .vtrnLo d _ _ _ true | .vtrnHi d _ _ _ true | .vld d _ _ _ true | .vlds d _ _ _ true | .vgth d _ _ _ true => some d
  | _ => none

/-! ### Readiness (spec R337) -/

/-- Whether the queue that an instruction needs takes it: a queue of the tile, or the VMU dispatch queue of the core, which
holds 8 entries (spec R85, R233, R270, R338). -/
def State.queueTakes (s : State) (t : Thread) (i : Instr) : Bool :=
  let x := s.tile t.tile
  match i with
  | .copy _ _ q | .copym _ _ q | .copyd _ _ q => q == .q4 || x.hasRoom (queueNo q)
  | .mldw .. | .mswap .. | .mma .. | .mmae .. | .mzero .. | .mresume .. => x.hasRoom 4
  | _ => !Instr.isVmu i || decide ((s.core (posCore t.cur)).vmu.length < 8)

/-- Whether the bytes of an instruction wait for nothing: no result of the thread is on its way to a byte that it
reads, and no outstanding load to a byte that it touches (spec R37). -/
def Thread.bytesReady (t : Thread) (cycle : Nat) (x : Touch) : Bool :=
  !t.busy.any (fun b => decide (cycle < b.till) && x.reads.any (overlaps (b.lo, b.n))) &&
  !t.accs.any (fun a =>
    match a with
    | .load _ ps => ps.any (fun p => p.width != 0 && (x.reads ++ x.writes).any (overlaps (p.dst, p.width)))
    | _ => false)

/-- Ready(t) of R337 but for a YIELD that holds the thread. A word that will trap is ready. -/
def State.canIssue (s : State) (t : Thread) : Bool :=
  let c := s.core (posCore t.cur)
  t.state == .active && t.held && (!t.leaving || s.opPending t) && t.trapStage == .none && t.waitLoad.isNone && decide (t.readyAt ≤ c.cycle) &&
    match s.fetch t with
    | .later _ => false
    | .fault _ => true
    | .word w =>
      match decode w with
      | .error _ => true
      | .ok i =>
        let x := t.touched i
        (s.lacks t w i).isEmpty && t.bytesReady c.cycle x && s.queueTakes t i &&
          match dividerOf i with
          | .none => true
          | .int => decide (c.divTill ≤ c.cycle)
          | .fp => decide (c.fdivTill ≤ c.cycle)

/-- The threads that a core holds. -/
def State.on (s : State) (core : Nat) : List Thread := s.all.filter (fun t => t.held && posCore t.cur == core)

/-- The other ACTIVE threads of the focus thread's priority and core that have a ready instruction (spec R199). One that a YIELD of its own
holds is among them: log entry 122. -/
def State.yieldsTo (s : State) : List Key :=
  ((s.on (posCore s.thr.cur)).filter (fun t => t.key != s.thr.key && t.prio == s.thr.prio && s.canIssue t)).map Thread.key

/-- YIELD. -/
def execYield (s : State) : Out := s.hint (fun t => { t with owed := s.yieldsTo })

end Sys2Proof.Machine
end

