-- ==== Sys2Proof/Machine/Sched.lean ====
section
/-! DEFINITION. The events by which the device schedules threads: activation with materialisation and placement,
admission, demotion, eviction, register-line fills, wakes, crumbs and trap records (spec R17 to R31, R45, R46, R75,
R305, R331 to R336, R346). An event whose condition is not met leaves the state as it is. -/

namespace Sys2Proof.Machine

/-! ### Room in a register cache (spec R47, R52, R334, R335) -/

/-- The lines of a register cache in a mode. -/
def Mode.lines (m : Mode) : Nat := m.rcsz.toNat * 32

/-- The register lines that a core keeps of a thread: resident ones, and those allocated for a word that waits for more. -/
def Thread.kept (t : Thread) : List Nat := t.lines ++ t.alloc.filter (fun j => !t.lines.contains j)

/-- The lines that a thread takes: two for its header, and its register lines. -/
def Thread.used (t : Thread) : Nat := 2 + t.kept.length

/-- The lines that the threads of a core take. -/
def State.usedOn (s : State) (core : Nat) : Nat := ((s.on core).map Thread.used).sum

/-- The lines of a core that are free for a launch of a mode; a core that changes its mode is empty. -/
def State.freeLines (s : State) (m : Mode) (core : Nat) : Nat :=
  if (s.core core).mode = some m then m.lines - s.usedOn core - (s.core core).pre.length else m.lines

/-- The register lines of a thread that may be replaced: those that no issued word still reads or writes, without those in
`keep`. -/
def State.spareLines (s : State) (t : Thread) (keep : List Nat) : List Nat :=
  let cycle := (s.core (posCore t.cur)).cycle
  let fills (ps : List LoadPiece) (j : Nat) : Bool := ps.any (fun p => overlaps (p.dst, p.width) (128 * j, 128))
  let inUse (j : Nat) : Bool :=
    t.busy.any (fun b => decide (cycle < b.till) && overlaps (b.lo, b.n) (128 * j, 128)) ||
    (match t.waitLoad with | some w => fills w.pieces j | none => false) ||
    t.accs.any (fun a =>
      match a with
      | .load _ ps => fills ps j
      | _ => false)
  t.kept.filter (fun j => !keep.contains j && !inUse j)

/-- The place of a thread's lines in the table of R335, for a requester and its priority. -/
def victimRank (req : Key) (prio : Nat) (t : Thread) : Option Nat :=
  if t.key = req then some 48
  else
    match t.state with
    | .parked => some t.prio.toNat
    | .resident => some (16 + t.prio.toNat)
    | .active => if t.prio.toNat ≤ prio then some 32 else none
    | _ => none

/-- The line that goes to make room (spec R335): by the rows of the table, and within a row the one used least recently. -/
def State.lineVictim (s : State) (core : Nat) (req : Key) (prio : Nat) (keep : List Nat) : Option (Thread × Nat) :=
  let rank (x : Thread × Nat) : Nat := (victimRank req prio x.1).getD 64 * 2 ^ 64 + Tab.get x.1.usedAt x.2 0
  least rank (((s.on core).filter (fun t => (victimRank req prio t).isSome)).flatMap (fun t =>
    (s.spareLines t (if t.key = req then keep else [])).map (fun j => (t, j))))

/-- The bytes of its context that the replacement of a thread's line writes: none for a clean line. The first write-back of a
new thread writes STATE as well (spec R24). -/
def Thread.replaced (t : Thread) (j : Nat) : List (Nat × Nat) :=
  if t.dirtyLines.contains j then
    (t.ctx.toNat + 256 + 128 * j, 128) :: (if t.fresh then [(t.ctx.toNat, 256)] else [])
  else []

/-- A line of a thread is written back, if memory does not hold it yet, and dropped. One whose page does not take it traps
its thread, which keeps its state until its record is written (spec R13, R23); a thread with a trap on its way keeps that
one. -/
def State.replaceLine (s : State) (t : Thread) (j : Nat) : State :=
  let u := t.dropLine j
  if t.dirtyLines.contains j = false then s.setThread u
  else
    match s.writeLine t j with
    | some s' =>
      let s' := if t.fresh then s'.writeState t 2 else s'
      (s'.ctxDirtied t (t.replaced j)).setThread { u with fresh := false }
    | none =>
      if t.trapStage = .none then
        s.setThread (u.trapLost s.clock (ctxfTrap 3 j (t.ctx.toNat + 256 + 128 * j)) .delivered)
      else s.setThread u

/-- Make room for `n` more lines on a core: clean prefill copies go first, then lines by the table of R335. -/
def State.makeRoom (s : State) (core : Nat) (cap n : Nat) (req : Key) (prio : Nat) (keep : List Nat) : Nat → State
  | 0 => s
  | fuel + 1 =>
    let used := s.usedOn core + n
    if used ≤ cap then
      let c := s.core core
      if used + c.pre.length ≤ cap then s else s.setCore core { c with pre := c.pre.take (cap - used) }
    else
      match s.lineVictim core req prio keep with
      | none => s
      | some (t, j) => s.ctxWhen t true (fun s => (s.replaceLine t j).makeRoom core cap n req prio keep fuel) (t.replaced j)

/-- Whether a core's register cache has room for `n` more lines. -/
def State.roomOn (s : State) (core cap n : Nat) : Bool := decide (s.usedOn core + n ≤ cap)

/-! ### Placement (spec R331 to R333) -/

/-- The mode that a launch needs. -/
def Launch.mode (l : Launch) : Mode :=
  { space := l.space
    rcsz := BitVec.ofNat 8 (l.field 263 256)
    scsz := BitVec.ofNat 8 (l.field 271 264)
    l1sz := BitVec.ofNat 8 (l.field 279 272)
    policy := bit l.record.toNat 324 }

/-- Whether a core is in an instance of a domain of this device. -/
def coreInDom (d inst core : Nat) : Bool :=
  match d with
  | 0 => core == inst
  | 1 => core / 4 == inst
  | 2 => core / 16 == inst
  | 3 => core / 64 == inst
  | _ => true

/-- The instance of a domain that a core is in. -/
def domOfCore (d core : Nat) : Nat :=
  match d with
  | 0 => core
  | 1 => core / 4
  | 2 => core / 16
  | 3 => core / 64
  | _ => 0

/-- Whether a core takes activations for a partition. -/
def State.coreServes (s : State) (part core : Nat) : Bool :=
  !(s.core core).fenced && bit s.present.toNat (core / 64) && s.towerIn part (core / 64)

/-- Whether a tile serves a space, or can change to it (spec R331). -/
def State.tileFits (s : State) (space : BitVec 16) (tile : Nat) : Bool :=
  let t := s.tile tile
  t.space.all (fun x => x == space) ||
    (s.all.all (fun u => !(u.held && posTile u.cur == tile)) && t.queues.all (fun q => q.2.cmds.isEmpty) &&
      t.slots.all (fun x => x.2.owner.isNone))

/-- Whether a core has a mode, or can change to it, on a tile that serves its space (spec R121, R331). -/
def State.modeFits (s : State) (m : Mode) (core : Nat) : Bool :=
  ((s.core core).mode == some m || (s.on core).isEmpty) && s.tileFits m.space (core / 4)

/-- The core with the most free register-cache lines, the lowest of equals. -/
def State.choose (s : State) (m : Mode) (cs : List Nat) : Option Nat := least (fun c => 2 ^ 16 - s.freeLines m c) cs

/-- Whether the assignments of a launch let flat index `x` stand on a core of this device. -/
def Launch.allows (l : Launch) (dev : BitVec 12) (x core : Nat) : Bool :=
  l.here dev x && l.places.all (fun p =>
    p.inst != l.inst p.level x || (p.dev == dev && coreInDom (l.dom p.level) p.dom core))

/-- A candidate for activation: a flat index that is CREATED, or a DORMANT thread. -/
inductive Cand
  | created (l : Launch) (x : Nat)
  | dormant (l : Launch) (t : Thread)
  deriving DecidableEq, Repr

/-- The launch of a candidate. -/
def Cand.launch : Cand → Launch
  | .created l _ => l
  | .dormant l _ => l

/-- The priority of a candidate. -/
def Cand.prio : Cand → Nat
  | .created l _ => l.field 323 320
  | .dormant _ t => t.prio.toNat

/-- The flat index of a candidate. -/
def Cand.index : Cand → Nat
  | .created _ x => x
  | .dormant _ t => t.index.toNat

/-- The order of candidates (spec R334, R340): those of launches that the watchdog pre-empted come last. -/
def Cand.rank (c : Cand) : Nat :=
  ((b2n c.launch.depri * 16 + (15 - c.prio)) * 2 ^ 32 + c.launch.id.toNat) * 2 ^ 33 + c.index

/-- Whether user threads of a space are halted. -/
def State.halted (s : State) (space : BitVec 16) (priv : Bool) : Bool :=
  !priv && (match s.space? space with | some x => x.halted | none => false)

/-- The flat indexes of a launch that this device may materialise (spec R24, R330, R332). -/
def Launch.createdHere (l : Launch) (dev : BitVec 12) : List Nat :=
  if l.spans && l.nlev == 0 then
    (l.granted ++ (if l.origin = dev && l.devlist.contains dev && !l.noMore && decide (l.nextIndex < l.size) then [l.nextIndex]
      else [])).filter (fun x => !l.handed.contains x)
  else (upto 0 l.size).filter (fun x => !l.handed.contains x && l.here dev x)

/-- Whether a launch creates threads: it is the running launch of its queue and its space is loaded and not halted. -/
def State.creates (s : State) (l : Launch) : Bool :=
  s.running l.queue == some l && (s.space? l.space).isSome && !s.halted l.space (bit l.record.toNat 327)

/-- Whether the claim of a DORMANT thread's context may succeed: STATE at the header's home is 1 (spec R24). A header that
cannot be read decides nothing yet. -/
def State.claimable (s : State) (t : Thread) : Bool :=
  match s.headerPlace t, s.ctxReady t true (t.ctx.toNat, 256) with
  | some f, .ok => (s.badByte f 256).isSome || (s.mem.read (f + 8)).toNat % 8 == 1
  | _, _ => true

/-- The candidates for activation. -/
def State.candidates (s : State) : List Cand :=
  (s.launches.filter s.creates).flatMap (fun l => (l.createdHere s.dev).map (Cand.created l)) ++
  (s.all.filter (fun t => t.state == .dormant && t.trapStage == .none && !s.halted t.space t.priv && s.claimable t)).filterMap
    (fun t => (s.launch? t.key.launch).map (fun l => Cand.dormant l t))

/-- The flat index as a launch at its origin takes it. -/
def Launch.taking (l : Launch) (dev : BitVec 12) (x : Nat) : Launch :=
  if l.spans && l.nlev == 0 && l.origin == dev && !l.granted.contains x then
    ({ l with granted := x :: l.granted } : Launch).skipTo (l.nextIndex + 1)
  else l

/-- The core on which a candidate is activated (spec R332, R333). -/
def State.placeOf (s : State) (c : Cand) : Option Nat :=
  let l := c.launch
  let m := l.mode
  let ok (k : Nat) : Bool := s.coreServes (partOf l.space) k && s.modeFits m k
  match c with
  | .created l x => s.choose m ((upto 0 512).filter (fun k => ok k && (l.taking s.dev x).allows s.dev x k))
  | .dormant l t =>
    if t.arrived && !(s.core (posCore t.cur)).fenced then s.choose m ([posCore t.cur].filter ok)
    else
      let d := max (l.dom 0) 1
      s.choose m ((upto 0 512).filter (fun k => sameInstance (domScope d) (posOf s.dev k) t.cur && ok k))

/-- The thread that gives up its room to a candidate of a priority (spec R334); the candidate waits where its eviction
does. -/
def State.roomVictim (s : State) (core prio : Nat) : Option Thread :=
  let rank (t : Thread) : Nat := t.prio.toNat * 2 ^ 64 + (2 ^ 64 - 1 - t.age.toNat)
  let ts := s.on core
  match least rank (ts.filter (fun t => t.state == .parked)) with
  | some v => some v
  | none => least rank (ts.filter (fun t => t.state == .resident && decide (t.prio.toNat < prio)))

/-- Whether a candidate comes to a core: it is placed there, and room is or can be made. One of a pre-empted launch
comes only where no other launch waits for room in the tower (spec R340), of which a pre-empted one is none: log entry 126. -/
def State.admits (s : State) (cs : List Cand) (core : Nat) (c : Cand) : Bool :=
  s.placeOf c == some core &&
    (decide (2 ≤ s.freeLines c.launch.mode core + (s.core core).pre.length) || (s.roomVictim core c.prio).isSome) &&
    (!c.launch.depri || cs.all (fun d => d.launch.depri ||
      (match s.placeOf d with | some k => k / 64 != core / 64 | none => true)))

/-! ### Activation (spec R18, R24, R121, R331, R334) -/

/-- A core that has no mode: nothing of its former space is in its pools. -/
def Core.blank (c : Core) : Core :=
  { c with
    mode := none
    l1 := []
    cells := []
    pre := [] }

/-- A tile changes to a space (spec R121, R331): its planes are zeroed, and the modes of its other cores, which held the
space before, go. -/
def State.tileTo (s : State) (tile core : Nat) (space : BitVec 16) : State :=
  let s := { s with cores := s.cores.map (fun (c : Nat × Core) =>
    if c.1 / 4 = tile ∧ c.1 ≠ core ∧ c.2.mode.any (fun (m : Mode) => m.space != space) then (c.1, c.2.blank) else c) }
  s.setTile tile { s.tile tile with
    active := {}
    shadow := {}
    pendActive := none
    pendShadow := none
    space := some space }

/-- A core takes the mode of a launch; a change of space gives it the space's scratch image, and the tile changes with
it. Activation drops the space's L1 lines of the core, so that the thread's earlier acquires hold (spec R25). -/
def State.prepare (s : State) (core : Nat) (m : Mode) : State :=
  let c := s.core core
  let same := c.mode == some m
  let c := { c with
    mode := some m
    l1 := if same then c.l1.filter (fun l => l.space != m.space) else []
    cells := if same then c.cells else []
    pre := if same then c.pre else [] }
  let s := s.setCore core c
  let s := if (s.tile (core / 4)).space = some m.space then s else s.tileTo (core / 4) core m.space
  s.setImage (coreKey m.space s.dev core 0) m.scsz (fun i => { i with
    scsz := m.scsz
    settled := true })

/-- What reading a template gives: the bytes, with zeros for what could not be read, and the lowest address that could
not be read with the class of its trap; or it waits. -/
inductive Tmpl
  | read (s : State) (bytes : List Byte) (bad : Option (Nat × TrapClass))
  | later (s : State)
  deriving DecidableEq, Repr

/-- Read a template, 8 bytes at a time, as plain loads by the new thread (spec R18). -/
def State.readTemplate (s : State) (t : Thread) : List Nat → Tmpl
  | [] => .read s [] none
  | va :: r =>
    let rest (s : State) (bs : List Byte) (bad : Option TrapClass) : Tmpl :=
      match s.readTemplate t r with
      | .read s' bs' bad' => .read s' (bs ++ bs') (match bad with | some c => some (va, c) | none => bad')
      | .later s' => .later s'
    let w := s.who t .none
    match s.access w .template (BitVec.ofNat 64 va) 8 8 with
    | .trap x => rest s (leBytes 8 0) (some x.cls)
    | .ok ls =>
      match s.ready t false ls with
      | .later s' => .later s'
      | .trap _ x => rest s (leBytes 8 0) (some x.cls)
      | .ok =>
        let s := (s.took t false ls).noteImages w.scsz ls
        if (s.emptyLines ls).isEmpty then rest (s.fillFrom w ls) (s.readLocs ls) none else .later s
    | .wait n => .later (s.wantEntry t.key t.cur n)
    | .travel _ _ => .later s

/-- The header of a new thread (spec R11, R18 step 1). -/
def State.created (s : State) (l : Launch) (x core : Nat) : Thread :=
  let f := l.field
  { pc := BitVec.ofNat 64 (f 63 0)
    state := .resident
    priv := bit l.record.toNat 327
    prio := BitVec.ofNat 4 (f 323 320)
    policy := bit l.record.toNat 324
    order := bit l.record.toNat 325
    ftz16 := bit l.record.toNat 326
    space := l.space
    anchor := posOf s.dev core
    cur := posOf s.dev core
    gcount := BitVec.ofNat 7 (f 198 192)
    vcount := BitVec.ofNat 8 (f 207 200)
    vbase := BitVec.ofNat 8 (f 215 208)
    tbase := BitVec.ofNat 8 (f 223 216)
    rsize := BitVec.ofNat 7 (f 230 224)
    index := BitVec.ofNat 32 x
    launch := l.id
    ctx := BitVec.ofNat 64 (l.ctx x)
    age := s.ageCount + 1
    fresh := true
    held := true
    actSeq := s.actCount + 1 }

/-- Steps 2 to 5 of R18: zeros, the template, ARG and the flat index; every line is resident and dirty. -/
def Launch.fillRegs (l : Launch) (t : Thread) (tmpl : List Byte) : Thread :=
  let t := t.writeRegs 0 tmpl
  { (t.setG 1 (BitVec.ofNat 64 (l.field 127 64))).setG 2 (t.index.setWidth 64) with
    lines := t.allLines
    dirty := t.allLines }

/-- A launch after flat index `x` is materialised on a core: the index is handed out and its levels are assigned. -/
def Launch.placed (l : Launch) (dev : BitVec 12) (x core : Nat) : Launch :=
  let l := l.taking dev x
  let open_ := (upto 0 (l.nlev + 1)).filter (fun k => !l.places.any (fun p => p.level == k && p.inst == l.inst k x))
  { l with
    started := true
    handed := x :: l.handed
    places := open_.map (fun k => { level := k, inst := l.inst k x, dev := dev, dom := domOfCore (l.dom k) core : Place }) ++ l.places }

/-- A core takes note of the cycle in which it began an activation (spec R334), however that ends. -/
def State.began (s : State) (core : Nat) : State :=
  s.setCore core { s.core core with taken := some (max (s.core core).cycle s.clock) }

/-- Materialise flat index `x` of a launch on a core that has its mode. -/
def State.materialise (s : State) (l : Launch) (x core : Nat) : State :=
  let t := s.created l x core
  match s.readTemplate t ((upto 0 (l.field 461 448)).map (fun i => l.field 447 384 + 8 * i)) with
  | .later s' => s'
  | .read s bytes bad =>
    let t := l.fillRegs t bytes
    let t := match bad with
      | some (va, c) => t.trap s.clock (ctxfTrap 4 c.code.toNat va)
      | none => t
    let s := (s.setLaunch (l.placed s.dev x core))
    let s := { s with
      threads := s.threads ++ [t]
      actCount := s.actCount + 1
      ageCount := s.ageCount + 1
      txns := s.txns.filter (fun y => !(y.thread == some t.key && y.answer.isSome)) }
    (s.began core).makeRoom core l.mode.lines 0 t.key t.prio.toNat [] (s.usedOn core)

/-- A thread whose header cannot be used at activation is RESIDENT until its record is written, and not held (spec R23). -/
def Thread.headerTrap (t : Thread) (now cause : Nat) : Thread :=
  { (t.trapLost now (ctxfTrap cause 0xFFF t.ctx.toNat) .evicted).released with state := .resident }

/-- The trap fields alone go to a header that is kept as it is otherwise (spec R346 step 2). -/
def State.writeTrapFields (s : State) (t : Thread) (f : Nat) : State :=
  (s.store f (leBytes 8 t.pc.toNat)).store (f + 64)
    (leBytes 24 (pack [(8, t.trclass.toNat), (56, t.trinfo.toNat), (64, t.trva.toNat), (64, t.trpc.toNat)]))

/-- A record of class DATA for a bad header, whose thread is killed (spec R344). -/
def State.badHeader (s : State) (t : Thread) : State :=
  let u := t.trap s.clock { cls := .data, cause := 2, detail := 0xFFF, va := t.ctx }
  (s.killThread t).postPlain t.space u.record

/-- A thread's record from the header at its home, on a core that claims it (spec R20, R24): the device keeps the name that
its launch gave it where software altered LAUNCHID or INDEX (spec R12), and what a HINT before PC means is forgotten when
software moved PC. -/
def Thread.fromHome (t : Thread) (h : Nat) (dev : BitVec 12) (core seq : Nat) : Thread :=
  let u := t.ofHeader h
  { u with
    named := if (⟨u.launch, u.index⟩ : Key) = t.key then none else some t.key
    cur := posOf dev core
    state := .resident
    held := true
    arrived := false
    afterHint := t.afterHint && u.pc == t.pc
    actSeq := seq }

/-- Whether a prefill copy still equals the memory image of its line, as far as this module's own memory shows it: a line
that software has stored to since is filled afresh (spec R12, R27). -/
def State.prefillGood (s : State) (t : Thread) (p : Prefill) : Bool :=
  decide (p.line < t.space_bytes / 128) &&
    match s.linePlace t p.line with
    | some f => f / 2 ^ 48 != s.dev.toNat || s.mem.readBytes f 128 == p.data
    | none => true

/-- A prefill copy becomes a resident line, clean. -/
def Thread.takePrefill (t : Thread) (p : Prefill) : Thread :=
  if t.lines.contains p.line then t
  else { t.writeRegs (128 * p.line) p.data with lines := p.line :: t.lines }

/-- Prefill copies that a core holds of a thread become resident lines; every other core drops its copies (spec R27). -/
def State.usePrefill (s : State) (t : Thread) (core : Nat) : State × Thread :=
  let mine := (s.core core).pre.filter (fun p => p.thread == t.key && s.prefillGood t p)
  let drop (c : Core) : Core := { c with pre := c.pre.filter (fun p => p.thread != t.key) }
  ({ s with cores := s.cores.map (fun c => (c.1, drop c.2)) }, mine.foldl Thread.takePrefill t)

/-- Claim the context of a DORMANT thread for a core and fetch its header (spec R13, R24, R334). Where STATE at its home is
not 1, the core abandons the activation. -/
def State.claimContext (s : State) (l : Launch) (t : Thread) (core : Nat) : State :=
  match s.headerPlace t with
  | none => s.setThread (t.headerTrap s.clock 1)
  | some f =>
    if (s.badByte f 256).isSome then s.badHeader t
    else if (s.mem.read (f + 8)).toNat % 8 ≠ 1 then s
    else
      let h := s.mem.readNum f 256
      let u := t.fromHome h s.dev core (s.actCount + 1)
      let s := { s with actCount := s.actCount + 1 }
      if headerOk h = false then
        let v := u.headerTrap s.clock 2
        ((s.writeTrapFields v f).setThread v).ctxDirtied t (t.ctxBytes [])
      else
        let (s, u) := s.usePrefill u core
        let s := ((s.writeState t 2).setThread u).ctxDirtied t (t.ctxBytes [])
        s.makeRoom core l.mode.lines 0 u.key u.prio.toNat [] (s.usedOn core)

/-- A core claims a candidate. -/
def State.claim (s : State) (core : Nat) (c : Cand) : State :=
  match c with
  | .created l x => (s.prepare core l.mode).materialise l x core
  | .dormant l t => s.ctxWhen t true (fun s => ((s.prepare core l.mode).began core).claimContext l t core) (t.ctxBytes [])

/-- Whether a core may begin an activation: it began none in the last 32 cycles (spec R334). -/
def State.mayActivate (s : State) (core : Nat) : Bool :=
  (s.core core).taken.all (fun n => decide (n + 32 ≤ max (s.core core).cycle s.clock))

/-- A device that has room asks the origins of single-level SYSTEM launches for a flat index (spec R330). -/
def State.askIndexes (s : State) (core : Nat) : State :=
  match s.launches.find? (fun l => s.creates l && l.spans && l.nlev == 0 && l.origin != s.dev && !l.noMore && !l.asked &&
      (l.createdHere s.dev).isEmpty && s.coreServes (partOf l.space) core && s.modeFits l.mode core &&
      decide (2 ≤ s.freeLines l.mode core)) with
  | some l => { s.setLaunch { l with asked := true } with outLaunch := s.outLaunch ++ [.ask l.origin l.id] }
  | none => s

/-- Before a thread comes to a core, what the threads of the tower have outstanding is performed, killed ones among them: releases of
theirs at narrow scopes left it so while no other thread was there. -/
def State.joined (s : State) (core : Nat) (f : State → State) : State :=
  let ks := s.accKeys (fun t => posCore t.cur / 64 == core / 64)
  match s.accsWait ks with
  | some s' => s'
  | none => f (s.drainAll ks)

/-- ACTIVATE: the first candidate that comes to a core is claimed there; a victim is evicted first where the register
cache lacks two free lines. -/
def execActivate (core : BitVec 9) (s : State) : Out :=
  let k := core.toNat
  let cs := s.candidates
  if s.mayActivate k = false then .next s
  else
  match least Cand.rank (cs.filter (s.admits cs k)) with
  | none => .next (s.askIndexes k)
  | some c =>
    let cap := c.launch.mode.lines
    let fits (s : State) : Bool := (s.core k).mode != some c.launch.mode || s.roomOn k cap 2
    let go (s : State) : State := s.joined k (fun s => (s.makeRoom k cap 2 ⟨0, 0⟩ 0 [] 1).claim k c)
    if fits s then .next (go s)
    else
      match s.roomVictim k c.prio with
      | some v =>
        let s' := s.evict v
        .next (if fits s' then go s' else s')
      | none => .next s

/-! ### The issue set (spec R23, R336) -/

/-- The ACTIVE threads of a core. -/
def State.activeOn (s : State) (core : Nat) : List Thread := (s.on core).filter (fun t => t.state == .active && t.slot.isSome)

/-- The RESIDENT thread that is admitted next: by PRIO, then by the order of activation. -/
def State.nextAdmitted (s : State) (core : Nat) : Option Thread :=
  least (fun t => (15 - t.prio.toNat) * 2 ^ 64 + t.actSeq)
    ((s.on core).filter (fun t => t.state == .resident && t.trapStage == .none && !t.leaving))

/-- A thread enters the issue set at a slot and takes a new AGE. -/
def State.admitTo (s : State) (t : Thread) (slot : Nat) : State :=
  let age := s.ageCount + 1
  { s.setThread { t with
      state := .active
      slot := some slot
      age := age } with ageCount := age }

/-- ADMIT: the set holds fewer than 64 threads; the lowest free slot is taken. -/
def execAdmit (core : BitVec 9) (s : State) : Out :=
  let ts := s.activeOn core.toNat
  match s.nextAdmitted core.toNat, (upto 0 64).find? (fun i => !ts.any (fun t => t.slot == some i)) with
  | some t, some i => .next (if ts.length < 64 then s.admitTo t i else s)
  | _, _ => .next s

/-- A thread leaves the issue set at a group boundary; a load that waits is issued again. -/
def Thread.demoted (t : Thread) : Thread :=
  { t.regroup with
    state := .resident
    slot := none
    waitLoad := none
    took := false }

/-- DEMOTE: the set is full, and a RESIDENT thread of higher PRIO takes the slot of the ACTIVE thread of lowest PRIO
with the largest AGE. -/
def execDemote (core : BitVec 9) (s : State) : Out :=
  let ts := s.activeOn core.toNat
  match s.nextAdmitted core.toNat, least (fun t => t.prio.toNat * 2 ^ 64 + (2 ^ 64 - 1 - t.age.toNat)) ts with
  | some r, some v =>
    if 64 ≤ ts.length ∧ v.prio.toNat < r.prio.toNat ∧ v.trapStage = .none then
      match v.slot with
      | some i => .next (((s.setThread v.demoted).admitTo r i).unowe v.key)
      | none => .next s
    else .next s
  | _, _ => .next s

/-! ### Eviction, fills and wakes (spec R25, R26, R45, R46, R75) -/

/-- EVICT. -/
def execEvict (k : Key) (s : State) : Out :=
  match s.find k with
  | some t => .next (s.evict t)
  | none => .next s

/-- The word that a thread issues next. -/
def State.nextWord (s : State) (t : Thread) : Option Ins :=
  match s.fetch t with
  | .word w => some w
  | _ => none

/-- The instruction that a thread issues next. -/
def State.nextInstr (s : State) (t : Thread) : Option Instr := (s.nextWord t).bind (fun w => (decode w).toOption)

/-- The lines that an ACTIVE thread's next instruction waits for. -/
def State.waitsFor (s : State) (t : Thread) : List (Nat × Bool) :=
  if t.state = .active && t.held && t.trapStage == .none then
    match s.nextWord t, s.nextInstr t with
    | some w, some i => s.lacks t w i
    | _, _ => []
  else []

/-- A line that a thread waits for is allocated, or becomes resident as it is filled from its home; or the fill traps
(spec R45, R46). -/
def State.fill (s : State) (t : Thread) (j : Nat) (fills : Bool) : State :=
  if fills = false then s.setThread (s.allocLine t j)
  else
    match s.fillLine t j with
    | some u => s.setThread { u with usedAt := Tab.put u.usedAt j ((s.core (posCore t.cur)).cycle + 1) }
    | none => s.setThread (t.trap s.clock (ctxfTrap 1 j (t.ctx.toNat + 256 + 128 * j)))

/-- REGISTER_LINE_FILL: a line that the thread's next instruction needs arrives, after room was made for it. -/
def execRegisterLineFill (k : Key) (line : BitVec 9) (s : State) : Out :=
  match s.find k with
  | none => .next s
  | some t =>
    let need := s.waitsFor t
    match need.find? (fun x => x.1 == line.toNat) with
    | none => .next s
    | some (j, fills) =>
      let core := posCore t.cur
      let cap := match (s.core core).mode with | some m => m.lines | none => 0
      let keep := match s.nextInstr t with
        | some i => let x := t.touched i; linesOf (x.reads ++ x.writes)
        | none => []
      let s := s.makeRoom core cap 1 t.key t.prio.toNat keep (s.usedOn core + 1)
      let t := (s.find k).getD t
      if s.roomOn core cap 1 = false then .next s
      else if fills = false then .next (s.fill t j false)
      else .next (s.ctxWhen t false (fun s => s.fill t j true) [(t.ctx.toNat + 256 + 128 * j, 128)])

/-- Whether the event that a parked thread waits for has occurred (spec R26). A place of a peer or a host that this module does
not hold, and a wait of which nothing is recorded, count as events: the instruction looks itself. -/
def State.waitOver (s : State) (t : Thread) : Bool :=
  let here (k : Nat) (p : Bool) : Bool :=
    p || (s.isPeer k && s.lineState (k / 128) == .i) || (k / 2 ^ 48 == 0xFFF && s.halfState (k / 64) == .i)
  match t.wait with
  | .none => true
  | .line k => s.isFull k
  | .gen k g => here k (genReached (s.mem.readNum k 16) g)
  | .barrier _ _ => s.barrierOpen t
  | .cell k g =>
    if s.isPeer k then s.txns.any (fun x => x.thread == some t.key && x.key == k && x.answer.isSome)
    else (crdAt (s.mem.readNum k 16) g.toNat true).isSome || cellBad (s.mem.readNum k 16)
  | .ticket tile q k => decide (k.toNat ≤ ((s.tile tile).queue (queueNo q)).done)
  | .reply tag => s.txns.any (fun x => x.tag.toNat == tag && x.answer.isSome)

/-- A park ends: a thread that a core holds is RESIDENT, another DORMANT with STATE 1 at its header's home (spec R12,
R23). -/
def State.unpark (s : State) (t : Thread) : State :=
  if t.state ≠ .parked ∨ t.trapStage ≠ .none then s
  else if t.held then s.wake t
  else s.ctxWhen t true (fun s => ((s.writeWake t).ctxDirtied t (t.ctxBytes [])).setThread t.awake) (t.ctxBytes [])

/-- PARK_WAKE: the awaited event has occurred. -/
def execParkWake (k : Key) (s : State) : Out :=
  match s.find k with
  | some t => .next (if s.waitOver t then s.unpark t else s)
  | none => .next s

/-- SPURIOUS_WAKE: the park ends all the same. -/
def execSpuriousWake (k : Key) (s : State) : Out :=
  match s.find k with
  | some t => .next (s.unpark t)
  | none => .next s

/-- GUARDED_LOAD_RESUME: a load whose lines are no longer guarded and empty reads them. -/
def execGuardedLoadResume (k : Key) (s : State) : Out :=
  match s.find k with
  | some t => .next (s.resumeLoads [t])
  | none => .next s

/-! ### Crumbs (spec R27, R28, R31) -/

/-- The cores of this device to which a crumb may go: of the tile that MIGR names, or of the tower. They serve its partition. -/
def State.crumbCores (s : State) (t : Thread) : List Nat :=
  let cs := (upto 0 512).filter (fun k => s.coreServes (partOf t.space) k &&
    (if t.crumbTower then k / 64 == posTower t.dest else k / 4 == posTile t.dest))
  match s.launch? t.key.launch with
  | some l => let fit := cs.filter (s.modeFits l.mode); if fit.isEmpty then cs else fit
  | none => cs

/-- The core chosen for a crumb. -/
def State.crumbCore (s : State) (t : Thread) : Option Nat :=
  match s.launch? t.key.launch with
  | some l => s.choose l.mode (s.crumbCores t)
  | none => (s.crumbCores t).head?

/-- A crumb's lines as prefill copies: those of a thread that left a core of this device equal the memory image. -/
def State.crumbLines (s : State) (t : Thread) : List Prefill :=
  (hotOf t.hotl t.hotn).filterMap (fun j =>
    (s.linePlace t j).map (fun f => { thread := t.key, line := j, data := s.mem.readBytes f 128 : Prefill }))

/-- The thread of a crumb is DORMANT at a core, which keeps prefill copies of its hot lines where it has room. -/
def State.settleCrumb (s : State) (t : Thread) (core : Nat) (hot : List Prefill) : State :=
  let u := { t with
    cur := posOf s.dev core
    state := .dormant
    arrived := true
    killed := false }
  let s := (((s.writeHeader u 1).getD s).ctxDirtied u (u.ctxBytes [])).setThread u
  if t.killed then s.killThread u
  else
    let c := s.core core
    let room := (match c.mode with | some m => m.lines | none => 0) - s.usedOn core - c.pre.length
    s.setCore core { c with pre := c.pre ++ hot.take room }

/-- Whether a crumb of this device is on its way. -/
def Thread.flying (t : Thread) : Bool := t.state == .travelling && t.trapStage == .none

/-- CRUMB_ARRIVAL: a crumb that flies within the device is accepted. -/
def execCrumbArrival (k : Key) (s : State) : Out :=
  match s.find k with
  | some t =>
    if t.flying && posDev t.dest == s.dev then
      match s.crumbCore t with
      | some core =>
        .next (s.ctxWhen t true (fun s => s.settleCrumb t core (s.crumbLines t)) (t.ctxBytes (hotOf t.hotl t.hotn)))
      | none => .next s
    else .next s
  | none => .next s

/-- A crumb returns: its thread traps at its unchanged position, at the group that set off the travel (spec R31). -/
def State.crumbBack (s : State) (t : Thread) : State :=
  if t.killed then
    let u := { t with state := .dormant, killed := false }
    (s.setThread u).killThread u
  else
    let u := { t with pc := t.travelPc }.trapLost s.clock (engineTrap 5 0) .evicted
    (((s.writeHeader u 6).getD s).ctxDirtied u (u.ctxBytes [])).setThread u

/-- A crumb that its destination cannot accept returns: every core it could go to is fenced, or the peer refused it. -/
def State.undeliverable (s : State) (k : Key) : State :=
  match s.find k with
  | some t =>
    let refused := s.txns.any (fun x => x.opc == Opc.crumb && x.thread == some k && x.answer.isSome)
    let lost := if posDev t.dest = s.dev then (s.crumbCores t).isEmpty else refused
    if t.flying && lost then
      s.ctxWhen t true
        (fun s => { s with txns := s.txns.filter (fun x => !(x.opc == Opc.crumb && x.thread == some k)) }.crumbBack t) (t.ctxBytes [])
    else s
  | none => s

/-- CRUMB_UNDELIVERABLE. -/
def execCrumbUndeliverable (k : Key) (s : State) : Out := .next (s.undeliverable k)

/-! ### Trap records (spec R305, R346) -/

/-- Whether the record of a thread's trap is the next of its space: eviction has completed, and neither an earlier trap nor
an earlier record of no thread waits. -/
def State.recordNext (s : State) (t : Thread) : Bool :=
  t.trapStage == .evicted &&
    s.all.all (fun u => u.space != t.space || u.trapStage == .none || decide (t.trapAt ≤ u.trapAt)) &&
    (match s.space? t.space with | some x => x.tqLate.all (fun p => decide (t.trapAt ≤ p.1)) | none => true)

/-- What a record that its queue has room for waits for: the line of its slot, which another agent holds. -/
def State.recordLater (s : State) (space : BitVec 16) : Option State :=
  match s.space? space with
  | some x => if x.tqCount < x.tqSize then (match s.recordReady x with | .later s' => some s' | _ => none) else none
  | none => none

/-- The record of a thread's trap goes to the queue, and the thread is TRAPPED. -/
def State.recordTrap (s : State) (t : Thread) : State :=
  let u := { t with state := .trapped, trapStage := .none, homeless := (s.headerPlace t).isNone }
  s.ctxWhen t true (fun s => (((s.postRecord t.space (some t.key) t.record).writeState u 5).ctxDirtied u (u.ctxBytes [])).setThread u)
    (t.ctxBytes [])

/-- TRAP_RECORD_WRITE, in the order of R305. -/
def execTrapRecordWrite (k : Key) (s : State) : Out :=
  match s.find k with
  | some t =>
    if t.trapStage ≠ .evicted then .next s
    else
      let s := s.postDueAll t.space
      .next (if s.recordNext t then (s.recordLater t.space).getD (s.recordTrap t) else s)
  | none => .next s

end Sys2Proof.Machine
end

