-- ==== Sys2Proof/Machine/Firmware.lean ====
section
/-! DEFINITION. The watchdog, the sensors, weight-shard patrol, page moves and the module reset (spec R295, R324 to
R326, R340, R368, R375, R376, R378, R379). -/

namespace Sys2Proof.Machine

/-! ### The watchdog (spec R295, R340) -/

/-- The limit of a stage of WDLIMq. -/
def wdLimit (x : Word) (stage : Nat) : Nat := bits x.toNat (20 * stage - 1) (20 * stage - 20)

/-- Whether stage 1, 2 or 3 fires next for a launch: the queue's watchdog measures it, the stage has a limit and has not
fired, and the earlier stages that have one have. How long a limit lasts is timing: log entry 8. -/
def State.stageDue (s : State) (q stage : Nat) : Option Launch :=
  match s.running q with
  | none => none
  | some l =>
    let x := s.wdlimOf q
    let fired (k : Nat) : Bool := bit l.fired.toNat (k - 1)
    if l.started && !s.halted l.space false && wdLimit x stage != 0 && !fired stage &&
        (upto 1 (stage - 1)).all (fun k => wdLimit x k == 0 || fired k) then some l
    else none

/-- A stage of a launch has fired; the state and the launch then. -/
def State.fire (s : State) (l : Launch) (stage : Nat) : State :=
  s.setLaunch { l with fired := l.fired ||| BitVec.ofNat 3 (2 ^ (stage - 1)), depri := l.depri || stage == 1 }

/-- The record of stage 1 or 2. -/
def State.wdogRecord (s : State) (l : Launch) (q stage : Nat) : State :=
  s.postPlain l.space (plainRecord { cls := .wdog, cause := stage, detail := q } l.space l.id s.nsec)

/-- WDOG_PREEMPT: the launch's threads are evicted, and from now on activated after all others. -/
def execWdogPreempt (q : BitVec 6) (s : State) : Out :=
  match s.stageDue q.toNat 1 with
  | none => .next s
  | some l =>
    let mine (t : Thread) : Bool := t.key.launch == l.id && t.held
    let s := (s.fire l 1).wdogRecord l q.toNat 1
    .next ((s.evictAll (s.keysOf mine)).leave mine)

/-- WDOG_KILL: the launch is killed. -/
def execWdogKill (q : BitVec 6) (s : State) : Out :=
  match s.stageDue q.toNat 2 with
  | none => .next s
  | some l => .next (((s.fire l 2).wdogRecord l q.toNat 2).killLaunch l.id)

/-- A core is fenced. An UNFENCE of the core that is in hand does not undo it (spec R369). -/
def State.fenceCore (s : State) (core : Nat) : State :=
  { s.setCore core { s.core core with fenced := true } with refenced := core :: s.refenced.filter (fun x => x != core) }

/-- The cores that hold a thread of a launch. -/
def State.coresOf (s : State) (id : BitVec 32) : List Nat :=
  ((s.all.filter (fun t => t.key.launch == id && t.held)).map (fun t => posCore t.cur)).eraseDups

/-- WDOG_FENCE: cores that still hold a thread of the launch are fenced, the ports receive a report, and the launch counts as
complete. -/
def execWdogFence (q : BitVec 6) (s : State) : Out :=
  match s.stageDue q.toNat 3 with
  | none => .next s
  | some l =>
    let cores := s.coresOf l.id
    let s := cores.foldl State.fenceCore (s.fire l 3)
    let said := if cores.isEmpty then [Report.noneFenced q.toNat] else cores.map (fun c => Report.coreFenced c q.toNat)
    let s := { s with reports := s.reports ++ said }
    match s.launch? l.id with
    | none => .next s
    | some l => .next (if l.spans then (if l.reported.contains s.dev then s else s.closeHere l).settleLaunch l.id else s.completed l)

/-! ### Sensors (spec R59, R73, R126, R378, R379) -/

/-- Whether the layer of a sensor is powered off: it has no valid sample then. -/
def State.sensorOff (s : State) (i : Nat) : Bool :=
  let y := i % 224 / 16
  (y == 0 || decide (6 ≤ y)) && s.powerOf (i / 224 + 16 * y) == .off

/-- The sensors take a sample: a reading in eighths of a degree, or none that is valid. -/
def State.takeReadings (s : State) : List (BitVec 11 × Option (BitVec 11)) → State
  | [] => s
  | (i, r) :: rest =>
    { s with sensors := match r with
        | some x => Tab.put s.sensors i.toNat x
        | none => Tab.drop s.sensors i.toNat }.takeReadings rest

/-- Whether some valid sensor of a tower's layer reads at or above a limit. -/
def State.layerAt (s : State) (tower layer limit : Nat) : Bool :=
  (upto 0 16).any (fun c => match s.sensor (tower * 224 + layer * 16 + c) with
    | some x => decide (limit ≤ x.toNat)
    | none => false)

/-- Whether a layer is at its limit: from the limit upwards, and until every sensor reads below the limit less 5 °C. -/
def State.limited (s : State) (tower layer limit : Nat) (was : Bool) : Bool :=
  s.layerAt tower layer limit || (was && s.layerAt tower layer (limit - 40))

/-- The throttles of a tower after a sample; shelf `i` is layer `i + 2`. -/
def State.throttleTower (s : State) (t : Nat) : State :=
  let x := s.tower t
  let (shelf, hearth, _) := s.therm
  s.setTower t { x with
    throttled := BitVec.ofNat 4 (((upto 0 4).map (fun i =>
      b2n (s.limited t (i + 2) shelf.toNat (bit x.throttled.toNat i)) * 2 ^ i)).sum)
    hthrot := s.limited t 0 hearth.toNat x.hthrot }

/-- A tower with a sensor at or above TRIP is fenced and reported. -/
def State.tripTower (s : State) (t : Nat) : State :=
  if (upto 0 14).any (fun y => s.layerAt t y s.therm.2.2.toNat) then
    let s := (upto (64 * t) 64).foldl State.fenceCore s
    { s with reports := s.reports ++ [.trip t] }
  else s

/-- No sensor of a layer that is off keeps a valid sample, named in the event or not. -/
def State.dropOffReadings (s : State) : State := { s with sensors := s.sensors.filter (fun p => !s.sensorOff p.1) }

/-- SENSOR_SAMPLE. -/
def execSensorSample (readings : List (BitVec 11 × Option (BitVec 11))) (s : State) : Out :=
  let s := (s.takeReadings readings).dropOffReadings
  .next ((upto 0 8).foldl (fun a t => (a.throttleTower t).tripTower t) s)

/-! ### Weight-shard patrol (spec R375) -/

/-- A place outside any window. -/
def plainLoc (key n : Nat) : Loc := { va := 0, n := n, key := key }

/-- The digest of a shard's bytes. -/
def State.shardDigest (s : State) (x : Shard) : BitVec 256 := shake256 (s.mem.readBytes x.base x.len)

/-- Whether a shard's bytes are not what was recorded, or cannot be read. -/
def State.shardFails (s : State) (x : Shard) : Bool := (s.badByte x.base x.len).isSome || s.shardDigest x != x.digest

/-- SHARD_PATROL: mismatching shards of a space are marked bad and reported. Lines of them that others hold are recalled first; the
patrol then waits for its next turn. -/
def execShardPatrol (space : BitVec 16) (s : State) : Out :=
  match s.space? space with
  | none => .next s
  | some x =>
    let mine := s.shards.filter (fun y => y.space == space)
    let ls := mine.map (fun y => plainLoc y.base y.len)
    if x.field 223 192 = 0 then .next s
    else
      match s.ready (firmwareThread space) false ls with
      | .later s' => .next s'
      | _ =>
        let s := s.took (firmwareThread space) false ls (home := true)
        let fails := mine.filter s.shardFails
        .next { s with
          shards := s.shards.map (fun y => if fails.contains y then { y with bad := true } else y)
          reports := s.reports ++ fails.map (fun y => Report.shardBad y.part.toNat y.number) }

/-! ### Page moves (spec R324 to R326, R376) -/

/-- Where the L0 entry of an address outside the windows stands, if the walk reaches an L0 table. -/
def State.entryAt (s : State) (space : BitVec 16) (va : Nat) : Option Nat :=
  if (winOf va).isSome then none
  else
  (s.space? space).bind (fun x =>
    let next (at_ level : Nat) : Option Nat :=
      let e := s.mem.readNum at_ 16
      if s.entryReadable at_ = false || eV e = false || s.entryBad space level e || eLeaf e then none else some (eBase e)
    (next (x.field 63 0 + 16 * bits va 56 43) 2).bind (fun t1 =>
      (next (t1 + 16 * bits va 42 30) 1).map (fun t0 => t0 + 16 * bits va 29 17)))

/-- The frames of a leaf entry of a space, from this device and from those of its DEVTAB: of a PRIVATE or REPLICA page one for each instance
(spec R60 to R62, R318). -/
def State.leafFrames (s : State) (x : SpaceSt) (e level : Nat) : List (Nat × Nat) :=
  let n := pageSize level
  let at_ (i : Nat) : List Nat :=
    if eDom e = 4 then [eBase e + i * eStride e]
    else ((s.dev :: x.devtab).eraseDups).map (fun d => d.toNat * 2 ^ 48 + (eBase e % 2 ^ 48 + i * eStride e))
  if eKind e = 1 || eKind e = 2 then ((upto 0 (instances (some x) (eDom e))).flatMap at_).map (fun f => (f, n)) else [(eBase e, n)]

/-- The ranges that the walks of a space from a table can read or reach, by the levels below: tables and pages. Bytes of memory that are
not listed are 0 and name nothing. -/
def State.mapped (s : State) (x : SpaceSt) (table : Nat) : List Nat → List (Nat × Nat)
  | [] => []
  | level :: rest =>
    let size := if level = 2 then 2 ^ 18 else 2 ^ 17
    let entries := ((s.mem.filter (fun c => decide (table ≤ c.1) && decide (c.1 < table + size))).map (fun c => c.1 / 16)).eraseDups
    (table, size) :: entries.flatMap (fun g =>
      let e := s.mem.readNum (16 * g) 16
      if eV e = false then [] else if eLeaf e then s.leafFrames x e level else s.mapped x (eBase e) rest)

/-- Whether something uses a frame: a page or a table of a loaded space, a trap queue or its arrival word, a pinned page, a shard, a
partition's table, or a line that a peer or a host holds. -/
def State.frameUsed (s : State) (f : Nat) : Bool :=
  let rs := s.spaces.flatMap (fun x => (x.field 127 64, 64 * x.tqSize) :: (x.field 191 128, if x.field 191 128 = 0 then 0 else 16) ::
      s.mapped x (x.field 63 0) [2, 1, 0]) ++
    (s.pins ++ s.kept).map (fun p => (eBase p.entry.toNat, pageSize p.level)) ++ s.shards.map (fun x => (x.base, x.len)) ++
    s.sdtb.map (fun x => (x.2.toNat, 2 ^ 17))
  rangesMeet [(f, 2 ^ 17)] rs ||
    (f / 2 ^ 48 == s.dev.toNat && s.dir.any (fun d => decide (d.line < 2 ^ 64) && d.line / 1024 == f % 2 ^ 48 / 2 ^ 17 && d.outside))

/-- Whether a frame can take a page: aligned, in memory that is on, and used for nothing. -/
def State.frameFree (s : State) (f : Nat) : Bool :=
  f % 2 ^ 17 == 0 && s.inMemory f (2 ^ 17) && decide (f < 2 ^ 60) &&
    (f / 2 ^ 48 != s.dev.toNat || s.powerOf (layerOf (f % 2 ^ 48)) != .off) && s.moves.all (fun m => m.frame != f) && !s.frameUsed f

/-- The place and the value of the entry of a page that may move to a frame: a valid 128 KiB SHARED leaf, MOBILE, not
pinned, not moving, with data that can be read. -/
def State.movable (s : State) (space : BitVec 16) (va f : Nat) : Option (Nat × Nat) :=
  (s.entryAt space va).bind (fun at_ =>
    let e := s.mem.readNum at_ 16
    if eV e && eLeaf e && !eMv e && eMobile e && eKind e == 0 && !s.entryBad space 0 e && eBase e != f &&
        !s.pins.any (fun p => p.covers space va) && !s.moving e && s.inMemory (eBase e) (2 ^ 17) &&
        (eBase e / 2 ^ 48 != s.dev.toNat || s.powerOf (layerOf (eBase e % 2 ^ 48)) != .off) &&
        (s.badByte (eBase e) (2 ^ 17)).isNone && s.frameFree f then some (at_, e)
    else none)

/-- How much the residency logic wants a page in a frame: the weight stack before side DRAM before host memory (spec R376). -/
def State.tierRank (s : State) (f : Nat) : Option Nat :=
  if f / 2 ^ 48 = s.dev.toNat then (if f % 2 ^ 48 < 2 ^ 39 then some 1 else some 0)
  else if f / 2 ^ 48 = 0xFFF then some 2
  else none

/-- A choice of the firmware with the accesses that its page had in the interval, and the tiers from and to which it goes. -/
structure Choice where
  space : BitVec 16
  va : Word
  frame : BitVec 60
  count : Nat
  old : Nat
  new : Nat
  deriving DecidableEq, Repr

/-- A choice that names a page that may move, between two tiers. -/
def State.choice? (s : State) (c : BitVec 16 × Word × BitVec 60) : Option Choice :=
  (s.movable c.1 c.2.1.toNat c.2.2.toNat).bind (fun x =>
    (s.tierRank (eBase x.2)).bind (fun old =>
      (s.tierRank c.2.2.toNat).map (fun new =>
        { space := c.1, va := c.2.1, frame := c.2.2, count := Tab.get s.counts (eBase x.2 / 2 ^ 17) 0, old := old, new := new })))

/-- Whether a choice is one of the residency logic: toward a tier it prefers, or to make room there for a page with more accesses. -/
def Choice.wanted (all : List Choice) (x : Choice) : Bool :=
  decide (x.new < x.old) ||
    (decide (x.old < x.new) && all.any (fun y => decide (y.new ≤ x.old) && decide (x.old < y.old) && decide (x.count < y.count)))

/-- RESIDENCY_EVAL: of the firmware's choices, those of the residency logic, the pages with the most accesses first. A new interval
begins (spec R376; log entry 68). -/
def execResidencyEval (choices : List (BitVec 16 × Word × BitVec 60)) (s : State) : Out :=
  let all := choices.filterMap s.choice?
  let best := (all.filter (Choice.wanted all)).mergeSort (fun x y => decide (y.count ≤ x.count))
  .next { s with
    chosen := best.map (fun x => (x.space, x.va, x.frame))
    counts := [] }

/-- The requester of the page mover's coherence traffic. -/
def moverThread (space : BitVec 16) : Thread := { launch := 0, index := 0xFFFFFFFF, space := space }

/-- Whether a place lies in a 128 KiB frame. -/
def inFrame (f key : Nat) : Bool := decide (f ≤ key) && decide (key < f + 2 ^ 17)

/-- Whether an access that resolved to a frame is under way at a peer, or answered and not taken by its thread yet, for the device or
in a copy command (spec R321, R325). -/
def State.frameBusy (s : State) (f : Nat) : Bool :=
  s.txns.any (fun x => inFrame f x.key && x.thread.any (fun k => x.answer.isNone || (s.find k).any (fun t => s.opPending t))) ||
    s.posted.any (fun p => inFrame f p.key) || s.copyArrives (fun _ _ key => inFrame f key)

/-- A thread that waits for a place of a frame that moves looks again. -/
def Thread.rewait (f : Nat) (t : Thread) : Thread :=
  match t.wait with
  | .gen k _ => if inFrame f k then { t with wait := .none } else t
  | _ => t

/-- Every bank and every L1 drops what it holds of a frame, whatever address it was reached by; what an XINV kept for a pin that is gone
goes too (spec R325 step 2). -/
def State.dropFrame (s : State) (f : Nat) : State :=
  { s with
    banks := s.banks.filter (fun b => eBase b.entry.toNat != f)
    kept := s.kept.filter (fun p => eBase p.entry.toNat != f)
    cores := s.cores.map (fun (c : Nat × Core) => (c.1, { c.2 with l1 := c.2.l1.filter (fun l => !inFrame f l.key) })) }

/-- Steps 1 to 3 of R325 for an entry `e` at a place: claimed with MV, accesses fenced and performed, the page copied. -/
def State.movePage (s : State) (space : BitVec 16) (va at_ e f : Nat) : State :=
  let s := (s.dropFrame (eBase e)).mapThreads (fun t => t.again.rewait (eBase e))
  let s := s.store at_ (leBytes 16 (e + 4))
  let s := s.store f (s.mem.readBytes (eBase e) (2 ^ 17))
  { s with moves := s.moves ++ [{ space := space, va := BitVec.ofNat 64 va, entryAt := at_, old := BitVec.ofNat 128 e, frame := f }] }

/-- PAGE_MOVE: the next chosen page is claimed, fenced and copied, once every access that resolved to its old frame is
performed; one that may not move any more is passed over. -/
def execPageMove (s : State) : Out :=
  match s.chosen with
  | [] => .next s
  | (space, va, f) :: r =>
    match s.movable space va.toNat f.toNat with
    | none => .next { s with chosen := r }
    | some (at_, e) =>
      let ls := [plainLoc at_ 16, plainLoc (eBase e) (2 ^ 17), plainLoc f.toNat (2 ^ 17)]
      if s.frameBusy (eBase e) then .next s
      else
        s.whenDrained (s.accKeys (fun _ => true)) (fun s =>
          match s.ready (moverThread space) true ls with
          | .later s' => .next s'
          | .trap s' _ => .next { s' with chosen := r }
          | .ok =>
            let s := s.took (moverThread space) true ls (home := true)
            .next (({ s with chosen := r }.movePage space va.toNat at_ e f.toNat).dirtied ls))

/-- The entry with its base replaced. -/
def setBase (e f : Nat) : Nat := e - eBase e + f

/-- Steps 4 and 5 of R325: the compare at the entry's home decides whether the new frame is installed. -/
def State.installMove (s : State) (m : Move) : State :=
  let e := m.old.toNat
  if s.mem.readNum m.entryAt 16 = e + 4 then s.store m.entryAt (leBytes 16 (setBase e m.frame)) else s

/-- The number under which requests wait for the end of a move. -/
def moveLine : Nat := 2 ^ 80

/-- PAGE_MOVE_INSTALL: the oldest move ends. -/
def execPageMoveInstall (s : State) : Out :=
  match s.moves with
  | [] => .next s
  | m :: r =>
    let ls := [plainLoc m.entryAt 16]
    let go (s : State) : Out := .next ((({ s with moves := r }.installMove m).dirtied ls).release moveLine)
    match s.ready (moverThread m.space) true ls with
    | .later s' => .next s'
    | .trap s' _ => go s'
    | .ok => go (s.took (moverThread m.space) true ls (home := true))

/-! ### The module reset (spec R368) -/

/-- The power states after a reset: hearths on, other layers as the flash configuration marks them. Bit 8 T + i of the
weight-stack mask is layer 6 + i of tower T. -/
def bootPower (x : BootFacts) : Tab Power :=
  let on (c : Bool) : Power := if c then .on else .off
  (upto 0 8).flatMap (fun t =>
    (upto 0 8).map (fun i => (t + 16 * (6 + i), on (bit x.weightOn.toNat (8 * t + i)))) ++
      [(t + 16 * 15, on (bit x.sideOn.toNat t))])

/-- The command ports that bring-up designates: two ports in CXL mode (spec R366). -/
def designatedPorts (x : BootFacts) : Tab (BitVec 5) :=
  let cxl (p : BitVec 5) : Bool := decide (p.toNat < 18) && !bit x.peerPorts.toNat p.toNat
  let (a, b) := x.commandPorts
  (if cxl a then [(0, a)] else []) ++ (if cxl b && b != a then [(1, b)] else [])

/-- MODULE_RESET: what the bring-up finds becomes state; memory is zero, no tower belongs to a partition, no space is
loaded. The device number, the present towers and what the model keeps for itself stay. -/
def execModuleReset (x : BootFacts) (s : State) : Out :=
  .next { State.reset with
    dev := s.dev
    present := s.present
    turns := s.turns
    freeCount := s.freeCount
    accCount := s.accCount
    booted := true
    power := bootPower x
    towers := (upto 0 8).map (fun t => (t, { fused := x.fused.extractLsb' (4 * t) 4 : TowerSt }))
    cores := ((upto 0 512).filter (bit x.failed.toNat)).map (fun c => (c, { fenced := true : Core }))
    cmdPorts := designatedPorts x
    ports := ((upto 0 18).filter (bit x.peerPorts.toNat)).map (fun p => (p, { peer := true : Port })) }

end Sys2Proof.Machine
end

