-- ==== Sys2Proof/Machine/Fabric.lean ====
section
/-! DEFINITION. What hosts and peers send: CXL requests and snoops, protocol messages, crumbs, links, and the launch
messages between devices (spec R154, R158, R161, R330, R352 to R365). -/

namespace Sys2Proof.Machine

/-! ### Halves and lines -/

/-- The place of a 64-byte half of this device's memory. -/
def State.halfKey (s : State) (pa : BitVec 48) : Nat := s.dev.toNat * 2 ^ 48 + pa.toNat / 64 * 64
/-- The number of a half of this device's memory. -/
def halfNo (pa : BitVec 48) : Nat := pa.toNat / 64
/-- The number of a half of host memory. -/
def hostHalf (pa : BitVec 48) : Nat := (0xFFF * 2 ^ 48 + pa.toNat) / 64
/-- The number under which requests wait for a half of host memory. -/
def hostWait (half : Nat) : Nat := 2 ^ 70 + half

/-- Bytes are written where a test enables them; a bad granule is good again when all of it is written (spec R344). -/
def State.maskedStore (s : State) (key : Nat) (bs : List Byte) (en : Nat → Bool) : State :=
  let merged := (upto 0 bs.length).map (fun i => if en i then bs.getD i 0 else s.mem.read (key + i))
  let whole (g : Nat) : Bool :=
    decide (key ≤ g * 16) && decide (g * 16 + 16 ≤ key + bs.length) && (upto 0 16).all (fun i => en (g * 16 + i - key))
  { s with mem := s.mem.writeBytes key merged, bad := s.bad.filter (fun g => !whole g) }

/-- The L1 lines of a range go. -/
def State.dropRange (s : State) (key n : Nat) : State :=
  { s with cores := s.cores.map (fun c => (c.1, { c.2 with
      l1 := c.2.l1.filter (fun l => !overlaps (l.key, 128) (key, n)) })) }

/-- Threads that wait for the generation of an arrival word in a range look again. -/
def State.wakeRange (s : State) (key n : Nat) : State :=
  s.wakeAll (fun t => match t.wait with | .gen k _ => decide (key ≤ k) && decide (k < key + n) | _ => false) s.all

/-! ### Device memory and a host (spec R161, R357, R360, R362) -/

/-- What must be recalled before the directory has a way for a line: copies outside the module that an entry tracks (spec R353). -/
def State.wayLater (s : State) (line : Nat) : Option State :=
  match s.dirVictim line with
  | some d => if d.outside then some (if s.bisnp.any (fun b => b.1 / 2 == d.line) then s else s.recallOut d) else none
  | none => none

/-- A request of a host for a line of this device waits for its turn and for peers, not for the host itself. The module's copies are
recalled before it is served. -/
def State.hostAtHome (s : State) (e : Instr) (line : Nat) (excl : Bool) (f : State → State) : Out :=
  if s.behind line (.event e) || s.flipping line then .next (s.lineUp line (.event e))
  else
    match s.wayLater line with
    | some s' => .next (s'.lineUp line (.event e))
    | none =>
      match s.readyAmongPeers 0 excl line with
      | .ok => .next ((f ((s.dirRoom line).recallInside excl line)).served line (.event e))
      | .later s' => .next (s'.lineUp line (.event e))
      | .trap s' _ => .next s'

/-- Whether a BISnp for a half is outstanding. -/
def State.snooped (s : State) (half : Nat) : Bool := s.bisnp.any (fun b => b.1 == half)

/-- A host write is performed at the home. -/
def State.hostWrite (s : State) (pa : BitVec 48) (data : BitVec 512) (be : BitVec 64) : State :=
  (s.maskedStore (s.halfKey pa) (leBytes 64 data.toNat) (bit be.toNat)).toHost (.memCmp (halfNo pa))

/-- A host read returns the home's data. -/
def State.hostRead (s : State) (pa : BitVec 48) : State :=
  s.toHost (.memData (halfNo pa) (s.mem.readBytes (s.halfKey pa) 64))

/-- Whether a half lies on a host-bias page. -/
def State.inHostBias (s : State) (pa : BitVec 48) : Bool := s.hostBias.contains (pa.toNat / 2 ^ 17)

/-- The host may hold a half from now on. -/
def State.hostHolds (s : State) (pa : BitVec 48) : State :=
  let line := halfNo pa / 2
  let d := s.dirEntry line
  let m := BitVec.ofNat 2 (2 ^ (halfNo pa % 2))
  s.setDir ({ d with host := d.host ||| m, hostS := d.hostS &&& ~~~m }).settled

/-- A request of a host that meets an outstanding BISnp for its half: one that arrives is BICONFLICT's, one that waited in the queue of
its line stays there. -/
def State.collided (s : State) (e : Instr) (line : Nat) : Out :=
  .next (if s.called.contains line then s.lineUp line (.event e) else s)

/-- MEMWR: performed before its completion is returned. -/
def execMemwr (pa : BitVec 48) (data : BitVec 512) (be : BitVec 64) (s : State) : Out :=
  if s.snooped (halfNo pa) then s.collided (.memwr pa data be) (halfNo pa / 2)
  else s.hostAtHome (.memwr pa data be) (halfNo pa / 2) true (fun s => s.hostWrite pa data be)

/-- MEMRD: in device bias a peer's owner is recalled to S and no copy is kept; in host bias one that asks to retain a copy
sets HOST. -/
def execMemrd (pa : BitVec 48) (retain : Bool) (s : State) : Out :=
  let keep := retain && s.inHostBias pa
  if s.snooped (halfNo pa) then s.collided (.memrd pa retain) (halfNo pa / 2)
  else s.hostAtHome (.memrd pa retain) (halfNo pa / 2) keep (fun s =>
    let s := if keep then s.hostHolds pa else s
    s.hostRead pa)

/-- MEMINV: the module's copies are recalled; in host bias the host may hold the half afterwards. -/
def execMeminv (pa : BitVec 48) (s : State) : Out :=
  if s.snooped (halfNo pa) then s.collided (.meminv pa) (halfNo pa / 2)
  else s.hostAtHome (.meminv pa) (halfNo pa / 2) true (fun s =>
    let s := if s.inHostBias pa then s.hostHolds pa else s
    s.toHost (.memCmp (halfNo pa)))

/-- BIRSP: dirty data is written home, HOST follows the snoop, and what waits for the line goes on. -/
def execBirsp (pa : BitVec 48) (dirty : Option (BitVec 512)) (s : State) : Out :=
  let half := halfNo pa
  match s.bisnp.find? (fun b => b.1 == half) with
  | none => .next s
  | some (_, inv) =>
    let line := half / 2
    let m := BitVec.ofNat 2 (2 ^ (half % 2))
    let s := match dirty with
      | some x => s.store (s.halfKey pa) (leBytes 64 x.toNat)
      | none => s
    let d := s.dirEntry line
    let d := if inv then { d with host := d.host &&& ~~~m, hostS := d.hostS &&& ~~~m } else { d with hostS := d.hostS ||| m }
    let d := if d.state = .busy then d else d.settled
    let s : State := { s with bisnp := s.bisnp.filter (fun b => b.1 != half) }
    .next ((s.setDir d).release line)

/-- Whether an event is a request of a host for a half, of the kind that a collision names. -/
def hostReqIs (req : HostReq) (half : Nat) (e : Instr) : Bool :=
  match req, e with
  | .read, .memrd pa _ => halfNo pa == half
  | .write _ _, .memwr pa _ _ => halfNo pa == half
  | .inv, .meminv pa => halfNo pa == half
  | _, _ => false

/-- A collision serves a request of the host that waited in the queue of its line: it leaves the queue. -/
def State.unqueue (s : State) (req : HostReq) (half : Nat) : State :=
  match s.lineQueue.find? (fun q => match q.req with | .event e => hostReqIs req half e | _ => false) with
  | some q => { s with lineQueue := s.lineQueue.erase q }
  | none => s

/-- BICONFLICT: the host request is served against the state before the BISnp, then answered, and the BISnp is sent
again. It waits for no module access, peers alone may have to answer first. -/
def execBiconflict (pa : BitVec 48) (req : HostReq) (s : State) : Out :=
  let half := halfNo pa
  match s.bisnp.find? (fun b => b.1 == half) with
  | none => .next s
  | some (_, inv) =>
    let answer (s : State) : State :=
      let s := match req with
        | .read => s.hostRead pa
        | .write data be => s.hostWrite pa data be
        | .inv => s.toHost (.memCmp half)
      (s.toHost (.biConflictAck half)).toHost (.biSnp half inv)
    match s.readyAmongPeers 0 (req != .read) (half / 2) with
    | .ok => .next (answer ((s.unqueue req half).recallInside (req != .read) (half / 2)))
    | .later s' => .next (s'.await (half / 2) (.biconflict pa req))
    | .trap s' _ => .next s'

/-! ### Host memory that this module caches (spec R358, R359) -/

/-- Whether the module waits for a grant or a fill of a half. -/
def State.asksHalf (s : State) (half : Nat) : Bool := (halfRequests half).any (fun m => s.outHost.contains m)

/-- A snoop of a half: held while a grant or a fill is on its way; the answer carries data for a half in M. Every tile that holds the
half takes the state that the snoop leaves. -/
def State.snoop (s : State) (e : Instr) (pa : BitVec 48) (to_ : HalfSt → HalfSt) : Out :=
  let half := hostHalf pa
  if s.asksHalf half then .next (s.await (hostWait half) e)
  else
    let gone := decide (to_ HalfSt.e = HalfSt.i)
    let data := if s.halves.any (fun h => h.unit == half && h.st == .m) then some (s.mem.readBytes (half * 64) 64) else none
    let s := s.toHost (.snpAnswer half data)
    let left := if gone then s.halves.filter (fun (h : HalfLine) => h.unit != half)
      else s.halves.map (fun (h : HalfLine) => if h.unit == half then { h with st := to_ h.st } else h)
    let s := { s with halves := left }.trackHost (half / 2)
    .next (if gone then (s.forwardProbe (half * 64) 64).wakeRange (half * 64) 64 else s)

/-- SNPDATA: the half is S at most. -/
def execSnpdata (pa : BitVec 48) (s : State) : Out := s.snoop (.snpdata pa) pa (fun st => if st = .i then .i else .s)
/-- SNPINV: the half is I. -/
def execSnpinv (pa : BitVec 48) (s : State) : Out := s.snoop (.snpinv pa) pa (fun _ => .i)
/-- SNPCUR: the half stays as it is. -/
def execSnpcur (pa : BitVec 48) (s : State) : Out := s.snoop (.snpcur pa) pa id

/-- HOST_GRANT_OR_FILL: the answer to the module's request for a half. It goes to the tile that asked; one in ownership is held by no
other tile (spec R359). What RdCurr brings is for its thread alone. -/
def execHostGrantOrFill (pa : BitVec 48) (st : HalfSt) (data : Option (BitVec 512)) (s : State) : Out :=
  let half := hostHalf pa
  if s.asksHalf half = false then .next s
  else
    let s := match data with
      | some x => if s.halfState half = HalfSt.i then s.store (half * 64) (leBytes 64 x.toNat) else s
      | none => s
    let s : State := { s with outHost := s.outHost.filter (fun x => !(halfRequests half).contains x) }
    match s.halfAsks.find? (fun a => a.1 == half) with
    | none =>
      .next ({ s with txns := s.txns.map (fun (x : Txn) =>
        if x.dev = 0xFFF ∧ x.key = half * 64 then { x with answer := some .done } else x) }.release (hostWait half))
    | some a =>
      let s := s.tileRoom a.2 (half / 2)
      let own := decide (st = HalfSt.e ∨ st = HalfSt.m)
      let mine : List HalfLine := if st = HalfSt.i then [] else [{ tile := a.2, unit := half, st := st }]
      let s := if own then s.takeHalf half a.2 else s
      let b := { s with
        halfAsks := s.halfAsks.filter (fun b => b.1 != half)
        halves := mine ++ s.halves.filter (fun (h : HalfLine) => !(h.unit == half && h.tile == a.2)) }.trackHost (half / 2)
      .next (b.release (hostWait half))

/-! ### Requests of peers at their home (spec R353 to R356, R365) -/

/-- The place that a request names. -/
def State.homeKey (s : State) (h : MsgHdr) : Nat := s.dev.toNat * 2 ^ 48 + h.addr.toNat * 16
/-- The line that a request names. -/
def homeLine (h : MsgHdr) : Nat := h.addr.toNat / 8
/-- The place of the line that a request names. -/
def State.homeLineKey (s : State) (h : MsgHdr) : Nat := s.dev.toNat * 2 ^ 48 + homeLine h * 128

/-- A reply to a message. -/
def State.reply (s : State) (h : MsgHdr) (opc : Opc) (arg : Nat) (payload : List Byte) : State :=
  s.send { dst := h.srcDev, opc := opc, pos := 0, tag := h.tag, scope := h.scope, addr := h.addr,
           arg := BitVec.ofNat 9 arg, payload := payload }

/-- Class and cause with which a home refuses a place: outside memory, dark, or bad where it is read. -/
def State.homeFault (s : State) (key n : Nat) (reads : Bool) : Option (Nat × Nat) :=
  if s.inMemory key n = false then some (4, 5)
  else if s.powerOf (layerOf (key % 2 ^ 48)) = .off then some (6, 1)
  else if reads && (s.badByte key n).isSome then some (7, 1)
  else none

/-- A request that has failed at this home is answered with NAK. -/
def State.nakTo (s : State) (h : MsgHdr) (cls cause : Nat) : State := s.reply h .nak (cls + 16 * cause) []

/-- The half of a line that a place lies in. -/
def halfIn (key : Nat) : Nat := key / 64 % 2

/-- Whether the home serves a request of a peer for a line: the way for it, its holders of other kinds, and the peers. One that asks
for ownership (`owns`) keeps the copy that it has; every other operation that writes invalidates that one too (spec R214). A line that
the peer owns itself is served after its write-back, but for an operation that the home performs (`op`), before which it is recalled
(spec R356). -/
def State.readyPeerReq (s : State) (h : MsgHdr) (excl owns op : Bool) (halves : List Nat) : Ready :=
  let line := homeLine h
  let d := s.dirEntry line
  if d.ownerDev = some h.srcDev ∧ ¬op then .later s
  else
    match s.wayLater line with
    | some s' => .later s'
    | none =>
      if d.state ≠ .busy ∧ owns ∧ d.rdev.contains h.srcDev then
        let t := s.setDir ({ d with rdev := d.rdev.filter (fun x => x != h.srcDev) } : DirEntry).settled
        match t.readyLocal 0 excl line halves with
        | .ok => .ok
        | .later s' =>
          let e := s'.dirEntry line
          .later (if e.state = .busy then s' else s'.setDir ({ e with rdev := h.srcDev :: e.rdev } : DirEntry).settled)
        | x => x
      else s.readyLocal 0 excl line halves

/-- A request of a peer for a line: it fails, waits in the queue of the line, or is served there. -/
def State.atHome (s : State) (e : Instr) (h : MsgHdr) (key n : Nat) (reads excl : Bool) (f : State → State)
    (owns op : Bool := false) : Out :=
  let line := homeLine h
  match s.homeFault key n reads with
  | some (c, k) => .next ((s.nakTo h c k).served line (.event e))
  | none =>
    if s.behind line (.event e) || s.flipping line then .next (s.lineUp line (.event e))
    else
      match s.readyPeerReq h excl owns op (if n = 128 then [0, 1] else [halfIn key]) with
      | .ok => .next ((f ((s.dirRoom line).recallInside excl line)).served line (.event e))
      | .later s' => .next (s'.lineUp line (.event e))
      | .trap s' _ => .next s'

/-- A peer holds a shared copy of a line; RDEV has room for two (spec R353). -/
def State.trackSharer (s : State) (line : Nat) (dev : BitVec 12) : State :=
  let d := s.dirEntry line
  let d := if d.rdev.contains dev then d
    else if d.rdev.length < 2 then { d with rdev := d.rdev ++ [dev] }
    else { d with rovf := true }
  s.setDir d.settled

/-- A peer owns a line, alone. -/
def State.trackOwner (s : State) (line : Nat) (dev : BitVec 12) : State :=
  s.setDir ({ s.dirEntry line with ownerDev := some dev, rdev := [], rovf := false }).settled

/-- The 128 bytes of the line that a request names. -/
def State.lineBytes (s : State) (h : MsgHdr) : List Byte := s.mem.readBytes (s.homeLineKey h) 128

/-- RDS. -/
def execRds (h : MsgHdr) (s : State) : Out :=
  s.atHome (.rds h) h (s.homeLineKey h) 128 true false (fun s =>
    (s.trackSharer (homeLine h) h.srcDev).reply h .dats 0 (s.lineBytes h))

/-- RDO. -/
def execRdo (h : MsgHdr) (s : State) : Out :=
  s.atHome (.rdo h) h (s.homeLineKey h) 128 true true (fun s =>
    (s.trackOwner (homeLine h) h.srcDev).reply h .date 0 (s.lineBytes h)) (owns := true)

/-- RDC: no copy is kept. -/
def execRdc (h : MsgHdr) (s : State) : Out :=
  s.atHome (.rdc h) h (s.homeLineKey h) 128 true false (fun s => s.reply h .dats 0 (s.lineBytes h))

/-- UPG: granted without data to a sharer; a peer that lost its copy meanwhile is answered as for RDO. -/
def execUpg (h : MsgHdr) (s : State) : Out :=
  let line := homeLine h
  let sharer := (s.dirEntry line).rdev.contains h.srcDev
  s.atHome (.upg h) h (s.homeLineKey h) 128 true true (fun s =>
    let s := s.trackOwner line h.srcDev
    if sharer then s.reply h .grt 0 [] else s.reply h .date 0 (s.lineBytes h)) (owns := true)

/-- WRL. A copy that the requester itself holds is invalidated like any other. -/
def execWrl (h : MsgHdr) (data : BitVec 1024) (s : State) : Out :=
  s.atHome (.wrl h data) h (s.homeLineKey h) 128 false true (fun s =>
    (s.store (s.homeLineKey h) (leBytes 128 data.toNat)).reply h .cmp 0 []) (op := true)

/-- WRP. -/
def execWrp (h : MsgHdr) (data : BitVec 128) (be : BitVec 16) (s : State) : Out :=
  s.atHome (.wrp h data be) h (s.homeKey h) 16 false true (fun s =>
    (s.maskedStore (s.homeKey h) (leBytes 16 data.toNat) (bit be.toNat)).reply h .cmp 0 []) (op := true)

/-- AMO: performed at the place that ADDR names, whose low four bits the message does not carry: log entry 63. -/
def execAmo (h : MsgHdr) (ord : AmoOrd) (fn : AmoFn) (dword : Bool) (op exp : BitVec 64) (s : State) : Out :=
  let n := if dword then 8 else 4
  let key := s.homeKey h
  s.atHome (.amo h ord fn dword op exp) h key n true true (fun s =>
    let old := s.mem.readNum key n
    let s := match (amoNew fn n old (op.toNat % 2 ^ (8 * n)) (exp.toNat % 2 ^ (8 * n))).1 with
      | some x => s.store key (leBytes n x)
      | none => s
    s.reply h .res 0 (leBytes 16 old)) (op := true)

/-- A crust-cell operation of a peer on a well-formed cell; none where CRD waits. -/
def cellOp (op : CellOp) (w : Bool) (c val g win : Nat) : Option CellRes :=
  match op with
  | .prop => some (propAt c val g win)
  | .crd => crdAt c g w
  | .crcy => some (crcyAt c g)

/-- CELL: a CRD that waits is answered when the cell is decided or moved on. -/
def execCell (h : MsgHdr) (op : CellOp) (w : Bool) (val : BitVec 64) (gen : BitVec 16) (s : State) : Out :=
  let key := s.homeKey h
  s.atHome (.cell h op w val gen) h key 16 true (op != .crd) (fun s =>
    let c := s.mem.readNum key 16
    if cellBad c then s.nakTo h 7 3
    else
      match cellOp op w c val.toNat gen.toNat h.srcPos.toNat with
      | none => s.await (key / 128) (.cell h op w val gen)
      | some r => (s.cellWrite key r.new).reply h .res 0 (leBytes 16 (r.value % 2 ^ 64 + r.status * 2 ^ 64))) (op := true)

/-- ARRV: a count of 0 without error bits is an ARW's (log entry 101). -/
def execArrv (h : MsgHdr) (n : BitVec 32) (err dgerr : Bool) (s : State) : Out :=
  let key := s.homeKey h
  s.atHome (.arrv h n err dgerr) h key 16 true true (fun s =>
    let w := s.mem.readNum key 16
    let s := s.arriveWord key (if err || dgerr then arrivalAdd w n.toNat err dgerr else arwAdd w n.toNat)
    s.reply h .res 0 (s.mem.readBytes key 16)) (op := true)

/-! ### Crumbs from peers (spec R27, R28, R31, R365) -/

/-- The launch of a crumb from a peer: the one that this device has recorded, or a guest's from what goes with the crumb (spec R27, R218). -/
def State.crumbLaunch (s : State) (header : BitVec 1024) (pass : Option Passport) : Option Launch :=
  let id := match pass with | some p => p.thread.launch | none => BitVec.ofNat 32 (bits header.toNat 447 416)
  match s.launch? id, pass with
  | some l, some p =>
    some (if l.guest then { l with
        arrivals := p.arrivals.foldl (fun a x => Tab.put a x.1 (max x.2 (Tab.get a x.1 0))) l.arrivals
        done := p.done ++ l.done.filter (fun x => !p.done.contains x) } else l)
  | some l, none => some l
  | none, some p =>
    some { id := id, space := BitVec.ofNat 16 (bits header.toNat 95 80), record := p.record, origin := p.origin, started := true,
           arrivals := p.arrivals, done := p.done, guest := true }
  | none, none => none

/-- The thread of a crumb from a peer. Its claims come with it, bound to no slot (spec R27, R48). -/
def crumbThread (l : Launch) (header : BitVec 1024) (claims : List (BitVec 2 × Word)) (pass : Option Passport) : Thread :=
  let t := ({} : Thread).ofHeader header.toNat
  let k := match pass with | some p => p.thread | none => ⟨t.launch, t.index⟩
  { t with
    ctx := match pass with | some p => p.ctx | none => BitVec.ofNat 64 (l.ctx t.index.toNat)
    named := if (⟨t.launch, t.index⟩ : Key) = k then none else some k
    crumbTower := match pass with | some p => p.tower | none => false
    state := .travelling
    claims := claims.map (fun c => { name := c.1, area := c.2, phys := none }) }

/-- Whether a core of a crumb's destination has the mode of its launch, or can change to it: otherwise there is no room for it there
(spec R365, log entry 75). -/
def State.crumbRoom (s : State) (l : Launch) (t : Thread) : Bool := (s.crumbCores t).any (s.modeFits l.mode)

/-- The pins of the save areas of a thread's claims, as far as their pages can be found. -/
def State.claimPins (s : State) (t : Thread) : List Pin :=
  t.claims.flatMap (fun c =>
    match Res.map (s.locate (s.who { t with priv := true } .none) .store) (parts c.area.toNat imageSize) with
    | .ok ls => (pagesOfLocs ls).map (fun l => pinOf t.space l (.claim t.key c.name))
    | _ => [])

/-- A thread's record is added, or replaces one of its name. -/
def State.addThread (s : State) (t : Thread) : State :=
  if (s.find t.key).isSome then s.setThread t else { s with threads := s.threads ++ [t] }

/-- The number under which requests wait for a place of memory. -/
def State.waitAt (s : State) (key : Nat) : Nat :=
  if key / 2 ^ 48 = s.dev.toNat then key % 2 ^ 48 / 128 else if key / 2 ^ 48 = 0xFFF then hostWait (key / 64) else key / 128

/-- What bytes of a context wait for: the entry that the walk lacks, or the first half of a line that is not at hand. -/
def State.ctxWaitsAt (s : State) (t : Thread) (excl : Bool) (x : Nat × Nat) : Nat :=
  match s.leaf t.key t.space (posTower t.cur) x.1 with
  | .wait (some key) => s.waitAt key
  | .wait none => moveLine
  | _ =>
    match s.ctxPlace t x.1 x.2 with
    | some f =>
      match (unitsOf 64 f x.2).find? (fun u => s.readyLoc t excl { va := 0, n := 64, key := u * 64 } != .ok) with
      | some u => s.waitAt (u * 64)
      | none => moveLine
    | none => moveLine

/-- CRUMB: accepted at a core of the destination tile or tower, once the context's home can be written; or refused. Its lines become
prefill copies (spec R27). -/
def execCrumb (h : MsgHdr) (header : BitVec 1024) (lines : List (BitVec 1024)) (s : State) : Out :=
  match s.crumbLaunch header h.pass with
  | none => .next (s.reply h .crr 1 [])
  | some l =>
    let t := crumbThread l header h.claims h.pass
    if posDev t.dest ≠ s.dev ∨ (s.space? t.space).isNone then .next (s.reply h .crr 1 [])
    else
      let s := if (s.launch? l.id).isSome then s.setLaunch l else { s with launches := s.launches ++ [l] }
      let refuse (reason : Nat) : Out := .next ((if l.guest then s.settleGuest l else s).reply h .crr reason [])
      match s.crumbCore t with
      | none => refuse 0
      | some core =>
        if s.crumbRoom l t = false then refuse 2
        else
        match s.ctxLater t true [(t.ctx.toNat, 256)] with
        | some s' =>
          .next (s'.await (s.ctxWaitsAt t true (t.ctx.toNat, 256)) (.crumb h header lines))
        | none =>
          let s := s.took t true (s.ctxLocs t [(t.ctx.toNat, 256)]) (home := true)
          let hot := (hotOf t.hotl t.hotn).zipWith
            (fun j (x : BitVec 1024) => { thread := t.key, line := j, data := leBytes 128 x.toNat : Prefill }) lines
          let s : State := { s with
            away := s.away.filter (fun a => a.thread != t.key)
            pins := s.claimPins t ++ s.pins }
          .next (((s.addThread t).settleCrumb t core hot).reply h .cra 0 [])

/-! ### Probes of lines that this module holds of a peer (spec R352, R356, R365) -/

/-- The place of the line that a message of a home names. -/
def farLineKey (h : MsgHdr) : Nat := h.srcDev.toNat * 2 ^ 48 + h.addr.toNat / 8 * 128

/-- An UPG on its way for a line has lost the shared copy that it was sent for: a GRT grants nothing any more. -/
def State.staleLine (s : State) (unit : Nat) : State :=
  { s with txns := s.txns.map (fun x => if x.key / 128 = unit ∧ x.answer.isNone ∧ x.opc = .upg then { x with stale := true } else x) }

/-- Whether a thread that a fill has satisfied is about to use the line: it may issue, and waits for no other line. -/
def State.aboutToUse (s : State) (k : Key) : Bool :=
  (match s.find k with | some t => t.state == .active && t.held | none => false) &&
    !s.txns.any (fun y => y.thread == some k && y.fills && y.answer.isNone)

/-- Whether a probe of a line is held (spec R157, R352): a fill is outstanding for it, or the thread that it satisfied has not
used it yet. While the module holds the line in S no fill is: an UPG brings no data (log entry 71). -/
def State.lineHeld (s : State) (unit : Nat) : Bool :=
  s.txns.any (fun x => (x.opc == .rds || x.opc == .rdo || x.opc == .upg) && x.key / 128 == unit &&
    ((x.answer.isNone && s.lineState unit == .i) || (x.answer == some .done && x.thread.any s.aboutToUse)))

/-- A probe of a line: `keep` for a downgrade, which is answered with data always, `e` the event that brings it. Dirty data, in the
line or in a write-back on its way, goes with the answer. The copies of the module's tiles and hearths go, or are shared. -/
def State.probed (s : State) (e : Instr) (h : MsgHdr) (keep : Bool) : State :=
  let key := farLineKey h
  let unit := key / 128
  if s.lineHeld unit then s.await unit e
  else
    let st := s.lineState unit
    let data := keep || st = .m || s.writingBack unit
    let s := (s.staleLine unit).reply h (if data then .prd else .pack) 0 (if data then s.mem.readBytes key 128 else [])
    if keep then
      if st = .i || s.remote.all (fun r => r.unit != unit) then s
      else { s with
        remote := setUnit s.remote unit .s
        caches := s.caches.map (fun (c : CacheLine) => if c.unit == unit then { c with st := .s } else c)
        hearths := s.hearths.map (fun (x : HearthLine) => if x.unit == unit then { x with st := .s } else x) }
    else (s.dropRemote unit).wakeRange key 128

/-- PINV. -/
def execPinv (h : MsgHdr) (s : State) : Out := .next (s.probed (.pinv h) h false)
/-- PSHR. -/
def execPshr (h : MsgHdr) (s : State) : Out := .next (s.probed (.pshr h) h true)
/-- PRCL, handled as PINV. -/
def execPrcl (h : MsgHdr) (s : State) : Out := .next (s.probed (.prcl h) h false)

/-- Whether an event is a probe. -/
def isProbe (e : Instr) : Bool :=
  match e with
  | .pinv _ | .pshr _ | .prcl _ => true
  | _ => false

/-- A held probe whose line is held no longer is applied. -/
def State.applyProbe (s : State) : State :=
  match s.waiting.find? (fun w => isProbe w.event && !s.lineHeld w.line) with
  | some w =>
    { s with
      waiting := s.waiting.erase w
      turns := Turn.again w.event :: s.turns }
  | none => s

/-! ### Answers to this module's requests (spec R365) -/

/-- The transaction that a reply answers. -/
def State.txnOf (s : State) (h : MsgHdr) (p : Opc → Bool) : Option Txn :=
  s.txns.find? (fun x => x.dev == h.srcDev && x.tag == h.tag && x.answer.isNone && p x.opc)

/-- A transaction is over. -/
def State.endTxn (s : State) (x : Txn) : State := { s with txns := s.txns.filter (fun y => y != x) }

/-- Whether a transaction that has brought a line stays for its thread to use: one of a thread, or a read that keeps no copy. -/
def State.keepsTxn (s : State) (x : Txn) : Bool :=
  x.thread.any (fun k => k.launch == 0 && x.opc == .rdc || k.launch != 0 && (s.find k).isSome)

/-- A line of a peer arrives in a state, in the cache of the tile that asked for it; its transaction stays until its thread has used it, and
holds probes meanwhile. -/
def State.fillRemote (s : State) (x : Txn) (st : HalfSt) (data : Option (BitVec 1024)) : State :=
  let unit := x.key / 128
  let s := match data with
    | some d => s.store (unit * 128) (leBytes 128 d.toNat)
    | none => s
  let s : State := { s.endTxn x with
    remote := setUnit s.remote unit st
    ghosts := s.ghosts.filter (fun u => u != unit) }
  let s := match x.into with
    | some (tile, space) => s.reachPeer tile space (st == HalfSt.m) unit
    | none => s
  let s := if s.keepsTxn x then { s with txns := { x with answer := some .done } :: s.txns } else s
  s.release unit

/-- A line arrives that its thread uses once: the module keeps no copy of it. -/
def State.fillOnce (s : State) (x : Txn) (data : BitVec 1024) : State :=
  let unit := x.key / 128
  let s := if s.lineState unit = .i then s.store (unit * 128) (leBytes 128 data.toNat) else s
  let s := s.endTxn x
  let s := if s.keepsTxn x then { s with txns := { x with answer := some .done } :: s.txns } else s
  s.release unit

/-- Whether a transaction is that of a thread which is there no more. Requesters that are no threads have launch 0. -/
def State.orphan (s : State) (k : Key) : Bool :=
  k.launch != 0 && match s.find k with | some t => t.state == .done | none => true

/-- A transaction receives its answer; one of no thread, or of one that is gone, is over, and one of the firmware ends what it posted.
Threads that wait for a cell look again. -/
def State.answerTxn (s : State) (x : Txn) (a : Answer) : State :=
  let failed := match a with | .failed _ _ => true | _ => false
  let s := if x.thread = some firmwareKey ∧ x.opc = .arrv then (s.endTxn x).postedAnswer x.key (!failed)
    else if x.thread.all (fun k => k != firmwareKey && s.orphan k && x.opc != .crumb) then s.endTxn x
    else { s with txns := s.txns.map (fun y => if y = x then { y with answer := some a } else y) }
  s.wakeCell x.key

/-- DATS. What RDC brings is for its thread alone. -/
def execDats (h : MsgHdr) (data : BitVec 1024) (s : State) : Out :=
  match s.txnOf h (fun o => o == .rds || o == .rdc) with
  | none => .next s
  | some x =>
    .next (if x.opc = .rdc then s.fillOnce x data else s.fillRemote x .s (some data))

/-- DATE: the line comes with ownership. -/
def execDate (h : MsgHdr) (dirty : Bool) (data : BitVec 1024) (s : State) : Out :=
  match s.txnOf h (fun o => o == .rdo || o == .upg) with
  | none => .next s
  | some x => .next (s.fillRemote x (if dirty then .m else .e) (some data))

/-- GRT: one whose shared copy a probe took meanwhile grants nothing any more, since that probe came after it (log entry 71). -/
def execGrt (h : MsgHdr) (s : State) : Out :=
  match s.txnOf h (fun o => o == .upg) with
  | none => .next s
  | some x => .next (if x.stale then (s.endTxn x).release (x.key / 128) else s.fillRemote x .e none)

/-- RES. -/
def execRes (h : MsgHdr) (b : BitVec 128) (s : State) : Out :=
  match s.txnOf h (fun o => o == .amo || o == .cell || o == .arrv) with
  | some x => .next (s.answerTxn x (.value b))
  | none => .next s

/-- CMP. -/
def execCmp (h : MsgHdr) (s : State) : Out :=
  match s.txnOf h (fun o => o == .wrl || o == .wrp || o == .wb) with
  | some x => .next ((s.endTxn x).release (x.key / 128))
  | none => .next s

/-- A request has failed: a crumb returns, another request keeps the class and cause for its thread. -/
def State.failTxn (s : State) (x : Txn) (cls cause : BitVec 4) : State :=
  let s := s.answerTxn x (.failed cls cause)
  match x.opc, x.thread with
  | .crumb, some k => s.undeliverable k
  | _, _ => s.release (x.key / 128)

/-- NAK. -/
def execNak (h : MsgHdr) (cls cause : BitVec 4) (s : State) : Out :=
  match s.txnOf h (fun _ => true) with
  | some x => .next (s.failTxn x cls cause)
  | none => .next s

/-- The record of a thread goes from this device. -/
def State.dropThread (s : State) (k : Key) : State :=
  if s.thr.key = k then { s with thr := {} } else { s with threads := s.threads.filter (fun t => t.key != k) }

/-- A peer has accepted a thread: its pins go, and the device remembers where it is. One that was killed on its way is
DONE, and the peer is told (spec R23). -/
def State.gaveAway (s : State) (t : Thread) (dev : BitVec 12) : State :=
  let s := (s.endClaims t).dropThread t.key
  if t.killed then
    { s with outLaunch := s.outLaunch ++ [LaunchMsg.killThread dev t.key] }.indexDone t.key.launch t.key.index.toNat
  else { s with away := { thread := t.key, space := t.space, ctx := t.ctx, dev := dev } :: s.away.filter (fun a => a.thread != t.key) }

/-- CRA: the source drops its copy, and the thread is the destination's. -/
def execCra (h : MsgHdr) (s : State) : Out :=
  match s.txnOf h (fun o => o == .crumb) with
  | some x =>
    let s := s.endTxn x
    .next (match x.thread.bind s.find with | some t => s.gaveAway t h.srcDev | none => s)
  | none => .next s

/-- CRR: whatever the reason, the crumb is undeliverable. -/
def execCrr (h : MsgHdr) (_reason : BitVec 2) (s : State) : Out :=
  match s.txnOf h (fun o => o == .crumb) with
  | some x => .next (s.failTxn x 10 5)
  | none => .next s

/-! ### Answers to this home's probes (spec R353, R356) -/

/-- A peer has answered a probe of a line of this home. A downgraded owner stays a sharer. When the last answer is here
the line is BUSY no more, and the requests that wait are served. -/
def State.probeAnswer (s : State) (h : MsgHdr) (data : Option (BitVec 1024)) : State :=
  let line := homeLine h
  let d := s.dirEntry line
  if d.state ≠ .busy then s
  else
    let owner := d.ownerDev == some h.srcDev
    let s := match data with
      | some x => if owner then s.store (s.homeLineKey h) (leBytes 128 x.toNat) else s
      | none => s
    let d := { d with
      ownerDev := if owner then none else d.ownerDev
      rdev := if owner && d.down && data.isSome then d.rdev ++ [h.srcDev] else d.rdev.filter (fun x => x != h.srcDev) }
    if d.ownerDev.isNone && (d.down || d.rdev.isEmpty) then
      let d := if d.down then d else { d with rovf := false }
      (s.setDir d.settled).release line
    else s.setDir d

/-- PRD. -/
def execPrd (h : MsgHdr) (data : BitVec 1024) (s : State) : Out := .next (s.probeAnswer h (some data))
/-- PACK. -/
def execPack (h : MsgHdr) (s : State) : Out := .next (s.probeAnswer h none)

/-- WB: the owner's data is taken; data that a probe's answer brought already is dropped (spec R356). -/
def execWb (h : MsgHdr) (data : BitVec 1024) (s : State) : Out :=
  let line := homeLine h
  let d := s.dirEntry line
  if d.ownerDev = some h.srcDev then
    let s := s.store (s.homeLineKey h) (leBytes 128 data.toNat)
    let d := { d with ownerDev := none }
    let busy := d.state = .busy
    let s := (s.setDir (if busy then d else d.settled)).reply h .cmp 0 []
    .next (if busy then s else s.release line)
  else .next (s.reply h .cmp 0 [])

/-! ### Lines that this module gives up (spec R354, R358) -/

/-- A line of a peer or a half of host memory leaves the module's caches. A line that the module owns is written back, whether or not
it has been written to; a shared one goes without a message, and its home still counts the module (log entry 71). -/
def State.evictUnit (s : State) (unit : Nat) : State :=
  let st := s.lineState unit
  if s.ghosts.contains unit then s
  else if st ≠ .i then
    let own := st = .m || st = .e
    let free := (s.freeTag (BitVec.ofNat 12 (unit * 128 / 2 ^ 48))).isSome
    if own && !free then s
    else
      let a := (if own then s.ask none (posOf s.dev 0) .sys .wb (unit * 128) 0 (s.mem.readBytes (unit * 128) 128) else s).dropRemote unit
      (if own then a else { a with ghosts := unit :: a.ghosts }).dropRange (unit * 128) 128
  else if s.halfState unit ≠ .i then
    ((s.halves.filter (fun h => h.unit == unit)).foldl State.evictHalf s).dropRange (unit * 64) 64
  else s

/-- The lines of peers that the module holds in none of its caches, and that no thread is about to use: they leave it. -/
def State.idleLines (s : State) : List Nat :=
  (s.remote.filter (fun r => !s.lineHeld r.unit && s.caches.all (fun c => c.unit != r.unit) &&
    s.hearths.all (fun h => h.unit != r.unit))).map (fun r => r.unit)

/-- The first request of a tile in the queue of a line is served when its turn has come, though its thread may be gone: the tile
receives the line, unless the host may hold a half of it (spec R356, R360). -/
def State.serveTile (s : State) (q : Queued) : State :=
  match q.req with
  | .event _ => s
  | .tile i space excl halves =>
    if s.flipping q.line then s
    else
      match s.readyLocal space excl q.line halves with
      | .ok =>
        let a := if (s.dirEntry q.line).host = 0 then s.reachLine i space excl (s.dev.toNat * 2 ^ 41 + q.line) else s
        a.served q.line q.req
      | .later s' => s'
      | .trap s' _ => s'

/-- The requests of tiles that stand first in the queues of their lines. -/
def State.firstTiles (s : State) : List Queued :=
  s.lineQueue.filter (fun q => (match q.req with | .tile .. => true | _ => false) &&
    (s.lineQueue.find? (fun p => p.line == q.line)) == some q && !s.called.contains q.line)

/-- Lines whose first request is an event that could be served now: nothing is under way for them any more, and the directory has a way
(spec R353, R356). -/
def State.openLines (s : State) : List Nat :=
  (((s.lineQueue.map (fun q => q.line)).eraseDups).filter (fun n =>
    (match s.lineQueue.find? (fun q => q.line == n) with | some { req := .event _, .. } => true | _ => false) &&
    !s.called.contains n && !s.flipping n && (s.dirEntry n).state != .busy && (s.dirEntry n).ownerDev.isNone &&
    !s.bisnp.any (fun b => b.1 / 2 == n) && (s.dirVictim n).all (fun d => !d.outside)))

/-! ### Links (spec R364, R365) -/

/-- The class of a message (spec R355, R365): 0 REQ, 1 PRB, 2 DAT, 3 ACK. -/
def Opc.cls : Opc → Nat
  | .rds | .rdo | .rdc | .upg | .wrl | .wrp | .amo | .cell | .arrv | .crumb => 0
  | .pinv | .pshr | .prcl => 1
  | .dats | .date | .wb | .prd | .res => 2
  | .cmp | .grt | .pack | .cra | .crr | .nak => 3

/-- The slots of a message: its header and its data. -/
def PeerMsg.slots (m : PeerMsg) : Nat := 1 + (m.payload.length + 15) / 16

/-- Flits up to a sequence number are acknowledged. -/
def Port.acked (p : Port) (ack : BitVec 12) : Port :=
  if p.unacked.any (fun x => x.1 == ack) then
    { p with unacked := (p.unacked.dropWhile (fun x => x.1 != ack)).drop 1, fails := 0 }
  else p

/-- The flits of a message: 15 slots go into each (spec R364). -/
def flitsOf (slots : Nat) : Nat := (slots + 14) / 15

/-- Flits are sent, each with the ACK of what has been received in order (spec R364). -/
def Port.emit (p : Port) (fs : List Flit) : Port :=
  { p with
    sent := p.sent ++ fs.map (fun f => { flit := f, ack := p.lastIn })
    toldAck := p.lastIn }

/-- A flit with the next number is sent, and kept until it is acknowledged (spec R364). -/
def Port.push (p : Port) (f : BitVec 12 → Flit) (m : Option PeerMsg := none) : Port :=
  let seq := p.seq + 1
  { p.emit [f seq] with
    seq := seq
    unacked := p.unacked ++ [(seq, m)] }

/-- The rest of a message's flits are sent; the last one stands for its delivery. -/
def Port.pushMore (p : Port) (m : PeerMsg) : Nat → Port
  | 0 => p
  | n + 1 => (p.push Flit.more (if n = 0 then some m else none)).pushMore m n

/-- The flits of a message are sent. -/
def Port.pushMessage (p : Port) (m : PeerMsg) : Port :=
  let n := flitsOf m.slots
  (p.push (fun q => .message q m) (if n ≤ 1 then some m else none)).pushMore m (n - 1)

/-- The port by which a message can leave now: the lowest that is up toward its device and has credits of its class (spec R355). -/
def State.portFor (s : State) (m : PeerMsg) : Option Nat :=
  (upto 0 18).find? (fun i =>
    let p := s.port i
    p.peer && p.up && p.dev == m.dst && decide (m.slots ≤ p.credits.getD m.opc.cls 0))

/-- The first message that can leave: no message of its class waits before it for its device (spec R355). -/
def State.nextOut (s : State) : List PeerMsg → List PeerMsg → Option (PeerMsg × Nat)
  | _, [] => none
  | before, m :: r =>
    match (if before.any (fun b => b.opc.cls == m.opc.cls && b.dst == m.dst) then none else s.portFor m) with
    | some i => some (m, i)
    | none => s.nextOut (m :: before) r

/-- A message leaves by a port, and takes its credits. -/
def State.transmit (s : State) : State :=
  match s.nextOut [] s.outPeer with
  | none => s
  | some (m, i) =>
    let p := (s.port i).pushMessage m
    { s.setPort i { p with credits := adjust p.credits m.opc.cls (fun c => c - m.slots) } with
      outPeer := s.outPeer.erase m
      txns := s.txns.map (fun (x : Txn) =>
        if x.dev = m.dst ∧ x.tag = m.tag ∧ x.opc = m.opc ∧ x.answer.isNone then { x with port := some i } else x) }

/-- Slots of a class that a received message took are free again. -/
def Port.free (p : Port) (cls n : Nat) : Port := { p with owed := adjust p.owed cls (fun c => c + n) }

/-- A port gives back the slots that it has freed. -/
def State.giveCredit (s : State) (i : Nat) : State :=
  let p := s.port i
  if p.up && p.owed.any (fun n => n != 0) then
    s.setPort i { p.push (fun n => .credit n p.owed) with owed := [0, 0, 0, 0] }
  else s

/-- An idle flit tells the other side what has been received in order, where no other flit has told it (spec R364, R365). -/
def State.sendIdle (s : State) (i : Nat) : State :=
  let p := s.port i
  if p.up && p.lastIn != p.toldAck then s.setPort i (p.push Flit.idle) else s

/-- IDLE: its SEQ counts as received in order, its ACK acknowledges. -/
def execIdle (port : BitVec 5) (seq ack : BitVec 12) (s : State) : Out :=
  let p := s.port port.toNat
  let p := if seq = p.lastIn + 1 then { p with lastIn := seq } else p
  .next (if p.up then s.setPort port.toNat (p.acked ack) else s)

/-- REPLAY_REQUEST: every flit from SEQ that is not acknowledged is sent again, in order. -/
def execReplayRequest (port : BitVec 5) (seq : BitVec 12) (s : State) : Out :=
  let p := s.port port.toNat
  if p.up then
    .next (s.setPort port.toNat { p.emit ((p.unacked.dropWhile (fun x => x.1 != seq)).map (fun x => Flit.replay x.1)) with
      fails := if p.failSeq = seq then p.fails + 1 else 1
      failSeq := seq })
  else .next s

/-- A flit of link management was received: it is the next in order. -/
def Port.tookFlit (p : Port) : Port := { p with lastIn := p.lastIn + 1 }

/-- CREDIT: the buffers that the other side freed. -/
def execCredit (port : BitVec 5) (req prb dat ack : BitVec 16) (s : State) : Out :=
  let p := (s.port port.toNat).tookFlit
  .next (s.setPort port.toNat { p with
    gotCredit := true
    credits := List.zipWith (· + ·) p.credits [req.toNat, prb.toNat, dat.toNat, ack.toNat] })

/-- A HELLO of this side (spec R365). -/
def State.greet (s : State) (i : Nat) : State :=
  let p := s.port i
  s.setPort i { p.emit [Flit.hello s.dev i true] with greeted := true }

/-- Training sends HELLO until the other side's is there. -/
def State.hello (s : State) (i : Nat) : State := if (s.port i).peer && !(s.port i).up then s.greet i else s

/-- HELLO: training learns the other side's device; with its ready bit, and this side's HELLO sent, the link is up. Sequence numbers
and credits start anew: the first CREDIT gives the whole of each class's buffer. -/
def execHello (port : BitVec 5) (dev : BitVec 12) (_number : BitVec 5) (ready : Bool) (s : State) : Out :=
  let s := if (s.port port.toNat).greeted then s else s.hello port.toNat
  let p := s.port port.toNat
  if p.peer then
    .next (s.setPort port.toNat { p with
      dev := dev
      up := ready
      seq := 0
      lastIn := 0
      toldAck := 0
      unacked := []
      fails := 0
      gotCredit := false
      greeted := !ready && p.greeted
      credits := [0, 0, 0, 0]
      owed := (upto 0 4).map Config.classBuffer })
  else .next s

/-- KEEP has no content. -/
def execKeep (port : BitVec 5) (s : State) : Out :=
  let p := s.port port.toNat
  .next (if p.up then s.setPort port.toNat p.tookFlit else s)

/-- KEEP_TIMEOUT: a KEEP flit is sent. -/
def execKeepTimeout (port : BitVec 5) (s : State) : Out :=
  let p := s.port port.toNat
  if p.up then .next (s.setPort port.toNat (p.push Flit.keep)) else .next s

/-- FLIT_ERROR: the receiver asks for a replay from the first flit that it has not received in order. -/
def execFlitError (port : BitVec 5) (s : State) : Out :=
  let p := s.port port.toNat
  if p.up then .next (s.setPort port.toNat (p.emit [Flit.replayRequest (p.lastIn + 1)])) else .next s

/-- The header of a message of a peer, with its class and its slots. -/
def Instr.message? (i : Instr) : Option (MsgHdr × Nat × Nat) :=
  match i with
  | .rds h | .rdo h | .rdc h | .upg h => some (h, 0, 1)
  | .wrl h _ => some (h, 0, 9)
  | .wrp h _ _ => some (h, 0, 3)
  | .amo h .. | .cell h .. | .arrv h .. => some (h, 0, 2)
  | .crumb h _ ls => some (h, 0, 9 + 8 * ls.length)
  | .pinv h | .pshr h | .prcl h => some (h, 1, 1)
  | .dats h _ | .date h _ _ | .wb h _ | .prd h _ => some (h, 2, 9)
  | .res h _ => some (h, 2, 2)
  | .cmp h | .grt h | .pack h | .cra h | .crr h _ | .nak h _ _ => some (h, 3, 1)
  | _ => none

/-- What a port makes of an event: a message counts once, in the order of its flit's SEQ, on a link that is up. It acknowledges, and
its slots are free when it is taken; SEQ is that of its first flit. Other events pass. -/
def State.received (s : State) (i : Instr) : Option State :=
  match Instr.message? i with
  | none => some s
  | some (h, cls, slots) =>
    let p := s.port h.port.toNat
    if p.up && h.seq == p.lastIn + 1 then
      some (s.setPort h.port.toNat (({ p with lastIn := h.seq + BitVec.ofNat 12 (flitsOf slots - 1) }.acked h.ack).free cls slots))
    else none

/-- Every entry of the directory forgets a device; lines that waited for it alone are free. -/
def State.forgetPeer (s : State) (dev : BitVec 12) : List DirEntry → State
  | [] => s
  | d :: r =>
    let e := { d with
      ownerDev := if d.ownerDev = some dev then none else d.ownerDev
      rdev := d.rdev.filter (fun x => x != dev) }
    let open_ := e.state = .busy && !(e.ownerDev.isNone && (e.down || e.rdev.isEmpty))
    if e = d then s.forgetPeer dev r
    else if open_ then (s.setDir e).forgetPeer dev r
    else ((s.setDir e.settled).release d.line).forgetPeer dev r

/-- Launches of this origin that a lost device runs are killed on the devices that remain (spec R330). A launch whose origin is lost stays as
it is: log entry 125. -/
def State.killSpanning (s : State) (dev : BitVec 12) : List Launch → State
  | [] => s
  | l :: r =>
    if l.spans && l.origin == s.dev && l.devlist.contains dev then
      let s := s.killLaunch l.id
      let s := match s.launch? l.id with
        | some l => (s.setLaunch { l with reported := dev :: l.reported }).settleLaunch l.id
        | none => s
      s.killSpanning dev r
    else s.killSpanning dev r

/-- Fail transactions, one after another. -/
def State.failAll (s : State) : List Txn → State
  | [] => s
  | x :: r => (s.failTxn x 7 1).failAll r

/-- Threads that a lost device had accepted count as DONE, one after another (log entry 74). -/
def State.loseAway (s : State) : List Away → State
  | [] => s
  | a :: r => (s.indexDone a.thread.launch a.thread.index.toNat).loseAway r

/-- A lost device holds and wants no submission lock any more, however often it asked for it (spec R330). -/
def State.loseLocks (s : State) (dev : BitVec 12) : List Nat → State
  | [] => s
  | q :: r =>
    let ds := Tab.get s.locks q []
    let left := ds.filter (fun d => d != dev)
    let a : State := if ds.contains dev then { s with locks := Tab.put s.locks q left } else s
    (if ds.head? = some dev then a.grantLock q else a).loseLocks dev r

/-- The path to a device has failed: what crossed it fails, crumbs return, and its lines are lost (spec R31, R364). -/
def State.losePeer (s : State) (dev : BitVec 12) : State :=
  let s := s.failAll (s.txns.filter (fun x => x.dev == dev && x.answer.isNone))
  let lost := s.away.filter (fun a => a.dev == dev)
  let gone := (s.remote.filter (fun r => r.unit * 128 / 2 ^ 48 == dev.toNat)).map (fun r => r.unit)
  let s := gone.foldl State.dropRemote s
  let s : State := { s with
    ghosts := s.ghosts.filter (fun u => u * 128 / 2 ^ 48 != dev.toNat)
    outPeer := s.outPeer.filter (fun m => m.dst != dev)
    away := s.away.filter (fun a => a.dev != dev) }
  (((s.loseAway lost).forgetPeer dev s.dir).killSpanning dev s.launches).loseLocks dev (upto 0 64)

/-- Messages that a failed link did not deliver for certain and that are no requests of threads leave by another port; those requests
have failed (log entry 21). -/
def Port.undelivered (p : Port) : List PeerMsg :=
  (p.unacked.filterMap (fun x => x.2)).filter (fun m => m.opc.cls != 0)

/-- A link goes down; its device is lost unless another port leads there. What crossed it fails (spec R364). -/
def State.linkFail (s : State) (port : Nat) : State :=
  let p := s.port port
  if p.up then
    let s := s.setPort port { p with
      up := false
      greeted := false
      unacked := [] }
    if s.ports.any (fun q => q.2.up && q.2.dev == p.dev) then
      let s : State := { s with outPeer := p.undelivered ++ s.outPeer }
      s.failAll (s.txns.filter (fun x => x.port == some port && x.answer.isNone && x.opc != .wb))
    else s.losePeer p.dev
  else s

/-- A link is taken down by this side, which says why (spec R365). -/
def State.closeLink (s : State) (port reason : Nat) : State :=
  let p := s.port port
  if p.up then (s.setPort port (p.emit [Flit.down reason])).linkFail port else s

/-- DOWN. -/
def execDown (port : BitVec 5) (_reason : BitVec 8) (s : State) : Out := .next (s.linkFail port.toNat)

/-- LINK_DOWN: after the request for a ninth replay, 8 replays of one flit have failed. -/
def execLinkDown (port : BitVec 5) (s : State) : Out :=
  .next (if 9 ≤ (s.port port.toNat).fails then s.closeLink port.toNat 0 else s)

/-! ### Launches that span devices (spec R330) -/

/-- LAUNCH_RECORD_ARRIVAL: the record joins its queue, or waits for room there after those that came before it (spec R328,
R330). -/
def execLaunchRecordArrival (origin : BitVec 12) (id : BitVec 32) (space : BitVec 16) (record : BitVec 2048) (s : State) : Out :=
  let l : Launch := { id := id, space := space, record := record, origin := origin, waiting := true }
  if !l.devlist.contains s.dev || (s.launch? id).any (fun x => !x.guest) then .next s
  else
    let l := match s.launch? id with
      | some x => { x with waiting := true, guest := false }
      | none => l
    let mine (t : Turn) : Bool :=
      match t with
      | .gone k => k.launch == id
      | .came k _ _ => k.launch == id
      | .killLaunch i => i == id
      | _ => false
    let s : State := { s with
      launches := s.launches.filter (fun (y : Launch) => y.id != id) ++ [l]
      early := s.early.filter (fun t => !mine t)
      turns := s.early.filter mine ++ s.turns }
    .next (s.lineUpLaunch l)

/-- The first record that waits for a queue that has room joins it. -/
def State.admitRecord (s : State) : State :=
  match s.recordsIn.find? (fun r => !s.queueFull r.queue) with
  | some r => { s with recordsIn := s.recordsIn.filter (fun x => x.id != r.id) }.joinQueue r.id
  | none => s

/-- FLAT_INDEX_REQUEST: the origin hands out the next index, or says that none is left. -/
def execFlatIndexRequest (id : BitVec 32) (dev : BitVec 12) (s : State) : Out :=
  match s.launch? id with
  | none => .next { s with outLaunch := s.outLaunch ++ [.grant dev id none] }
  | some l =>
    if l.origin ≠ s.dev ∨ ¬l.spans ∨ l.nlev ≠ 0 then .next s
    else if l.nextIndex < l.size && !l.noMore then
      .next { s.setLaunch (l.skipTo (l.nextIndex + 1)) with
        outLaunch := s.outLaunch ++ [.grant dev id (some (BitVec.ofNat 32 l.nextIndex))] }
    else .next { s with outLaunch := s.outLaunch ++ [.grant dev id none] }

/-- FLAT_INDEX_GRANT: an index that the launch has comes to this device; any other says that none is left. -/
def execFlatIndexGrant (id x : BitVec 32) (s : State) : Out :=
  match s.launch? id with
  | none => .next s
  | some l =>
    if l.asked = false then .next s
    else if x.toNat < l.size then .next (s.setLaunch { l with asked := false, granted := x.toNat :: l.granted })
    else .next ((s.setLaunch { l with asked := false, noMore := true }).settleLaunch id)

/-- COMPLETION_REPORT. -/
def execCompletionReport (id : BitVec 32) (dev : BitVec 12) (s : State) : Out :=
  match s.launch? id with
  | none => .next s
  | some l =>
    .next (if l.origin = s.dev && l.spans then (s.setLaunch { l with reported := dev :: l.reported }).settleLaunch id else s)

/-- A device of a launch has killed it: the kill reaches one whose record still waits for its queue as well; one that comes before the
record is kept for it (spec R330). -/
def State.killTold (s : State) (id : BitVec 32) : State :=
  match s.launch? id with
  | some _ => { s with recordsIn := s.recordsIn.filter (fun x => x.id != id) }.killHere id
  | none => s.keepEarly ⟨id, 0⟩ (.killLaunch id)

/-- KILL_FORWARD. -/
def execKillForward (id : BitVec 32) (s : State) : Out := .next (s.killTold id)

/-! ### What other devices tell (spec R218, R304, R330) -/

/-- A thread is DONE elsewhere, which the devices learn to which this one gave threads of its launch. -/
def State.goneAt (s : State) (k : Key) : State :=
  let s' := { s with away := s.away.filter (fun a => a.thread != k) }
  match s.launch? k.launch with
  | none => s'.keepEarly k (.gone k)
  | some l =>
    if l.done.contains k.index.toNat then s'
    else { s' with outLaunch := s.outLaunch ++ (s'.guestsOf l.id).map (fun d => LaunchMsg.gone d k) }.learnDone k.launch k.index.toNat

end Sys2Proof.Machine
end

