-- ==== Sys2Proof/Machine/HostCmd.lean ====
section
/-! DEFINITION. The host command set, by mailbox and by CMNT, and the configuration semaphore (spec R309, R366 to R375,
R377, R379). -/

namespace Sys2Proof.Machine

/-! ### The configuration semaphore (spec R366, R367) -/

/-- The HOLDER code of a port. -/
def holderOf (p : Bool) : BitVec 2 := if p then 2 else 1

/-- Whether bring-up designated a port as this command port (spec R366, R368). -/
def State.isCommandPort (s : State) (p : Bool) : Bool := s.cmdPorts.any (fun x => x.1 == b2n p)

/-- CFGSEM as either port reads it (spec R366). -/
def State.cfgsem (s : State) : Word := BitVec.ofNat 64 (pack [(8, 0), (2, s.holder.toNat), (6, 0), (16, s.semGen.toNat), (32, s.lease.toNat)])

/-- A write of REQ from a port. -/
def State.semReq (s : State) (p : Bool) : State :=
  if s.holder = 0 then
    { s with
      holder := holderOf p
      semGen := s.semGen + 1
      lease := 1000
      lastGrant := some p }
  else if s.holder = holderOf p then { s with lease := 1000 }
  else s

/-- A write of REL from a port: ignored unless the writer holds the semaphore. -/
def State.semRel (s : State) (p : Bool) : State :=
  if s.holder = holderOf p then { s with holder := 0, lease := 0 } else s

/-- CFGSEM_REQ. -/
def execCfgsemReq (p : Bool) (s : State) : Out := .next (if s.isCommandPort p then s.semReq p else s)

/-- CFGSEM_REL. -/
def execCfgsemRel (p : Bool) (s : State) : Out := .next (if s.isCommandPort p then s.semRel p else s)

/-- A write of a whole word to CFGSEM by a port: bits 0 and 1 are its only writable ones. One with both releases, then requests: log
entry 118. -/
def State.semWrite (s : State) (x : Bool × Word) : State :=
  if s.isCommandPort x.1 then
    let s := if bit x.2.toNat 1 then s.semRel x.1 else s
    if bit x.2.toNat 0 then s.semReq x.1 else s
  else s

/-- Whether port 1 has the older grant of the two: port 0 was granted last. One that was granted none counts as the older. -/
def State.onePortFirst (s : State) : Bool := s.lastGrant == some false

/-- Writes of both ports that reach CFGSEM in one cycle: that of the port with the older grant comes first, or of port 0 when neither
is older (spec R367). -/
def State.semWrites (s : State) (a b : Word) : State :=
  if s.onePortFirst then (s.semWrite (true, b)).semWrite (false, a)
  else (s.semWrite (false, a)).semWrite (true, b)

/-- A port reads CFGSEM. -/
def State.semRead (s : State) (p : Bool) : State := if s.isCommandPort p then s.toHost (.cfgsem p s.cfgsem) else s

/-- LEASE_LAPSE: LEASE reaches 0. The milliseconds that it counts are timing: log entry 8. -/
def execLeaseLapse (s : State) : Out :=
  .next (if s.holder = 0 then s
    else { s with
      holder := 0
      lease := 0
      reports := s.reports ++ [.leaseLapsed] })

/-! ### Commands (spec R309, R370 to R372) -/

/-- Dword `d` of a block. -/
def cmdDw (b : BitVec 2048) (d : Nat) : Nat := bits b.toNat (64 * d + 63) (64 * d)

/-- CODE. -/
def cmdCode (b : BitVec 2048) : Nat := bits b.toNat 15 0

/-- The host command codes. -/
def hostCodes : List Nat := [0x01, 0x02, 0x10, 0x11, 0x20, 0x21, 0x30, 0x40, 0x41, 0x50, 0x51, 0x60, 0x70]

/-- What the tables of R370 and R372 say of a command: its code, whether it is a configuration command, whether it is
scoped to a partition, and the bits after dword 0 that its row names: first bit and count. -/
structure CmdRow where
  code : Nat
  config : Bool
  owned : Bool
  named : List (Nat × Nat)
  deriving DecidableEq, Repr

/-- `n` whole dwords from dword `d`. -/
def dwords (d n : Nat) : Nat × Nat := (64 * d, 64 * n)

/-- Whether a block has no bit set that the tables do not name. -/
def CmdRow.clean (r : CmdRow) (b : BitVec 2048) : Bool :=
  let named := [(0, 16), (32, 16)] ++ (if r.owned then [(16, 3)] else []) ++ r.named
  (upto 0 2048).all (fun i => !bit b.toNat i || named.any (fun x => decide (x.1 ≤ i) && decide (i < x.1 + x.2)))

/-- How a command ends: with a status and no change, with a status that leaves its bytes behind (R375), done with
results by dword, or not yet. -/
inductive CmdEnd
  | status (n : Nat)
  | kept (s : State) (n : Nat)
  | done (s : State) (outs : List (Nat × Nat))
  | later (s : State)
  deriving DecidableEq, Repr

/-- The block of a command, and the CMNT that sent it. -/
def State.cmdBlock (s : State) (src : CmdSrc) : Option (BitVec 2048 × Option Cmnt) :=
  match src with
  | .port _ b => some (b, none)
  | .cmnt n => (s.cmnts.find? (fun c => c.id == n)).map (fun c => (BitVec.ofNat 2048 (s.mem.readNum c.block 256), some c))
  | .doe _ _ => none

/-- The partition for which a command acts. -/
def cmdPart (b : BitVec 2048) (c : Option Cmnt) : Nat :=
  match c with
  | some x => x.part.toNat
  | none => bits b.toNat 18 16

/-- The port that a command comes from, or counts as coming from (spec R367). -/
def State.cmdPort (s : State) (src : CmdSrc) (b : BitVec 2048) (c : Option Cmnt) : Bool :=
  match src with
  | .port p _ => p
  | _ => bit s.mport.toNat (cmdPart b c)

/-- Whether a command acts outside its partition. -/
def State.cmdOutside (s : State) (src : CmdSrc) (b : BitVec 2048) (c : Option Cmnt) : Bool :=
  match src with
  | .port p _ => bit s.mport.toNat (cmdPart b c) != p
  | _ => bits b.toNat 18 16 != cmdPart b c

/-- The status that keeps a command from running; the order of the checks is log entry 61. -/
def State.cmdStatus (s : State) (r : CmdRow) (src : CmdSrc) (b : BitVec 2048) (c : Option Cmnt) : Nat :=
  if s.booted = false then 6
  else if cmdCode b ≠ r.code then 1
  else if r.clean b = false then 1
  else if r.config && s.holder != holderOf (s.cmdPort src b c) then 2
  else if r.owned && s.cmdOutside src b c then 3
  else 0

/-- The bytes that the firmware writes into a block: STATUS, and results where STATUS is 0. -/
def cmdResults (st : Nat) (outs : List (Nat × Nat)) : List (Nat × List Byte) :=
  (4, leBytes 2 st) :: (if st = 0 then outs.map (fun o => (8 * o.1, leBytes 8 o.2)) else [])

/-- Results go into a block in memory and into its copies. -/
def State.writeResults (s : State) (places : List Nat) : List (Nat × List Byte) → State
  | [] => s
  | (off, bs) :: r => (places.foldl (fun a k => a.store (k + off) bs) s).writeResults places r

/-- The places that answering a CMNT needs. -/
def cmntPlaces (c : Option Cmnt) : List Loc :=
  match c with
  | some x => plainLoc x.block 256 :: x.copies.map (fun k => plainLoc k 256)
  | none => []

/-- A command ends: the port's mailbox receives the block, or CMNT's block receives the results and its word one arrival, after
which its pins go. -/
def State.cmdAnswer (s : State) (src : CmdSrc) (b : BitVec 2048) (c : Option Cmnt) (st : Nat) (outs : List (Nat × Nat)) :
    State :=
  let s : State := { s with
    inHand := s.inHand.filter (fun x => x != src)
    flips := s.flips.filter (fun x => x.src != src) }
  match src, c with
  | .cmnt _, some c =>
    let s := s.took (firmwareThread c.space) true (cmntPlaces (some c)) (home := true)
    let s := if s.reachable [plainLoc c.block 256] then s.writeResults (c.block :: c.copies) (cmdResults st outs) else s
    let s := { s.dirtied [plainLoc c.block 256] with cmnts := s.cmnts.filter (fun x => x.id != c.id) }
    s.post { space := c.space, key := c.word, cmnt := some c.id }
  | .port p _, _ =>
    let bs := (cmdResults st outs).foldl (fun a x => patch a 0 x.1 x.2) (leBytes 256 b.toNat)
    { s with outHost := s.outHost ++ [.mailbox p (BitVec.ofNat 2048 (ofBytes bs))] }
  | _, _ => s

/-- Whether a command may come: through a mailbox, from a designated port. Before bring-up has designated the ports, a mailbox answers
that it is not ready (spec R368). -/
def State.mayCommand (s : State) (src : CmdSrc) : Bool :=
  match src with
  | .port p _ => !s.booted || s.isCommandPort p
  | _ => true

/-- A command that is not done stays in hand. -/
def State.keepInHand (s : State) (src : CmdSrc) : State := { s with inHand := src :: s.inHand.filter (fun x => x != src) }

/-- Run a command. An event whose block holds another code is not this command; IDENTIFY answers reserved codes. A
command that has begun completes whatever becomes of the semaphore, and goes on while the place of its answer cannot be written. -/
def State.command (s : State) (r : CmdRow) (src : CmdSrc) (f : State → BitVec 2048 → Nat → CmdEnd) : Out :=
  match s.cmdBlock src with
  | none => .next s
  | some (b, c) =>
    if cmdCode b ≠ r.code ∧ ¬(r.code = 1 ∧ hostCodes.contains (cmdCode b) = false) then .next s
    else if s.mayCommand src = false then .next s
    else
      match s.ready (firmwareThread ((c.map (fun x => x.space)).getD 0)) true (cmntPlaces c) with
      | .later s' =>
        if s.inHand.contains src then
          match f s b (cmdPart b c) with
          | .later a => .next (a.keepInHand src)
          | _ => .next s'
        else .next s'
      | ready =>
        let s := match ready with | .trap s' _ => s' | _ => s
        let st := if s.inHand.contains src then 0 else s.cmdStatus r src b c
        let held := r.config && s.booted && s.holder == holderOf (s.cmdPort src b c)
        let s := if held && !s.inHand.contains src then { s with lease := 1000 } else s
        if st ≠ 0 then .next (s.cmdAnswer src b c st [])
        else
          match f s b (cmdPart b c) with
          | .status n => .next (s.cmdAnswer src b c n [])
          | .kept s' n => .next (s'.cmdAnswer src b c n [])
          | .done s' outs => .next (s'.cmdAnswer src b c 0 outs)
          | .later s' => .next (s'.keepInHand src)

/-- Go on once the firmware may touch places, with them in its hands. -/
def State.cmdReady (s : State) (space : BitVec 16) (excl : Bool) (ls : List Loc) (f : State → CmdEnd) : CmdEnd :=
  match s.ready (firmwareThread space) excl ls with
  | .later s' => .later s'
  | .trap s' _ => .kept s' 1
  | .ok => f (s.took (firmwareThread space) excl ls (home := true))

/-- Whether a range of memory exists and is on. -/
def State.usable (s : State) (a n : Nat) : Bool :=
  s.inMemory a n && (parts a n).all (fun p => decide (s.darkCheck (plainLoc p.1 p.2) = .ok ()))

/-- The 64-bit parts of a number, as results from dword `d`. -/
def dwordsFrom (d n x : Nat) : List (Nat × Nat) := (upto 0 n).map (fun i => (d + i, bits x (64 * i + 63) (64 * i)))

/-! ### IDENTIFY and ATTEST (spec R372, R373) -/

/-- Fused shelves: bit 4 T + s. -/
def State.fusedMask (s : State) : Nat := ((upto 0 8).map (fun t => (s.tower t).fused.toNat * 2 ^ (4 * t))).sum
/-- Fenced cores: bit i. -/
def State.fencedMask (s : State) : Nat := ((upto 0 512).map (fun i => b2n (s.core i).fenced * 2 ^ i)).sum

/-- IDENTIFY. -/
def execIdentify (src : CmdSrc) (s : State) : Out :=
  s.command { code := 0x01, config := false, owned := false, named := [(64, 12), (80, 8), (128, 32), dwords 3 16] } src
    (fun s _ _ => .done s
      ([(1, s.dev.toNat + s.present.toNat * 2 ^ 16), (2, s.fusedMask)] ++ dwordsFrom 3 8 s.fencedMask ++
        dwordsFrom 11 4 Config.romMeasurement.toNat ++ dwordsFrom 15 4 Config.firmwareMeasurement.toNat))

/-- The bytes of an ATTEST reply before its signature. -/
def State.attestBody (s : State) (nonce : Nat) : List Byte :=
  leBytes 32 Config.romMeasurement.toNat ++ leBytes 32 Config.firmwareMeasurement.toNat ++ leBytes 8 s.partmap.toNat ++
    leBytes 32 nonce ++ leBytes 2 s.spaces.length ++
    s.spaces.flatMap (fun x => leBytes 2 x.id.toNat ++ leBytes 32 (shake256 (leBytes 256 x.desc.toNat)).toNat)

/-- The whole reply. -/
def State.attestReply (s : State) (nonce : Nat) : List Byte :=
  let body := s.attestBody nonce
  body ++ leBytes 114 (Config.identitySign (shake256 body)).toNat

/-- ATTEST through a mailbox or CMNT. -/
def State.attestCommand (s : State) (src : CmdSrc) : Out :=
  s.command { code := 0x02, config := false, owned := false, named := [dwords 1 7] } src (fun s b _ =>
    let a := cmdDw b 5
    let bs := s.attestReply (bits b.toNat 319 64)
    if a % 8 ≠ 0 then .status 1
    else if cmdDw b 6 < bs.length then .status 5
    else if s.usable a bs.length = false then .status 1
    else
      let ls := [plainLoc a bs.length]
      s.cmdReady 0 true ls (fun s => .done ((s.store a bs).dirtied ls) [(7, bs.length)]))

/-- ATTEST. Through DOE at a port in CXL mode the reply goes back whole (spec R357, R373), after bring-up. -/
def execAttest (src : CmdSrc) (s : State) : Out :=
  match src with
  | .doe port nonce =>
    if s.booted && decide (port.toNat < 18) && !(s.port port.toNat).peer then
      .next (s.toHost (.doe port (s.attestReply nonce.toNat)))
    else .next s
  | _ => s.attestCommand src

/-! ### PARTSET and SDTSET (spec R294, R296, R374) -/

/-- Whether a loaded space keeps a tower: a hearth share, a thread or a core scratch image (spec R374). -/
def State.towerKept (s : State) (t : Nat) : Bool :=
  s.spaces.any (fun x => x.hc t + x.hs t != 0 || x.images.any (fun i => i.dev == s.dev && i.core / 64 == t)) ||
    s.all.any (fun u => u.state != .done && posDev u.cur == s.dev && posTower u.cur == t)

/-- PARTMAP with an entry changed; a removed entry is 0. -/
def State.partSet (s : State) (t p : Nat) (valid mport : Bool) : State :=
  let x := s.partmap.toNat
  let e := if valid then 8 + p else 0
  let m := s.mport.toNat
  { s with
    partmap := BitVec.ofNat 32 (x - bits x (4 * t + 3) (4 * t) * 2 ^ (4 * t) + e * 2 ^ (4 * t))
    mport := if valid then BitVec.ofNat 8 (m - b2n (bit m p) * 2 ^ p + b2n mport * 2 ^ p) else s.mport }

/-- PARTSET. -/
def execPartset (src : CmdSrc) (s : State) : Out :=
  s.command { code := 0x10, config := true, owned := false, named := [(64, 4), (72, 3), (80, 1), dwords 2 1] } src
    (fun s b _ =>
      let x := cmdDw b 1
      if s.towerKept (x % 8) then .status 5
      else
        let s := s.partSet (x % 8) (bits x 10 8) (bit x 3) (bit x 16)
        .done s [(2, s.partmap.toNat)])

/-- SDTSET. -/
def execSdtset (src : CmdSrc) (s : State) : Out :=
  s.command { code := 0x11, config := true, owned := true, named := [dwords 1 2] } src (fun s b part =>
    let a := cmdDw b 1
    if a % 2 ^ 17 ≠ 0 ∨ 2 ^ 60 ≤ a ∨ s.inMemory a (2 ^ 17) = false then .status 1
    else .done { s with sdtb := Tab.put s.sdtb part (BitVec.ofNat 64 a) } [(2, a)])

/-! ### LAUNCH and KILL -/

/-- A submitter without a position (spec R16). -/
def State.hostWho (s : State) (space : BitVec 16) (part : Nat) : Who :=
  let p := s.hostPos part
  { by_ := firmwareKey, space := space, pk := p, pr := p, here := p, priv := true, scsz := 0, view := false, viewBad := false }

/-- LAUNCH: a full queue keeps it waiting. -/
def execLaunch (src : CmdSrc) (s : State) : Out :=
  s.command { code := 0x20, config := false, owned := true, named := [dwords 1 1, (128, 16), dwords 3 1] } src
    (fun s b part =>
      let a := cmdDw b 1
      let space := BitVec.ofNat 16 (cmdDw b 2)
      if a % 256 ≠ 0 ∨ s.usable a 256 = false ∨ (s.badByte a 256).isSome then .status 1
      else if spaceOk part space = false then .status 3
      else
        s.cmdReady space false [plainLoc a 256] (fun s =>
          match s.submit (BitVec.ofNat 2048 (s.mem.readNum a 256)) space part (s.hostWho space part) true with
           | .later s => .later s
           | .code s x => .done s [(3, x.toNat)]))

/-- KILL, as CTL.killl. -/
def execKill (src : CmdSrc) (s : State) : Out :=
  s.command { code := 0x21, config := false, owned := true, named := [(64, 16), (128, 32), dwords 3 1] } src
    (fun s b part =>
      let space := BitVec.ofNat 16 (cmdDw b 1)
      let id := BitVec.ofNat 32 (cmdDw b 2)
      if spaceOk part space = false then .status 3
      else if s.killable space id then .done (s.killLaunch id) [(3, 0)]
      else .done s [(3, 1)])

/-! ### BIAS (spec R360, R361) -/

/-- The local number of a 128 KiB page. -/
def localPage (a : Nat) : Nat := a % 2 ^ 48 / 2 ^ 17

/-- The directory entries of the lines of a page. -/
def State.pageDirs (s : State) (p : Nat) : List DirEntry := s.dir.filter (fun d => decide (d.line < 2 ^ 64) && d.line / 1024 == p)

/-- What a flip of a page still waits for, which is asked for (spec R361 step 2): toward host bias the copies of peers, toward device
bias those of the host. -/
def State.flipWaits (s : State) (host : Bool) (p : Nat) : Option State :=
  let out := (s.pageDirs p).filter (fun d =>
    if host then d.state == .busy || d.ownerDev.isSome || !d.rdev.isEmpty || d.rovf else d.host != 0)
  if out.isEmpty then none
  else some ((out.filter (fun d => d.state != .busy)).foldl (if host then State.recallPeers else State.recallHost) s)

/-- The requests that waited for a page proceed, in the order of their lines' queues (spec R361 step 3). -/
def State.callPage (s : State) (p : Nat) : State :=
  (((s.lineQueue.filter (fun q => q.line / 1024 == p)).map (fun q => q.line)).eraseDups).foldl State.callNext s

/-- A page has its new bias; toward host bias no cache of the module keeps a line of it. -/
def State.flipPage (s : State) (host : Bool) (p : Nat) : State :=
  let s := if host then (s.pageDirs p).foldl (fun a d => a.recallInside true d.line) s else s
  { s with hostBias := if host then p :: s.hostBias else s.hostBias.filter (fun x => x != p) }.callPage p

/-- A BIAS command goes on with the page that it has come to (spec R361): one that has the bias already needs no flip. -/
def State.flipNext (s : State) (src : CmdSrc) (host : Bool) (pages : List Nat) : CmdEnd :=
  let x := (s.flips.find? (fun x => x.src == src)).getD { src := src }
  let rest := s.flips.filter (fun x => x.src != src)
  match (pages.drop x.at_).head? with
  | none => .done { s with flips := rest } [(4, x.count)]
  | some p =>
    if s.hostBias.contains p = host then .later { s with flips := { x with at_ := x.at_ + 1, page := none } :: rest }
    else
      let s : State := { s with flips := { x with page := some p } :: rest }
      match s.flipWaits host p with
      | some s' => .later s'
      | none => .later ({ s with flips := { x with at_ := x.at_ + 1, page := none, count := x.count + 1 } :: rest }.flipPage host p)

/-- BIAS. -/
def execBias (src : CmdSrc) (s : State) : Out :=
  s.command { code := 0x30, config := true, owned := true, named := [dwords 1 1, (128, 32), (192, 1), dwords 4 1] } src
    (fun s b part =>
      let a := cmdDw b 1
      let n := cmdDw b 2
      let host := bit (cmdDw b 3) 0
      let pages := (upto 0 n).map (fun i => a + i * 2 ^ 17)
      if a % 2 ^ 17 ≠ 0 ∨ n = 0 ∨ pages.any (fun p => p / 2 ^ 48 != s.dev.toNat || !s.inMemory p (2 ^ 17)) then .status 1
      else if !s.inHand.contains src && pages.any (fun p => !s.towerIn part (memTower (p % 2 ^ 48))) then .status 3
      else s.flipNext src host (pages.map localPage))

/-! ### POWER, SHELF, UNFENCE, THERMLIM (spec R126, R310, R369, R377, R379) -/

/-- Whether a shard has a byte in a layer. -/
def State.shardIn (s : State) (layer : Nat) (x : Shard) : Bool :=
  match layerRange layer with
  | some (a, n) => overlaps (s.dev.toNat * 2 ^ 48 + a, n) (x.base, x.len)
  | none => false

/-- POWER, as LPWR; a layer that is turned off loses its shards. -/
def execPower (src : CmdSrc) (s : State) : Out :=
  s.command { code := 0x40, config := true, owned := true, named := [dwords 1 3] } src (fun s b part =>
    match powerRequest (cmdDw b 1) (cmdDw b 2) with
    | none => .done s [(3, 2)]
    | some (tower, layer, p) =>
      if s.towerIn part tower = false then .status 3
      else if let some s' := s.accsWait (s.accKeys (fun _ => true)) then .later s'
      else
        let (s, x) := s.setPower layer p
        let s := if s.powerOf layer = .off then { s with shards := s.shards.filter (fun y => !s.shardIn layer y) } else s
        .done s [(3, x)])

/-- SHELF, as CTL.park and CTL.unpark. -/
def execShelf (src : CmdSrc) (s : State) : Out :=
  s.command { code := 0x41, config := true, owned := true, named := [(64, 3), (128, 4), (192, 1), dwords 4 1] } src
    (fun s b part =>
      let t := cmdDw b 1
      if s.towerIn part t = false then .status 3
      else
        let s := s.park t (BitVec.ofNat 4 (cmdDw b 2)) (!bit (cmdDw b 3) 0)
        .done s [(4, (s.shelfUp t).toNat)])

/-- A core returns to service with an empty pool. -/
def Core.unfenced (c : Core) : Core :=
  { c with
    fenced := false
    mode := none
    l1 := []
    cells := []
    pre := [] }

/-- UNFENCE: threads that the core still holds are evicted first. A fence that came meanwhile stands when it ends (spec R369). -/
def execUnfence (src : CmdSrc) (s : State) : Out :=
  s.command { code := 0x60, config := true, owned := true, named := [(64, 9)] } src (fun s b part =>
    let k := cmdDw b 1
    if s.towerIn part (k / 64) = false then .status 3
    else if (s.core k).fenced = false then .done s []
    else
      let s : State := if s.inHand.contains src then s else { s with refenced := s.refenced.filter (fun x => x != k) }
      let mine (t : Thread) : Bool := t.held && posCore t.cur == k
      let s := (s.evictAll (s.keysOf mine)).leave mine
      if s.all.any mine then .later s
      else .done (s.setCore k { (s.core k).unfenced with fenced := s.refenced.contains k }) [])

/-- A limit of THERMLIM: zero leaves it. -/
def newLimit (x : Nat) (old : BitVec 11) : BitVec 11 := if x = 0 then old else BitVec.ofNat 11 x

/-- THERMLIM. -/
def execThermlim (src : CmdSrc) (s : State) : Out :=
  s.command { code := 0x70, config := true, owned := false, named := [(64, 11), (80, 11), (96, 11), (128, 11), (144, 11), (160, 11)] } src
    (fun s b _ =>
      let x := cmdDw b 1
      let (f, h, t) := s.therm
      let f := newLimit (bits x 10 0) f
      let h := newLimit (bits x 26 16) h
      let t := newLimit (bits x 42 32) t
      .done { s with therm := (f, h, t) } [(2, f.toNat + h.toNat * 2 ^ 16 + t.toNat * 2 ^ 32)])

/-! ### Weight shards (spec R375) -/

/-- A shard is recorded under the next number of its partition. -/
def State.recordShard (s : State) (part : Nat) (space : BitVec 16) (base len : Nat) (digest : BitVec 256) : State × Nat :=
  let n := Tab.get s.shardCount part 0 + 1
  ({ s with
      shardCount := Tab.put s.shardCount part n
      shards := s.shards ++ [{ part := BitVec.ofNat 3 part, number := n, space := space, base := base, len := len,
                               digest := digest }] }, n)

/-- SHARDLD: the bytes are copied, then their digest decides whether the shard is recorded. -/
def execShardld (src : CmdSrc) (s : State) : Out :=
  s.command { code := 0x50, config := false, owned := true, named := [(64, 16), dwords 2 8] } src (fun s b part =>
    let space := BitVec.ofNat 16 (cmdDw b 1)
    let base := cmdDw b 2
    let len := cmdDw b 3
    let from_ := cmdDw b 4
    let digest : BitVec 256 := BitVec.ofNat 256 (bits b.toNat 575 320)
    if base % 2 ^ 17 ≠ 0 ∨ len % 2 ^ 17 ≠ 0 ∨ base / 2 ^ 48 ≠ s.dev.toNat ∨ s.usable base len = false ∨
        s.usable from_ len = false then .status 1
    else if spaceOk part space = false ∨ (parts base len).any (fun p => !s.towerIn part (memTower (p.1 % 2 ^ 48))) then
      .status 3
    else if s.shards.any (fun x => x.space != space && overlaps (x.base, x.len) (base, len)) then .status 5
    else
      s.cmdReady space false [plainLoc from_ len] (fun s => s.cmdReady space true [plainLoc base len] (fun s =>
        if (s.badByte from_ len).isSome then .status 4
         else
           let s := (s.store base (s.mem.readBytes from_ len)).dirtied [plainLoc base len]
           if shake256 (s.mem.readBytes base len) = digest then
             let (s, n) := s.recordShard part space base len digest
             .done s [(9, n)]
           else .kept s 4)))

/-- SHARDDROP. -/
def execSharddrop (src : CmdSrc) (s : State) : Out :=
  s.command { code := 0x51, config := false, owned := true, named := [(64, 16), dwords 2 1] } src (fun s b part =>
    let space := BitVec.ofNat 16 (cmdDw b 1)
    let mine (x : Shard) : Bool := x.part.toNat == part && x.space == space && x.number == cmdDw b 2
    if spaceOk part space = false then .status 3
    else if s.shards.any mine then .done { s with shards := s.shards.filter (fun x => !mine x) } []
    else .status 1)

end Sys2Proof.Machine
end

