-- ==== Sys2Proof/Machine/Dispatch.lean ====
section
/-! DEFINITION. The meaning of every instruction and event: one call of its definition for each constructor. -/

namespace Sys2Proof.Machine

/-- What an instruction of the focus thread, or an event, does. -/
def exec (i : Instr) (s : State) : Host.Outcome State Fault Refusal :=
  match i with
  | .add d a b => Sys2Proof.Machine.execAdd d a b s
  | .sub d a b => Sys2Proof.Machine.execSub d a b s
  | .mul d a b => Sys2Proof.Machine.execMul d a b s
  | .mulh d a b => Sys2Proof.Machine.execMulh d a b s
  | .mulhz d a b => Sys2Proof.Machine.execMulhz d a b s
  | .div d a b => Sys2Proof.Machine.execDiv d a b s
  | .divz d a b => Sys2Proof.Machine.execDivz d a b s
  | .rem d a b => Sys2Proof.Machine.execRem d a b s
  | .remz d a b => Sys2Proof.Machine.execRemz d a b s
  | .and d a b => Sys2Proof.Machine.execAnd d a b s
  | .or d a b => Sys2Proof.Machine.execOr d a b s
  | .xor d a b => Sys2Proof.Machine.execXor d a b s
  | .andn d a b => Sys2Proof.Machine.execAndn d a b s
  | .shl d a b => Sys2Proof.Machine.execShl d a b s
  | .shr d a b => Sys2Proof.Machine.execShr d a b s
  | .sar d a b => Sys2Proof.Machine.execSar d a b s
  | .rol d a b => Sys2Proof.Machine.execRol d a b s
  | .min d a b => Sys2Proof.Machine.execMin d a b s
  | .max d a b => Sys2Proof.Machine.execMax d a b s
  | .minz d a b => Sys2Proof.Machine.execMinz d a b s
  | .maxz d a b => Sys2Proof.Machine.execMaxz d a b s
  | .slt d a b => Sys2Proof.Machine.execSlt d a b s
  | .sltz d a b => Sys2Proof.Machine.execSltz d a b s
  | .seq d a b => Sys2Proof.Machine.execSeq d a b s
  | .clz d a => Sys2Proof.Machine.execClz d a s
  | .ctz d a => Sys2Proof.Machine.execCtz d a s
  | .popc d a => Sys2Proof.Machine.execPopc d a s
  | .bfx d a b => Sys2Proof.Machine.execBfx d a b s
  | .bfxz d a b => Sys2Proof.Machine.execBfxz d a b s
  | .bfi d a b => Sys2Proof.Machine.execBfi d a b s
  | .sel d a b => Sys2Proof.Machine.execSel d a b s
  | .addi d a imm => Sys2Proof.Machine.execAddi d a imm s
  | .andi d a imm => Sys2Proof.Machine.execAndi d a imm s
  | .ori d a imm => Sys2Proof.Machine.execOri d a imm s
  | .xori d a imm => Sys2Proof.Machine.execXori d a imm s
  | .shli d a n => Sys2Proof.Machine.execShli d a n s
  | .shri d a n => Sys2Proof.Machine.execShri d a n s
  | .sari d a n => Sys2Proof.Machine.execSari d a n s
  | .slti d a imm => Sys2Proof.Machine.execSlti d a imm s
  | .sltzi d a imm => Sys2Proof.Machine.execSltzi d a imm s
  | .fadd d a b r => Sys2Proof.Machine.execFadd d a b r s
  | .fsub d a b r => Sys2Proof.Machine.execFsub d a b r s
  | .fmul d a b r => Sys2Proof.Machine.execFmul d a b r s
  | .ffma d a b r => Sys2Proof.Machine.execFfma d a b r s
  | .fmin d a b => Sys2Proof.Machine.execFmin d a b s
  | .fmax d a b => Sys2Proof.Machine.execFmax d a b s
  | .fdiv d a b r => Sys2Proof.Machine.execFdiv d a b r s
  | .fsqrt d a r => Sys2Proof.Machine.execFsqrt d a r s
  | .frcp d a r => Sys2Proof.Machine.execFrcp d a r s
  | .frsq d a r => Sys2Proof.Machine.execFrsq d a r s
  | .flt d a b => Sys2Proof.Machine.execFlt d a b s
  | .fle d a b => Sys2Proof.Machine.execFle d a b s
  | .feq d a b => Sys2Proof.Machine.execFeq d a b s
  | .fcvti d a t r => Sys2Proof.Machine.execFcvti d a t r s
  | .fcvtf d a t r => Sys2Proof.Machine.execFcvtf d a t r s
  | .fcvtn d a t r => Sys2Proof.Machine.execFcvtn d a t r s
  | .fcvtnUp d a t r => Sys2Proof.Machine.execFcvtnUp d a t r s
  | .beq a b o => Sys2Proof.Machine.execBeq a b o s
  | .bne a b o => Sys2Proof.Machine.execBne a b o s
  | .blt a b o => Sys2Proof.Machine.execBlt a b o s
  | .bge a b o => Sys2Proof.Machine.execBge a b o s
  | .bltz a b o => Sys2Proof.Machine.execBltz a b o s
  | .bgez a b o => Sys2Proof.Machine.execBgez a b o s
  | .jal d o => Sys2Proof.Machine.execJal d o s
  | .jalr d a imm => Sys2Proof.Machine.execJalr d a imm s
  | .trapInsn imm => Sys2Proof.Machine.execTrapInsn imm s
  | .brk imm => Sys2Proof.Machine.execBrk imm s
  | .exit => Sys2Proof.Machine.execExit s
  | .ldb d a imm => Sys2Proof.Machine.execLdb d a imm s
  | .ldbz d a imm => Sys2Proof.Machine.execLdbz d a imm s
  | .ldh d a imm => Sys2Proof.Machine.execLdh d a imm s
  | .ldhz d a imm => Sys2Proof.Machine.execLdhz d a imm s
  | .ldw d a imm => Sys2Proof.Machine.execLdw d a imm s
  | .ldwz d a imm => Sys2Proof.Machine.execLdwz d a imm s
  | .ldd d a imm => Sys2Proof.Machine.execLdd d a imm s
  | .stb d a imm => Sys2Proof.Machine.execStb d a imm s
  | .sth d a imm => Sys2Proof.Machine.execSth d a imm s
  | .stw d a imm => Sys2Proof.Machine.execStw d a imm s
  | .std d a imm => Sys2Proof.Machine.execStd d a imm s
  | .lda d a z o => Sys2Proof.Machine.execLda d a z o s
  | .stl d a z o => Sys2Proof.Machine.execStl d a z o s
  | .amow d a b ord fn => Sys2Proof.Machine.execAmow d a b ord fn s
  | .amod d a b ord fn => Sys2Proof.Machine.execAmod d a b ord fn s
  | .fence c kinds => Sys2Proof.Machine.execFence c kinds s
  | .ldsy d a z o => Sys2Proof.Machine.execLdsy d a z o s
  | .stf d a z o => Sys2Proof.Machine.execStf d a z o s
  | .fest a b g f => Sys2Proof.Machine.execFest a b g f s
  | .pref t a imm => Sys2Proof.Machine.execPref t a imm s
  | .bar c level => Sys2Proof.Machine.execBar c level s
  | .arw d a b => Sys2Proof.Machine.execArw d a b s
  | .await d a b => Sys2Proof.Machine.execAwait d a b s
  | .prop d a b => Sys2Proof.Machine.execProp d a b s
  | .crd d a b w => Sys2Proof.Machine.execCrd d a b w s
  | .crcy a b => Sys2Proof.Machine.execCrcy a b s
  | .pos d f => Sys2Proof.Machine.execPos d f s
  | .idx d f => Sys2Proof.Machine.execIdx d f s
  | .migr a tower => Sys2Proof.Machine.execMigr a tower s
  | .vadd d a b k p => Sys2Proof.Machine.execVadd d a b k p s
  | .vsub d a b k p => Sys2Proof.Machine.execVsub d a b k p s
  | .vmul d a b k p => Sys2Proof.Machine.execVmul d a b k p s
  | .vfma d a b k p => Sys2Proof.Machine.execVfma d a b k p s
  | .vmin d a b k p => Sys2Proof.Machine.execVmin d a b k p s
  | .vmax d a b k p => Sys2Proof.Machine.execVmax d a b k p s
  | .vabs d a k p => Sys2Proof.Machine.execVabs d a k p s
  | .vand d a b k p => Sys2Proof.Machine.execVand d a b k p s
  | .vor d a b k p => Sys2Proof.Machine.execVor d a b k p s
  | .vxor d a b k p => Sys2Proof.Machine.execVxor d a b k p s
  | .vshl d a b k p => Sys2Proof.Machine.execVshl d a b k p s
  | .vshr d a b k p => Sys2Proof.Machine.execVshr d a b k p s
  | .vsar d a b k p => Sys2Proof.Machine.execVsar d a b k p s
  | .vcmpeq d a b k p => Sys2Proof.Machine.execVcmpeq d a b k p s
  | .vcmplt d a b k p => Sys2Proof.Machine.execVcmplt d a b k p s
  | .vcmple d a b k p => Sys2Proof.Machine.execVcmple d a b k p s
  | .vsel d a b k p => Sys2Proof.Machine.execVsel d a b k p s
  | .vrcp d a k p => Sys2Proof.Machine.execVrcp d a k p s
  | .vrsq d a k p => Sys2Proof.Machine.execVrsq d a k p s
  | .vexp2 d a k p => Sys2Proof.Machine.execVexp2 d a k p s
  | .vcvt d a u k p ef => Sys2Proof.Machine.execVcvt d a u k p ef s
  | .vred d a b k p op => Sys2Proof.Machine.execVred d a b k p op s
  | .vdot d a b k p => Sys2Proof.Machine.execVdot d a b k p s
  | .vbcst d a k p => Sys2Proof.Machine.execVbcst d a k p s
  | .vbcstEl d a n k p => Sys2Proof.Machine.execVbcstEl d a n k p s
  | .vext d a b => Sys2Proof.Machine.execVext d a b s
  | .vins d a b => Sys2Proof.Machine.execVins d a b s
  | .vperm d a b k p => Sys2Proof.Machine.execVperm d a b k p s
  | .vslideDn d a n k p => Sys2Proof.Machine.execVslideDn d a n k p s
  | .vslideUp d a n k p => Sys2Proof.Machine.execVslideUp d a n k p s
  | .viota d a k p => Sys2Proof.Machine.execViota d a k p s
  | .viotaIdx d k p => Sys2Proof.Machine.execViotaIdx d k p s
  | .vpopc d a k => Sys2Proof.Machine.execVpopc d a k s
  | .vtrnLo d a b k p => Sys2Proof.Machine.execVtrnLo d a b k p s
  | .vtrnHi d a b k p => Sys2Proof.Machine.execVtrnHi d a b k p s
  | .vcfg d a t => Sys2Proof.Machine.execVcfg d a t s
  | .vld v a o k p => Sys2Proof.Machine.execVld v a o k p s
  | .vst v a o k p => Sys2Proof.Machine.execVst v a o k p s
  | .vlds v a b k p => Sys2Proof.Machine.execVlds v a b k p s
  | .vsts v a b k p => Sys2Proof.Machine.execVsts v a b k p s
  | .vgth v a b k p => Sys2Proof.Machine.execVgth v a b k p s
  | .vsct v a b k p => Sys2Proof.Machine.execVsct v a b k p s
  | .tld t a l => Sys2Proof.Machine.execTld t a l s
  | .tst t a l => Sys2Proof.Machine.execTst t a l s
  | .lreg a l => Sys2Proof.Machine.execLreg a l s
  | .lfree l => Sys2Proof.Machine.execLfree l s
  | .lqry d l => Sys2Proof.Machine.execLqry d l s
  | .mclaim a c => Sys2Proof.Machine.execMclaim a c s
  | .mfree c => Sys2Proof.Machine.execMfree c s
  | .mldw d a b => Sys2Proof.Machine.execMldw d a b s
  | .mswap d => Sys2Proof.Machine.execMswap d s
  | .mma d a b c => Sys2Proof.Machine.execMma d a b c s
  | .mmae d a b c => Sys2Proof.Machine.execMmae d a b c s
  | .mzero d c => Sys2Proof.Machine.execMzero d c s
  | .mread d a c => Sys2Proof.Machine.execMread d a c s
  | .mdrain a c => Sys2Proof.Machine.execMdrain a c s
  | .mfill a c => Sys2Proof.Machine.execMfill a c s
  | .mstat d c => Sys2Proof.Machine.execMstat d c s
  | .mmode d order ftz => Sys2Proof.Machine.execMmode d order ftz s
  | .copy d a q => Sys2Proof.Machine.execCopy d a q s
  | .copym d a q => Sys2Proof.Machine.execCopym d a q s
  | .copyd d a q => Sys2Proof.Machine.execCopyd d a q s
  | .qfence m => Sys2Proof.Machine.execQfence m s
  | .qseq d k q => Sys2Proof.Machine.execQseq d k q s
  | .qwait d a q => Sys2Proof.Machine.execQwait d a q s
  | .mfsr d n => Sys2Proof.Machine.execMfsr d n s
  | .mtsr a n => Sys2Proof.Machine.execMtsr a n s
  | .xinv d a b => Sys2Proof.Machine.execXinv d a b s
  | .xinvAll d => Sys2Proof.Machine.execXinvAll d s
  | .ctlLaunch d a b => Sys2Proof.Machine.execCtlLaunch d a b s
  | .ctlSpload d a b => Sys2Proof.Machine.execCtlSpload d a b s
  | .ctlSpdrop d a b => Sys2Proof.Machine.execCtlSpdrop d a b s
  | .ctlKillt d a b => Sys2Proof.Machine.execCtlKillt d a b s
  | .ctlKilll d a b => Sys2Proof.Machine.execCtlKilll d a b s
  | .ctlPark d a b => Sys2Proof.Machine.execCtlPark d a b s
  | .ctlUnpark d a b => Sys2Proof.Machine.execCtlUnpark d a b s
  | .trq d a => Sys2Proof.Machine.execTrq d a s
  | .tret d a b => Sys2Proof.Machine.execTret d a b s
  | .cmnt d a b => Sys2Proof.Machine.execCmnt d a b s
  | .lpwr d a b => Sys2Proof.Machine.execLpwr d a b s
  | .halt d a => Sys2Proof.Machine.execHalt d a s
  | .haltRel d a => Sys2Proof.Machine.execHaltRel d a s
  | .mresume d a c => Sys2Proof.Machine.execMresume d a c s
  | .pfxi p => Sys2Proof.Machine.execPfxi p s
  | .pfxv self p => Sys2Proof.Machine.execPfxv self p s
  | .pfxvg self g => Sys2Proof.Machine.execPfxvg self g s
  | .pfxs c => Sys2Proof.Machine.execPfxs c s
  | .pfxm ovf rm => Sys2Proof.Machine.execPfxm ovf rm s
  | .nop => Sys2Proof.Machine.execNop s
  | .yield => Sys2Proof.Machine.execYield s
  | .hintStall n => Sys2Proof.Machine.execHintStall n s
  | .hintPrio p => Sys2Proof.Machine.execHintPrio p s
  | .memwr pa data be => Sys2Proof.Machine.execMemwr pa data be s
  | .memrd pa retain => Sys2Proof.Machine.execMemrd pa retain s
  | .meminv pa => Sys2Proof.Machine.execMeminv pa s
  | .birsp pa dirty => Sys2Proof.Machine.execBirsp pa dirty s
  | .biconflict pa req => Sys2Proof.Machine.execBiconflict pa req s
  | .snpdata pa => Sys2Proof.Machine.execSnpdata pa s
  | .snpinv pa => Sys2Proof.Machine.execSnpinv pa s
  | .snpcur pa => Sys2Proof.Machine.execSnpcur pa s
  | .rds h => Sys2Proof.Machine.execRds h s
  | .rdo h => Sys2Proof.Machine.execRdo h s
  | .rdc h => Sys2Proof.Machine.execRdc h s
  | .upg h => Sys2Proof.Machine.execUpg h s
  | .wrl h data => Sys2Proof.Machine.execWrl h data s
  | .wrp h data be => Sys2Proof.Machine.execWrp h data be s
  | .amo h ord fn dword op exp => Sys2Proof.Machine.execAmo h ord fn dword op exp s
  | .cell h op w val gen => Sys2Proof.Machine.execCell h op w val gen s
  | .arrv h n err dgerr => Sys2Proof.Machine.execArrv h n err dgerr s
  | .crumb h header lines => Sys2Proof.Machine.execCrumb h header lines s
  | .pinv h => Sys2Proof.Machine.execPinv h s
  | .pshr h => Sys2Proof.Machine.execPshr h s
  | .prcl h => Sys2Proof.Machine.execPrcl h s
  | .dats h data => Sys2Proof.Machine.execDats h data s
  | .date h dirty data => Sys2Proof.Machine.execDate h dirty data s
  | .wb h data => Sys2Proof.Machine.execWb h data s
  | .prd h data => Sys2Proof.Machine.execPrd h data s
  | .res h bits => Sys2Proof.Machine.execRes h bits s
  | .cmp h => Sys2Proof.Machine.execCmp h s
  | .grt h => Sys2Proof.Machine.execGrt h s
  | .pack h => Sys2Proof.Machine.execPack h s
  | .cra h => Sys2Proof.Machine.execCra h s
  | .crr h reason => Sys2Proof.Machine.execCrr h reason s
  | .nak h cls cause => Sys2Proof.Machine.execNak h cls cause s
  | .activate core => Sys2Proof.Machine.execActivate core s
  | .admitCore core => Sys2Proof.Machine.execAdmit core s
  | .demote core => Sys2Proof.Machine.execDemote core s
  | .evict t => Sys2Proof.Machine.execEvict t s
  | .registerLineFill t line => Sys2Proof.Machine.execRegisterLineFill t line s
  | .parkWake t => Sys2Proof.Machine.execParkWake t s
  | .spuriousWake t => Sys2Proof.Machine.execSpuriousWake t s
  | .guardedLoadResume t => Sys2Proof.Machine.execGuardedLoadResume t s
  | .crumbArrival t => Sys2Proof.Machine.execCrumbArrival t s
  | .crumbUndeliverable t => Sys2Proof.Machine.execCrumbUndeliverable t s
  | .trapRecordWrite t => Sys2Proof.Machine.execTrapRecordWrite t s
  | .replicaForward n copy => Sys2Proof.Machine.execReplicaForward n copy s
  | .copySegment tile q n => Sys2Proof.Machine.execCopySegment tile q n s
  | .mldwRun tile => Sys2Proof.Machine.execMldwRun tile s
  | .mswapRun tile => Sys2Proof.Machine.execMswapRun tile s
  | .mzeroRun tile => Sys2Proof.Machine.execMzeroRun tile s
  | .mmaRun tile => Sys2Proof.Machine.execMmaRun tile s
  | .epilogueComplete tile => Sys2Proof.Machine.execEpilogueComplete tile s
  | .mresumeRun tile => Sys2Proof.Machine.execMresumeRun tile s
  | .wdogPreempt q => Sys2Proof.Machine.execWdogPreempt q s
  | .wdogKill q => Sys2Proof.Machine.execWdogKill q s
  | .wdogFence q => Sys2Proof.Machine.execWdogFence q s
  | .sensorSample readings => Sys2Proof.Machine.execSensorSample readings s
  | .shardPatrol space => Sys2Proof.Machine.execShardPatrol space s
  | .residencyEval choices => Sys2Proof.Machine.execResidencyEval choices s
  | .pageMove => Sys2Proof.Machine.execPageMove s
  | .pageMoveInstall => Sys2Proof.Machine.execPageMoveInstall s
  | .moduleReset facts => Sys2Proof.Machine.execModuleReset facts s
  | .identify src => Sys2Proof.Machine.execIdentify src s
  | .attest src => Sys2Proof.Machine.execAttest src s
  | .partset src => Sys2Proof.Machine.execPartset src s
  | .sdtset src => Sys2Proof.Machine.execSdtset src s
  | .launch src => Sys2Proof.Machine.execLaunch src s
  | .kill src => Sys2Proof.Machine.execKill src s
  | .bias src => Sys2Proof.Machine.execBias src s
  | .power src => Sys2Proof.Machine.execPower src s
  | .shelf src => Sys2Proof.Machine.execShelf src s
  | .shardld src => Sys2Proof.Machine.execShardld src s
  | .sharddrop src => Sys2Proof.Machine.execSharddrop src s
  | .unfence src => Sys2Proof.Machine.execUnfence src s
  | .thermlim src => Sys2Proof.Machine.execThermlim src s
  | .cfgsemReq p => Sys2Proof.Machine.execCfgsemReq p s
  | .cfgsemRel p => Sys2Proof.Machine.execCfgsemRel p s
  | .leaseLapse => Sys2Proof.Machine.execLeaseLapse s
  | .idle port seq ack => Sys2Proof.Machine.execIdle port seq ack s
  | .replayRequest port seq => Sys2Proof.Machine.execReplayRequest port seq s
  | .credit port req prb dat ack => Sys2Proof.Machine.execCredit port req prb dat ack s
  | .hello port dev number ready => Sys2Proof.Machine.execHello port dev number ready s
  | .keep port => Sys2Proof.Machine.execKeep port s
  | .keepTimeout port => Sys2Proof.Machine.execKeepTimeout port s
  | .down port reason => Sys2Proof.Machine.execDown port reason s
  | .linkDown port => Sys2Proof.Machine.execLinkDown port s
  | .illegalWord w => Sys2Proof.Machine.execIllegalWord w s
  | .fetchFault => Sys2Proof.Machine.execFetchFault s
  | .storeApplied t n => Sys2Proof.Machine.execStoreApplied t n s
  | .loadPerformed t n => Sys2Proof.Machine.execLoadPerformed t n s
  | .hostGrantOrFill pa st data => Sys2Proof.Machine.execHostGrantOrFill pa st data s
  | .flitError port => Sys2Proof.Machine.execFlitError port s
  | .launchRecordArrival origin id space record => Sys2Proof.Machine.execLaunchRecordArrival origin id space record s
  | .flatIndexRequest id dev => Sys2Proof.Machine.execFlatIndexRequest id dev s
  | .flatIndexGrant id x => Sys2Proof.Machine.execFlatIndexGrant id x s
  | .completionReport id dev => Sys2Proof.Machine.execCompletionReport id dev s
  | .killForward id => Sys2Proof.Machine.execKillForward id s

end Sys2Proof.Machine
end

