-- ==== Sys2Proof/Machine/Cycle.lean ====
section
/-! DEFINITION. What one step does: a turn that was given, or, with none given, one cycle of the core whose turn it is or
an event that is due. A cycle selects a thread, fetches its word and issues it (spec R32, R33, R37, R45, R52, R181, R199,
R200, R291, R337). Which agent moves when is log entry 4. -/

namespace Sys2Proof.Machine

/-! ### Selection (spec R32, R199, R337) -/

/-- What a core offers to its tile's VMU in a cycle (spec R338): the oldest entry among those of the highest PRIO. -/
def vmuOffer (cycle : Nat) (q : List VmuOp) : Option VmuOp :=
  least (fun o => 15 - o.prio.toNat) (q.filter (fun o => decide (o.at_ ≤ cycle)))

/-- The results of a thread's entries that the VMU did not take in a cycle come a cycle later. -/
def Thread.delayed (ops : List VmuOp) (t : Thread) : Thread :=
  { t with busy := t.busy.map (fun b =>
      if ops.any (fun o => o.thread == t.key && b.vmu == some o.at_) then { b with till := b.till + 1 } else b) }

/-- One cycle of a tile's VMU: up to two offers, cores in turn after the one that it served last. -/
def State.vmuCycle (s : State) (tile cycle : Nat) : State :=
  let order := (upto 1 4).map (fun j => ((s.tile tile).vmuLast.toNat + j) % 4)
  let served := (order.filterMap (fun c => (vmuOffer cycle (s.core (4 * tile + c)).vmu).map (fun o => (c, o)))).take 2
  let s := served.foldl (fun a x =>
    let c := a.core (4 * tile + x.1)
    a.setCore (4 * tile + x.1) { c with vmu := c.vmu.filter (fun o => o != x.2) }) s
  let left := (upto 0 4).flatMap (fun c => (s.core (4 * tile + c)).vmu.filter (fun o => decide (o.at_ ≤ cycle)))
  let s := if left.isEmpty then s else s.mapThreads (Thread.delayed left)
  match served.getLast? with
  | some x => s.setTile tile { s.tile tile with vmuLast := BitVec.ofNat 2 x.1 }
  | none => s

/-- Whether no core of a tile has an entry in its VMU dispatch queue. -/
def State.vmuIdle (s : State) (tile : Nat) : Bool := (upto 0 4).all (fun c => (s.core (4 * tile + c)).vmu.isEmpty)

/-- A tile's VMU runs for a number of cycles from the one up to which it has run. -/
def State.vmuRun (s : State) (tile : Nat) : Nat → State
  | 0 => s
  | fuel + 1 =>
    if s.vmuIdle tile then s
    else
      let t := s.tile tile
      ((s.setTile tile { t with vmuAt := t.vmuAt + 1 }).vmuCycle tile t.vmuAt).vmuRun tile fuel

/-- The clock comes to a cycle, and every VMU has run up to it. -/
def State.clockTo (s : State) (n : Nat) : State :=
  let tiles := ((s.cores.filter (fun c => !c.2.vmu.isEmpty)).map (fun c => c.1 / 4)).eraseDups
  { tiles.foldl (fun a i => a.vmuRun i (n - (a.tile i).vmuAt)) s with clock := n }

/-- The cycle of a core that is about to run: no core is behind the clock. -/
def State.tick (s : State) (core : Nat) : State :=
  let n := max (s.core core).cycle s.clock
  let s := s.clockTo n
  s.setCore core { s.core core with cycle := n }

/-- The threads of a core that have a ready instruction. `tried` are those whose word was found to wait in this cycle,
for a unit, a queue, a slot or a line held elsewhere: theirs is not ready. -/
def State.readyOn (s : State) (core : Nat) (tried : List Key) : List Thread :=
  (s.on core).filter (fun t => s.canIssue t && !tried.contains t.key)

/-- A thread of a core without the names of those that are owed to it no longer (spec R199). -/
def Thread.stillOwed (ready : List Key) (t : Thread) : Thread := { t with owed := t.owed.filter ready.contains }

/-- The threads of a core forget what is owed to them no longer. -/
def State.pruneOwed (s : State) (core : Nat) (tried : List Key) : State :=
  let ready := (s.readyOn core tried).map Thread.key
  s.mapThreads (fun t => if t.owed.isEmpty || posCore t.cur != core then t else t.stillOwed ready)

/-- The set R of R337: ready, and no thread is owed to it. -/
def State.eligible (s : State) (core : Nat) (tried : List Key) : List Thread :=
  (s.readyOn core tried).filter (fun t => t.owed.isEmpty)

/-- The issue policy of a core, which is that of its mode. -/
def State.roundRobin (s : State) (core : Nat) : Bool := match (s.core core).mode with | some m => m.policy | none => false

/-- How far a slot comes after `lastslot`, wrapping. -/
def slotRank (lastslot : Nat) (t : Thread) : Nat := (t.slot.getD 0 + 63 - lastslot) % 64

/-- The thread that a core selects. -/
def State.select (s : State) (core : Nat) (tried : List Key) : Option Thread :=
  let r := s.eligible core tried
  let p := (r.map (fun t => t.prio.toNat)).foldl max 0
  let top := r.filter (fun t => t.prio.toNat == p)
  let c := s.core core
  if s.roundRobin core then least (slotRank c.lastslot) top
  else
    match top.find? (fun t => c.last == some t.key) with
    | some t => some t
    | none => least (fun t => t.age.toNat) top

/-- A thread becomes the one for which `exec` acts. -/
def State.focusOn (s : State) (t : Thread) : State :=
  if s.thr.key = t.key then s
  else { s with
    thr := t
    threads := s.thr :: s.threads.filter (fun u => u.key != t.key) }

/-! ### Issue (spec R37, R162, R168, R200, R344) -/

/-- The bad register line that an instruction reads. -/
def Thread.badRead (t : Thread) (i : Instr) : Option Nat := (linesOf (t.touched i).reads).find? t.badLines.contains

/-- A word whose operands lie on a bad register line traps with the line's address (spec R343, R344). -/
def State.onBadLine (s : State) (line : Nat) : Out :=
  .next (s.takeTrap { cls := .data, cause := 2, detail := line, va := BitVec.ofNat 64 (s.thr.ctx.toNat + 256 + 128 * line) })

/-- A fetched word issues. The checks of R168 but the instruction's own come before a bad register line that it reads (log entry 81). It
waits while the thread's outstanding accesses cannot be performed, for a line of theirs that
another agent has taken (spec R158). -/
def State.issueWord (s : State) (w : Ins) : Out :=
  match s.accsReady s.thr with
  | .later s' => .next s'
  | _ =>
    match decode w with
    | .error _ => execIllegalWord w s
    | .ok i =>
      match (if s.opPending s.thr || s.stops s.thr w i then none else s.thr.badRead i) with
      | some j => s.onBadLine j
      | none => exec i s

/-- The word that the focus thread fetches issues, or its fetch traps. -/
def State.issue (s : State) : Out :=
  match s.fetch s.thr with
  | .fault _ => execFetchFault s
  | .later s' => .next s'
  | .word w => s.issueWord w

/-- The instruction that the focus thread is about to issue. -/
def State.issuing (s : State) : Option Instr := s.nextInstr s.thr

/-! ### After the issue -/

/-- Whether a thread has issued a word between two of its records: not one that waits where it stood. -/
def Thread.issued (t u : Thread) : Bool :=
  u.pc != t.pc || u.group != t.group || u.state != t.state || u.trapStage != t.trapStage || u.took ||
    u.waitLoad != t.waitLoad

/-- What the end of an issued word depends on: the cycle, the word's latency, the bytes that it touches, and what kind it is. -/
structure Issued where
  cycle : Nat
  latency : Nat := 1
  touch : Touch := {}
  vmu : Bool := false
  holds : Bool := false
  any : Option (BitVec 6) := none
  divider : Divider := .none
  deriving DecidableEq, Repr

/-- What an instruction of the focus thread is at its issue; a word that stands for none is nothing but a word. -/
def State.issuedAs (s : State) (cycle : Nat) (i : Option Instr) : Issued :=
  match i with
  | some j => { cycle := cycle, latency := s.latency j, touch := s.thr.touched j, vmu := Instr.isVmu j, holds := Instr.holds j,
                any := Instr.anyDest j, divider := dividerOf j }
  | none => { cycle := cycle }

/-- Register bytes that a word makes usable later (spec R181), and those of earlier words that still count. -/
def Thread.busyAfter (t : Thread) (x : Issued) : List Busy :=
  t.busy.filter (fun b => decide (x.cycle + 1 < b.till)) ++
    (if x.latency < 2 then []
     else x.touch.writes.map (fun r => { lo := r.1, n := r.2, till := x.cycle + x.latency, vmu := if x.vmu then some x.cycle else none }))

/-- The register lines that a word wrote, of a thread that was `t` before it: of one that trapped, those that it changed. -/
def Thread.wroteBy (t u : Thread) (x : Issued) : List Nat :=
  let ls := linesOf x.touch.writes
  if u.trapStage = .none then
    if u.waitLoad.isSome then []
    else ls ++ (match x.any with | some d => (linesOf [t.vBytes d]).filter t.lines.contains | none => [])
  else ls.filter (fun j => t.regs.readBytes (128 * j) 128 != u.regs.readBytes (128 * j) 128)

/-- A register line that a word has written whole and did not read is bad no longer. -/
def Thread.mended (t : Thread) (x : Touch) (trapped : Bool) : Thread :=
  if trapped || t.badLines.isEmpty then t
  else { t with badLines := t.badLines.filter (fun j => !(coversLine x.writes j && !(linesOf x.reads).contains j)) }

/-- A thread after its word: when it may issue again, which bytes are not usable yet, which lines it used last. -/
def Thread.settled (t : Thread) (x : Issued) : Thread :=
  if t.state = .active ∧ t.held ∧ t.trapStage = .none then
    let ls := linesOf (x.touch.reads ++ x.touch.writes)
    { t with
      took := false
      stall := 0
      readyAt := if x.holds then x.cycle + x.latency else if t.took then x.cycle + 2 else x.cycle + 1 + t.stall
      busy := t.busyAfter x
      recent := (ls ++ t.recent).eraseDups
      usedAt := ls.foldl (fun a j => Tab.put a j (x.cycle + 1)) t.usedAt }
  else t

/-- A core after it issued a word of a thread: its dividers, its VMU queue, and the thread and slot that it issued from. A word
that trapped occupies neither (log entry 8). -/
def Core.after (c : Core) (t : Thread) (x : Issued) (trapped : Bool) : Core :=
  let d := if trapped then .none else x.divider
  { c with
    last := some t.key
    lastslot := t.slot.getD c.lastslot
    divTill := if d = .int then c.cycle + x.latency else c.divTill
    fdivTill := if d = .fp then c.cycle + x.latency else c.fdivTill
    vmu := if x.vmu && !trapped then c.vmu ++ [{ thread := t.key, prio := t.prio, at_ := x.cycle }] else c.vmu }

/-- A tile to whose VMU a core is about to give an entry: one that had none starts in this cycle. -/
def State.vmuWake (s : State) (core cycle : Nat) : State :=
  if s.vmuIdle (core / 4) then s.setTile (core / 4) { s.tile (core / 4) with vmuAt := cycle } else s

/-- The probes that were forwarded to an L1 reach it (spec R352). -/
def Core.takeProbes (c : Core) : Core :=
  { c with
    l1 := c.l1.filter (fun l => !rangesMeet [(l.key, 128)] c.probes)
    probes := [] }

/-- A core's cycle ends; the next core's turn comes, and an event may move before it. A probe that was forwarded to the L1
reaches it in a cycle that leaves nothing for later (log entry 6). -/
def State.endCycle (s : State) (core : Nat) : State :=
  let c := if s.late || (s.core core).probes.isEmpty then s.core core else (s.core core).takeProbes
  { s.setCore core { c with cycle := c.cycle + 1 } with
    focus := BitVec.ofNat 9 (core + 1)
    evNext := true
    late := false }

/-- What follows the issue of the word of thread `t`, which `i` stands for and which left it as `u`: `s` is the state
before it, `s'` the state after it. -/
def State.retire (s s' : State) (core : Nat) (t u : Thread) (i : Option Instr) : State :=
  let x := s.issuedAs (s.core core).cycle i
  let trapped := u.trapStage != .none
  let u := if u.held then (u.wrote (t.wroteBy u x)).mended x.touch trapped else u
  let s' := ((s'.setThread (u.settled x)).unhold t.key).mapThreads
    (fun v => if posCore v.cur = core then { v with owed := v.owed.filter (fun k => k != t.key) } else v)
  let s' := if x.vmu && !trapped then s'.vmuWake core x.cycle else s'
  (s'.setCore core ((s'.core core).after t x trapped)).endCycle core

/-- A core's cycle: the selected thread issues its word; while the word waits, the thread is not ready, and another is
selected. A YIELD owes nothing to those that were found to wait (spec R199). -/
def State.attempt (s : State) (core : Nat) (tried : List Key) : Nat → Out
  | 0 => .next (s.endCycle core)
  | fuel + 1 =>
    let s := s.pruneOwed core tried
    match s.select core tried with
    | none => .next (s.endCycle core)
    | some t =>
      let s := s.focusOn t
      match s.issue with
      | .next s' =>
        let u := (s'.find t.key).getD t
        let u := { u with owed := u.owed.filter (fun k => !tried.contains k) }
        if t.issued u then .next (s.retire s' core t u s.issuing)
        else s'.attempt core (t.key :: tried) fuel
      | o => o

/-- One cycle of a core. -/
def State.cycle (s : State) (core : Nat) (late : Bool) : Out :=
  let s := { s.tick core with late := late }
  s.attempt core [] ((s.on core).length + 1)

/-! ### Events that are due without anything from outside -/

/-- A meaning that waits to be tried. -/
abbrev Due := State → Out

/-- The events of a thread. -/
def State.threadMoves (s : State) (t : Thread) : List Due :=
  let k := t.key
  (if t.trapStage = .delivered || (t.leaving && t.held) then [execEvict k] else []) ++
  (if t.trapStage = .evicted then [execTrapRecordWrite k] else []) ++
  (if t.state = .parked then [execParkWake k] else []) ++
  (if t.waitLoad.isSome then [execGuardedLoadResume k] else []) ++
  (if t.state = .travelling then [execCrumbArrival k, execCrumbUndeliverable k] else []) ++
  (match t.accs with
    | .store n _ :: _ => [execStoreApplied k n]
    | .load n _ :: _ => [execLoadPerformed k n]
    | _ => []) ++
  (s.waitsFor t).map (fun x => execRegisterLineFill k (BitVec.ofNat 9 x.1))

/-- The events of a tile's queues. -/
def tileMoves (i : Nat) (t : TileSt) : List Due :=
  let n := BitVec.ofNat 7 i
  let seg (q : Nat) : Nat :=
    match (t.queue q).cmds with
    | { work := .copy _ _ _ _ _ left _ _, .. } :: _ => left.headD 0
    | _ => 0
  (if (t.queue 4).cmds.isEmpty then []
    else [execMldwRun n, execMswapRun n, execMzeroRun n, execMmaRun n, execEpilogueComplete n, execMresumeRun n]) ++
  ((upto 0 4).filter (fun q => !(t.queue q).cmds.isEmpty)).map (fun q => execCopySegment n (BitVec.ofNat 2 q) (seg q))

/-- The command events of the firmware for a command that it has in hand. -/
def commandMoves (c : CmdSrc) : List Due :=
  [execIdentify c, execAttest c, execPartset c, execSdtset c, execLaunch c, execKill c, execBias c, execPower c,
    execShelf c, execShardld c, execSharddrop c, execUnfence c, execThermlim c]

/-- The cores to which a candidate could come, and one that could ask for flat indexes. -/
def State.wantedCores (s : State) : List Nat :=
  let asks := s.launches.filterMap (fun l =>
    if l.spans && l.nlev == 0 then (upto 0 512).find? (fun k => s.coreServes (partOf l.space) k && s.modeFits l.mode k) else none)
  (s.candidates.filterMap s.placeOf ++ asks).eraseDups

/-- The events of the cores' issue sets. -/
def State.coreMoves (s : State) : List Due :=
  let cores := ((s.all.filter (fun t => t.held && t.state == .resident)).map (fun t => posCore t.cur)).eraseDups
  cores.flatMap (fun k => [execAdmit (BitVec.ofNat 9 k), execDemote (BitVec.ofNat 9 k)]) ++
    s.wantedCores.map (fun k => execActivate (BitVec.ofNat 9 k))

/-- What the device does for no thread: posted writes and arrivals, records that wait, submissions, held probes, requests of tiles whose
turn has come, lines of peers that no cache keeps, messages and credits that can leave. -/
def State.ownMoves (s : State) : List Due :=
  (upto 0 s.posted.length).map (fun n => fun a => .next (a.runPosted n)) ++
  s.spaces.flatMap (fun x =>
    (if x.tqLate.isEmpty then [] else [fun (a : State) => .next (a.postDueAll x.id)]) ++
    (if x.tqPend.isEmpty then [] else [fun (a : State) => .next (a.flushRecords x.id x.tqPend.length)])) ++
  (if s.recordsIn.isEmpty then [] else [fun a => .next a.admitRecord]) ++
  s.submitting.map (fun u => fun a => .next (a.advanceSubmission u)) ++
  (if s.waiting.any (fun w => isProbe w.event) then [fun a => .next a.applyProbe] else []) ++
  s.firstTiles.map (fun q => fun a => .next (a.serveTile q)) ++
  s.openLines.map (fun n => fun a => .next (a.callNext n)) ++
  s.idleLines.map (fun u => fun a => .next (a.evictUnit u)) ++
  (if s.outPeer.isEmpty then [] else [fun a => .next a.transmit]) ++
  (s.ports.filter (fun p => p.2.up && p.2.owed.any (fun n => n != 0))).map (fun p => fun a => .next (a.giveCredit p.1)) ++
  (s.ports.filter (fun p => p.2.up && p.2.lastIn != p.2.toldAck)).map (fun p => fun a => .next (a.sendIdle p.1))

/-- The events that the device makes by itself, in the order in which they are tried. -/
def State.moveList (s : State) : List Due :=
  s.ownMoves ++
  s.all.flatMap s.threadMoves ++
  s.tiles.flatMap (fun p => tileMoves p.1 p.2) ++
  (if s.forwards.isEmpty then [] else [execReplicaForward 0 0]) ++
  (s.cmnts.map (fun c => CmdSrc.cmnt c.id) ++ s.inHand.filter (fun c => match c with | .port _ _ => true | _ => false)).flatMap commandMoves ++
  (if s.moves.isEmpty then [] else [execPageMoveInstall]) ++
  (if s.chosen.isEmpty then [] else [execPageMove]) ++
  s.coreMoves

/-- The first of some events that changes the state. -/
def State.firstMove (s : State) : List Due → Option State
  | [] => none
  | f :: r =>
    match f s with
    | .next s' => if s' = s then s.firstMove r else some s'
    | _ => s.firstMove r

/-! ### Turns -/

/-- At most `n` entries of a kind stay in a list, the first ones. -/
def atMost {α : Type} (p : α → Bool) : Nat → List α → List α
  | _, [] => []
  | n, x :: r =>
    if p x then
      match n with
      | 0 => atMost p 0 r
      | k + 1 => x :: atMost p k r
    else x :: atMost p n r

/-- The table pointers on the way of a walk, with their levels. -/
def State.pointers (s : State) (space : BitVec 16) (tower va : Nat) : Nat → List Nat → List (Nat × Nat)
  | _, [] => []
  | t, level :: rest =>
    let i := match level with
      | 2 => bits va 56 43
      | 1 => bits va 42 30
      | _ => bits va 29 17
    let e := (s.upperAt space tower level va).getD (s.mem.readNum (t + 16 * i) 16)
    if eV e && !eLeaf e then (level, e) :: s.pointers space tower va (eBase e) rest else []

/-- A translation bank of a thread's tower takes the leaf entry that a walk finds for an address, with the table pointers on
the way; it holds at most 2,048 leaf and 128 upper-level entries, and the oldest go (spec R319, R320). -/
def State.fillBank (s : State) (t : Thread) (va : Nat) : State :=
  let tower := posTower t.cur
  let unit := va / 2 ^ 17
  let bank := bankOf t.space va
  if 2 ^ 57 ≤ va || (winOf va).isSome || (s.pins ++ s.kept).any (fun p => p.covers t.space va) then s
  else
    match s.space? t.space with
    | none => s
    | some x =>
      match s.walk t.key t.space tower va (x.field 63 0) [2, 1, 0] with
      | .ok (e, level) =>
        let new : BankEntry := { tower := tower, bank := bank, space := t.space, unit := unit, level := level, entry := BitVec.ofNat 128 e }
        let ups := (s.pointers t.space tower va (x.field 63 0) [2, 1]).map (fun p =>
          { tower := tower, bank := bank, space := t.space, level := p.1, page := va / pageSize p.1, entry := BitVec.ofNat 128 p.2 : UpperEntry })
        if s.moving e then s
        else { s with
          banks := atMost (fun b => b.tower == tower && b.bank == bank) 2048
            (new :: s.banks.filter (fun b => !(b.tower == tower && b.space == t.space && b.unit == unit)))
          uppers := atMost (fun u => u.tower == tower && u.bank == bank) 128
            (ups ++ s.uppers.filter (fun u => !ups.any (fun v => v.tower == u.tower && v.bank == u.bank && v.space == u.space &&
              v.level == u.level && v.page == u.page))) }
      | _ => s

/-- Whether a turn may be this event: it has no word, and no thread's fetch is what brings it. -/
def Instr.isTurn (i : Instr) : Bool :=
  match i with
  | .illegalWord _ => false
  | .fetchFault => false
  | _ => !i.isWord

/-- Whether a granule lies in this module: in its memory, in a core's scratch image or in a hearth's scratch of a space. -/
def State.ownGranule (s : State) (g : Nat) : Bool :=
  let k := 16 * g
  if isCoreKey k then (coreKeyParts k).2.1 == s.dev && (s.imageAt k).isSome
  else if isHearthKey k then
    let x := (k - 2 ^ 61) / 2 ^ 29
    BitVec.ofNat 12 (x / 8) == s.dev && bit s.present.toNat (x % 8) && (s.space? (BitVec.ofNat 16 (x / 2 ^ 15))).isSome
  else s.inMemory k 16 && g / 2 ^ 44 == s.dev.toNat

/-- Whether a load that has issued still reads a granule. It reads it before an error comes there, for its traps are precise (spec R341,
log entry 106). -/
def State.readLater (s : State) (g : Nat) : Bool :=
  s.all.any (fun t => t.accs.any (fun a => match a with | .load _ _ => rangesMeet a.ranges [(16 * g, 16)] | _ => false))

/-- An uncorrectable error in a granule of this module's memory or scratch, by its number (spec R344). -/
def State.harmGranule (s : State) (g : Nat) : State :=
  if s.ownGranule g && !s.bad.contains g && !s.readLater g then { s with bad := g :: s.bad } else s

/-- An uncorrectable error in the header of a thread that a core holds kills it (spec R344). -/
def State.harmHeader (s : State) (k : Key) : State :=
  match s.find k with
  | some t => if t.held && t.trapStage == .none then s.badHeader t else s
  | none => s

/-- An uncorrectable error in a resident register line. -/
def State.harmLine (s : State) (k : Key) (j : Nat) : State :=
  match s.find k with
  | some t => if t.held && t.lines.contains j && !t.badLines.contains j then s.setThread { t with badLines := j :: t.badLines } else s
  | none => s

/-- An uncorrectable error in a granule of an accumulator slot that is in use (spec R350). -/
def State.harmSlot (s : State) (tile slot g : Nat) : State :=
  let t := s.tile tile
  let x := t.slot slot
  if x.owner.isSome && !x.bad.contains g then s.setTile tile (t.setSlot slot { x with bad := g :: x.bad }) else s

/-- An event from outside: a message of a peer passes the port that it names. -/
def State.eventIn (s : State) (i : Instr) : Out :=
  if Instr.isTurn i then
    match s.received i with
    | some s' => exec i s'
    | none => .next s
  else .next s

/-- A turn that was given. -/
def State.take (s : State) (t : Turn) : Out :=
  match t with
  | .event i => s.eventIn i
  | .again i => if Instr.isTurn i then exec i s else .next s
  | .cycle core late => s.cycle core.toNat late
  | .dropL1 core n =>
    let c := s.core core.toNat
    .next (s.setCore core.toNat { c with l1 := without c.l1 n })
  | .fillBank k va => .next (match s.find k with | some t => s.fillBank t va.toNat | none => s)
  | .dropBank n => .next { s with banks := without s.banks n }
  | .dropUpper n => .next { s with uppers := without s.uppers n }
  | .dropCell core n =>
    let c := s.core core.toNat
    .next (s.setCore core.toNat { c with cells := without c.cells n })
  | .dropTileCell tile n =>
    let x := s.tile tile.toNat
    .next (s.setTile tile.toNat { x with cells := without x.cells n })
  | .evictLine unit => .next (s.evictUnit unit)
  | .dropLine tile unit => .next (s.evictTile tile.toNat unit)
  | .dropHearth tower unit => .next (if (s.hearthLine tower.toNat unit).isSome then s.evictHearth tower.toNat unit else s)
  | .badGranule g => .next (s.harmGranule g)
  | .badLine k line => .next (s.harmLine k line.toNat)
  | .badHeader k => .next (s.harmHeader k)
  | .badSlot tile slot g => .next (s.harmSlot tile.toNat slot.toNat g.toNat)
  | .hello port => .next (s.hello port.toNat)
  | .badCode port => .next (s.closeLink port.toNat 1)
  | .closeLink port => .next (s.closeLink port.toNat 2)
  | .semWrites a b => .next (s.semWrites a b)
  | .semRead p => .next (s.semRead p)
  | .idle => .next s
  | .peerFacts dev p => .next { s with peers := Tab.put s.peers dev.toNat p }
  | .gone k => .next (s.goneAt k)
  | .came k level m => .next (s.cameAt k level m)
  | .killThread k => .next (s.killNamed k)
  | .killLaunch id => .next (s.killTold id)
  | .resume space ctx => .next (s.resume space ctx.toNat)
  | .lock dev q => .next (s.wantLock q.toNat dev)
  | .locked dev q => .next (s.lockGiven dev q.toNat)
  | .unlock dev q => .next (s.dropLock q.toNat dev)

/-- The core whose cycle comes next: the first from `focus` on that has an ACTIVE thread. -/
def State.nextCore (s : State) : Option Nat :=
  least (fun k => (k + 512 - s.focus.toNat) % 512)
    ((s.all.filter (fun t => t.held && t.state == .active)).map (fun t => posCore t.cur))

/-- A cycle of the next core; a device without ACTIVE threads lets a cycle pass. -/
def State.freeCycle (s : State) : Out :=
  match s.nextCore with
  | some core => s.cycle core false
  | none => .next { s.clockTo (s.clock + 1) with evNext := true }

/-- No turn was given: an event that is due moves, or the next core has its cycle. -/
def State.free (s : State) : Out :=
  if s.evNext then
    match s.firstMove s.moveList with
    | some s' => .next { s' with evNext := false }
    | none => s.freeCycle
  else s.freeCycle

/-- One step. -/
def State.move (s : State) : Out :=
  match s.turns with
  | t :: r => { s with turns := r }.take t
  | [] => s.free

/-! ### Where a first instruction stands -/

/-- The address of the first instruction that `withFetchWord` places, and the page table and the context that it needs.
Side stack 0 holds all of them. -/
def firstPc : Nat := 2 ^ 21

/-- The page table of the placed program: one leaf for the lowest 8 TiB, each address at itself, SHARED and writable. -/
def firstTable : Nat := 2 ^ 20

/-- The launch record of the placed program: one thread in one level, its context, and the sizes of its core's pools. -/
def firstRecord : BitVec 2048 :=
  BitVec.ofNat 2048 (pack [(64, firstPc), (64, 0), (64, 2 ^ 22), (7, 64), (1, 0), (8, 64), (8, 2), (8, 66),
    (7, 127), (25, 0), (8, 100), (8, 16), (8, 8), (40, 0), (4, 8), (3, 0), (1, 1)] + 2 ^ 1024)

/-- The thread of the placed program: every view that its word may name exists, every register holds 0. -/
def firstThread : Thread :=
  { pc := BitVec.ofNat 64 firstPc
    state := .active
    priv := true
    prio := 8
    space := 1
    gcount := 64
    vcount := 64
    vbase := 2
    tbase := 66
    rsize := 127
    launch := 1
    index := 0
    ctx := BitVec.ofNat 64 (2 ^ 22)
    age := 1
    lines := upto 0 512
    held := true
    slot := some 0
    actSeq := 1 }

/-- A machine whose next step fetches a word of 32 bits and issues it. -/
def State.placeWord (s : State) (w : Nat) : State :=
  let d := s.dev.toNat * 2 ^ 48
  let mem := (s.mem.writeNum (d + firstTable) 16 (0x0B + d)).writeNum (d + firstPc) 4 w
  let l : Launch := { id := 1, space := 1, record := firstRecord, origin := s.dev, started := true, handed := [0] }
  { s with
    thr := { firstThread with
      anchor := posOf s.dev 0
      cur := posOf s.dev 0 }
    focus := 0
    evNext := false
    turns := []
    mem := mem
    cores := Tab.put s.cores 0 { mode := some { space := 1, rcsz := 100, scsz := 16, l1sz := 8, policy := false } }
    power := Tab.put s.power (layerOf firstTable) .on
    spaces := { id := 1, desc := BitVec.ofNat 2048 (d + firstTable) } :: s.spaces
    launches := l :: s.launches
    launchCount := 1
    ageCount := 1
    actCount := 1
    booted := true }

end Sys2Proof.Machine
end

