-- ==== Sys2Proof/Machine/Step.lean ====
section
/-! DEFINITION. The step of the machine, and a machine that is about to fetch a given word. -/

namespace Sys2Proof.Machine

/-- One step of the OC-9. -/
def step (s : State) : Host.Outcome State Fault Refusal := s.move

/-- A machine whose next step fetches a given instruction word and issues it: a program that was placed from outside
(log entry 3). -/
def State.withFetchWord (s : State) (nbits w : Nat) : State := s.placeWord (w % 2 ^ nbits % 2 ^ 32)

end Sys2Proof.Machine
end

