-- ==== Sys2Proof/Safety.lean ====
section
/-! DEFINITION. The terms in which claims about the machine are made: which states a run reaches, what a good state is,
and what a word may change. -/

namespace Sys2Proof.Machine

/-! ### Runs -/

/-- The machine does not stop: it answers a next state. A trap stops one thread and is a next state (spec R346). -/
def GoesOn (o : Out) : Prop := ∃ t, o = .next t

/-- `t` comes from `s` by some steps. -/
inductive Reaches (s : State) : State → Prop
  | here : Reaches s s
  | next (t u : State) : Reaches s t → step t = .next u → Reaches s u

/-- Memory is in its one canonical form, so that equal memories are equal data. -/
def State.MemoryOk (s : State) : Prop := s.mem.wf

/-! ### What a word finds -/

/-- A word that accepts the prefixes `a` and names the registers `n` meets no fault of R168: its group holds accepted
prefixes only, and every named register exists. -/
def Thread.Fit (t : Thread) (a : Accepts) (n : Names) : Prop := t.group.fits a = true ∧ t.has n = true

/-- A control word that names the registers `n` meets no fault of R168: no prefix and no HINT stands before it. -/
def Thread.FitControl (t : Thread) (n : Names) : Prop := t.group.len = 0 ∧ t.afterHint = false ∧ t.has n = true

/-- A word issues at once: the thread owes no earlier access, no thread of its core owes a store to core scratch, and the turn
leaves nothing behind (spec R144, R380). -/
def State.Settled (s : State) : Prop :=
  s.thr.accs = [] ∧ s.forwards = [] ∧ s.late = false ∧
    ∀ u ∈ s.threads, posCore u.cur = posCore s.thr.cur → ∀ a ∈ u.accs, a.scratchStore = false

/-- The places of an access can be used now: nothing of them is held elsewhere, no line waits to become full, and their
scratch images exist. -/
def State.Usable (s : State) (excl : Bool) (w : Who) (ls : List Loc) : Prop :=
  s.ready s.thr excl ls = .ok ∧ s.noteImages w.scsz ls = s ∧ s.emptyLines ls = []

/-! ### What a word changes -/

/-- A thread record whose word is behind it: the next word, no group, no HINT before it. -/
def Thread.past (t : Thread) : Thread :=
  { t with
    pc := t.pc + 4
    group := {}
    afterHint := false }

/-- Register bytes `r'` are `r` but for the bytes `bs` from `lo` on. -/
def PutAt (r r' : Memory) (lo : Nat) (bs : List Byte) : Prop :=
  ∀ a, r'.read a = if lo ≤ a ∧ a < lo + bs.length then bs.getD (a - lo) 0 else r.read a

/-- The word is behind the focus thread, whose record is otherwise `u`, and its register bytes from `lo` are `bs`.
Nothing else of the machine differs. -/
def Puts (s : State) (o : Out) (u : Thread) (lo : Nat) (bs : List Byte) : Prop :=
  ∃ r, o = .next { s with thr := { u.past with regs := r } } ∧ PutAt s.thr.regs r lo bs

/-- Thread `t` is `u` past its word with the value `x` in scalar register `d`, and nothing else of its register space or
its record differs; a write of g0 is ignored (spec R36). -/
def RegWrite (u t : Thread) (d : BitVec 6) (x : Word) : Prop :=
  t = { u.past with regs := t.regs } ∧ (∀ n, n ≠ 0 → t.g n = if n = d then x else u.g n) ∧
    ∀ a, (d = 0 ∨ a < 8 * d.toNat ∨ 8 * d.toNat + 8 ≤ a) → t.regs.read a = u.regs.read a

/-- The next state is `s` but for the focus thread, which is `u` past its word with `x` in scalar register `d`. -/
def WritesAs (s : State) (o : Out) (u : Thread) (d : BitVec 6) (x : Word) : Prop :=
  ∃ t, o = .next { s with thr := t } ∧ RegWrite u t d x

/-- A word whose one effect is a scalar result. -/
def Writes (s : State) (o : Out) (d : BitVec 6) (x : Word) : Prop := WritesAs s o s.thr d x

/-- A word whose effects are a scalar result and raised flags (spec R115). -/
def WritesFlags (s : State) (o : Out) (d : BitVec 6) (x : Word) (f : Flags) : Prop :=
  WritesAs s o { s.thr with fpst := s.thr.fpst ||| f.setWidth 64 } d x

/-- `s` with the caches of `t`: which lines they hold and what the directory knows of them, the lines of peers that the module
holds, the queues of lines, the requests that wait and the turns of those that come next, the messages to hosts about lines that
made room, and the counts of accesses to MOBILE pages (spec R352 to R359, R376). No value of the machine is among them. -/
def State.like (s t : State) : State :=
  { s with
    cores := t.cores
    tiles := t.tiles
    dir := t.dir
    caches := t.caches
    hearths := t.hearths
    halves := t.halves
    remote := t.remote
    ghosts := t.ghosts
    outHost := t.outHost
    counts := t.counts
    lineQueue := t.lineQueue
    called := t.called
    waiting := t.waiting
    turns := t.turns }

/-- Of the cores of `s`, `t` differs in cached lines and cells and in probes on their way alone; the L1 of every core but that
of the focus thread is as it was. -/
def KeptCores (s t : State) : Prop :=
  (∀ i, t.core i = { s.core i with
      l1 := (t.core i).l1
      probes := (t.core i).probes
      cells := (t.core i).cells }) ∧
    ∀ i, i ≠ posCore s.thr.cur → (t.core i).l1 = (s.core i).l1

/-- The same, and of the tiles in cached cells alone. -/
def Kept (s t : State) : Prop := KeptCores s t ∧ ∀ i, t.tile i = { s.tile i with cells := (t.tile i).cells }

/-- A line of the L1 of the focus thread's core that is new in `t` holds the bytes that memory holds (spec R55, R140). -/
def Filled (s t : State) : Prop :=
  ∀ l ∈ (t.core (posCore s.thr.cur)).l1, l ∈ (s.core (posCore s.thr.cur)).l1 ∨ l.data = s.bytesAt l.key 128

/-- A word whose one effect beside those on caches is a scalar result. -/
def WritesAt (s : State) (o : Out) (d : BitVec 6) (x : Word) : Prop :=
  ∃ t, o = .next t ∧ t = { s.like t with thr := t.thr } ∧ Kept s t ∧ RegWrite s.thr t.thr d x

/-- The same of a load, whose lines the L1 of its core may take. -/
def Reads (s : State) (o : Out) (d : BitVec 6) (x : Word) : Prop :=
  WritesAt s o d x ∧ ∀ t, o = .next t → Filled s t

/-- The byte that a store of `bs` to the places `ls`, in order, leaves at place `k`, if it stores one there. -/
def storedAt : List Loc → List Byte → Nat → Option Byte
  | [], _, _ => none
  | l :: r, bs, k =>
    match storedAt r (bs.drop l.n) k with
    | some b => some b
    | none => if l.key ≤ k ∧ k < l.key + l.n then (bs.take l.n)[k - l.key]? else none

/-- Memory of `t` is that of `s` but for the bytes that a store of `bs` to `ls` leaves. -/
def Stored (s t : State) (ls : List Loc) (bs : List Byte) : Prop :=
  ∀ k, t.mem.read k = (storedAt ls bs k).getD (s.mem.read k)

/-- `t` is `s` but for what a store touches: memory and its bad granules, caches, the copies of REPLICA pages that are
still to follow, the states of lines of peers, and the focus thread. -/
def StoreFrame (s t : State) : Prop :=
  t = { s.like t with
    thr := t.thr
    mem := t.mem
    bad := t.bad
    forwards := t.forwards
    remote := t.remote } ∧ Kept s t

/-- No thread waits: none is parked, and none waits for a line to become full. -/
def State.NoneWaits (s : State) : Prop := ∀ u ∈ s.all, u.state ≠ .parked ∧ u.waitLoad = none

/-- Element `i` of `size` bytes of vector register `d`. -/
def Thread.element (t : Thread) (d : BitVec 6) (size i : Nat) : Nat := t.regs.readNum (t.vOff d + size * i) size

/-- The elements of vector register `d` that `act` selects hold the numbers `(f i).1` in `t`, and their flags `(f i).2` are
raised. Policy `.und` keeps the others; with `p`, `.any`, nothing is said of them (spec R44). No other byte of the register
space differs, and of the thread only that its word is behind it. -/
def Elements (s t : State) (d : BitVec 6) (size count : Nat) (p : Bool) (act : Nat → Bool) (f : Nat → Nat × Flags) : Prop :=
  ∃ fl : Flags, t.thr = { s.thr.past with regs := t.thr.regs, fpst := s.thr.fpst ||| fl.setWidth 64 } ∧
    (∀ j, fl.getLsbD j = true ↔ ∃ i < count, act i = true ∧ (f i).2.getLsbD j = true) ∧
    (∀ i < count, act i = true → t.thr.element d size i = (f i).1 % 2 ^ (8 * size)) ∧
    (∀ i < count, act i = false → p = false → t.thr.element d size i = s.thr.element d size i) ∧
    (p = false → t.freeCount = s.freeCount) ∧
    ∀ a, (a < s.thr.vOff d ∨ s.thr.vOff d + size * count ≤ a) → t.thr.regs.read a = s.thr.regs.read a

/-- A word whose effects are elements of a vector register. Nothing else of the machine differs but the count of free
values. -/
def VectorWrites (s : State) (o : Out) (d : BitVec 6) (size count : Nat) (p : Bool) (act : Nat → Bool)
    (f : Nat → Nat × Flags) : Prop :=
  ∃ t : State, o = .next t ∧ t = { s with thr := t.thr, freeCount := t.freeCount } ∧ Elements s t d size count p act f

/-- A vector load: beside the elements, caches alone change. -/
def VectorReads (s : State) (o : Out) (d : BitVec 6) (size count : Nat) (p : Bool) (act : Nat → Bool)
    (f : Nat → Nat × Flags) : Prop :=
  ∃ t : State, o = .next t ∧ t = { s.like t with thr := t.thr, freeCount := t.freeCount } ∧ Kept s t ∧ Filled s t ∧
    Elements s t d size count p act f

/-- A word whose one effect is on the thread's record, which becomes `u` and goes past it. -/
def Becomes (s : State) (o : Out) (u : Thread) : Prop := o = .next { s with thr := u.past }

/-- A thread that takes the trap `x` (spec R346 steps 1 and 2): the fields of R342 are written, PC is the first word of the
group, or follows it for TRAP and BRK; the thread waits for its delivery. -/
def Thread.atTrap (t : Thread) (clock : Nat) (x : Trap) : Thread :=
  { t with
    trclass := x.cls.code
    trinfo := x.info
    trva := x.va
    trpc := t.groupStart
    pc := if x.cls = .brk ∨ x.cls = .trap then t.groupStart + 4 else t.groupStart
    group := {}
    waitLoad := none
    took := false
    stall := 0
    readyAt := 0
    trapStage := .delivered
    trapAt := clock }

/-- The trap `x` is taken. Nothing else of the machine differs. -/
def Traps (s : State) (o : Out) (x : Trap) : Prop := o = .next { s with thr := s.thr.atTrap s.clock x }

/-- The trap `x` is taken for what a word found in memory: beside it caches alone differ. -/
def TrapsAt (s : State) (o : Out) (x : Trap) : Prop :=
  ∃ t, o = .next t ∧ t = { s.like t with thr := s.thr.atTrap s.clock x } ∧ Kept s t

/-- A queue of the focus thread's tile accepts a command: it takes the next ticket, which scalar register `d` receives; its
pins are added; the formats that the planes will have are `act` and `sh`. Nothing else of the machine differs. -/
def Queues (s : State) (o : Out) (d : BitVec 6) (q : Nat) (w : Work) (ps : List Pin) (act sh : Option (BitVec 4)) : Prop :=
  let i := s.thr.tile
  let x := s.tile i
  ∃ t, o = .next t ∧
    t = { s with
      thr := t.thr
      tiles := t.tiles
      pins := ps ++ s.pins } ∧
    RegWrite s.thr t.thr d (BitVec.ofNat 64 (x.nextTicket q)) ∧
    (∀ j, j ≠ i → t.tile j = s.tile j) ∧
    t.tile i = { x with
      queues := (t.tile i).queues
      pendActive := act
      pendShadow := sh } ∧
    (∀ r, r ≠ q → (t.tile i).queue r = x.queue r) ∧
    (t.tile i).queue q = { x.queue q with
      enq := x.nextTicket q
      cmds := (x.queue q).cmds ++
        [{ ticket := x.nextTicket q, by_ := s.issuer s.thr, direct := true, after := x.marksFor q, work := w : Cmd }] }

/-- In `t` the command `c` that stood at the head of queue `q` of tile `i` is complete: DONE has its ticket, the commands `r` after it
have moved up, its pins are gone, and those of `gone`; the tile's slots are those of `x`, but for slots of no owner. -/
def HeadDone (s t : State) (i q : Nat) (c : Cmd) (r : List Cmd) (x : TileSt) (gone : Option PinOwner) : Prop :=
  (∀ n, (x.slot n).owner ≠ none → (t.tile i).slot n = x.slot n) ∧
    (∀ p, p ≠ q → (t.tile i).queue p = (s.tile i).queue p) ∧
    (t.tile i).queue q = { (s.tile i).queue q with
      done := c.ticket
      cmds := r } ∧
    ∀ p, p ∈ t.pins ↔ p ∈ s.pins ∧ p.owner ≠ .command i q c.ticket ∧ gone ≠ some p.owner

/-- The command `c` at the head of queue `q` of tile `i` completes, and leaves the tile as `x` otherwise. Nothing else of the machine
differs. -/
def Completes (s : State) (o : Out) (i q : Nat) (c : Cmd) (r : List Cmd) (x : TileSt) (gone : Option PinOwner) : Prop :=
  ∃ t, o = .next t ∧
    t = { s with
      tiles := t.tiles
      pins := t.pins } ∧
    (∀ j, j ≠ i → t.tile j = s.tile j) ∧
    t.tile i = { x with
      queues := (t.tile i).queues
      slots := (t.tile i).slots } ∧
    HeadDone s t i q c r x gone

/-- The same of a command that read memory: caches may differ too. -/
def CompletesAt (s : State) (o : Out) (i q : Nat) (c : Cmd) (r : List Cmd) (x : TileSt) : Prop :=
  ∃ t, o = .next t ∧ t = { s.like t with pins := t.pins } ∧ KeptCores s t ∧
    (∀ j, j ≠ i → t.tile j = { s.tile j with cells := (t.tile j).cells }) ∧
    t.tile i = { x with
      queues := (t.tile i).queues
      slots := (t.tile i).slots
      cells := (t.tile i).cells } ∧
    HeadDone s t i q c r x none

/-- `d` is the fold descriptor of a command that multiplied with the shelves `u` of a tower (spec R130, R131): USED, PASSES, ORDC and
the skip causes. -/
def IsDescriptor (x : TowerSt) (u : BitVec 4) (stable : Bool) (d : Nat) : Prop :=
  let k := b2n (bit u.toNat 0) + b2n (bit u.toNat 1) + b2n (bit u.toNat 2) + b2n (bit u.toNat 3)
  bits d 3 0 = u.toNat ∧
    bits d 7 4 = (if k = 4 then 1 else (4 + k - 1) / k + b2n stable) ∧
    bits d 11 8 = (if k = 4 then 0 else if stable then 1 else 2) ∧
    bit d 12 = decide (x.fused &&& ~~~u ≠ 0) ∧ bit d 13 = decide (x.parked &&& ~~~u ≠ 0) ∧
    bit d 14 = decide (x.throttled &&& ~~~u ≠ 0) ∧ bit d 15 = false

/-- A command of port `p` with block `b` ends in state `t` with a status: the port's mailbox receives the block with STATUS
and the results `outs` by dword (spec R371). -/
def Answers (s : State) (o : Out) (p : Bool) (status : Nat) (outs : List (Nat × Nat)) (t : State) : Prop :=
  o = .next t ∧ ∃ b : BitVec 2048, t.outHost = s.outHost ++ [.mailbox p b] ∧ bits b.toNat 47 32 = status ∧
    ∀ x ∈ outs, cmdDw b x.1 = x.2 % 2 ^ 64

/-- A message that answers a peer's: to its sender, with its tag, scope and address (spec R365). -/
def answerTo (h : MsgHdr) (opc : Opc) (arg : BitVec 9) (bs : List Byte) : PeerMsg :=
  { dst := h.srcDev, opc := opc, pos := 0, tag := h.tag, scope := h.scope, addr := h.addr, arg := arg, payload := bs }

end Sys2Proof.Machine
end

