-- ==== Sys2Proof/Certificates/Slice0/Obligations.lean ====
section
/-! DEFINITION. The statements about the machine. -/

open Sys2Proof Sys2Proof.Machine

/-! ### Integers (spec R183 to R186) -/

/-- R183, R185: the integer words on register operands write their results to gd and change nothing else. R183, R184:
products, quotients and remainders. A division by zero gives all ones and the dividend; the quotient is truncated and the
remainder takes the dividend's sign; the most negative number by -1 gives itself and 0. R183, R185: counts of zeros and ones,
and bit fields at position p = B[5:0] of length l = B[13:8]. -/
def Obligations.IntegerWordsWriteTheirResults : Prop :=
  (∀ (s : State) (d a b : BitVec 6), s.thr.Fit {} { g := [d, a, b] } →
    let A := s.thr.g a
    let B := s.thr.g b
    let n := B.toNat % 64
    Writes s (exec (.add d a b) s) d (A + B) ∧
    Writes s (exec (.sub d a b) s) d (A - B) ∧
    Writes s (exec (.and d a b) s) d (A &&& B) ∧
    Writes s (exec (.or d a b) s) d (A ||| B) ∧
    Writes s (exec (.xor d a b) s) d (A ^^^ B) ∧
    Writes s (exec (.andn d a b) s) d (A &&& ~~~ B) ∧
    Writes s (exec (.shl d a b) s) d (BitVec.ofNat 64 (A.toNat * 2 ^ n)) ∧
    Writes s (exec (.shr d a b) s) d (BitVec.ofNat 64 (A.toNat / 2 ^ n)) ∧
    Writes s (exec (.sar d a b) s) d (BitVec.ofInt 64 (A.toInt / 2 ^ n)) ∧
    Writes s (exec (.rol d a b) s) d (BitVec.ofNat 64 (A.toNat * 2 ^ n + A.toNat / 2 ^ (64 - n))) ∧
    Writes s (exec (.min d a b) s) d (BitVec.ofInt 64 (min A.toInt B.toInt)) ∧
    Writes s (exec (.max d a b) s) d (BitVec.ofInt 64 (max A.toInt B.toInt)) ∧
    Writes s (exec (.minz d a b) s) d (BitVec.ofNat 64 (min A.toNat B.toNat)) ∧
    Writes s (exec (.maxz d a b) s) d (BitVec.ofNat 64 (max A.toNat B.toNat)) ∧
    Writes s (exec (.slt d a b) s) d (if A.toInt < B.toInt then 1 else 0) ∧
    Writes s (exec (.sltz d a b) s) d (if A.toNat < B.toNat then 1 else 0) ∧
    Writes s (exec (.seq d a b) s) d (if A = B then 1 else 0) ∧
    Writes s (exec (.sel d a b) s) d (if s.thr.g d = 0 then B else A)) ∧
  (∀ (s : State) (d a b : BitVec 6), s.thr.Fit {} { g := [d, a, b] } →
    let A := s.thr.g a
    let B := s.thr.g b
    Writes s (exec (.mul d a b) s) d (BitVec.ofNat 64 (A.toNat * B.toNat)) ∧
    Writes s (exec (.mulh d a b) s) d ((A.signExtend 128 * B.signExtend 128).extractLsb' 64 64) ∧
    Writes s (exec (.mulhz d a b) s) d ((A.setWidth 128 * B.setWidth 128).extractLsb' 64 64) ∧
    Writes s (exec (.div d a b) s) d (if B = 0 then BitVec.allOnes 64 else A.sdiv B) ∧
    Writes s (exec (.rem d a b) s) d (if B = 0 then A else A.srem B) ∧
    Writes s (exec (.divz d a b) s) d (if B = 0 then BitVec.allOnes 64 else A / B) ∧
    Writes s (exec (.remz d a b) s) d (if B = 0 then A else A % B)) ∧
  ((∀ (s : State) (d a : BitVec 6), s.thr.Fit {} { g := [d, a] } →
    let A := s.thr.g a
    (∃ n ≤ 64, Writes s (exec (.clz d a) s) d (BitVec.ofNat 64 n) ∧ A.toNat < 2 ^ (64 - n) ∧
      (n < 64 → 2 ^ (63 - n) ≤ A.toNat)) ∧
    (∃ n ≤ 64, Writes s (exec (.ctz d a) s) d (BitVec.ofNat 64 n) ∧ A.toNat % 2 ^ n = 0 ∧
      (n < 64 → A.getLsbD n = true)) ∧
    Writes s (exec (.popc d a) s) d (BitVec.ofNat 64 ((List.range 64).countP (fun i => A.getLsbD i)))) ∧
  (∀ (s : State) (d a b : BitVec 6), s.thr.Fit {} { g := [d, a, b] } →
    let A := s.thr.g a
    let p := (s.thr.g b).toNat % 64
    let l := (s.thr.g b).toNat / 2 ^ 8 % 64
    Writes s (exec (.bfxz d a b) s) d (BitVec.ofNat 64 (A.toNat / 2 ^ p % 2 ^ l)) ∧
    (∃ x : Word, Writes s (exec (.bfx d a b) s) d x ∧ (l = 0 → x = 0) ∧
      ∀ i, 0 < l → i < 64 → x.getLsbD i = (decide (p + min i (l - 1) < 64) && A.getLsbD (p + min i (l - 1)))) ∧
    (∃ x : Word, Writes s (exec (.bfi d a b) s) d x ∧
      ∀ i < 64, x.getLsbD i = if p ≤ i ∧ i < p + l then A.getLsbD (i - p) else (s.thr.g d).getLsbD i)))

/-- R186, R171: the immediate words, with imm12 sign-extended, or after PFXI the 36-bit value of both parts; the shifts by an
amount in the word. -/
def Obligations.ImmediateWordsWriteTheirResults : Prop :=
  (∀ (s : State) (d a : BitVec 6) (i : BitVec 12), s.thr.Fit { imm := true } { g := [d, a] } →
    let A := s.thr.g a
    let I : Int := match s.thr.group.imm with
      | none => i.toInt
      | some p => p.toInt * 4096 + i.toNat
    let B : Word := BitVec.ofInt 64 I
    Writes s (exec (.addi d a i) s) d (BitVec.ofInt 64 (A.toInt + I)) ∧
    Writes s (exec (.andi d a i) s) d (A &&& B) ∧
    Writes s (exec (.ori d a i) s) d (A ||| B) ∧
    Writes s (exec (.xori d a i) s) d (A ^^^ B) ∧
    Writes s (exec (.slti d a i) s) d (if A.toInt < I then 1 else 0) ∧
    Writes s (exec (.sltzi d a i) s) d (if A.toNat < B.toNat then 1 else 0)) ∧
  (∀ (s : State) (d a n : BitVec 6), s.thr.Fit {} { g := [d, a] } →
    let A := s.thr.g a
    Writes s (exec (.shli d a n) s) d (BitVec.ofNat 64 (A.toNat * 2 ^ n.toNat)) ∧
    Writes s (exec (.shri d a n) s) d (BitVec.ofNat 64 (A.toNat / 2 ^ n.toNat)) ∧
    Writes s (exec (.sari d a n) s) d (BitVec.ofInt 64 (A.toInt / 2 ^ n.toNat)))

/-! ### FP32 scalars (spec R187 to R191, R110, R118) -/

/-- R188, R118: arithmetic rounds the exact value once, in the group's rounding and overflow modes; FRCP and FRSQ to 12
significand bits. The encoding goes to gd with bits 63:32 clear, the flags to FPST, and nothing else changes. -/
def Obligations.FloatArithmeticWritesItsResult : Prop :=
  ∀ (s : State) (d a b : BitVec 6) (r : RMode),
    let x := s.thr.fval a
    let y := s.thr.fval b
    let m := s.thr.rmode r
    let W (i : Instr) (v : Nat × Flags) : Prop := WritesFlags s (exec i s) d (BitVec.ofNat 64 v.1) v.2
    let rnd (v : Fp × Flags) : Nat × Flags := FFmt.f32.finish m s.thr.ovf v
    (s.thr.Fit { mods := true } { g := [d, a, b] } →
      W (.fadd d a b r) (rnd (x.add m y)) ∧
      W (.fsub d a b r) (rnd (x.add m y.negate)) ∧
      W (.fmul d a b r) (rnd (x.mul y)) ∧
      W (.ffma d a b r) (rnd (x.fma m y (s.thr.fval d))) ∧
      W (.fdiv d a b r) (rnd (x.div y))) ∧
    (s.thr.Fit { mods := true } { g := [d, a] } →
      W (.fsqrt d a r) (rnd x.sqrt) ∧
      W (.frcp d a r) (approx x.recip) ∧
      W (.frsq d a r) (approx x.rsqrt))

/-- R189, R190: FMIN and FMAX give an operand's encoding, the other one where one is NaN, the default NaN where both are; the
compares give 0 or 1 and are false of NaN. Only a NaN raises a flag. R191, R109, R112: the conversions. FCVTI rounds to an
integer, clamps what is out of range with NV, and gives 0 with NV for a NaN; FCVTF and FCVTN round once; FCVTN.up is exact.
-/
def Obligations.FloatSelectionsAndConversions : Prop :=
  (∀ (s : State) (d a b : BitVec 6), s.thr.Fit {} { g := [d, a, b] } →
    let x := s.thr.fval a
    let y := s.thr.fval b
    let sig : Flags := if x = .nan true ∨ y = .nan true then fNV else 0
    let any : Flags := if x.isNan ∨ y.isNan then fNV else 0
    let neg (n : BitVec 6) : Bool := (s.thr.g n).getLsbD 31
    let below : Bool := x.less y || (!y.less x && neg a && !neg b)
    let one (c : Prop) [Decidable c] : Word := if c then 1 else 0
    WritesFlags s (exec (.fmin d a b) s) d
      (if x.isNan ∧ y.isNan then 0x7FC00000 else if x.isNan then BitVec.ofNat 64 (s.thr.f32 b)
        else if y.isNan then BitVec.ofNat 64 (s.thr.f32 a)
        else BitVec.ofNat 64 (if below then s.thr.f32 a else s.thr.f32 b)) sig ∧
    WritesFlags s (exec (.fmax d a b) s) d
      (if x.isNan ∧ y.isNan then 0x7FC00000 else if x.isNan then BitVec.ofNat 64 (s.thr.f32 b)
        else if y.isNan then BitVec.ofNat 64 (s.thr.f32 a)
        else BitVec.ofNat 64 (if below then s.thr.f32 b else s.thr.f32 a)) sig ∧
    WritesFlags s (exec (.flt d a b) s) d (one (¬ (x.isNan ∨ y.isNan) ∧ x.less y)) any ∧
    WritesFlags s (exec (.fle d a b) s) d (one (¬ (x.isNan ∨ y.isNan) ∧ ¬ y.less x)) any ∧
    WritesFlags s (exec (.feq d a b) s) d (one (¬ (x.isNan ∨ y.isNan) ∧ ¬ x.less y ∧ ¬ y.less x)) sig) ∧
  (∀ (s : State) (d a : BitVec 6) (r : RMode), s.thr.Fit { mods := true } { g := [d, a] } →
    let x := s.thr.fval a
    let m := s.thr.rmode r
    let A := s.thr.g a
    let W (i : Instr) (v : Nat × Flags) : Prop := WritesFlags s (exec i s) d (BitVec.ofNat 64 v.1) v.2
    (∀ (t : IntTy) (v : Int × Flags), v = x.toInt m (decide (t = .s32)) 32 →
      WritesFlags s (exec (.fcvti d a t r) s) d (BitVec.ofInt 64 v.1) v.2 ∧
      (x.isNan → v = (0, fNV)) ∧
      (if t = .s32 then -2 ^ 31 ≤ v.1 ∧ v.1 < 2 ^ 31 else 0 ≤ v.1 ∧ v.1 < 2 ^ 32)) ∧
    W (.fcvtf d a .s32 r) (FFmt.f32.finish m s.thr.ovf (Fp.ofInt (A.setWidth 32).toInt, 0)) ∧
    W (.fcvtf d a .z32 r) (FFmt.f32.finish m s.thr.ovf (Fp.ofInt (A.setWidth 32).toNat, 0)) ∧
    (∀ t, W (.fcvtn d a t r) (FFmt.f32.convert (narrowFmt t) m s.thr.ovf (A.toNat % 2 ^ 32)) ∧
      W (.fcvtnUp d a t r) ((narrowFmt t).widen .f32 (A.toNat % 2 ^ (narrowFmt t).width))))

/-- R110: rounding a magnitude m × 2^e to the grid 2^(e + k): toward zero it is cut, up and down follow the sign, and to
nearest it is off by at most half a unit, even at a tie. It is inexact where it is off. -/
def Obligations.RoundingGoesWhereTheModeSays : Prop :=
  ∀ (mode : RMode) (neg : Bool) (m : Nat) (e : Int) (k : Nat), 0 < k →
    let q := (roundAt mode neg m e false (e + k)).1
    ((roundAt mode neg m e false (e + k)).2 = true ↔ q * 2 ^ k ≠ m ) ∧
    (mode = .rtz → q * 2 ^ k ≤ m ∧ m < (q + 1) * 2 ^ k) ∧
    (mode = .rne → 2 * m ≤ 2 * (q * 2 ^ k) + 2 ^ k ∧ 2 * (q * 2 ^ k) ≤ 2 * m + 2 ^ k ∧
      ((2 * m = 2 * (q * 2 ^ k) + 2 ^ k ∨ 2 * (q * 2 ^ k) = 2 * m + 2 ^ k) → q % 2 = 0)) ∧
    ((mode = .rup ∧ neg = false ∨ mode = .rdn ∧ neg = true) → m ≤ q * 2 ^ k ∧ q * 2 ^ k < m + 2 ^ k) ∧
    ((mode = .rup ∧ neg = true ∨ mode = .rdn ∧ neg = false) → q * 2 ^ k ≤ m ∧ m < (q + 1) * 2 ^ k)

/-! ### Control (spec R192 to R195) -/

/-- R192: a branch goes to its own address + Sext(off12, 12) × 4 where its condition holds, and to the next word otherwise.
Nothing but PC, the group and the note that it jumped changes. R193: JAL and JALR write the address of the next word to gd
and go to the target, which JALR takes from the old gA; a target of JALR that is no multiple of 4 traps with class ADDR and
leaves gd. -/
def Obligations.BranchesAndJumpsGoWhereTheySay : Prop :=
  (∀ (s : State) (a b : BitVec 6) (o : BitVec 12), s.thr.FitControl { g := [a, b] } →
    let A := s.thr.g a
    let B := s.thr.g b
    let B? (i : Instr) (c : Prop) : Prop :=
      (c → exec i s = .next { s with thr := { s.thr with
        pc := BitVec.ofInt 64 (s.thr.pc.toInt + o.toInt * 4)
        group := {}
        took := true } }) ∧
      (¬ c → Becomes s (exec i s) s.thr)
    B? (.beq a b o) (A = B) ∧ B? (.bne a b o) (A ≠ B) ∧
    B? (.blt a b o) (A.toInt < B.toInt) ∧ B? (.bge a b o) (B.toInt ≤ A.toInt) ∧
    B? (.bltz a b o) (A.toNat < B.toNat) ∧ B? (.bgez a b o) (B.toNat ≤ A.toNat)) ∧
  (∀ (s : State),
    let J (o : Out) (d : BitVec 6) (target : Word) : Prop := ∃ r,
      o = .next { s with thr := { s.thr with
        regs := r
        pc := target
        group := {}
        took := true } } ∧
      (∀ n, n ≠ 0 → { s.thr with regs := r }.g n = if n = d then s.thr.pc + 4 else s.thr.g n) ∧
      ∀ a, (d = 0 ∨ a < 8 * d.toNat ∨ 8 * d.toNat + 8 ≤ a) → r.read a = s.thr.regs.read a
    (∀ (d : BitVec 6) (o : BitVec 18), s.thr.FitControl { g := [d] } →
      J (exec (.jal d o) s) d (BitVec.ofInt 64 (s.thr.pc.toInt + o.toInt * 4))) ∧
    (∀ (d a : BitVec 6) (i : BitVec 12), s.thr.FitControl { g := [d, a] } →
      let t := s.thr.g a + i.signExtend 64
      (t.toNat % 4 = 0 → J (exec (.jalr d a i) s) d t) ∧
      (t.toNat % 4 ≠ 0 → Traps s (exec (.jalr d a i) s) { cls := .addr, cause := 6, va := t })))

/-- R194: TRAP and BRK complete and trap: TRPC is their own address, PC the next word's, TRINFO their code. R195: EXIT with
nothing outstanding and every result written: the thread is DONE past the EXIT, off its core, with no claim; its header is
written back with STATE 7; its index counts as done. (Where it completes no launch and no thread is parked, nothing else of
memory changes.) -/
def Obligations.TrapBreakAndExit : Prop :=
  (∀ (s : State) (i : BitVec 12), s.thr.FitControl {} →
    let T (o : Out) (cls : TrapClass) : Prop := Traps s o { cls := cls, cause := i.toNat } ∧
      ∃ t, o = .next t ∧ t.thr.pc = s.thr.pc + 4 ∧ t.thr.trpc = s.thr.pc ∧ t.thr.trinfo = i.setWidth 56 ∧
        t.thr.trclass = cls.code ∧ t.mem = s.mem
    T (exec (.trapInsn i) s) .trap ∧ T (exec (.brk i) s) .brk) ∧
  (∀ (s : State) (l : Launch) (f : Nat), s.thr.FitControl {} → s.Settled → s.thr.claims = [] → s.quiet s.thr = true →
    let k := s.thr.key
    s.launch? k.launch = some l →
    (({ l with done := k.index.toNat :: l.done.filter (fun y => y != k.index.toNat) } : Launch).skipTo l.nextIndex).allDone s.dev = false →
    (l.spans = true → l.allReported s.dev = false) → l.guest = false →
    s.headerPlace s.thr = some f → s.ctxReady s.thr true (s.thr.ctx.toNat, 256) = .ok →
    (s.took s.thr true (s.ctxLocs s.thr (s.thr.ctxBytes [])) true).headerPlace s.thr = some f →
    (∀ p ∈ s.pins, ∀ n, p.owner ≠ .claim k n ∧ p.owner ≠ .epilogue k n) → (∀ u ∈ s.threads, u.state ≠ .parked) →
    ∃ t, exec .exit s = .next t ∧
      t.thr.state = .done ∧ t.thr.pc = s.thr.pc + 4 ∧ t.thr.claims = [] ∧ t.thr.held = false ∧ t.thr.lines = [] ∧
      bits (t.mem.readNum f 256) 66 64 = 7 ∧ bits (t.mem.readNum f 256) 63 0 = (s.thr.pc + 4).toNat ∧
      (∀ a, (a < f ∨ f + 256 ≤ a) → t.mem.read a = s.mem.read a) ∧
      (∃ l', t.launch? k.launch = some l' ∧ k.index.toNat ∈ l'.done) ∧
      t.threads = s.threads ∧
      t.outLaunch = s.outLaunch ++ (s.told l).map (fun d => LaunchMsg.gone d ⟨k.launch, BitVec.ofNat 32 k.index.toNat⟩))

/-! ### Prefixes and hints (spec R169, R171, R197 to R201, R228, R229) -/

/-- R169, R171, R197, R228, R229: a prefix joins the group, which remembers its first word, and PC goes on; the group's other
prefixes stay. -/
def Obligations.PrefixesJoinTheGroup : Prop :=
  ∀ (s : State),
    let g := s.thr.group
    let P (i : Instr) (g' : Group) : Prop := exec i s = .next { s with thr := { s.thr with
      pc := s.thr.pc + 4
      group := { g' with
        len := g.len + 1
        start := if g.len = 0 then s.thr.pc else g.start }
      afterHint := false } }
    (∀ p, g.imm = none → P (.pfxi p) { g with imm := some p }) ∧
    (∀ self p, g.view = none → P (.pfxv self p) { g with view := some (.pos self p) }) ∧
    (∀ self n, g.view = none → s.thr.hasG n = true → P (.pfxvg self n) { g with view := some (.reg self n) }) ∧
    (∀ c, g.scope = none → P (.pfxs c) { g with scope := some c }) ∧
    (∀ o r, g.mods = none → P (.pfxm o r) { g with mods := some (o, r) })

/-- R169, R343: a second prefix of a kind, a prefix before a control word or a hint, a HINT before a control word, and a
prefix that a word does not accept make the group trap with class ILL, cause 2, DETAIL the word's place in the group (0 for
the control word after a HINT), TRPC the group's first word. R35, R168: a word that names a scalar register at or above
GCOUNT, a vector register at or above VCOUNT, or a tile register without a tile view traps with class ILL, cause 4; so does
MFSR of a WDLIM register, whatever its partition (R168 step 5 comes before the check of R292). The cause numbers of class ILL
are the model's reading (log entry 33). -/
def Obligations.UnfitWordsTrap : Prop :=
  (∀ (s : State),
    let g := s.thr.group
    let T (i : Instr) : Prop := Traps s (exec i s) { cls := .ill, cause := 2, detail := g.len, va := s.thr.pc }
    (∀ p, g.imm ≠ none → T (.pfxi p)) ∧
    (∀ self p, g.view ≠ none → T (.pfxv self p)) ∧
    (∀ self n, g.view ≠ none → T (.pfxvg self n)) ∧
    (∀ c, g.scope ≠ none → T (.pfxs c)) ∧
    (∀ o r, g.mods ≠ none → T (.pfxm o r)) ∧
    (g.len ≠ 0 → T .nop ∧ T .yield ∧ (∀ n, T (.hintStall n)) ∧ (∀ p, T (.hintPrio p)) ∧
      (∀ a b o, T (.beq a b o)) ∧ (∀ d o, T (.jal d o)) ∧ (∀ d a i, T (.jalr d a i)) ∧
      (∀ i, T (.trapInsn i)) ∧ (∀ i, T (.brk i)) ∧ T .exit) ∧
    (g.len = 0 → s.thr.afterHint = true → ∀ a b o, T (.bne a b o)) ∧
    ((g.imm ≠ none ∨ g.view ≠ none ∨ g.scope ≠ none) → ∀ d a b r, T (.fadd d a b r)) ∧
    ((g.imm ≠ none ∨ g.view ≠ none ∨ g.scope ≠ none ∨ g.mods ≠ none) → ∀ d a b, T (.add d a b) ∧ T (.fmin d a b)) ∧
    ((g.view ≠ none ∨ g.scope ≠ none ∨ g.mods ≠ none) → ∀ d a i, T (.addi d a i)) ∧
    ((g.scope ≠ none ∨ g.mods ≠ none) → ∀ d a i, T (.ldw d a i) ∧ T (.stw d a i)) ∧
    ((g.imm ≠ none ∨ g.mods ≠ none) → ∀ d a z o, T (.lda d a z o) ∧ T (.stl d a z o))) ∧
  (∀ (s : State), s.thr.group = {} → s.thr.afterHint = false →
    let T (i : Instr) : Prop := Traps s (exec i s) { cls := .ill, cause := 4, detail := 0, va := s.thr.pc }
    (∀ d a b : BitVec 6, (s.thr.gcount.toNat ≤ d.toNat ∨ s.thr.gcount.toNat ≤ a.toNat ∨ s.thr.gcount.toNat ≤ b.toNat) →
      T (.add d a b) ∧ T (.amow d a b .relaxed .add) ∧ ∀ r, T (.fadd d a b r)) ∧
    (∀ d a : BitVec 6, (s.thr.gcount.toNat ≤ d.toNat ∨ s.thr.gcount.toNat ≤ a.toNat) →
      ∀ i, T (.ldw d a i) ∧ T (.stw d a i) ∧ T (.jalr d a i)) ∧
    (∀ d a b : BitVec 6, (s.thr.vcount.toNat ≤ d.toNat ∨ s.thr.vcount.toNat ≤ a.toNat ∨ s.thr.vcount.toNat ≤ b.toNat) →
      ∀ p, T (.vadd d a b 0 p)) ∧
    (s.thr.tbase = 0xFF → ∀ t a l, T (.tld t a l)) ∧
    (s.thr.sup = true → ∀ d : BitVec 6, s.thr.gcount.toNat ≤ d.toNat → ∀ q < 64, T (.mfsr d (BitVec.ofNat 12 (0x140 + q)))))

/-- R198 to R201: a HINT goes on to the next word; NOP does nothing more, HINT 2 sets the stall, HINT 3 lowers PRIO and never
raises it, YIELD owes the thread to every other one of its core and priority that is ready. -/
def Obligations.HintsActAndGoOn : Prop :=
  ∀ (s : State), s.thr.group.len = 0 →
    let H (i : Instr) (u : Thread) : Prop := exec i s = .next { s with thr := { u.past with afterHint := true } }
    H .nop s.thr ∧
    (∀ n, H (.hintStall n) { s.thr with stall := n.toNat }) ∧
    (∀ p, H (.hintPrio p) { s.thr with prio := if p < s.thr.prio then p else s.thr.prio }) ∧
    ∃ ks, H .yield { s.thr with owed := ks } ∧
      ∀ k, k ∈ ks ↔ ∃ u ∈ s.all, u.key = k ∧ u.key ≠ s.thr.key ∧ u.prio = s.thr.prio ∧ u.held = true ∧
        posCore u.cur = posCore s.thr.cur ∧ s.canIssue u = true

/-! ### Memory words (spec R202 to R216) -/

/-- R205, R206: a plain load from usable places writes the bytes at va = G(a) + Imm to gd, sign-extended by LDB, LDH and LDW
and zero-extended by the others; its bytes come from the L1 line that holds them, if one does, which then asks no home (R55,
R320). The access is performed for g0 as well. Nothing but gd, PC and caches changes; an L1 line that is new holds the bytes
of memory, and no other core's L1 changes. When a load fills its L1 line, and which accesses stay outstanding, are the
model's choice (log entries 6 and 13). -/
def Obligations.LoadsWriteTheBytes : Prop :=
  ∀ (s : State) (d a : BitVec 6) (i : BitVec 12) (n : Nat) (ls : List Loc),
    s.thr.Fit { imm := true, view := true } { g := [d, a] } → s.Settled →
    let va := s.thr.g a + s.thr.imm i
    let w := s.who s.thr s.thr.view
    let hit := if ls.any (fun l => l.win.isSome) then none else s.l1Hit w va.toNat n
    s.loadAccess w va n 1 = .ok ls → (hit = none → s.ready s.thr false ls = .ok) → s.noteImages w.scsz ls = s →
    s.emptyLines ls = [] →
    let x := ofBytes (hit.getD (s.readLocs ls))
    (n = 1 → Reads s (exec (.ldb d a i) s) d ((BitVec.ofNat 8 x).signExtend 64) ∧
      Reads s (exec (.ldbz d a i) s) d (BitVec.ofNat 64 x)) ∧
    (n = 2 → Reads s (exec (.ldh d a i) s) d ((BitVec.ofNat 16 x).signExtend 64) ∧
      Reads s (exec (.ldhz d a i) s) d (BitVec.ofNat 64 x)) ∧
    (n = 4 → Reads s (exec (.ldw d a i) s) d ((BitVec.ofNat 32 x).signExtend 64) ∧
      Reads s (exec (.ldwz d a i) s) d (BitVec.ofNat 64 x)) ∧
    (n = 8 → Reads s (exec (.ldd d a i) s) d (BitVec.ofNat 64 x))

/-- R205, R206, R36: a plain store puts the low bytes of G(d), zeros for g0, at the places of va = G(a) + Imm; no other byte
of memory changes, no register, and of the rest only what follows a store (caches, forwarding, lines held elsewhere). Which
stores stay outstanding is the model's choice (log entry 6). -/
def Obligations.StoresPutTheBytes : Prop :=
  ∀ (s : State) (d a : BitVec 6) (i : BitVec 12) (n : Nat) (ls : List Loc),
    s.thr.Fit { imm := true, view := true } { g := [d, a] } → s.Settled →
    let w := s.who s.thr s.thr.view
    s.access w .store (s.thr.g a + s.thr.imm i) n 1 = .ok ls → s.ready s.thr true ls = .ok → s.noteImages w.scsz ls = s →
    let P (o : Out) : Prop := ∃ t, o = .next t ∧ StoreFrame s t ∧ t.thr = s.thr.past ∧ Stored s t ls (leBytes n (s.thr.g d).toNat)
    (n = 1 → P (exec (.stb d a i) s)) ∧ (n = 2 → P (exec (.sth d a i) s)) ∧
    (n = 4 → P (exec (.stw d a i) s)) ∧ (n = 8 → P (exec (.std d a i) s))

/-- R203: an access that fails a check traps as the check says and changes no byte of memory and no register: loads and
stores of every width, for the trap that the checks of the access find. R49, R203, R207, R213, R219: the ADDR checks of an
access come first and in order: a va with any of bits 63:57 set (cause 1), then an access that is not aligned to what its
word requires (cause 2). TRVA is va. Before a load is checked, the accesses that an outstanding FENCE orders before it are
performed (`State.fenced`), which may drop L1 lines (R147); an access already under way at a peer has passed its checks
(R321). -/
def Obligations.FailedChecksTrapWithoutEffect : Prop :=
  (∀ (s : State) (d a : BitVec 6) (i : BitVec 12) (x : Trap),
    s.thr.Fit { imm := true, view := true } { g := [d, a] } →
    let r := s.fenced
    let L (n : Nat) : Prop := r.loadAccess (r.who r.thr r.thr.view) (r.thr.g a + r.thr.imm i) n 1 = .trap x
    let S (n : Nat) : Prop := s.access (s.who s.thr s.thr.view) .store (s.thr.g a + s.thr.imm i) n 1 = .trap x
    (L 1 → Traps r (exec (.ldb d a i) s) x ∧ Traps r (exec (.ldbz d a i) s) x) ∧
    (L 2 → Traps r (exec (.ldh d a i) s) x ∧ Traps r (exec (.ldhz d a i) s) x) ∧
    (L 4 → Traps r (exec (.ldw d a i) s) x ∧ Traps r (exec (.ldwz d a i) s) x) ∧
    (L 8 → Traps r (exec (.ldd d a i) s) x) ∧
    (S 1 → Traps s (exec (.stb d a i) s) x) ∧ (S 2 → Traps s (exec (.sth d a i) s) x) ∧
    (S 4 → Traps s (exec (.stw d a i) s) x) ∧ (S 8 → Traps s (exec (.std d a i) s) x)) ∧
  (∀ (s : State) (d a b : BitVec 6), s.thr.group = {} → s.thr.has { g := [d, a, b] } = true → s.fenced = s →
    let va := s.thr.g a
    (∀ opc arg n, s.begun opc arg va n = none) →
    let T (o : Out) (cause : Nat) : Prop := Traps s o { cls := .addr, cause := cause, va := va }
    (2 ^ 57 ≤ va.toNat → T (exec (.ldd d a 0) s) 1 ∧ T (exec (.stb d a 0) s) 1 ∧ T (exec (.lda d a .d8 0) s) 1 ∧
      T (exec (.stl d a .w4 0) s) 1 ∧ T (exec (.ldsy d a .d8 0) s) 1 ∧ T (exec (.stf d a .d8 0) s) 1 ∧
      (∀ ord, T (exec (.amow d a b ord .add) s) 1 ∧ T (exec (.amod d a b ord .cas) s) 1) ∧
      T (exec (.arw d a b) s) 1 ∧ T (exec (.await d a b) s) 1) ∧
    (va.toNat + 16 ≤ 2 ^ 57 →
      (va.toNat % 8 ≠ 0 → T (exec (.lda d a .d8 0) s) 2 ∧ T (exec (.stl d a .d8 0) s) 2 ∧
        T (exec (.ldsy d a .d8 0) s) 2 ∧ T (exec (.stf d a .d8 0) s) 2 ∧ ∀ ord, T (exec (.amod d a b ord .swap) s) 2) ∧
      (va.toNat % 4 ≠ 0 → ∀ ord, T (exec (.amow d a b ord .fadd) s) 2) ∧
      (va.toNat % 16 ≠ 0 → T (exec (.arw d a b) s) 2 ∧ T (exec (.await d a b) s) 2)))

/-- R208, R55: LDA reads its bytes, at a scope wider than CORE not from the L1, and drops the L1 lines of its space there;
STL stores after everything earlier, and every copy of a REPLICA page holds the bytes before the thread goes on. R216, R147,
R55: FENCE takes one slot. With earlier accesses outstanding and both an earlier and a later kind named it stands among them;
where later loads are named (LL) at a scope wider than CORE it drops the L1 lines of the space, and of the stores that have
not reached every copy changes only that later fetches come after them (R162). PREF changes no value: it goes on, and may
fill caches or ask a home for a line. A line that is new in its core's L1 holds the bytes of memory; the L1 of no other core
changes, and with a tier other than the L1 none does. What an acquire drops at each scope, and what a prefetch fills, are the
model's choice (log entries 7 and 13). -/
def Obligations.AcquireReleaseFenceAndPrefetch : Prop :=
  (∀ (s : State) (d a : BitVec 6) (z : Size) (o : BitVec 10) (ls : List Loc),
    s.thr.Fit { view := true, scope := true } { g := [d, a] } → s.Settled →
    let va := s.thr.g a + o.signExtend 64
    let n := match z with | .d8 => 8 | .w4 => 4 | .h2 => 2 | .b1 => 1
    let w := s.who s.thr s.thr.view
    (s.thr.scope ≠ .core → s.access w .load va n n = .ok ls → s.Usable false w ls →
      Reads s (exec (.lda d a z o) s) d (BitVec.ofNat 64 (ofBytes (s.readLocs ls))) ∧
        ∀ t, exec (.lda d a z o) s = .next t → ∀ l ∈ (t.core (posCore s.thr.cur)).l1, l.space ≠ s.thr.space) ∧
    (s.thr.scope = .core → s.loadAccess w va n n = .ok ls → s.Usable false w ls →
      let hit := if ls.any (fun l => l.win.isSome) then none else s.l1Hit w va.toNat n
      Reads s (exec (.lda d a z o) s) d (BitVec.ofNat 64 (ofBytes (hit.getD (s.readLocs ls))))) ∧
    (s.access w .store va n n = .ok ls → s.ready s.thr true (copyLocs ls) = .ok → s.noteImages w.scsz ls = s →
      ∃ t, exec (.stl d a z o) s = .next t ∧ StoreFrame s t ∧ t.thr = s.thr.past ∧ t.forwards = [] ∧
        ((∀ l ∈ ls, l.copies = []) → Stored s t ls (leBytes n (s.thr.g d).toNat)) ∧
        ∀ l, ls = [l] → ∀ c ∈ l.copies, (∀ c' ∈ l.copies, c' ≠ c → c' + n ≤ c ∨ c + n ≤ c') → l.key + n ≤ c ∨ c + n ≤ l.key →
          l.n = n → t.mem.readBytes c n = leBytes n (s.thr.g d).toNat)) ∧
  ((∀ (s : State) (c : Scope) (k : BitVec 4), s.thr.Fit {} {} →
    ∃ t, exec (.fence c k) s = .next t ∧
      t = { s with thr := t.thr, cores := t.cores, accCount := t.accCount, forwards := t.forwards } ∧
      (∀ i, t.core i = { s.core i with l1 := (t.core i).l1 } ∧ ∀ l ∈ (t.core i).l1, l ∈ (s.core i).l1) ∧
      (∀ i, i ≠ posCore s.thr.cur ∨ k.getLsbD 1 = false ∨ c = .core → (t.core i).l1 = (s.core i).l1) ∧
      (k.getLsbD 1 = false → t.forwards = s.forwards) ∧
      t.forwards.map (fun f => { f with firm := false }) = s.forwards.map (fun f => { f with firm := false }) ∧
      t.thr = { s.thr.past with
        accs := t.thr.accs
        fetchFrom := t.thr.fetchFrom } ∧
      (k.getLsbD 1 = false → t.thr.fetchFrom = s.thr.fetchFrom) ∧
      (t.thr.accs = if k.extractLsb' 2 2 ≠ 0 ∧ k.extractLsb' 0 2 ≠ 0 ∧
          (s.thr.accs ≠ [] ∨ ∃ f ∈ s.forwards, f.thread = s.thr.key) then s.thr.accs ++ [.fence c k] else s.thr.accs) ∧
      (k.getLsbD 1 = true → c ≠ .core → ∀ l ∈ (t.core (posCore s.thr.cur)).l1, l.space ≠ s.thr.space)) ∧
  (∀ (s : State) (tier : Tier) (a : BitVec 6) (i : BitVec 12), s.thr.Fit { imm := true, view := true } { g := [a] } →
    ∃ t, exec (.pref tier a i) s = .next t ∧
      t = { s.like t with
        thr := s.thr.past
        txns := t.txns
        outPeer := t.outPeer
        bisnp := t.bisnp
        halfAsks := t.halfAsks } ∧
      Kept s t ∧ Filled s t ∧ (tier ≠ .l1 → ∀ i, (t.core i).l1 = (s.core i).l1)))

/-- R212, R213: an atomic in the memory of this module or a host, which is not under way at a peer, reads the old value of
its n bytes, writes the new one of its function (none where cas fails), gives the old one to gd, sign-extended, fadd's
zero-extended with its flags, and acquires where its order says so. R213, R215: AMOD has no fadd, and PROP and CRD need two
registers (ILL cause 5, R221); atomics on a REPLICA page trap with class REPL, on a ONCE page with class AMOTYPE, and fadd on
host memory with class AMOTYPE. The last three are checks 3 and 4 of R203 on the place. -/
def Obligations.AtomicsReadModifyWrite : Prop :=
  (∀ (s : State) (d a b : BitVec 6) (ord : AmoOrd) (fn : AmoFn) (n : Nat) (ls : List Loc),
    s.thr.Fit { view := true, scope := true } { g := [d, a, b] } → s.Settled →
    let w := s.who s.thr s.thr.view
    (n = 4 ∨ n = 8 ∧ fn ≠ .fadd) →
    s.begun .amo (amoArg fn ord n) (s.thr.g a) n = none → s.access w (.atomic (decide (fn = .fadd))) (s.thr.g a) n n = .ok ls →
    s.Usable true w ls → s.isPeer (firstKey ls) = false →
    let m := 2 ^ (8 * n)
    let old := ofBytes (s.readLocs ls)
    let op := (s.thr.g b).toNat % m
    let low (x y : Nat) (lt : Prop) [Decidable lt] : Nat := if lt then x else y
    let sum := FFmt.f32.finish .rne .dflt ((FFmt.f32.decode old).add .rne (FFmt.f32.decode op))
    let new : Option Nat := match fn with
      | .add => some ((old + op) % m)
      | .and => some (old &&& op)
      | .or => some (old ||| op)
      | .xor => some (old ^^^ op)
      | .min => some (low op old (signed (8 * n) op < signed (8 * n) old))
      | .max => some (low op old (signed (8 * n) old < signed (8 * n) op))
      | .minz => some (low op old (op < old))
      | .maxz => some (low op old (old < op))
      | .swap => some op
      | .cas => if old = (s.thr.g d).toNat % m then some op else none
      | .fadd => some sum.1
    let fl : Flags := if fn = .fadd then sum.2 else 0
    let x : Word := if fn = .fadd then BitVec.ofNat 64 old else BitVec.ofInt 64 (signed (8 * n) old)
    let P (o : Out) : Prop := ∃ t, o = .next t ∧ StoreFrame s t ∧
      RegWrite { s.thr with fpst := s.thr.fpst ||| fl.setWidth 64 } t.thr d x ∧
      (match new with
        | some v => Stored s t ls (leBytes n v)
        | none => ∀ k, t.mem.read k = s.mem.read k) ∧
      ((ord = .acq ∨ ord = .ar) → s.thr.scope ≠ .core → ∀ l ∈ (t.core (posCore s.thr.cur)).l1, l.space ≠ s.thr.space)
    (n = 4 → P (exec (.amow d a b ord fn) s)) ∧ (n = 8 → P (exec (.amod d a b ord fn) s))) ∧
  ((∀ (s : State) (d a b : BitVec 6) (ord : AmoOrd), s.thr.Fit { view := true, scope := true } { g := [d, a, b] } →
    Traps s (exec (.amod d a b ord .fadd) s) { cls := .ill, cause := 5, detail := s.thr.group.len, va := s.thr.pc } ∧
    (d = b → Traps s (exec (.prop d a b) s) { cls := .ill, cause := 5, detail := s.thr.group.len, va := s.thr.pc } ∧
      ∀ wait, Traps s (exec (.crd d a b wait) s) { cls := .ill, cause := 5, detail := s.thr.group.len, va := s.thr.pc })) ∧
  (∀ (l : Loc) (f : Bool), l.win = none →
    let va := BitVec.ofNat 64 l.va
    (eKind l.entry = 2 → replCheck (.atomic f) l = .trap { cls := .repl, cause := 1, va := va } ∧
      replCheck .arrive l = .trap { cls := .repl, cause := 1, va := va }) ∧
    (eKind l.entry = 3 → typeCheck (.atomic f) l = .trap { cls := .amotype, cause := 1, va := va } ∧
      typeCheck .load l = .trap { cls := .amotype, cause := 1, va := va } ∧
      typeCheck .fetch l = .trap { cls := .amotype, cause := 5, va := va }) ∧
    (eKind l.entry ≠ 3 → l.key / 2 ^ 48 = 0xFFF → typeCheck (.atomic true) l = .trap { cls := .amotype, cause := 3, va := va }) ∧
    (eKind l.entry ≠ 3 → typeCheck .prop l = .trap { cls := .amotype, cause := 2, va := va })))

/-- R74, R209: LDSY of a full line takes the bytes and leaves the line empty; of an empty one it parks its thread with PARKC
1 and PARKVA va, at the first word of its group. STF stores the bytes and leaves the line full. No other byte changes. R75: a
plain load that touches a guarded, empty scratch line waits, its thread ACTIVE and its registers as they are. It waits for
every scratch line that it touches, and while one of them is guarded and empty it does not go on (GUARDED_LOAD_RESUME). R210:
FEST over n lines from G(a) sets or clears the full and the guarded bit of each as FOP and GOP say, and no bit of another
line; a count of 0 changes nothing. -/
def Obligations.SynchronisingScratchAccesses : Prop :=
  (∀ (s : State) (d a : BitVec 6) (z : Size) (o : BitVec 10) (ls : List Loc),
    s.thr.Fit { view := true, scope := true } { g := [d, a] } → s.Settled → s.NoneWaits →
    let va := s.thr.g a + o.signExtend 64
    let n := match z with | .d8 => 8 | .w4 => 4 | .h2 => 2 | .b1 => 1
    let w := s.who s.thr s.thr.view
    s.noteImages w.scsz ls = s → (s.imageAt (firstKey ls)).isSome = true →
    (s.access w .scratch va n n = .ok ls → s.isFull (firstKey ls) = true → ∃ t, exec (.ldsy d a z o) s = .next t ∧
      t = { s with thr := t.thr, spaces := t.spaces, cores := t.cores } ∧
      RegWrite s.thr t.thr d (BitVec.ofNat 64 (ofBytes (s.readLocs ls))) ∧ t.isFull (firstKey ls) = false) ∧
    (s.access w .scratch va n n = .ok ls → s.isFull (firstKey ls) = false → ∃ t, exec (.ldsy d a z o) s = .next { s with thr := t } ∧
      t.state = .parked ∧ t.parkc = 1 ∧ t.parkva = va ∧ t.pc = s.thr.groupStart ∧ t.group = {} ∧ t.regs = s.thr.regs) ∧
    (s.access w .fill va n n = .ok ls →
      ∃ t, exec (.stf d a z o) s = .next t ∧ Stored s t ls (leBytes n (s.thr.g d).toNat) ∧ t.thr = s.thr.past ∧
      t.isFull (firstKey ls) = true ∧ t.threads = s.threads)) ∧
  (∀ (s : State) (d a : BitVec 6) (i : BitVec 12) (ls : List Loc), s.thr.Fit { imm := true, view := true } { g := [d, a] } →
    let r := s.fenced
    let w := r.who r.thr r.thr.view
    r.loadAccess w (r.thr.g a + r.thr.imm i) 8 1 = .ok ls → r.ready r.thr false ls = .ok → r.noteImages w.scsz ls = r →
    (∃ l ∈ ls, l.win = some .core ∧ isCoreKey l.key = true ∧ ∃ n ∈ unitsOf 128 l.key l.n, r.guardedEmpty (n * 128) = true) →
    ∃ t x, exec (.ldd d a i) s = .next t ∧ t = { r.like t with thr := { r.thr with waitLoad := some x } } ∧ Kept r t ∧
      x.lines = linesAt (ls.filter (fun l => isCoreKey l.key)) ∧ exec (.guardedLoadResume r.thr.key) t = .next t) ∧
  (∀ (s : State) (a b : BitVec 6) (g f : BitOp), s.thr.Fit { view := true } { g := [a, b] } → s.Settled → s.NoneWaits →
    let va := (s.thr.g a).toNat
    let n := (s.thr.g b).toNat
    let w := s.who s.thr s.thr.view
    let k := coreKey w.space (posDev w.pk) (posCore w.pk) (va % 2 ^ 40)
    s.festCheck w va n = .ok () → va % 2 ^ 40 + 128 * n ≤ 2 ^ 19 → (s.imageAt k).isSome = true →
    ∃ t, exec (.fest a b g f) s = .next t ∧ t = { s with thr := s.thr.past, spaces := t.spaces } ∧
      (n = 0 → t.spaces = s.spaces) ∧
      ∀ x y, s.imageAt k = some x → t.imageAt k = some y → ∀ j,
        (y.full.contains j = if lineNo k ≤ j ∧ j < lineNo k + n then
            (match f with | .keep => x.full.contains j | .set => true | .clear => false) else x.full.contains j) ∧
        (y.guarded.contains j = if lineNo k ≤ j ∧ j < lineNo k + n then
            (match g with | .keep => x.guarded.contains j | .set => true | .clear => false) else x.guarded.contains j))

/-! ### Barriers, arrival words, cells, positions (spec R217 to R227) -/

/-- R217, R218: a BAR of a level above NLEV traps with class ILL. Otherwise the first evaluation counts one arrival, after
everything earlier; where every participant is DONE or has arrived as often, the thread goes on with BARG clear, and
otherwise it parks with PARKC 3 and BARG pending. A second evaluation counts nothing. R97, R219, R220: ARW adds G(b)[31:0] to
COUNT, raises GEN by COUNT div TARGET and leaves COUNT mod TARGET, which a count of 0 does not, gives the new GEN, and
changes no other byte; AWAIT gives GEN, ERR and DGERR where GEN has reached G(b)[31:0], and otherwise parks with PARKC 2 and
PARKVA va. That the completing thread goes on at once, and words with reserved fields, are the model's reading (log entries
28 and 101). -/
def Obligations.BarriersAndArrivalWords : Prop :=
  (∀ (s : State) (c : Option Scope) (k : BitVec 3) (l : Launch),
    s.thr.Fit {} {} → s.Settled → s.NoneWaits → s.launch? s.thr.launch = some l →
    let x := s.thr.index.toNat
    let m := l.arrived k.toNat x + 1
    let l' : Launch := { l with arrivals := Tab.put l.arrivals (k.toNat * 2 ^ 32 + x) m }
    let barg : BitVec 32 := BitVec.ofNat 32 (m % 2 ^ 28 + k.toNat * 2 ^ 28 + 2 ^ 31)
    (l.nlev < k.toNat →
      Traps s (exec (.bar c k) s) { cls := .ill, cause := 5, detail := s.thr.group.len, va := s.thr.pc }) ∧
    (k.toNat ≤ l.nlev → s.thr.barg.getLsbD 31 = false →
      (l'.barrierDone k.toNat (l.inst k.toNat x) m = true → ∃ t, exec (.bar c k) s = .next t ∧
        t = { s with thr := { s.thr.past with barg := 0 }, cores := t.cores, launches := t.launches, outLaunch := t.outLaunch } ∧
        t.outLaunch = s.outLaunch ++ (s.told l).map (fun dev => LaunchMsg.came dev s.thr.key k m) ∧
        t.launch? s.thr.launch = some l') ∧
      (l'.barrierDone k.toNat (l.inst k.toNat x) m = false → ∃ t, exec (.bar c k) s = .next t ∧
        t = { s with thr := t.thr, launches := t.launches, outLaunch := t.outLaunch } ∧
        t.outLaunch = s.outLaunch ++ (s.told l).map (fun dev => LaunchMsg.came dev s.thr.key k m) ∧
        t.launch? s.thr.launch = some l' ∧ t.thr.state = .parked ∧ t.thr.parkc = 3 ∧ t.thr.parkva = 0 ∧
        t.thr.barg = barg ∧ t.thr.pc = s.thr.groupStart ∧ t.thr.regs = s.thr.regs)) ∧
    (k.toNat ≤ l.nlev → s.thr.barg.getLsbD 31 = true → ∃ t, exec (.bar c k) s = .next t ∧ t.launches = s.launches ∧
      (t.thr.state = .parked ∨ t.thr = { s.thr.past with barg := 0 }))) ∧
  (∀ (s : State) (d a b : BitVec 6) (l : Loc),
    s.thr.Fit { view := true } { g := [d, a, b] } → s.Settled → s.NoneWaits →
    let w := s.who s.thr s.thr.view
    s.access w .arrive (s.thr.g a) 16 16 = .ok [l] → l.n = 16 → l.key + 16 ≤ 2 ^ 62 → s.noteImages w.scsz [l] = s →
    s.isPeer l.key = false →
    let x := s.mem.readNum l.key 16
    let target := x % 2 ^ 32
    let n := (s.thr.g b).toNat % 2 ^ 32
    let count := (x / 2 ^ 32 + n) % 2 ^ 32
    let gen := x / 2 ^ 64 % 2 ^ 32
    let count' := if target = 0 ∨ n = 0 then count else count % target
    let gen' := if target = 0 ∨ n = 0 then gen else (gen + count / target) % 2 ^ 32
    (s.begun .arrv 0 (s.thr.g a) 16 = none → s.ready s.thr true [l] = .ok → ∃ t, exec (.arw d a b) s = .next t ∧ StoreFrame s t ∧
      RegWrite s.thr t.thr d (BitVec.ofNat 64 gen') ∧
      t.mem.readNum l.key 16 = target + count' * 2 ^ 32 + gen' * 2 ^ 64 + x / 2 ^ 96 * 2 ^ 96 ∧
      (∀ k, (k < l.key ∨ l.key + 16 ≤ k) → t.mem.read k = s.mem.read k)) ∧
    (s.begun .rdc 0 (s.thr.g a) 16 = none → s.ready s.thr false [l] = .ok →
      ((gen + 2 ^ 32 - n) % 2 ^ 32 < 2 ^ 31 → ∃ t, exec (.await d a b) s = .next t ∧
        t = { s.like t with thr := t.thr } ∧ Kept s t ∧
        RegWrite s.thr t.thr d (BitVec.ofNat 64 (gen + x / 2 ^ 99 % 2 * 2 ^ 32 + x / 2 ^ 100 % 2 * 2 ^ 33))) ∧
      (2 ^ 31 ≤ (gen + 2 ^ 32 - n) % 2 ^ 32 → ∃ t, exec (.await d a b) s = .next t ∧
        t = { s.like t with thr := t.thr } ∧ Kept s t ∧ t.thr.state = .parked ∧ t.thr.parkc = 2 ∧ t.thr.parkva = s.thr.g a ∧
        t.thr.pc = s.thr.groupStart ∧ t.thr.regs = s.thr.regs)))

/-- R69, R221 to R223: with different registers PROP of the cell's generation decides an OPEN cell for the proposer (won) and
otherwise returns the decision (lost); CRD returns a decision, or says that there is none, or parks with CRD.w; another
generation is stale, a retired cell says so. A malformed cell traps with class DATA, cause 3. Only a winning PROP changes
memory. (PROP not under way at a peer.) R224: CRCY of the cell's generation opens the next one with value and winner 0, or
retires the cell at generation 0xFFFF; of another generation it is stale, of a retired cell it says so, and both leave
memory. Whether a peer's stale result leaves a copy is the model's reading (log entry 102). -/
def Obligations.CrustCellsAreDecidedOnce : Prop :=
  (∀ (s : State) (d a b : BitVec 6) (l : Loc), d ≠ b →
    s.thr.Fit { view := true, scope := true } { g := [d, a, b] } → s.Settled → s.NoneWaits → s.waiting = [] →
    let w := s.who s.thr s.thr.view
    l.n = 16 → l.key + 16 ≤ 2 ^ 62 → s.isPeer l.key = false →
    let c := s.mem.readNum l.key 16
    let value := c % 2 ^ 64
    let cgen := c / 2 ^ 64 % 2 ^ 16
    let st := c / 2 ^ 80 % 4
    let win := c / 2 ^ 82 % 2 ^ 21
    let g := (s.thr.g b).toNat % 2 ^ 16
    let me := s.thr.cur.toNat / 2 ^ 11
    let status (w st gen : Nat) : Word := BitVec.ofNat 64 (w * 2 ^ 18 + st * 2 ^ 16 + gen)
    let bad : Trap := { cls := .data, cause := 3, va := s.thr.g a }
    let R (o : Out) (v : Nat) (x : Word) (mem : Memory → Prop) : Prop := ∃ t, o = .next t ∧ StoreFrame s t ∧
      t.thr = { s.thr.past with regs := t.thr.regs } ∧ (d ≠ 0 → t.thr.g d = BitVec.ofNat 64 v) ∧ (b ≠ 0 → t.thr.g b = x) ∧
      (∀ n, n ≠ d → n ≠ b → t.thr.g n = s.thr.g n) ∧ mem t.mem
    let kept (m : Memory) : Prop := m = s.mem
    let decided (m : Memory) : Prop :=
      m.readNum l.key 16 = (s.thr.g d).toNat + g * 2 ^ 64 + 2 ^ 80 + me * 2 ^ 82 ∧
      ∀ k, (k < l.key ∨ l.key + 16 ≤ k) → m.read k = s.mem.read k
    (s.begun .cell 0 (s.thr.g a) 16 = none → s.access w .prop (s.thr.g a) 16 16 = .ok [l] → s.ready s.thr true [l] = .ok →
      (cellBad c = true → TrapsAt s (exec (.prop d a b) s) bad) ∧
      (cellBad c = false →
        (st = 2 → R (exec (.prop d a b) s) 0 (status 0 3 0xFFFF) kept) ∧
        (st ≠ 2 → g ≠ cgen →
          R (exec (.prop d a b) s) (if st = 0 then 0 else value) (status (if st = 0 then 0 else win) 2 cgen) kept) ∧
        (st = 0 → g = cgen → R (exec (.prop d a b) s) (s.thr.g d).toNat (status me 0 g) decided) ∧
        (st = 1 → g = cgen → R (exec (.prop d a b) s) value (status win 1 g) kept))) ∧
    (∀ wait : Bool, s.begun .cell (1 + if wait then 4 else 0) (s.thr.g a) 16 = none → s.l1Cell? w (s.thr.g a) g = none →
      s.access w .crd (s.thr.g a) 16 16 = .ok [l] → s.ready s.thr false [l] = .ok → s.cellCopy? l.key g = none →
      (cellBad c = true → TrapsAt s (exec (.crd d a b wait) s) bad) ∧
      (cellBad c = false →
        (st = 2 → R (exec (.crd d a b wait) s) 0 (status 0 3 0xFFFF) kept) ∧
        (st ≠ 2 → g ≠ cgen →
          R (exec (.crd d a b wait) s) (if st = 0 then 0 else value) (status (if st = 0 then 0 else win) 2 cgen) kept) ∧
        (st = 1 → g = cgen → R (exec (.crd d a b wait) s) value (status win 0 g) kept) ∧
        (st = 0 → g = cgen → wait = false → R (exec (.crd d a b wait) s) 0 (status 0 1 g) kept) ∧
        (st = 0 → g = cgen → wait = true → ∃ t, exec (.crd d a b wait) s = .next t ∧
          t = { s.like t with thr := t.thr } ∧ Kept s t ∧ t.thr.state = .parked ∧ t.thr.parkc = 4 ∧ t.thr.parkva = s.thr.g a ∧
          t.thr.pc = s.thr.groupStart ∧ t.thr.regs = s.thr.regs)))) ∧
  (∀ (s : State) (a b : BitVec 6) (l : Loc),
    s.thr.Fit { view := true, scope := true } { g := [a, b] } → s.Settled → s.NoneWaits → s.waiting = [] →
    s.begun .cell 2 (s.thr.g a) 16 = none → s.access (s.who s.thr s.thr.view) .crcy (s.thr.g a) 16 16 = .ok [l] → s.ready s.thr true [l] = .ok →
    l.n = 16 → l.key + 16 ≤ 2 ^ 62 → s.isPeer l.key = false →
    let c := s.mem.readNum l.key 16
    let cgen := c / 2 ^ 64 % 2 ^ 16
    let st := c / 2 ^ 80 % 4
    let g := (s.thr.g b).toNat % 2 ^ 16
    let R (x : Nat) (mem : Memory → Prop) : Prop := ∃ t, exec (.crcy a b) s = .next t ∧ StoreFrame s t ∧
      RegWrite s.thr t.thr b (BitVec.ofNat 64 x) ∧ mem t.mem
    (cellBad c = true → TrapsAt s (exec (.crcy a b) s) { cls := .data, cause := 3, va := s.thr.g a }) ∧
    (cellBad c = false →
      (st = 2 → R (3 * 2 ^ 16 + 0xFFFF) (fun m => m = s.mem)) ∧
      (st ≠ 2 → g ≠ cgen → R (2 * 2 ^ 16 + cgen) (fun m => m = s.mem)) ∧
      (st ≠ 2 → g = cgen → R (g + 1) (fun m =>
        m.readNum l.key 16 = (g + 1) * 2 ^ 64 + (if g + 1 = 0xFFFF then 2 * 2 ^ 80 else 0) ∧
        ∀ k, (k < l.key ∨ l.key + 16 ≤ k) → m.read k = s.mem.read k))))

/-- R225, R226: POS gives header values; IDX gives the place of the flat index in level k, its extent, its instance, or the
flat index itself, and traps with class ILL, cause 5, for a level above NLEV. R30, R31, R227: MIGR to the current tile or
tower goes on; to a position that cannot be named it traps with class ADDR, cause 5; to another place of this device the
thread leaves its core TRAVELLING, its header and its dirty lines written back and no other byte of memory changed, and goes
on after MIGR. (Said of a thread without claims, and of a position on this device.) TRVA of a MIGR that traps, and towers of
another device, are the model's reading (log entries 23 and 32). -/
def Obligations.PositionIndexAndMigration : Prop :=
  (∀ (s : State) (d : BitVec 6), s.thr.Fit {} { g := [d] } →
    Writes s (exec (.pos d .anchor) s) d (s.thr.anchor.setWidth 64) ∧
    Writes s (exec (.pos d .cur) s) d (s.thr.cur.setWidth 64) ∧
    Writes s (exec (.pos d .space) s) d (s.thr.space.setWidth 64) ∧
    Writes s (exec (.pos d .launch) s) d (s.thr.launch.setWidth 64) ∧
    Writes s (exec (.idx d .flat) s) d (s.thr.index.setWidth 64) ∧
    ∀ l, s.launch? s.thr.launch = some l → ∀ k : BitVec 3,
      let x := s.thr.index.toNat
      let ext (j : Nat) : Nat := bits l.record.toNat (1024 + 64 * j + 31) (1024 + 64 * j)
      let below (j : Nat) : Nat := ((List.range j).map ext).prod
      let T (o : Out) : Prop := Traps s o { cls := .ill, cause := 5, detail := s.thr.group.len, va := s.thr.pc }
      (k.toNat ≤ bits l.record.toNat 330 328 →
        Writes s (exec (.idx d (.inn k)) s) d (BitVec.ofNat 64 (x / below k.toNat % ext k.toNat)) ∧
        Writes s (exec (.idx d (.ext k)) s) d (BitVec.ofNat 64 (ext k.toNat)) ∧
        Writes s (exec (.idx d (.inst k)) s) d (BitVec.ofNat 64 (x / below (k.toNat + 1)))) ∧
      (bits l.record.toNat 330 328 < k.toNat →
        T (exec (.idx d (.inn k)) s) ∧ T (exec (.idx d (.ext k)) s) ∧ T (exec (.idx d (.inst k)) s))) ∧
  (∀ (s : State) (a : BitVec 6) (tower : Bool), s.thr.Fit {} { g := [a] } → s.Settled → s.thr.claims = [] →
    let p : Pos := (s.thr.g a).setWidth 32
    let near : Bool := sameInstance (if tower then .tower else .tile) p s.thr.cur
    (s.destOk s.thr p = some false → Traps s (exec (.migr a tower) s) { cls := .addr, cause := 5 }) ∧
    (s.destOk s.thr p = some true → near = true → Becomes s (exec (.migr a tower) s) s.thr) ∧
    (∀ s' f, s.destOk s.thr p = some true → near = false → posDev p = s.dev → s.matrixBusy s.thr = false →
      (∀ x ∈ s.thr.ctxBytes s.thr.dirtyLines, s.ctxReady s.thr true x = .ok) →
      (s.took s.thr true (s.ctxLocs s.thr (s.thr.ctxBytes s.thr.dirtyLines)) true).writeLines s.thr s.thr.dirtyLines = (s', []) → s'.headerPlace s.thr = some f →
      ∃ t, exec (.migr a tower) s = .next t ∧ t.thr.state = .travelling ∧ t.thr.pc = s.thr.pc + 4 ∧ t.thr.dest = p ∧
        t.thr.held = false ∧ t.thr.lines = [] ∧ t.thr.anchor = s.thr.anchor ∧ t.thr.cur = s.thr.cur ∧
        bits (t.mem.readNum f 256) 63 0 = (s.thr.pc + 4).toNat ∧ bits (t.mem.readNum f 256) 66 64 = 6 ∧
        (∀ k, (k < f ∨ f + 256 ≤ k) → t.mem.read k = s'.mem.read k) ∧ t.threads = s.threads))

/-! ### Vector registers (spec R231 to R242) -/

/-- R231, R235: element-wise sums, differences, products, fused products and absolute values of the active elements. Integers
wrap, or clamp under SAT, and raise nothing; floating-point elements round once. Elements that are not active stay under
`.und`. R236: logic, shifts by the low bits of the other element, minima and maxima. -/
def Obligations.VectorWordsWriteActiveElements : Prop :=
  (∀ (s : State) (d a b : BitVec 6) (k : BitVec 3) (p : Bool), s.thr.Fit { mods := true } { v := [d, a, b] ++ maskNames k } →
    let ty := s.thr.ety
    let n := ty.size
    let m := s.thr.rmode .rne
    let lo : Int := if isSigned ty then -2 ^ (8 * n - 1) else 0
    let hi : Int := if isSigned ty then 2 ^ (8 * n - 1) - 1 else 2 ^ (8 * n) - 1
    let out (x : Int) : Nat := ((if s.thr.ovf = .sat then max lo (min hi x) else x) % 2 ^ (8 * n)).toNat
    let int (r : BitVec 6) (i : Nat) : Int :=
      if isSigned ty then signed (8 * n) (s.thr.element r n i) else s.thr.element r n i
    let E (o : Out) (ff : Fp → Fp → Fp → Fp × Flags) (fi : Int → Int → Int → Int) : Prop :=
      VectorWrites s o d n ty.vlmax p (s.thr.active k) (fun i =>
        match floatOf ty with
        | some f => f.finish m s.thr.ovf
            (ff (f.decode (s.thr.element a n i)) (f.decode (s.thr.element b n i)) (f.decode (s.thr.element d n i)))
        | none => (out (fi (int a i) (int b i) (int d i)), 0))
    E (exec (.vadd d a b k p) s) (fun x y _ => x.add m y) (fun x y _ => x + y) ∧
    E (exec (.vsub d a b k p) s) (fun x y _ => x.add m y.negate) (fun x y _ => x - y) ∧
    E (exec (.vmul d a b k p) s) (fun x y _ => x.mul y) (fun x y _ => x * y) ∧
    E (exec (.vfma d a b k p) s) (fun x y z => x.fma m y z) (fun x y z => x * y + z) ∧
    VectorWrites s (exec (.vabs d a k p) s) d n ty.vlmax p (s.thr.active k) (fun i =>
      match floatOf ty with
      | some _ => (s.thr.element a n i % 2 ^ (8 * n - 1), 0)
      | none => (if isSigned ty then out (int a i).natAbs else s.thr.element a n i, 0))) ∧
  (∀ (s : State) (d a b : BitVec 6) (k : BitVec 3) (p : Bool), s.thr.Fit {} { v := [d, a, b] ++ maskNames k } →
    let ty := s.thr.ety
    let n := ty.size
    let w := 8 * n
    let E (o : Out) (f : Nat → Nat → Nat × Flags) : Prop :=
      VectorWrites s o d n ty.vlmax p (s.thr.active k) (fun i => f (s.thr.element a n i) (s.thr.element b n i))
    let int (x : Nat) : Int := if isSigned ty then signed w x else x
    let plain (f : Nat → Nat → Nat) (x y : Nat) : Nat × Flags := (f x y, 0)
    E (exec (.vand d a b k p) s) (plain fun x y => x &&& y) ∧
    E (exec (.vor d a b k p) s) (plain fun x y => x ||| y) ∧
    E (exec (.vxor d a b k p) s) (plain fun x y => x ^^^ y) ∧
    E (exec (.vshl d a b k p) s) (plain fun x y => x * 2 ^ (y % w)) ∧
    E (exec (.vshr d a b k p) s) (plain fun x y => x / 2 ^ (y % w)) ∧
    E (exec (.vsar d a b k p) s) (plain fun x y => (signed w x / 2 ^ (y % w) % 2 ^ w).toNat) ∧
    E (exec (.vmin d a b k p) s) (fun x y => match floatOf ty with
      | some f => f.select false x y
      | none => (if int x < int y then x else y, 0)) ∧
    E (exec (.vmax d a b k p) s) (fun x y => match floatOf ty with
      | some f => f.select true x y
      | none => (if int x < int y then y else x, 0)))

/-- R118, R236: VRCP, VRSQ and VEXP2 give 12 significand bits of FP32 elements; of another type they trap with class ILL,
cause 5. R239, R112, R113, R231: VCVT converts each active element to the other type: exactly where it widens, with one
rounding where it narrows, to an integer by R109; equal types copy; with error feedback the blocks of active FP32 elements
are narrowed in order. More elements than the other type holds trap. How 2^x is computed before it is rounded, and a
conversion between two float formats of one width, are the model's reading (log entries 18 and 30). -/
def Obligations.VectorApproximationsAndConversions : Prop :=
  (∀ (s : State) (d a : BitVec 6) (k : BitVec 3) (p : Bool), s.thr.Fit { mods := true } { v := [d, a] ++ maskNames k } →
    let E (o : Out) (f : Fp → Fp × Flags) : Prop :=
      (s.thr.ety = .f32 → VectorWrites s o d 4 64 p (s.thr.active k) (fun i => approx (f (FFmt.f32.decode (s.thr.element a 4 i))))) ∧
      (s.thr.ety ≠ .f32 → Traps s o { cls := .ill, cause := 5, detail := s.thr.group.len, va := s.thr.pc })
    E (exec (.vrcp d a k p) s) Fp.recip ∧ E (exec (.vrsq d a k p) s) Fp.rsqrt ∧ E (exec (.vexp2 d a k p) s) Fp.exp2) ∧
  (∀ (s : State) (d a : BitVec 6) (u : ETy) (k : BitVec 3) (p : Bool), s.thr.Fit { mods := true } { v := [d, a] ++ maskNames k } →
    let ty := s.thr.ety
    let x (i : Nat) : Nat := s.thr.element a ty.size i
    let m := s.thr.rmode .rne
    let int (v : Nat) : Int := if isSigned ty then signed (8 * ty.size) v else v
    (s.thr.vl ≤ u.vlmax → s.thr.vl ≤ ty.vlmax →
      VectorWrites s (exec (.vcvt d a u k p .none) s) d u.size u.vlmax p (s.thr.active k) (fun i =>
        if ty = u then (x i, 0) else match floatOf ty, floatOf u with
          | some f, some g => if widens f g then f.convert g .rne .dflt (x i) else f.convert g m s.thr.ovf (x i)
          | some f, none => let (v, fl) := (f.decode (x i)).toInt m (isSigned u) (8 * u.size); ((v % 2 ^ (8 * u.size)).toNat, fl)
          | none, some g => g.rnd m s.thr.ovf (Fp.ofInt (int (x i)))
          | none, none => (if u.size < ty.size then intOut u s.thr.ovf (int (x i)) else (int (x i) % 2 ^ (8 * u.size)).toNat, 0))) ∧
    (u.vlmax < s.thr.vl → ∀ ef,
      Traps s (exec (.vcvt d a u k p ef) s) { cls := .ill, cause := 5, detail := s.thr.group.len, va := s.thr.pc }) ∧
    (∀ ef g, ef ≠ .none → ty = .f32 → floatOf u = some g → u ≠ .f32 → s.thr.vl ≤ 64 →
      let ys := (efBlocks g s.thr.ovf (feedbackLen ef) s.thr.vl (s.thr.active k) x).1
      ∃ (t : State) (fl : Flags), exec (.vcvt d a u k p ef) s = .next t ∧
        t = { s with thr := t.thr, freeCount := t.freeCount } ∧
        t.thr = { s.thr.past with regs := t.thr.regs, fpst := s.thr.fpst ||| fl.setWidth 64 } ∧
        (∀ i y, ys.find? (fun q => q.1 == i) = some (i, y) → i < u.vlmax → t.thr.element d u.size i = y % 2 ^ (8 * u.size)) ∧
        ∀ q, (q < s.thr.vOff d ∨ s.thr.vOff d + 256 ≤ q) → t.thr.regs.read q = s.thr.regs.read q) ∧
    (∀ ef, ef ≠ .none → ty ≠ .f32 →
      Traps s (exec (.vcvt d a u k p ef) s) { cls := .ill, cause := 5, detail := s.thr.group.len, va := s.thr.pc }))

/-- R43, R237, R238: the compares write one bit for each active element to the mask register and raise the compare's flags;
VSEL takes each element below VL from a where its mask bit is set and from b otherwise, and traps without a mask. R240, R241:
VRED of integers puts the wrapped sum, the least or the greatest of element 0 of b and the active elements of a into element
0, and in general what the tree of R240 gives; VDOT adds the products of a lane's source elements to the lane, wrapped or
clamped for integers, rounded once otherwise; a NaN product gives the default NaN with NV. -/
def Obligations.VectorComparesReductionsAndDots : Prop :=
  (∀ (s : State) (d a b : BitVec 6) (k : BitVec 3) (p : Bool), s.thr.Fit {} { v := [d, a, b] ++ maskNames k } →
    let ty := s.thr.ety
    let n := ty.size
    let int (x : Nat) : Int := if isSigned ty then signed (8 * n) x else x
    let C (o : Out) (ff : Fp → Fp → Bool × Flags) (fi : Int → Int → Bool) : Prop :=
      let r (i : Nat) : Bool × Flags := match floatOf ty with
        | some f => ff (f.decode (s.thr.element a n i)) (f.decode (s.thr.element b n i))
        | none => (fi (int (s.thr.element a n i)) (int (s.thr.element b n i)), 0)
      ∃ (t : State) (fl : Flags), o = .next t ∧ t = { s with thr := t.thr, freeCount := t.freeCount } ∧
        t.thr = { s.thr.past with regs := t.thr.regs, fpst := s.thr.fpst ||| fl.setWidth 64 } ∧
        (∀ j, fl.getLsbD j = true ↔ ∃ i < ty.vlmax, s.thr.active k i = true ∧ (r i).2.getLsbD j = true) ∧
        (∀ i < ty.vlmax, s.thr.active k i = true → t.thr.maskBitOf d i = (r i).1) ∧
        (∀ i < ty.vlmax, s.thr.active k i = false → p = false → t.thr.maskBitOf d i = s.thr.maskBitOf d i) ∧
        ∀ x, (x < s.thr.vOff d ∨ s.thr.vOff d + ty.vlmax / 8 ≤ x) → t.thr.regs.read x = s.thr.regs.read x
    C (exec (.vcmpeq d a b k p) s) fpEq (fun x y => decide (x = y)) ∧
    C (exec (.vcmplt d a b k p) s) fpLt (fun x y => decide (x < y)) ∧
    C (exec (.vcmple d a b k p) s) fpLe (fun x y => decide (x ≤ y)) ∧
    (k ≠ 0 → VectorWrites s (exec (.vsel d a b k p) s) d n ty.vlmax p (fun i => decide (i < s.thr.vl))
      (fun i => (if s.thr.maskBitOf (k.setWidth 6) i then s.thr.element a n i else s.thr.element b n i, 0))) ∧
    (k = 0 → Traps s (exec (.vsel d a b k p) s) { cls := .ill, cause := 5, detail := s.thr.group.len, va := s.thr.pc })) ∧
  (∀ (s : State) (d a b : BitVec 6) (k : BitVec 3) (p : Bool), s.thr.Fit { mods := true } { v := [d, a, b] ++ maskNames k } →
    let ty := s.thr.ety
    let n := ty.size
    let int (x : Nat) : Int := if isSigned ty then signed (8 * n) x else x
    let on := (List.range ty.vlmax).filter (s.thr.active k)
    let b0 := int (s.thr.element b n 0)
    let xs := on.map (fun i => int (s.thr.element a n i))
    let V (o : Out) (v : Int) : Prop := VectorWrites s o d n ty.vlmax p (fun i => i == 0) (fun _ => ((v % 2 ^ (8 * n)).toNat, 0))
    (floatOf ty = none →
      (s.thr.ovf ≠ .sat → V (exec (.vred d a b k p .add) s) (b0 + xs.sum)) ∧
      V (exec (.vred d a b k p .min) s) (xs.foldl min b0) ∧
      V (exec (.vred d a b k p .max) s) (xs.foldl max b0)) ∧
    (∀ op,
      let ys := (List.range ty.vlmax).map (fun i => if s.thr.active k i then some (s.thr.element a n i) else none)
      let y := combTree (redOp s.thr op) 8 ys
      let r := comb (redOp s.thr op) (some (s.thr.element b n 0)) y.1
      VectorWrites s (exec (.vred d a b k p op) s) d n ty.vlmax p (fun i => i == 0)
        (fun _ => (r.1.getD 0, y.2 ||| r.2))) ∧
    (∀ r, (ty = .bf16 ∨ ty = .f16) ∧ r = 2 ∨ (ty = .e4m3 ∨ ty = .e5m2) ∧ r = 4 → s.thr.vl % r = 0 →
      VectorWrites s (exec (.vdot d a b k p) s) d 4 64 p (fun j => decide (j < s.thr.vl / r) && s.thr.selected k j)
        (dotLane s.thr a b d r)) ∧
    (∀ g r j q, floatOf ty = some g → r * j ≤ q → q < r * j + r →
      ((g.decode (s.thr.elem a n q)).mul (g.decode (s.thr.elem b n q))).1.isNan = true →
      (dotLane s.thr a b d r j).1 = 0x7FC00000 ∧ (dotLane s.thr a b d r j).2 &&& fNV = fNV) ∧
    (∀ r, (ty = .s16 ∨ ty = .z16) ∧ r = 2 ∨ (ty = .s8 ∨ ty = .z8) ∧ r = 4 → s.thr.vl % r = 0 → s.thr.vl ≤ ty.vlmax →
      VectorWrites s (exec (.vdot d a b k p) s) d 4 64 p (fun j => decide (j < s.thr.vl / r) && s.thr.selected k j)
        (fun j =>
          let x : Int := signed 32 (s.thr.element d 4 j) + ((List.range r).map (fun i =>
            int (s.thr.element a n (r * j + i)) * int (s.thr.element b n (r * j + i)))).sum
          (((if s.thr.ovf = OvfMode.sat then max (-2 ^ 31) (min (2 ^ 31 - 1) x) else x) % 2 ^ 32).toNat, 0))) ∧
    ((ty = .f32 ∨ ty = .s32 ∨ ty = .z32) →
      Traps s (exec (.vdot d a b k p) s) { cls := .ill, cause := 5, detail := s.thr.group.len, va := s.thr.pc }))

/-- R242, R34: the words that move elements; an element number outside the register reads as zero. R242, R234, R43: counting
mask bits, element numbers, one element to and from a scalar register, and VCFG, which sets ETYPE and VL, at most what the
type holds, and gives VL. -/
def Obligations.VectorMovesMasksAndConfiguration : Prop :=
  (∀ (s : State) (d a b n : BitVec 6) (k : BitVec 3) (p : Bool),
    let ty := s.thr.ety
    let z := ty.size
    let el (r : BitVec 6) (i : Nat) : Nat := if i < ty.vlmax then s.thr.element r z i else 0
    let M (o : Out) (f : Nat → Nat) : Prop := VectorWrites s o d z ty.vlmax p (s.thr.active k) (fun i => (f i, 0))
    (s.thr.Fit {} { g := [a], v := [d] ++ maskNames k } → M (exec (.vbcst d a k p) s) (fun _ => (s.thr.g a).toNat)) ∧
    (s.thr.Fit {} { v := [d, a] ++ maskNames k } →
      M (exec (.vbcstEl d a n k p) s) (fun _ => el a n.toNat) ∧
      M (exec (.vslideDn d a n k p) s) (fun i => el a (i + n.toNat)) ∧
      M (exec (.vslideUp d a n k p) s) (fun i => if i < n.toNat then 0 else el a (i - n.toNat))) ∧
    (s.thr.Fit {} { v := [d, a, b] ++ maskNames k } →
      M (exec (.vperm d a b k p) s) (fun i => el a (el b i)) ∧
      M (exec (.vtrnLo d a b k p) s) (fun i => if i % 2 = 0 then el a i else el b (i - 1)) ∧
      M (exec (.vtrnHi d a b k p) s) (fun i => if i % 2 = 0 then el a (i + 1) else el b i))) ∧
  (∀ (s : State) (d a b : BitVec 6) (k : BitVec 3) (p : Bool),
    let ty := s.thr.ety
    let z := ty.size
    let bitsSet (m : BitVec 6) (n : Nat) : Nat := ((List.range n).filter (s.thr.maskBitOf m)).length
    let T (o : Out) : Prop := Traps s o { cls := .ill, cause := 5, detail := s.thr.group.len, va := s.thr.pc }
    let M (o : Out) (f : Nat → Nat) : Prop := VectorWrites s o d z ty.vlmax p (s.thr.active k) (fun i => (f i, 0))
    (s.thr.Fit {} { v := [d, a] ++ maskNames k } →
      (floatOf ty = none → M (exec (.viota d a k p) s) (fun i => bitsSet a (min i s.thr.vl))) ∧
      (floatOf ty ≠ none → T (exec (.viota d a k p) s))) ∧
    (s.thr.Fit {} { v := [d] ++ maskNames k } →
      (floatOf ty = none → M (exec (.viotaIdx d k p) s) (fun i => i)) ∧
      (floatOf ty ≠ none → T (exec (.viotaIdx d k p) s))) ∧
    (s.thr.Fit {} { g := [d], v := [a] ++ maskNames k } →
      Writes s (exec (.vpopc d a k) s) d (BitVec.ofNat 64
        ((List.range (min ty.vlmax s.thr.vl)).filter (fun i => s.thr.selected k i && s.thr.maskBitOf a i)).length)) ∧
    (s.thr.Fit {} { g := [d, b], v := [a] } →
      let i := (s.thr.g b).toNat
      let x := s.thr.element a z i
      Writes s (exec (.vext d a b) s) d (if i < ty.vlmax then
        (if isSigned ty then BitVec.ofInt 64 (signed (8 * z) x) else BitVec.ofNat 64 x) else 0)) ∧
    (s.thr.Fit {} { g := [a, b], v := [d] } →
      let i := (s.thr.g b).toNat
      ∃ r, exec (.vins d a b) s = .next { s with thr := { s.thr.past with regs := r } } ∧
        ∀ x, r.read x = if i < ty.vlmax ∧ s.thr.vOff d + z * i ≤ x ∧ x < s.thr.vOff d + z * i + z then
          BitVec.ofNat 8 ((s.thr.g a).toNat / 256 ^ (x - (s.thr.vOff d + z * i))) else s.thr.regs.read x) ∧
    (s.thr.Fit {} { g := [d, a] } → ∀ u : ETy,
      let vl := min (s.thr.g a).toNat u.vlmax
      WritesAs s (exec (.vcfg d a u) s) { s.thr with vtype := BitVec.ofNat 64 (vl * 256 + u.code.toNat) } d (BitVec.ofNat 64 vl)))

/-! ### Vector and tensor memory, layout records, queues (spec R243 to R250, R269 to R273) -/

/-- R243 to R245: on plain pages the vector loads put the bytes of each active element, found at its own address, into its
element; G(a) + 256 × Sext(off) + size × i for VLD, G(a) + i × G(b) for VLDS, G(a) + the signed word i of b for VGTH. Where
an element's checks fail, the active elements below it are written, the others stay, and the trap names it: ELEMIDX in
TRINFO, its address in TRVA. What an L1 line serves asks no home; lines that hold bytes which other elements take past the L1
are forgotten first (`State.forgetPast`, R140, R245). VGTH with VL above 64 traps with class ILL, cause 5. -/
def Obligations.VectorLoadsFillActiveElements : Prop :=
  ∀ (s : State) (d a b o : BitVec 6) (k : BitVec 3) (p : Bool) (ls : List ElemLocs) (stop : Option Trap), s.Settled →
    let ty := s.thr.ety
    let n := ty.size
    let w := s.who s.thr s.thr.view
    let locs := ls.flatMap (fun e => e.locs)
    let at? (i : Nat) : Option ElemLocs := ls.find? (fun e => e.i == i)
    let r := s.forgetPast w locs
    let L (o : Out) (unit : Bool) (addr : Nat → Word) : Prop :=
      scan (fun va n => s.plainElem w .load va n (unit && (floatOf ty).isSome && decide (2 ≤ n)))
        (((upto 0 ty.vlmax).filter (s.thr.active k)).map
          (fun i => { i := i, at_ := [(addr i, n)] : ElemAcc })) = .go ls stop →
      r.ready r.thr false (locs.filter (fun l => !r.l1Serves w l)) = .ok → s.noteImages w.scsz locs = s → s.emptyLines locs = [] →
      match stop with
      | none => VectorReads s o d n ty.vlmax p (s.thr.active k) (fun i =>
          (match at? i with | some e => r.partValue w e.locs 0 | none => 0, 0))
      | some x =>
        (s.thr.active k x.elem = true ∧ ∀ i, (at? i).isSome = true ↔ i < x.elem ∧ i < ty.vlmax ∧ s.thr.active k i = true) ∧
        ∃ t, o = .next t ∧ t = { s.like t with thr := t.thr } ∧ Kept s t ∧ Filled s t ∧
          t.thr = ({ s.thr with regs := t.thr.regs } : Thread).atTrap s.clock x ∧
          (x.cls ≠ .brk → x.cls ≠ .trap → bits t.thr.trinfo.toNat 31 20 = x.elem % 4096) ∧
          (∀ i < ty.vlmax, t.thr.element d n i = match at? i with
            | some e => r.partValue w e.locs 0 % 2 ^ (8 * n)
            | none => s.thr.element d n i) ∧
          ∀ q, (q < s.thr.vOff d ∨ s.thr.vOff d + n * ty.vlmax ≤ q) → t.thr.regs.read q = s.thr.regs.read q
    let at_ (i : Nat) : Word := s.thr.g a + BitVec.ofInt 64 (o.toInt * 256) + BitVec.ofNat 64 (n * i)
    (s.thr.Fit { view := true } { g := [a], v := d :: maskNames k } → (s.pageFmt w .load (at_ 0) 1 1).1 = 0 →
      L (exec (.vld d a o k p) s) true at_) ∧
    (s.thr.Fit { view := true } { g := [a, b], v := d :: maskNames k } →
      L (exec (.vlds d a b k p) s) false (fun i => s.thr.g a + s.thr.g b * BitVec.ofNat 64 i)) ∧
    (s.thr.Fit { view := true } { g := [a], v := [d, b] ++ maskNames k } →
      (s.thr.vl ≤ 64 → L (exec (.vgth d a b k p) s) false (fun i =>
        s.thr.g a + (BitVec.ofNat 32 (s.thr.elem b 4 i)).signExtend 64)) ∧
      (64 < s.thr.vl → Traps s (exec (.vgth d a b k p) s) { cls := .ill, cause := 5, detail := s.thr.group.len, va := s.thr.pc }))

/-- R243 to R245: the vector stores put each active element's bytes at its own address, in element order, and change no other
byte; where an element's checks fail, the active elements below it are stored and the trap names it: ELEMIDX in TRINFO, its
address in TRVA, PC at the first word of the group. -/
def Obligations.VectorStoresPutActiveElements : Prop :=
  ∀ (s : State) (v a b o : BitVec 6) (k : BitVec 3) (p : Bool) (ls : List ElemLocs) (stop : Option Trap), s.Settled →
    let ty := s.thr.ety
    let n := ty.size
    let w := s.who s.thr s.thr.view
    let locs := ls.flatMap (fun e => e.locs)
    let S (o : Out) (addr : Nat → Word) : Prop :=
      scan (s.plainElem w .store) (((upto 0 ty.vlmax).filter (s.thr.active k)).map
        (fun i => { i := i, at_ := [(addr i, n)] : ElemAcc })) = .go ls stop →
      s.ready s.thr true locs = .ok → s.noteImages w.scsz locs = s → (∀ e ∈ ls, ∃ l, e.locs = [l] ∧ l.n = n) →
      ∃ t, o = .next t ∧ StoreFrame s t ∧ Stored s t locs (ls.flatMap (fun e => leBytes n (s.thr.elem v n e.i))) ∧
        match stop with
        | none => t.thr = s.thr.past
        | some x => t.thr = s.thr.atTrap s.clock x ∧
            (x.cls ≠ .brk → x.cls ≠ .trap → bits t.thr.trinfo.toNat 31 20 = x.elem % 4096) ∧
            s.thr.active k x.elem = true ∧
            ∀ i, (ls.any (fun e => e.i == i)) = true ↔ i < x.elem ∧ i < ty.vlmax ∧ s.thr.active k i = true
    (s.thr.Fit { view := true } { g := [a], v := v :: maskNames k } →
      S (exec (.vst v a o k p) s) (fun i => s.thr.g a + BitVec.ofInt 64 (o.toInt * 256) + BitVec.ofNat 64 (n * i))) ∧
    (s.thr.Fit { view := true } { g := [a, b], v := v :: maskNames k } →
      S (exec (.vsts v a b k p) s) (fun i => s.thr.g a + s.thr.g b * BitVec.ofNat 64 i)) ∧
    (s.thr.Fit { view := true } { g := [a], v := [v, b] ++ maskNames k } →
      (s.thr.vl ≤ 64 → S (exec (.vsct v a b k p) s) (fun i =>
        s.thr.g a + (BitVec.ofNat 32 (s.thr.elem b 4 i)).signExtend 64)) ∧
      (64 < s.thr.vl → Traps s (exec (.vsct v a b k p) s) { cls := .ill, cause := 5, detail := s.thr.group.len, va := s.thr.pc }))

/-- R247 to R249: TLD reads every element of an 8 by VLMAX tile through a layout record, clipped ones as zero, and then
writes the tile register; TST stores the elements that are not clipped, in order. A free index or one dimension traps with
class ENGINE, cause 3, row 1; a record of another type with row 2. FPST after a TST that traps, a TST to TS8, and the scale
of a block without a finite element are the model's (log entries 37, 94 and 95). -/
def Obligations.TileAccessesGoThroughTheirRecord : Prop :=
  ∀ (s : State) (d : BitVec 3) (a : BitVec 6) (l : BitVec 5) (r : BitVec 1024),
    s.thr.Fit {} { v := [a], t := true } →
    let ty := s.thr.ety
    let n := ty.size
    let w := recWho (s.issuer s.thr) s.thr.cur r
    let psize := s.recPage s.thr.key s.thr.space (posTower s.thr.cur) r
    ((s.layout? s.thr.space l.toNat = none ∨ ∃ q, s.layout? s.thr.space l.toNat = some q ∧ recNdim q < 2) →
      Traps s (exec (.tld d a l) s) { cls := .engine, cause := 3, detail := 1 } ∧
      Traps s (exec (.tst d a l) s) { cls := .engine, cause := 3, detail := 1 }) ∧
    (s.layout? s.thr.space l.toNat = some r → 2 ≤ recNdim r → recFmt r ≠ ty.code.toNat → fmtBlock (recFmt r) = false →
      Traps s (exec (.tld d a l) s) { cls := .engine, cause := 3, detail := 2 } ∧
      Traps s (exec (.tst d a l) s) { cls := .engine, cause := 3, detail := 2 }) ∧
    (s.layout? s.thr.space l.toNat = some r → 2 ≤ recNdim r → recFmt r = ty.code.toNat → s.Settled →
      (∀ xs : List (Nat × Elem × List Loc),
        let locs := xs.flatMap (fun x => x.2.2)
        Res.map (fun (q, e) => ((s.elemPlaces w e).bind (fun ls => .ok (q, e, ls))).atElem q)
          (s.thr.tileElems r psize a) = .ok xs →
        Res.all (fun (q, _, ls) => (Res.all s.darkCheck ls).atElem q) xs = .ok () →
        Res.all (fun (q, _, ls) => (Res.all (s.dataCheck .load) ls).atElem q) xs = .ok () →
        s.ready s.thr false locs (recStream r) = .ok → s.noteImages w.scsz locs = s → s.emptyLines locs = [] →
        ∃ t, exec (.tld d a l) s = .next t ∧ t = { s.like t with thr := t.thr } ∧ Kept s t ∧ Filled s t ∧
          t.thr = { s.thr.past with regs := t.thr.regs, fpst := t.thr.fpst } ∧
          (∀ q < 8 * ty.vlmax, t.thr.regs.readNum (s.thr.tOff d + n * q) n =
            match xs.find? (fun x => x.1 == q) with
            | some (_, e, ls) => ((s.forgetPast w locs).tileValue w s.thr r e ls).1 % 2 ^ (8 * n)
            | none => 0) ∧
          ∀ x, (x < s.thr.tOff d ∨ s.thr.tOff d + 2048 ≤ x) → t.thr.regs.read x = s.thr.regs.read x) ∧
      (∀ xs : List (TileStore × List Loc),
        let locs := xs.flatMap (fun x => x.2)
        s.tileScan w (s.thr.tileStores r psize d a) = .ok (xs, none) → s.ready s.thr true locs = .ok →
        s.noteImages w.scsz locs = s → (∀ x ∈ xs, (x.2.map (fun l => l.n)).sum = x.1.n) →
        ∃ t, exec (.tst d a l) s = .next t ∧ StoreFrame s t ∧
          t.thr = { s.thr.past with fpst := t.thr.fpst } ∧
          Stored s t locs (xs.flatMap (fun x => leBytes x.1.n x.1.code))))

/-- R83, R250: LREG registers the record that its 128 bytes hold and pins its pages, or traps as the first check that fails
says and registers nothing; LFREE frees the index with its pins, a free one traps with class ENGINE, cause 3; LQRY gives the
record with bit 1,024 set, or zeros. That LREG checks each unit of the span and not bits 10:0 of VPOS, and that LFREE says no
row, are the model's reading (log entries 44, 82 and 92). -/
def Obligations.LayoutRecordsAreRegisteredAndFreed : Prop :=
  (∀ (s : State) (a : BitVec 6) (l : BitVec 5) (ls : List Loc) (x : SpaceSt), s.thr.Fit {} { g := [a] } → s.Settled →
    let w := s.who s.thr .none
    s.access w .load (s.thr.g a) 128 128 = .ok ls → s.Usable false w ls → s.space? s.thr.space = some x →
    let r := BitVec.ofNat 1024 (ofBytes (s.readLocs ls))
    let b := s.took s.thr false ls
    (∀ ps, b.registerPins s.thr l.toNat r = .ok ps → ∃ t, exec (.lreg a l) s = .next t ∧
      t = { s.like t with thr := s.thr.past, spaces := t.spaces, pins := ps ++ s.pins } ∧ Kept s t ∧ Filled s t ∧
      t.layout? s.thr.space l.toNat = some r ∧
      ∀ j, j ≠ l.toNat → t.layout? s.thr.space j = s.layout? s.thr.space j) ∧
    (∀ e, b.registerPins s.thr l.toNat r = .trap e → TrapsAt s (exec (.lreg a l) s) e)) ∧
  (∀ (s : State) (l : BitVec 5), s.thr.Fit {} {} → s.Settled →
    (s.layout? s.thr.space l.toNat = none → Traps s (exec (.lfree l) s) { cls := .engine, cause := 3 }) ∧
    ((s.layout? s.thr.space l.toNat).isSome = true → ∃ t, exec (.lfree l) s = .next t ∧
      t = { s with thr := s.thr.past, spaces := t.spaces, pins := t.pins } ∧
      t.layout? s.thr.space l.toNat = none ∧
      ∀ q, q ∈ t.pins ↔ q ∈ s.pins ∧ ¬ (q.space = s.thr.space ∧ q.owner = PinOwner.layout l.toNat))) ∧
  (∀ (s : State) (d : BitVec 6) (l : BitVec 5), s.thr.Fit {} { v := [d] } → s.Settled →
    Puts s (exec (.lqry d l) s) s.thr (s.thr.vOff d) (match s.layout? s.thr.space l.toNat with
      | some r => leBytes 256 (r.toNat + 2 ^ 1024)
      | none => leBytes 256 0))

/-- R87, R88, R271 to R273: QFENCE makes later commands of its queues wait for the commands that they hold now, an empty set
traps; QSEQ gives the counters; QWAIT of a ticket that is done gives DONE, of one that is not parks with PARKC 5, of one that
was never issued traps with class ENGINE, cause 6. -/
def Obligations.QueueWordsCountAndWait : Prop :=
  (∀ (s : State) (m : BitVec 5), s.thr.Fit {} {} →
    (m = 0 → Traps s (exec (.qfence m) s) { cls := .ill, cause := 5, detail := s.thr.group.len, va := s.thr.pc }) ∧
    (m ≠ 0 → ∃ t, exec (.qfence m) s = .next t ∧ t = { s with thr := s.thr.past, tiles := t.tiles } ∧
      (∀ i, i ≠ s.thr.tile → t.tile i = s.tile i) ∧
      (t.tile s.thr.tile).queues = (s.tile s.thr.tile).queues ∧
      ∀ q < 5, ∀ q' < 5, m.getLsbD q = true → m.getLsbD q' = true →
        (q', ((s.tile s.thr.tile).queue q').enq) ∈ (t.tile s.thr.tile).marksFor q)) ∧
  (∀ (s : State) (d : BitVec 6) (q : Queue), s.thr.Fit {} { g := [d] } →
    let x := (s.tile s.thr.tile).queue (queueNo q)
    Writes s (exec (.qseq d .enq q) s) d (BitVec.ofNat 64 x.enq) ∧
    Writes s (exec (.qseq d .done q) s) d (BitVec.ofNat 64 x.done)) ∧
  (∀ (s : State) (d a : BitVec 6) (q : Queue), s.thr.Fit {} { g := [d, a] } →
    let x := (s.tile s.thr.tile).queue (queueNo q)
    let k := (s.thr.g a).toNat
    (x.enq < k → Traps s (exec (.qwait d a q) s) { cls := .engine, cause := 6 }) ∧
    (k ≤ x.enq → k ≤ x.done → ∃ t, exec (.qwait d a q) s = .next t ∧ t = { s with thr := t.thr, cores := t.cores, forwards := t.forwards } ∧
      t.forwards.map (fun f => { f with firm := false }) = s.forwards.map (fun f => { f with firm := false }) ∧
      (∀ i, t.core i = { s.core i with l1 := (t.core i).l1 } ∧ ∀ l ∈ (t.core i).l1, l ∈ (s.core i).l1) ∧
      (s.thr.accs = [] → t.thr.fetchFrom = s.thr.fetchFrom) ∧ RegWrite { s.thr with fetchFrom := t.thr.fetchFrom } t.thr d (BitVec.ofNat 64 x.done)) ∧
    (k ≤ x.enq → x.done < k → ∃ t, exec (.qwait d a q) s = .next { s with thr := t } ∧ t.state = .parked ∧ t.parkc = 5 ∧
      t.pc = s.thr.groupStart ∧ t.regs = s.thr.regs))

/-! ### Matrix words and copies at issue (spec R254 to R273) -/

/-- R254, R256, R265 to R268: the words on slots. MCLAIM gives a free slot of the tile, cleared and IDLE, to the claim, with
its pages pinned; MFREE undoes it; MREAD reads a quarter row, or traps with class DATA where a granule of it is bad (R350);
MDRAIN stores the image; MFILL takes one that it accepts, and traps with class ENGINE, cause 3, otherwise; MSTAT reads
ACCSTAT; MMODE sets the two mode bits and gives the old ones. An unclaimed name traps with class ENGINE, cause 1. What MSTAT
reads of a running slot, and that every word binds its slot, are the model's reading (log entries 52 and 53). -/
def Obligations.SlotWordsActOnTheirSlot : Prop :=
  (∀ (s : State) (a : BitVec 6) (c : BitVec 2) (ls : List Loc) (n : Nat), s.thr.Fit {} { g := [a] } →
    let i := s.thr.tile
    (s.thr.claim? c ≠ none → Traps s (exec (.mclaim a c) s) { cls := .engine, cause := 1, detail := 1 }) ∧
    (s.thr.claim? c = none → s.areaCheck (s.who s.thr .none) (s.thr.g a).toNat = .ok ls → (s.tile i).freeSlot? = some n →
      ∃ t, exec (.mclaim a c) s = .next t ∧
        t = { s with
          thr := { s.thr.past with claims := { name := c, area := s.thr.g a, phys := some (i, n) } :: s.thr.claims }
          tiles := t.tiles
          pins := (pagesOfLocs ls).map (fun l => pinOf s.thr.space l (.claim s.thr.key c)) ++ s.pins } ∧
        (t.tile i).slot n = { accstat := 0x40000000, owner := some (s.thr.key, c) } ∧
        (∀ m, m ≠ n → (t.tile i).slot m = (s.tile i).slot m) ∧ ∀ j, j ≠ i → t.tile j = s.tile j)) ∧
  (∀ (s : State) (d a : BitVec 6) (c : BitVec 2) (q : Claim) (i n : Nat),
    s.thr.Fit {} {} → s.thr.claim? c = some q → q.phys = some (i, n) →
    let x := (s.tile i).slot n
    let busy := (s.tile i).slotBusy n
    let G (r : BitVec 6) : Prop := s.thr.hasG r = true
    let V (r : BitVec 6) : Prop := s.thr.hasV r = true
    (busy = false →
      (∃ t, exec (.mfree c) s = .next t ∧
        t = { s with
          thr := { s.thr.past with claims := s.thr.claims.filter (fun y => y.name != c) }
          tiles := t.tiles
          pins := t.pins } ∧
        (t.tile i).slot n = {} ∧ (∀ m, m ≠ n → (t.tile i).slot m = (s.tile i).slot m) ∧ (∀ j, j ≠ i → t.tile j = s.tile j) ∧
        ∀ p, p ∈ t.pins ↔ p ∈ s.pins ∧ p.owner ≠ .claim s.thr.key c ∧ p.owner ≠ .epilogue s.thr.key c) ∧
      (x.faulted = false → G a → V d → (s.thr.g a).toNat < 512 →
        let off := 1024 * ((s.thr.g a).toNat % 128) + 256 * ((s.thr.g a).toNat / 128)
        ((∀ k ∈ x.bad, k < off / 16 ∨ off / 16 + 16 ≤ k) →
          Puts s (exec (.mread d a c) s) s.thr (s.thr.vOff d) (x.data.readBytes off 256)) ∧
        ∀ k ∈ x.bad, off / 16 ≤ k → k < off / 16 + 16 → (∀ j ∈ x.bad, off / 16 ≤ j → k ≤ j) →
          Traps s (exec (.mread d a c) s) { cls := .data, cause := 1, va := q.area + BitVec.ofNat 64 (16 * k) }) ∧
      (x.faulted = false → G a → V d → 512 ≤ (s.thr.g a).toNat → Traps s (exec (.mread d a c) s) { cls := .engine, cause := 3 }) ∧
      (∀ ls, s.Settled → G a → s.access (s.who s.thr .none) .store (s.thr.g a) imageSize 256 = .ok ls →
        s.ready s.thr true ls = .ok → s.noteImages (s.who s.thr .none).scsz ls = s →
        ∃ t, exec (.mdrain a c) s = .next t ∧ StoreFrame s t ∧ t.thr = s.thr.past ∧
          Stored s t ls (ls.flatMap (fun l => x.imageBytes (l.va - (s.thr.g a).toNat) l.n))) ∧
      (∀ ls, s.Settled → G a → x.faulted = false → s.access (s.who s.thr .none) .load (s.thr.g a) imageSize 256 = .ok ls →
        s.Usable false (s.who s.thr .none) ls →
        (imageOk (s.readLocs ls) = true → ∃ t, exec (.mfill a c) s = .next t ∧ t = { s.like t with thr := s.thr.past } ∧
          KeptCores s t ∧ (∀ j, j ≠ i → t.tile j = { s.tile j with cells := (t.tile j).cells }) ∧
          t.tile i = { s.tile i with cells := (t.tile i).cells, slots := (t.tile i).slots } ∧
          (t.tile i).slot n = x.ofImage (s.readLocs ls) ∧ (∀ m, m ≠ n → (t.tile i).slot m = (s.tile i).slot m)) ∧
        (imageOk (s.readLocs ls) = false → TrapsAt s (exec (.mfill a c) s) { cls := .engine, cause := 3 }))) ∧
    (busy = true → G a → V d → exec (.mfree c) s = .next s ∧ exec (.mdrain a c) s = .next s ∧
      exec (.mread d a c) s = .next s ∧ exec (.mfill a c) s = .next s) ∧
    (G d → Writes s (exec (.mstat d c) s) d
      (if (s.tile i).isFaulted n = false ∧ busy = true then setAccState x.accstat 2 else x.accstat)) ∧
    (x.faulted = true → busy = false → G a → V d → Traps s (exec (.mread d a c) s) { cls := .engine, cause := 2 } ∧
      Traps s (exec (.mfill a c) s) { cls := .engine, cause := 2 })) ∧
  (∀ (s : State) (d a : BitVec 6) (c : BitVec 2), s.thr.Fit {} { g := [d, a], v := [d] } → s.thr.claim? c = none →
    let T (o : Out) : Prop := Traps s o { cls := .engine, cause := 1 }
    T (exec (.mfree c) s) ∧ T (exec (.mread d a c) s) ∧ T (exec (.mdrain a c) s) ∧ T (exec (.mfill a c) s) ∧
      T (exec (.mstat d c) s)) ∧
  (∀ (s : State) (d : BitVec 6) (order ftz : Bool), s.thr.Fit {} { g := [d] } →
    WritesAs s (exec (.mmode d order ftz) s) { s.thr with order := order, ftz16 := ftz } d
      (BitVec.ofNat 64 (2 * s.thr.order.toNat + s.thr.ftz16.toNat)))

/-- R85, R87, R151, R257 to R264, R270, R312: a matrix command whose checks pass enters q4 with the next ticket, which gd
receives; its records' pages are pinned for it. MLDW makes its format the shadow plane's, MSWAP swaps the two. While 28
commands that threads issued stand in q4 it holds the words back, however many follow-ons stand there (R270; that these may
then be more than 32 is log entry 98); a failed check traps and enters nothing. R85, R90, R269: a copy whose block passes the
checks enters its queue, with the two records as they stand, the arrival word's place and all its segments still to be
performed; a failed check traps, q4 is no copy queue (class ILL, cause 5), and a full queue holds the word back. The order of
a full queue and of the checks, and which offsets of a record are reachable, are the model's reading (log entries 45, 96 and
104). -/
def Obligations.EngineCommandsEnterTheirQueue : Prop :=
  (∀ (s : State) (d a b : BitVec 6) (c : BitVec 2), s.thr.Fit {} { g := [d] } → s.Settled →
    let G (r : BitVec 6) : Prop := s.thr.hasG r = true
    let i := s.thr.tile
    let x := s.tile i
    let room : Prop := ((x.queue 4).cmds.filter (fun c => c.direct)).length < 28
    let sp := s.thr.space
    let k : PinOwner := .command i 4 (x.nextTicket 4)
    (room →
      (∀ r w, G a → G b → s.layout? sp ((s.thr.g b).toNat % 32) = some r → (s.thr.g b).toNat < 32 → 2 ≤ recNdim r →
        kShelf (recFmt r) ≠ none → 0 ≤ loHalf (s.thr.g a) → 0 ≤ hiHalf (s.thr.g a) →
        (fmtBlock (recFmt r) = true → loHalf (s.thr.g a) % 32 = 0) → w = recWho (s.issuer s.thr) s.thr.cur r →
        s.spanCheck w r = .ok () → s.shelfCheck i 0 = .ok () →
        (let ko := ((s.thr.g a).extractLsb' 0 32).toNat
         let no := ((s.thr.g a).extractLsb' 32 32).toNat
         s.pinCheck sp (s.thr.g b).toNat s.thr.sup false (rectElems r (s.recPage s.thr.key sp (posTower s.thr.cur) r) ko
           (min (4 * (kShelf (recFmt r)).getD 0) (recExt r 0 - ko)) no (min 256 (recExt r 1 - no))) = .ok ()) →
        Queues s (exec (.mldw d a b) s) d 4 (.mldw r ((s.thr.g a).extractLsb' 0 32) ((s.thr.g a).extractLsb' 32 32))
          (s.capture sp (s.thr.g b).toNat k) x.pendActive (some (BitVec.ofNat 4 (recFmt r)))) ∧
      (s.shelfCheck i 0 = .ok () → Queues s (exec (.mswap d) s) d 4 .mswap [] x.pendShadow x.pendActive) ∧
      ((s.tower (i / 16)).fused = 0xF → Traps s (exec (.mswap d) s) { cls := .engine, cause := 9 })) ∧
    (¬ room → (G a → G b → exec (.mldw d a b) s = .next s) ∧ exec (.mswap d) s = .next s) ∧
    (∀ (q : Claim) (n : Nat), s.thr.claim? c = some q → q.phys = some (i, n) →
      let M (epi : Bool) (o : Out) : Prop := G a → G b →
        x.isFaulted n = false →
        (∀ la le, s.mmaCheck (s.issuer s.thr) i epi (s.thr.g a) (s.thr.g b) = .ok (la, le) →
          Queues s o d 4 (.mma n epi la le (s.thr.g a) (s.thr.g b) none)
            (s.capture sp (mmaOp (s.thr.g b)).la k ++ if epi then s.capture sp (mmaOp (s.thr.g b)).le k else [])
            x.pendActive x.pendShadow) ∧
        (∀ e, s.mmaCheck (s.issuer s.thr) i epi (s.thr.g a) (s.thr.g b) = .trap e → Traps s o e)
      (room →
        M false (exec (.mma d a b c) s) ∧ M true (exec (.mmae d a b c) s) ∧
        (s.shelfCheck i 0 = .ok () → Queues s (exec (.mzero d c) s) d 4 (.mzero n) [] x.pendActive x.pendShadow) ∧
        ((s.tower (i / 16)).fused = 0xF → Traps s (exec (.mzero d c) s) { cls := .engine, cause := 9 }) ∧
        (G a → s.shelfCheck i 0 = .ok () → x.isFaulted n = true → 1 ≤ (s.thr.g a).toNat → (s.thr.g a).toNat ≤ 256 →
          Queues s (exec (.mresume d a c) s) d 4 (.mresume n (s.thr.g a).toNat) [] x.pendActive x.pendShadow) ∧
        (G a → x.isFaulted n = false → Traps s (exec (.mresume d a c) s) { cls := .engine, cause := 2, detail := 2 }) ∧
        (G a → G b → x.isFaulted n = true → Traps s (exec (.mma d a b c) s) { cls := .engine, cause := 2, detail := 1 } ∧
          Traps s (exec (.mmae d a b c) s) { cls := .engine, cause := 2, detail := 1 })) ∧
      (¬ room → exec (.mzero d c) s = .next s ∧ (G a → exec (.mresume d a c) s = .next s)))) ∧
  (∀ (s : State) (d a : BitVec 6) (q : Queue), s.thr.Fit {} { g := [d], v := [a] } → s.Settled →
    let i := s.thr.tile
    let n := queueNo q
    let block := BitVec.ofNat 2048 (ofBytes (s.thr.v a))
    let page (r : BitVec 1024) : Nat := s.recPage s.thr.key s.thr.space (posTower s.thr.cur) r
    let own : PinOwner := .command i n ((s.tile i).nextTicket n)
    let P (k : CopyKind) (o : Out) : Prop :=
      (q = .q4 → Traps s o { cls := .ill, cause := 5, detail := s.thr.group.len, va := s.thr.pc }) ∧
      (q ≠ .q4 → (s.tile i).hasRoom n = false → o = .next s) ∧
      (q ≠ .q4 → (s.tile i).hasRoom n = true →
        (∀ src dst aw, s.copyCheck k block = .ok (src, dst, aw) →
          Queues s o d n (.copy k block src dst aw (upto 0 (cbSegments block src dst (page src) (page dst)).length) [] [])
            (s.capture s.thr.space (cbSrec block) own ++ s.capture s.thr.space (cbDrec block) own)
            (s.tile i).pendActive (s.tile i).pendShadow) ∧
        (∀ e, s.copyCheck k block = .trap e → Traps s o e))
    P .copy (exec (.copy d a q) s) ∧ P .copym (exec (.copym d a q) s) ∧ P .copyd (exec (.copyd d a q) s))

/-! ### System registers and system words (spec R288 to R311) -/

/-- R290 to R292, R296, R301: MFSR reads the register of its number, and MTSR writes FPST (bits 5:0), the WDLIM registers of
the partition and, for the firmware, PARTMAP; a number that names no register, or one of a higher privilege, traps with class
PRIV, cause 2, the number as DETAIL (for the firmware a number of no register with class ILL); WDLIM of another partition
with cause 3; a write of a read-only register with class ILL, cause 5. The firmware's level is read by inference (log entry
99). -/
def Obligations.SystemRegistersReadAndWrite : Prop :=
  ∀ (s : State) (d : BitVec 6) (n : BitVec 12), s.thr.Fit {} { g := [d] } →
    let k := n.toNat
    let R (x : Word) : Prop := Writes s (exec (.mfsr d n) s) d x
    let bad : Trap := { cls := .priv, cause := 2, detail := k }
    let out : Trap := { cls := .priv, cause := 3 }
    let T (x : Trap) : Prop := Traps s (exec (.mfsr d n) s) x ∧ Traps s (exec (.mtsr d n) s) x
    let ill : Trap := { cls := .ill, cause := 5, detail := s.thr.group.len, va := s.thr.pc }
    let ro : Prop := Traps s (exec (.mtsr d n) s) ill
    let sup : Prop := s.thr.sup = true
    let user : Prop := s.thr.sup = false
    let part := bits s.thr.space.toNat 11 9
    (k = 0 → R s.thr.fpst ∧ Becomes s (exec (.mtsr d n) s) { s.thr with fpst := s.thr.g d &&& 0x3F }) ∧
    (k = 1 → R s.thr.vtype ∧ ro) ∧
    (k = 2 → R (BitVec.ofNat 64 (s.core (posCore s.thr.cur)).cycle) ∧ ro) ∧
    (k = 3 → R s.nsec ∧ ro) ∧
    (k = 0x100 → (sup → R (s.partn part) ∧ ro) ∧ (user → T bad)) ∧
    (k = 0x101 → (sup → R (Tab.get s.sdtb part 0) ∧ ro) ∧ (user → T bad)) ∧
    (∀ q, k = 0x140 + q → q < 64 →
      (user → T bad) ∧
      (sup → s.thr.firm = false → q / 8 ≠ part → T out) ∧
      (sup → (s.thr.firm = true ∨ q / 8 = part) → R (s.wdlimOf q) ∧
        ∃ t, exec (.mtsr d n) s = .next t ∧ t = { s with thr := s.thr.past, wdlim := t.wdlim } ∧
          t.wdlimOf q = s.thr.g d &&& 0x0FFFFFFFFFFFFFFF ∧ ∀ r, r ≠ q → t.wdlimOf r = s.wdlimOf r)) ∧
    (k = 0x200 →
      (s.thr.firm = false → T bad) ∧
      (s.thr.firm = true → R (s.partmap.setWidth 64) ∧
        exec (.mtsr d n) s = .next { s with thr := s.thr.past, partmap := (s.thr.g d).setWidth 32 })) ∧
    (4 ≤ k → k ≠ 0x100 → k ≠ 0x101 → k ≠ 0x200 → (k < 0x140 ∨ 0x180 ≤ k) → T (if s.thr.firm then ill else bad))

/-- R290, R302: a system word issued by a user thread traps with class PRIV, cause 1, has no effect, and looks at no operand;
issued by a supervisor thread for a space outside its partition, with cause 3; CMNT is illegal for the firmware. The order of
the checks is the model's reading (log entry 83). -/
def Obligations.SystemWordsNeedPrivilege : Prop :=
  ∀ (s : State) (d a b : BitVec 6), s.thr.group = {} →
    (s.thr.sup = false →
      let T (o : Out) : Prop := Traps s o { cls := .priv, cause := 1 }
      T (exec (.xinv d a b) s) ∧ T (exec (.xinvAll d) s) ∧ T (exec (.ctlLaunch d a b) s) ∧ T (exec (.ctlSpload d a b) s) ∧
      T (exec (.ctlSpdrop d a b) s) ∧ T (exec (.ctlKillt d a b) s) ∧ T (exec (.ctlKilll d a b) s) ∧
      T (exec (.ctlPark d a b) s) ∧ T (exec (.ctlUnpark d a b) s) ∧ T (exec (.trq d a) s) ∧ T (exec (.tret d a b) s) ∧
      T (exec (.cmnt d a b) s) ∧ T (exec (.lpwr d a b) s) ∧ T (exec (.halt d a) s) ∧ T (exec (.haltRel d a) s)) ∧
    (s.thr.firm = true → Traps s (exec (.cmnt d a b) s) { cls := .ill, cause := 5, detail := 0, va := s.thr.pc }) ∧
    (s.thr.priv = true → s.thr.firm = false → s.Settled → s.thr.has { g := [d, a, b], v := [d] } = true →
      let out (x : Word) : Prop := spaceOk (bits s.thr.space.toNat 11 9) (x.extractLsb' 0 16) = false
      let T (o : Out) : Prop := Traps s o { cls := .priv, cause := 3 }
      (out (s.thr.g d) → T (exec (.xinv d a b) s) ∧ T (exec (.xinvAll d) s)) ∧
      (out (s.thr.g a) → T (exec (.ctlSpload d a b) s) ∧ T (exec (.ctlSpdrop d a b) s) ∧ T (exec (.ctlKillt d a b) s) ∧
        T (exec (.ctlKilll d a b) s) ∧ T (exec (.trq d a) s) ∧ T (exec (.tret d a b) s) ∧ T (exec (.halt d a) s) ∧
        T (exec (.haltRel d a) s)))

/-- R303, R321: XINV drops the space's bank entries of pages that reach into the named units, the L1 lines and the decided
cells of the space there, keeps the translations of pinned pages, and gives the number of those units that lie in them;
XINV.all over every unit. A va at or above 2^57 traps with ADDR, cause 1; one that is not a multiple of 128 KiB, or a count
of 0, with cause 2. R15, R23, R195, R297 to R300, R304, R348: CTL.launch hands the record to its queue, or says in gd why
not: a record of a queue of another partition gives 8, of a space that is not loaded 9, one that fails a check of R15 that
check's code, a DONEAW that does not qualify 10; one that passes joins the launches, and gd is 0 in bits 7:0 and LAUNCHID in
bits 63:32 (where it does not span devices and its queue takes it). A killed thread is DONE, on no core, without claims and
their pins, and its index counts as done; a killed launch leaves none of its threads alive, but one that travels, whose crumb
is killed. CTL.spload loads the descriptor of the partition's table, or puts it in the place of the loaded one, if its code
is 0 and gives the code; CTL.spdrop drops a space that nothing uses (0), and says busy (1) or not loaded (2); CTL.killt and
CTL.killl kill what is not DONE (0) and say that nothing is left (1). The order of the checks, that XINV performs earlier
accesses, when a space is busy, and the planes of a dropped one are the model's (log entries 83, 84, 86 and 100). -/
def Obligations.InvalidationAndControlOfSpaces : Prop :=
  (∀ (s : State) (d a b : BitVec 6), s.thr.Fit {} { g := [d, a, b] } → s.thr.sup = true → s.Settled → s.NoneWaits →
    (∀ u ∈ s.threads, u.accs = []) →
    let sp : BitVec 16 := (s.thr.g d).extractLsb' 0 16
    (s.thr.firm = true ∨ spaceOk (bits s.thr.space.toNat 11 9) sp = true) →
    let va := (s.thr.g a).toNat
    let n := (s.thr.g b).toNat
    let P (o : Out) (lo n : Nat) : Prop := s.movingIn sp lo n = false → s.resolvedIn sp lo n = false →
      let meets (level page : Nat) : Prop :=
        lo < (page + 1) * (pageSize level / 2 ^ 17) ∧ page * (pageSize level / 2 ^ 17) < lo + n
      ∃ t, o = .next t ∧
        t = { s with
          thr := t.thr
          banks := t.banks
          uppers := t.uppers
          kept := t.kept
          cores := t.cores } ∧
        (∀ p, p ∈ t.kept ↔ (p.space = sp ∧ meets p.level (p.va.toNat / pageSize p.level) ∧ p ∈ s.pins) ∨
          (¬ (p.space = sp ∧ meets p.level (p.va.toNat / pageSize p.level)) ∧ p ∈ s.kept)) ∧
        RegWrite s.thr t.thr d (BitVec.ofNat 64 (pinnedIn (s.pinnedUnits sp) lo n)) ∧
        (∀ e, e ∈ t.banks ↔ e ∈ s.banks ∧ ¬ (e.space = sp ∧ meets e.level (e.unit * 2 ^ 17 / pageSize e.level))) ∧
        (∀ e, e ∈ t.uppers ↔ e ∈ s.uppers ∧ ¬ (e.space = sp ∧ meets e.level e.page)) ∧
        (∀ k, t.core k = { s.core k with l1 := (t.core k).l1, cells := (t.core k).cells }) ∧
        let named (x : BitVec 16) (v : Word) : Prop := x = sp ∧ lo ≤ v.toNat / 2 ^ 17 ∧ v.toNat / 2 ^ 17 < lo + n
        ∀ k, (∀ l, l ∈ (t.core k).l1 ↔ l ∈ (s.core k).l1 ∧ ¬ named l.space l.va) ∧
          ∀ c, c ∈ (t.core k).cells ↔ c ∈ (s.core k).cells ∧ ¬ named c.space c.va
    let A (k : Nat) : Prop := Traps s (exec (.xinv d a b) s) { cls := .addr, cause := k, va := s.thr.g a }
    (2 ^ 57 ≤ va → A 1) ∧
    (va < 2 ^ 57 → (va % 2 ^ 17 ≠ 0 ∨ n = 0) → A 2) ∧
    (va < 2 ^ 57 → va % 2 ^ 17 = 0 → n ≠ 0 → P (exec (.xinv d a b) s) (va / 2 ^ 17) n) ∧
    P (exec (.xinvAll d) s) 0 (2 ^ 40)) ∧
  ((∀ (s : State) (rec : BitVec 2048) (sp : BitVec 16) (part : Nat) (w : Who) (priv : Bool),
    let id : BitVec 32 := s.dev ++ nextCount s.launchCount
    let l : Launch := { id := id, space := sp, record := rec, origin := s.dev }
    let q := rec.toNat / 2 ^ 336 % 2 ^ 6
    let S := s.submit rec sp part w priv
    (q / 8 ≠ part → S = .code s 8) ∧
    (q / 8 = part → s.space? sp = none → S = .code s 9) ∧
    ∀ x, q / 8 = part → s.space? sp = some x →
      (recordCode x l priv ≠ 0 → S = .code s (BitVec.ofNat 64 (recordCode x l priv))) ∧
      (recordCode x l priv = 0 →
        (∀ e, s.resolveDoneaw w (rec.toNat / 2 ^ 512 % 2 ^ 64) = .trap e → S = .code s 10) ∧
        ∀ aw, s.resolveDoneaw w (rec.toNat / 2 ^ 512 % 2 ^ 64) = .ok aw → l.spans = false →
          (s.queueOpen q = false → S = .later s) ∧
          (s.queueOpen q = true → ∃ u v, S = .code u v ∧ bits v.toNat 7 0 = 0 ∧ bits v.toNat 63 32 = id.toNat ∧
            u = { s with
              launches := s.launches ++ [{ l with aw := aw.map (fun p => p.key) }]
              launchCount := nextCount s.launchCount
              pins := u.pins } ∧
            ∀ p ∈ s.pins, p ∈ u.pins))) ∧
  (∀ (s : State) (t : Thread), s.find t.key = some t → t.state ≠ .done →
    (t.state = .travelling → t.trapStage ≠ .none) →
    ∃ v, (s.killThread t).find t.key = some v ∧ v.state = .done ∧ v.held = false ∧ v.claims = [] ∧ v.lines = [] ∧
      v.slot = none ∧ v.trapStage = .none ∧
      (∀ p ∈ (s.killThread t).pins, ∀ n, p.owner ≠ .claim t.key n ∧ p.owner ≠ .epilogue t.key n) ∧
      ∀ l, (s.killThread t).launch? t.key.launch = some l → t.key.index.toNat ∈ l.done) ∧
  (∀ (s : State) (l : Launch) (x : Nat) (m : Launch), (s.killCreated l x).launch? l.id = some m → s.launch? l.id = some l →
    x ∈ m.done ∧ m.createdAt s.dev x = false) ∧
  (∀ (s : State) (l : Launch), s.launch? l.id = some l → (s.all.map Thread.key).Nodup →
    ∀ v ∈ (s.killLaunch l.id).all, v.key.launch = l.id → v.state = .done ∨ (v.state = .travelling ∧ v.killed = true)) ∧
  ∀ (s : State) (d a b : BitVec 6), s.thr.Fit {} { g := [d, a, b] } → s.thr.sup = true → s.Settled →
    let part := bits s.thr.space.toNat 11 9
    let sp : BitVec 16 := (s.thr.g a).extractLsb' 0 16
    let y := s.thr.g b
    let may (x : BitVec 16) : Prop := s.thr.firm = true ∨ spaceOk part x = true
    (∀ ls, may (if y.extractLsb' 0 16 = 0 then s.thr.space else y.extractLsb' 0 16) →
      s.access (s.who s.thr .none) .load (s.thr.g a) 256 256 = .ok ls → s.Usable false (s.who s.thr .none) ls →
      let id := if y.extractLsb' 0 16 = 0 then s.thr.space else y.extractLsb' 0 16
      let r := s.valueAt ls
      let w := (s.took s.thr false ls).dropL1 ls
      match w.submit (BitVec.ofNat 2048 r) id (if s.thr.firm then bits r 341 336 / 8 else part)
        { s.who s.thr .none with space := id } true with
      | .code u x => Writes u (exec (.ctlLaunch d a b) s) d x
      | .later u => exec (.ctlLaunch d a b) s = .next u) ∧
    (may sp →
      let x := s.descriptor sp
      let ready : Prop := s.ready s.thr false [s.descPlace sp] = .ok
      (ready → s.descCode x ≠ 0 → WritesAt s (exec (.ctlSpload d a b) s) d (BitVec.ofNat 64 (s.descCode x))) ∧
      (ready → s.descCode x = 0 → s.space? sp = none → s.movingIn sp 0 (2 ^ 40) = false → s.resolvedIn sp 0 (2 ^ 40) = false →
        s.accKeys (fun t => t.space == sp) = [] →
        ∃ t, exec (.ctlSpload d a b) s = .next t ∧ t = { s.like t with thr := t.thr, spaces := s.spaces ++ [x] } ∧
          Kept s t ∧ RegWrite s.thr t.thr d 0) ∧
      (∀ old, ready → s.descCode x = 0 → s.space? sp = some old → s.movingIn sp 0 (2 ^ 40) = false →
        s.resolvedIn sp 0 (2 ^ 40) = false → s.accKeys (fun t => t.space == sp) = [] → s.thr.waitLoad = none →
        ∃ t, exec (.ctlSpload d a b) s = .next t ∧ t.mem = s.mem ∧ RegWrite s.thr t.thr d 0 ∧
          t.space? sp = some { old with
            desc := x.desc
            tqHead := if old.field 191 64 ≠ x.field 191 64 ∨ old.field 228 224 ≠ x.field 228 224 then 0 else old.tqHead }) ∧
      (s.space? sp = none → Writes s (exec (.ctlSpdrop d a b) s) d 2) ∧
      (s.space? sp ≠ none → s.spaceBusy sp = true → Writes s (exec (.ctlSpdrop d a b) s) d 1) ∧
      (s.space? sp ≠ none → s.spaceBusy sp = false → ∃ t, exec (.ctlSpdrop d a b) s = .next t ∧
        t = { s.like t with
          thr := t.thr
          spaces := s.spaces.filter (fun x => x.id != sp)
          pins := s.pins.filter (fun p => p.space != sp)
          kept := t.kept
          banks := t.banks
          uppers := t.uppers
          posted := s.posted.filter (fun p => p.space != sp)
          threads := s.threads.map (Thread.noScratch sp)
          bad := t.bad
          mem := t.mem } ∧
        (∀ g, g ∈ t.bad ↔ g ∈ s.bad ∧ scratchOf sp (16 * g) = false) ∧
        (∀ p ∈ t.kept, p.space ≠ sp) ∧ (∀ h ∈ t.hearths, h.space ≠ sp) ∧
        RegWrite s.thr t.thr d 0 ∧ (∀ i, t.tile i = (s.tile i).forget sp) ∧
        ∀ k, t.mem.read k = if (2 ^ 60 + sp.toNat * 2 ^ 40 ≤ k ∧ k < 2 ^ 60 + (sp.toNat + 1) * 2 ^ 40) ∨
          (2 ^ 61 + sp.toNat * 2 ^ 44 ≤ k ∧ k < 2 ^ 61 + (sp.toNat + 1) * 2 ^ 44) then unlisted else s.mem.read k) ∧
      (y.toNat < 2 ^ 57 → y.toNat % 256 = 0 →
        (s.matchContext sp y.toNat = none → Writes s (exec (.ctlKillt d a b) s) d 1) ∧
        (∀ l x, s.matchContext sp y.toNat = some (l, x) →
          (∀ u, s.find ⟨l.id, BitVec.ofNat 32 x⟩ = some u →
            (u.state = .done → Writes s (exec (.ctlKillt d a b) s) d 1) ∧
            (u.state ≠ .done → s.headerCheck sp y.toNat = .ok () →
              exec (.ctlKillt d a b) s = .next ((s.killThread u).resultIfAlive d 0))) ∧
          (s.find ⟨l.id, BitVec.ofNat 32 x⟩ = none →
            (l.done.contains x = true → Writes s (exec (.ctlKillt d a b) s) d 1) ∧
            (l.done.contains x = false →
              let k : Key := ⟨l.id, BitVec.ofNat 32 x⟩
              (l.createdAt s.dev x = true → Writes (s.killCreated l x) (exec (.ctlKillt d a b) s) d 0) ∧
              (l.createdAt s.dev x = false → s.headerCheck sp y.toNat = .ok () →
                ((∃ w ∈ s.away, w.thread = k) → Writes (s.killAway k) (exec (.ctlKillt d a b) s) d 0) ∧
                ((∀ w ∈ s.away, w.thread ≠ k) → Writes (s.killElsewhere l x) (exec (.ctlKillt d a b) s) d 0)))))) ∧
      (2 ^ 57 ≤ y.toNat → Traps s (exec (.ctlKillt d a b) s) { cls := .addr, cause := 1, va := y }) ∧
      (y.toNat < 2 ^ 57 → y.toNat % 256 ≠ 0 → Traps s (exec (.ctlKillt d a b) s) { cls := .addr, cause := 2, va := y }) ∧
      (s.killable sp (y.extractLsb' 0 32) = false → Writes s (exec (.ctlKilll d a b) s) d 1) ∧
      (s.killable sp (y.extractLsb' 0 32) = true →
        exec (.ctlKilll d a b) s = .next ((s.killLaunch (y.extractLsb' 0 32)).resultIfAlive d 0))))

/-- R126, R310: CTL.park and CTL.unpark set or clear the named shelves' park bits of a tower of the partition and give the
usable shelves; LPWR changes a layer's power state and gives the old one, and a layer that goes off, or leaves off, reads as
zero. Operands out of range are answered in gd, a tower of another partition traps with class PRIV, cause 3. R305 to R307,
R309, R311: TRQ takes the oldest record of a space's queue, with bit 512 set, or gives zeros; TRET makes the thread of a
context DORMANT whose header's STATE, at its home, is TRAPPED (0), and leaves any other as it is (1); CMNT hands the firmware
a command (0) unless eight of the partition are with it (1); HALT holds a space's user threads back, evicts those that may be
evicted, has the others leave, and waits until no core holds one; HALT.rel lets them go, each with 0, and 1 where there is
nothing to do. HALT while threads cannot leave, the checks of CMNT, its refusal to the firmware, and what a layer that leaves
off reads are the model's reading (log entries 55, 85, 87 and 99). -/
def Obligations.ShelvesLayersAndSupervisorWords : Prop :=
  (∀ (s : State) (d a b : BitVec 6), s.thr.Fit {} { g := [d, a, b] } → s.thr.sup = true → s.Settled →
    (∀ u ∈ s.threads, u.accs = []) →
    let x := (s.thr.g a).toNat
    let y := (s.thr.g b).toNat
    let out (o : Out) : Prop := Traps s o { cls := .priv, cause := 3 }
    ((8 ≤ x ∨ 16 ≤ y) → Writes s (exec (.ctlPark d a b) s) d 0xFF ∧ Writes s (exec (.ctlUnpark d a b) s) d 0xFF) ∧
    (x < 8 → y < 16 → s.mayName x = false → out (exec (.ctlPark d a b) s) ∧ out (exec (.ctlUnpark d a b) s)) ∧
    (x < 8 → y < 16 → s.mayName x = true →
      let P (o : Out) (f : Bool → Bool → Bool) : Prop := ∃ t, o = .next t ∧ t = { s with thr := t.thr, towers := t.towers } ∧
        RegWrite s.thr t.thr d ((t.shelfUp x).setWidth 64) ∧ (∀ j, j ≠ x → t.tower j = s.tower j) ∧
        t.tower x = { s.tower x with parked := (t.tower x).parked } ∧
        ∀ i < 4, (t.tower x).parked.getLsbD i = f ((s.tower x).parked.getLsbD i) (y.testBit i)
      P (exec (.ctlPark d a b) s) (fun p m => p || m) ∧ P (exec (.ctlUnpark d a b) s) (fun p m => p && !m)) ∧
    (powerRequest x y = none → Writes s (exec (.lpwr d a b) s) d 2) ∧
    (∀ t l p, powerRequest x y = some (t, l, p) →
      (s.mayName t = false → out (exec (.lpwr d a b) s)) ∧
      (s.mayName t = true →
        let old := s.powerOf l
        (p = .off → l < 16 → Writes s (exec (.lpwr d a b) s) d (BitVec.ofNat 64 (old.code * 256 + 1))) ∧
        (¬ (p = .off ∧ l < 16) → ∃ u, exec (.lpwr d a b) s = .next u ∧
          u = { s with
            thr := u.thr
            power := u.power
            mem := u.mem
            bad := u.bad
            cores := u.cores } ∧
          RegWrite s.thr u.thr d (BitVec.ofNat 64 (old.code * 256)) ∧ u.powerOf l = p ∧
          (∀ j, j ≠ l → u.powerOf j = s.powerOf j) ∧
          ∀ k, u.mem.read k =
            (match layerRange l with
             | some (r, n) =>
               if p ≠ old ∧ (p = .off ∨ old = .off) ∧ s.dev.toNat * 2 ^ 48 + r ≤ k ∧ k < s.dev.toNat * 2 ^ 48 + r + n then unlisted
               else s.mem.read k
             | none => s.mem.read k))))) ∧
  (∀ (s : State) (d a b : BitVec 6), s.thr.Fit {} {} → s.thr.sup = true → s.Settled →
    let part := bits s.thr.space.toNat 11 9
    let sp : BitVec 16 := (s.thr.g a).extractLsb' 0 16
    let G (r : BitVec 6) : Prop := s.thr.hasG r = true
    let may : Prop := s.thr.firm = true ∨ spaceOk part sp = true
    (G a → s.thr.hasV d = true → may →
      ((s.space? sp = none ∨ ∃ x, s.space? sp = some x ∧ x.tqCount = 0) →
        Puts s (exec (.trq d a) s) s.thr (s.thr.vOff d) (leBytes 256 0)) ∧
      (∀ x, s.space? sp = some x → x.tqCount ≠ 0 → x.tqPend = [] →
        s.ready s.thr false [{ va := 0, n := 64, key := x.field 127 64 + 64 * x.tqHead }] = .ok →
        ∃ t, exec (.trq d a) s = .next t ∧
        t = { s.like t with thr := t.thr, spaces := t.spaces } ∧ Kept s t ∧
        t.thr = { s.thr.past with regs := t.thr.regs } ∧
        PutAt s.thr.regs t.thr.regs (s.thr.vOff d)
          (leBytes 256 (s.mem.readNum (x.field 127 64 + 64 * x.tqHead) 64 + 2 ^ 512)) ∧
        t.space? sp = some { x with
          tqHead := (x.tqHead + 1) % x.tqSize
          tqCount := x.tqCount - 1 })) ∧
    (G d → G a → G b → may → (s.thr.g b).toNat < 2 ^ 57 → (s.thr.g b).toNat % 256 = 0 →
      s.headerCheck sp (s.thr.g b).toNat = .ok () →
      let q : Thread := { s.thr with space := sp, ctx := s.thr.g b }
      let st (m : Memory) (f : Nat) : Nat := (m.read (f + 8)).toNat % 8
      s.ctxReady q true (q.ctx.toNat, 256) = .ok →
      ∀ f, (s.took q true (s.ctxLocs q (q.ctxBytes [])) true).headerPlace q = some f →
        (st s.mem f ≠ 5 → (∀ u ∈ s.all, u.homeless = false) → WritesAt s (exec (.tret d a b) s) d 1) ∧
        (∀ u, st s.mem f = 5 → s.contextAt sp (s.thr.g b).toNat = some u → s.find u.key = some u → u.key ≠ s.thr.key →
          u.held = false → u.state ≠ .travelling → u.trapStage = .none →
          ∃ t, exec (.tret d a b) s = .next t ∧
            t = { s.like t with thr := t.thr, threads := t.threads, mem := t.mem, bad := t.bad, remote := t.remote, spaces := t.spaces } ∧
            Kept s t ∧
            t.find u.key = some { u with
              state := .dormant
              homeless := false
              badLines := []
              parkc := 0
              parkva := 0
              wait := .none } ∧
            RegWrite s.thr t.thr d 0 ∧ st t.mem f = 1 ∧ ∀ k, k ≠ f + 8 → t.mem.read k = s.mem.read k)) ∧
    (G d → G a → G b → s.thr.firm = false →
      (s.thr.g b = 0 → Traps s (exec (.cmnt d a b) s) { cls := .addr, cause := 2 }) ∧
      (∀ ls ws, s.thr.g b ≠ 0 → s.access (s.who s.thr .none) .store (s.thr.g a) 256 256 = .ok ls →
        Res.all (s.dataCheck .load) ls = .ok () → s.access (s.who s.thr .none) .arrive (s.thr.g b) 16 16 = .ok ws →
        s.noteImages (s.who s.thr .none).scsz (ls ++ ws) = s →
        let n := (s.cmnts.filter (fun c => c.part.toNat == part)).length
        (8 ≤ n → Writes s (exec (.cmnt d a b) s) d 1) ∧
        (n < 8 → ∃ t c, exec (.cmnt d a b) s = .next t ∧
          t = { s with
            thr := t.thr
            cmnts := s.cmnts ++ [c]
            cmntCount := s.cmntCount + 1
            pins := t.pins } ∧
          RegWrite s.thr t.thr d 0 ∧ c.id = s.cmntCount ∧ c.part.toNat = part ∧ c.block = firstKey ls ∧ c.word = firstKey ws))) ∧
    (G d → G a → may →
      let N (o : Out) : Prop := Writes s o d 1
      (s.space? sp = none → N (exec (.halt d a) s) ∧ N (exec (.haltRel d a) s)) ∧
      (∀ x, s.space? sp = some x →
        (x.halted = true → s.thr.halting = false → (∀ u ∈ s.all, haltable sp u = false) → N (exec (.halt d a) s)) ∧
        (x.halted = true → s.thr.halting = false → (∃ u ∈ s.all, haltable sp u = true) → exec (.halt d a) s = .next s) ∧
        (x.halted = false → N (exec (.haltRel d a) s)) ∧
        (x.halted = true → ∃ t, exec (.haltRel d a) s = .next t ∧ t = { s with thr := t.thr, spaces := t.spaces } ∧
          RegWrite s.thr t.thr d 0 ∧ t.space? sp = some { x with halted := false }) ∧
        (x.halted = false → s.thr.halting = false → (∀ u ∈ s.all, haltable sp u = false) →
          ∃ t, exec (.halt d a) s = .next t ∧ t = { s with thr := t.thr, spaces := t.spaces } ∧
            RegWrite s.thr t.thr d 0 ∧ t.space? sp = some { x with halted := true }) ∧
        (x.halted = false → s.thr.halting = false →
          let s1 := s.setSpace { x with halted := true }
          let s2 := s1.evictAll (s1.keysOf (haltable sp))
          ((∃ u ∈ s2.all, haltable sp u = true) → ∃ t, exec (.halt d a) s = .next t ∧ t.mem = s2.mem ∧
            t.space? sp = s2.space? sp ∧ t.thr.pc = s2.thr.pc ∧ t.thr.halting = true ∧
            (∀ u ∈ t.all, haltable sp u = true → u.leaving = true) ∧ (∀ u ∈ s2.threads, haltable sp u = false → u ∈ t.threads)) ∧
          ((∀ u ∈ s2.all, haltable sp u = false) → Writes s2 (exec (.halt d a) s) d 0) ∧
          ∀ u, (∀ v ∈ s1.all, haltable sp v = true ↔ v = u) → s.find u.key = some u → u.key ≠ s.thr.key →
            s1.mayEvict u = true → u.claims = [] → u.accs = [] → u.trapStage = .none →
            (∀ y ∈ u.ctxBytes u.dirtyLines, s1.ctxReady u true y = .ok) →
            ∀ s', (s1.took u true (s1.ctxLocs u (u.ctxBytes u.dirtyLines)) true).writeLines u.regroup.unbound u.dirtyLines = (s', []) →
              (s'.headerPlace u).isSome = true →
              ∃ t v, exec (.halt d a) s = .next t ∧ t.find u.key = some v ∧ v.held = false ∧ v.state = u.evictedState ∧
                t.space? sp = some { x with halted := true } ∧ RegWrite s.thr t.thr d 0))))

/-! ### Scheduling, waits, crumbs and trap records (spec R17 to R31, R305, R332 to R336, R346) -/

/-- R11, R18, R24, R332 to R334: where a flat index that is CREATED comes first among those that a core admits, the core
began no activation in the last 32 cycles, and the whole register space fits the empty core, ACTIVATE makes it a RESIDENT
thread of that core: PC, PRIV, PRIO and the sizes are the record's, AGE is the next activation number, g1 is ARG, g2 the flat
index, and every other byte of the register space zero (no template). Memory does not change. -/
def Obligations.ActivationMaterialisesAThread : Prop :=
  ∀ (s : State) (core : BitVec 9) (l : Launch) (x : Nat),
    let k := core.toNat
    let r := l.record.toNat
    let key : Key := ⟨l.id, BitVec.ofNat 32 x⟩
    least Cand.rank (s.candidates.filter (s.admits s.candidates k)) = some (.created l x) →
    s.mayActivate k = true → s.accKeys (fun t => posCore t.cur / 64 == k / 64) = [] →
    s.on k = [] → (s.core k).pre = [] → s.find key = none → (∃ q, s.space? l.space = some q) →
    l.field 461 448 = 0 → 16 ≤ l.field 198 192 → 2 + 4 * (l.field 230 224 + 1) ≤ l.mode.lines →
    ∃ u v, exec (.activate core) s = .next u ∧ u.find key = some v ∧ u.mem = s.mem ∧ u.thr = s.thr ∧
      v.state = .resident ∧ v.held = true ∧ v.trapStage = .none ∧ v.cur = posOf s.dev k ∧ v.anchor = v.cur ∧
      v.age = s.ageCount + 1 ∧ u.ageCount = s.ageCount + 1 ∧ v.dirty = v.allLines ∧
      v.pc = BitVec.ofNat 64 (l.field 63 0) ∧ v.priv = r.testBit 327 ∧ v.prio.toNat = l.field 323 320 ∧ v.space = l.space ∧
      v.gcount.toNat = l.field 198 192 ∧ v.vcount.toNat = l.field 207 200 ∧ v.vbase.toNat = l.field 215 208 ∧
      v.tbase.toNat = l.field 223 216 ∧ v.rsize.toNat = l.field 230 224 ∧ v.ctx = BitVec.ofNat 64 (l.ctx x) ∧
      v.g 1 = BitVec.ofNat 64 (l.field 127 64) ∧ v.g 2 = (BitVec.ofNat 32 x).setWidth 64 ∧
      (∀ n : BitVec 6, n ≠ 1 → n ≠ 2 → v.g n = 0) ∧ (∀ a, (a < 8 ∨ 24 ≤ a) → v.regs.read a = 0) ∧
      (u.core k).mode = some l.mode ∧ (u.core k).taken = some (max (s.core k).cycle s.clock)

/-- R23, R25, R26, R45, R75, R336: the other moves of a thread on its core. ADMIT gives the next RESIDENT thread the lowest
free slot and a new AGE; DEMOTE exchanges a RESIDENT thread of higher PRIO for an ACTIVE one in a full set, to which no YIELD
owes anything any more; EVICT writes a thread's dirty lines and header home and leaves it DORMANT, or PARKED; a register line
becomes resident; a wake, spurious or not, ends a park, and where no core holds the thread its header says so; a load that
waited goes on, its register usable after its latency, or issues again where its bytes cannot be had. A line that a word
writes whole is allocated with the bytes of its image. What an eviction writes, what a wake resets and what a claim compares
are the model's (log entries 12, 66 and 90). -/
def Obligations.ThreadsMoveOnTheirCore : Prop :=
  (∀ (s : State) (core : BitVec 9) (t : Thread) (i : Nat), s.nextAdmitted core.toNat = some t → s.find t.key = some t →
    (upto 0 64).find? (fun n => !(s.activeOn core.toNat).any (fun u => u.slot == some n)) = some i →
    (s.activeOn core.toNat).length < 64 →
    ∃ u, exec (.admitCore core) s = .next u ∧ u.mem = s.mem ∧ u.ageCount = s.ageCount + 1 ∧
      u.find t.key = some { t with state := .active, slot := some i, age := s.ageCount + 1 }) ∧
  (∀ (s : State) (core : BitVec 9) (r v : Thread) (i : Nat), s.nextAdmitted core.toNat = some r → s.find r.key = some r →
    least (fun t => t.prio.toNat * 2 ^ 64 + (2 ^ 64 - 1 - t.age.toNat)) (s.activeOn core.toNat) = some v →
    s.find v.key = some v → v.key ≠ r.key → 64 ≤ (s.activeOn core.toNat).length → v.prio.toNat < r.prio.toNat →
    v.trapStage = .none → v.slot = some i →
    ∃ u w, exec (.demote core) s = .next u ∧ u.mem = s.mem ∧
      u.find r.key = some { r with
        state := .active
        slot := some i
        age := s.ageCount + 1
        owed := r.owed.filter (fun k => k != v.key) } ∧
      u.find v.key = some w ∧ w.state = .resident ∧ w.slot = none ∧ w.pc = v.groupStart ∧ w.regs = v.regs) ∧
  (∀ (s : State) (t : Thread), s.find t.key = some t →
    (s.mayEvict t = true → t.claims = [] → t.accs = [] → s.forwards = [] → t.trapStage = .none →
      (∀ x ∈ t.ctxBytes t.dirtyLines, s.ctxReady t true x = .ok) →
      (∀ s', (s.took t true (s.ctxLocs t (t.ctxBytes t.dirtyLines)) true).writeLines t.regroup.unbound t.dirtyLines = (s', []) → (s'.headerPlace t).isSome = true →
      ∃ u v, exec (.evict t.key) s = .next u ∧ u.find t.key = some v ∧ v.state = t.evictedState ∧ v.held = false ∧
        v.slot = none ∧ v.pc = t.groupStart ∧ v.trapStage = .none ∧ u.mem = (s'.writeHeader v t.evictedState.code).elim s.mem State.mem)) ∧
    (s.mayEvict t = false → exec (.evict t.key) s = .next s) ∧
    (∀ (line : BitVec 9) (fills : Bool), (s.waitsFor t).find? (fun x => x.1 == line.toNat) = some (line.toNat, fills) →
      (s.core (posCore t.cur)).pre = [] →
      (∀ m, (s.core (posCore t.cur)).mode = some m → s.usedOn (posCore t.cur) + 1 ≤ m.lines) →
      (s.core (posCore t.cur)).mode ≠ none →
      let at_ := (t.ctx.toNat + 256 + 128 * line.toNat, 128)
      let s0 := s.took t false (s.ctxLocs t [at_]) true
      (fills = false → ∃ u v, exec (.registerLineFill t.key line) s = .next u ∧ u.mem = s.mem ∧ u.find t.key = some v ∧
        v = { t with regs := v.regs, alloc := line.toNat :: t.alloc } ∧ u.txns = s.txns ∧ u.outPeer = s.outPeer ∧
        ∀ f, s.linePlace t line.toNat = some f → PutAt t.regs v.regs (128 * line.toNat) (s.mem.readBytes f 128)) ∧
      (fills = true → s.ctxReady t false at_ = .ok → ∀ f, s0.linePlace t line.toNat = some f → ∃ u v, exec (.registerLineFill t.key line) s = .next u ∧
        u.mem = s.mem ∧ u.find t.key = some v ∧
        v = { t with
          regs := v.regs
          lines := line.toNat :: t.lines
          alloc := t.alloc.filter (fun j => j != line.toNat)
          badLines := if (s.badByte f 128).isSome then line.toNat :: t.badLines else t.badLines
          usedAt := Tab.put t.usedAt line.toNat ((s.core (posCore t.cur)).cycle + 1) } ∧
        PutAt t.regs v.regs (128 * line.toNat) (s.mem.readBytes f 128)) ∧
      (fills = true → s.ctxReady t false at_ = .ok → s0.linePlace t line.toNat = none → ∃ u v, exec (.registerLineFill t.key line) s = .next u ∧
        u.mem = s.mem ∧ u.find t.key = some v ∧ v.trclass = 5 ∧ v.trinfo.toNat = 1 + line.toNat * 256 ∧
        v.trapStage = .delivered)) ∧
    (t.state = .parked → t.trapStage = .none → t.held = true →
      let awake : Thread := { t with state := .resident, parkc := 0, parkva := 0, wait := .none }
      (∃ u, exec (.spuriousWake t.key) s = .next u ∧ u.mem = s.mem ∧ u.find t.key = some awake) ∧
      (s.waitOver t = true → ∃ u, exec (.parkWake t.key) s = .next u ∧ u.mem = s.mem ∧ u.find t.key = some awake) ∧
      (s.waitOver t = false → exec (.parkWake t.key) s = .next s)) ∧
    (t.state = .parked → t.trapStage = .none → t.held = false → s.ctxReady t true (t.ctx.toNat, 256) = .ok →
      ∀ f, (s.took t true (s.ctxLocs t (t.ctxBytes [])) true).headerPlace t = some f →
      let awake : Thread := { t with state := .dormant, parkc := 0, parkva := 0, wait := .none }
      let woken (o : Out) : Prop := ∃ u, o = .next u ∧ u.find t.key = some awake ∧
        bits (u.mem.readNum f 256) 66 64 = 1 ∧ bits (u.mem.readNum f 256) 79 76 = 0 ∧ bits (u.mem.readNum f 256) 511 448 = 0 ∧
        ∀ a, (a < f + 8 ∨ f + 10 ≤ a) → (a < f + 56 ∨ f + 64 ≤ a) → u.mem.read a = s.mem.read a
      woken (exec (.spuriousWake t.key) s) ∧ (s.waitOver t = true → woken (exec (.parkWake t.key) s)) ∧
      (s.waitOver t = false → exec (.parkWake t.key) s = .next s)) ∧
    (∀ w, t.waitLoad = some w →
      (w.lines.any (fun n => s.guardedEmpty (n * 128)) = true → exec (.guardedLoadResume t.key) s = .next s) ∧
      (w.lines.any (fun n => s.guardedEmpty (n * 128)) = false →
        let bad : Prop := ∃ p ∈ w.pieces, (s.badByte p.key p.n).isSome = true
        ((w.again = true ∨ bad) → ∃ u, exec (.guardedLoadResume t.key) s = .next u ∧ u.mem = s.mem ∧
          u.find t.key = some { t with waitLoad := none }) ∧
        (w.again = false → ¬ bad → t.accs = [] → s.forwards = [] →
          (∀ y ∈ s.all, posCore y.cur = posCore t.cur → ∀ a ∈ y.accs, a.scratchStore = false) → ∃ u, exec (.guardedLoadResume t.key) s = .next u ∧ u.mem = s.mem ∧
          u.find t.key = some {
            (s.loadPieces t w.pieces).past.busyFrom (max (s.core (posCore t.cur)).cycle s.clock) w.pieces with waitLoad := none }))))

/-- R27, R31, R305, R345, R346: a crumb within the device arrives at a core of its destination and its thread is DORMANT
there; one that no core takes returns, and its thread traps with class ENGINE, cause 5, at the group that set it off; the
record of an evicted trap goes to the next slot of its space's queue with the next SEQ, and the thread is TRAPPED. A crumb
that arrives writes STATE 1 to the header and leaves clean copies of hot lines at the core. R27, R28, R365: a crumb of a peer
that a core of its destination takes and whose context can be written is accepted: the thread is DORMANT at that core, with
the claims that came with it, and its launch is known here; any other is refused, with reason 1 where its launch is unknown
and nothing says what it is, or this device is not its destination, with 2 where no core there has its launch's mode or can
change to it. What goes with a crumb beside its bytes, and what refusals of reason 2 mean, are the model's: log entry 75. The
refusal of a crumb of an unknown launch, what a crumb carries, and posted records are the model's reading (log entries 64, 75
and 103). -/
def Obligations.CrumbsArriveAndTrapsAreRecorded : Prop :=
  (∀ (s : State) (t : Thread), s.find t.key = some t →
    (∀ x ∈ t.ctxBytes (hotOf t.hotl t.hotn), s.ctxReady t true x = .ok) →
    (t.state = .travelling → t.trapStage = .none → posDev t.dest = s.dev → t.killed = false → t.group = {} →
      (∀ core, s.crumbCore t = some core →
        let s0 := s.took t true (s.ctxLocs t (t.ctxBytes (hotOf t.hotl t.hotn))) true
        let v : Thread := { t with
          cur := posOf s.dev core
          state := .dormant
          arrived := true
          killed := false }
        ∃ u, exec (.crumbArrival t.key) s = .next u ∧ u.find t.key = some v ∧
          (∃ n, (u.core core).pre = (s.core core).pre ++ (s0.crumbLines t).take n) ∧
          ∀ f, s0.headerPlace v = some f → bits (u.mem.readNum f 256) 66 64 = 1 ∧
            ∀ a, (a < f ∨ f + 256 ≤ a) → u.mem.read a = s.mem.read a) ∧
      (s.crumbCores t = [] → ∃ u v, exec (.crumbUndeliverable t.key) s = .next u ∧ u.find t.key = some v ∧
        v.trclass = 10 ∧ v.trinfo = 5 ∧ v.trpc = t.travelPc ∧ v.pc = t.travelPc ∧ v.cur = t.cur ∧ v.trapStage = .evicted) ∧
      (s.crumbCores t ≠ [] → exec (.crumbUndeliverable t.key) s = .next s)) ∧
    (s.recordNext t = true → ∀ x, s.space? t.space = some x → x.tqPend = [] → x.tqLate = [] → x.field 191 128 = 0 →
      let slot := x.field 127 64 + 64 * ((x.tqHead + x.tqCount) % x.tqSize)
      let s0 := s.took t true (s.ctxLocs t (t.ctxBytes [])) true
      let v : Thread := { t with state := .trapped, trapStage := .none, homeless := (s.headerPlace t).isNone }
      (∀ f, (s0.postRecord t.space (some t.key) t.record).headerPlace t = some f → f + 256 ≤ slot ∨ slot + 64 ≤ f) →
      (x.tqCount < x.tqSize → s.recordReady x = .ok → s0.recordReady x = .ok → ∃ u, exec (.trapRecordWrite t.key) s = .next u ∧
        u.find t.key = some v ∧
        u.space? t.space = some { x with tqSeq := x.tqSeq + 1, tqCount := x.tqCount + 1 } ∧
        u.mem.readNum slot 64 = (t.record + (x.tqSeq + 1).toNat * 2 ^ 448) % 2 ^ 512) ∧
      (x.tqSize ≤ x.tqCount → ∃ u, exec (.trapRecordWrite t.key) s = .next u ∧
        u.find t.key = some v ∧
        u.space? t.space = some { x with
          tqSeq := x.tqSeq + 1
          tqPend := [(some t.key, BitVec.ofNat 512 (t.record + (x.tqSeq + 1).toNat * 2 ^ 448))] }))) ∧
  (∀ (s : State) (h : MsgHdr) (header : BitVec 1024) (lines : List (BitVec 1024)),
    let e := exec (.crumb h header lines) s
    let sends (t : State) (opc : Opc) (arg : BitVec 9) : Prop :=
      t.outPeer = s.outPeer ++ [answerTo h opc arg []]
    (s.launch? (header.extractLsb' 416 32) = none → h.pass = none →
      ∃ t, e = .next t ∧ t = { s with outPeer := t.outPeer } ∧ sends t .crr 1) ∧
    (∀ l, s.launch? (header.extractLsb' 416 32) = some l → h.pass = none → s.crumbLaunch header h.pass = some l) ∧
    (∀ p, h.pass = some p → ∃ l, s.crumbLaunch header h.pass = some l ∧ l.id = p.thread.launch ∧
      (s.launch? p.thread.launch = none → l.guest = true ∧ l.record = p.record ∧ l.origin = p.origin)) ∧
    (∀ l, s.crumbLaunch header h.pass = some l →
      let c := crumbThread l header h.claims h.pass
      let s1 : State := if (s.launch? l.id).isSome then s.setLaunch l else { s with launches := s.launches ++ [l] }
      (posDev c.dest ≠ s.dev ∨ s.space? c.space = none → ∃ t, e = .next t ∧ t = { s with outPeer := t.outPeer } ∧ sends t .crr 1) ∧
      (posDev c.dest = s.dev → s.space? c.space ≠ none →
        (s1.crumbCore c = none → ∃ t, e = .next t ∧ t = { s with outPeer := t.outPeer, launches := t.launches } ∧ sends t .crr 0) ∧
        (∀ core, s1.crumbCore c = some core → s1.crumbRoom l c = false →
          ∃ t, e = .next t ∧ t = { s with outPeer := t.outPeer, launches := t.launches } ∧ sends t .crr 2) ∧
        (∀ core, s1.crumbCore c = some core → s1.crumbRoom l c = true → s1.ctxReady c true (c.ctx.toNat, 256) = .ok →
          s.find c.key = none →
          ∃ t v, e = .next t ∧ sends t .cra 0 ∧ t.find c.key = some v ∧ t.launch? l.id ≠ none ∧
            v = { c with cur := posOf s.dev core, state := .dormant, arrived := true }))))

/-! ### Engines and outstanding accesses (spec R66, R86, R91 to R95, R120, R123 to R135, R139 to R147, R258 to R264, R312) -/

/-- R87, R120, R258, R259, R264: at the head of q4, MLDW fills the shadow plane, MSWAP exchanges the planes, and MZERO zeroes
its slot and makes it IDLE; each then completes. R134, R135, R262, R312: an epilogue that stores every row leaves its slot
IDLE with no saved record; one that cannot store row m leaves it FAULTED with that row and the record. The conversions of its
rows set their flags. MRESUME of a slot that is not FAULTED completes without an effect. That an epilogue is one step, and
what it leaves of a failing row, are the model's (log entries 5 and 43). -/
def Obligations.PlaneZeroAndEpilogueCommands : Prop :=
  (∀ (s : State) (tile : BitVec 7) (c : Cmd) (r : List Cmd), s.NoneWaits → s.txns = [] →
    let i := tile.toNat
    let x := s.tile i
    (x.queue 4).cmds = c :: r → x.mayStart c = true →
    (∀ rec ko no, c.work = .mldw rec ko no →
      let w := recWho c.by_ (s.tilePos i) rec
      let psize := s.recPage c.by_.key c.by_.space (i / 16) rec
      let kw := min (4 * (kShelf (recFmt rec)).getD 0) (recExt rec 0 - ko.toNat)
      let nw := min 256 (recExt rec 1 - no.toNat)
      let cs := (upto ko.toNat kw).flatMap (fun (k : Nat) => (upto no.toNat nw).map (fun (n : Nat) => (Int.ofNat k, Int.ofNat n)))
      s.engineParts (engineThread c.by_ i 4) false (recStream rec) (s.rectPlaces w false rec psize cs) (s.rectPlaces w false rec psize cs) = .ok →
      CompletesAt s (exec (.mldwRun tile) s) i 4 c r { x with shadow := s.loadPlane w rec psize ko.toNat no.toNat }) ∧
    (c.work = .mswap → Completes s (exec (.mswapRun tile) s) i 4 c r { x with active := x.shadow, shadow := x.active } none) ∧
    (∀ n, c.work = .mzero n → (x.slot n).owner ≠ none →
      ∃ y, Completes s (exec (.mzeroRun tile) s) i 4 c r (x.setSlot n y)
          ((x.slot n).owner.map (fun k => .epilogue k.1 k.2)) ∧ y.data = [] ∧ y.bad = [] ∧ y.erec = 0 ∧ y.eopb = 0 ∧
        y.owner = (x.slot n).owner ∧ bits y.accstat.toNat 31 30 = 1 ∧ bits y.accstat.toNat 19 0 = 0 ∧
        bits y.accstat.toNat 39 32 = 0)) ∧
  (∀ (s : State) (tile : BitVec 7) (c : Cmd) (r : List Cmd) (n : Nat), s.txns = [] →
    let i := tile.toNat
    let x := s.tile i
    let q := x.slot n
    (x.queue 4).cmds = c :: r → x.mayStart c = true → q.owner ≠ none →
    let E (o : Out) (erec : BitVec 1024) (opb : Word) (from_ nc : Nat) (low : Option (BitVec 20)) : Prop :=
      let w := recWho c.by_ (s.tilePos i) erec
      let psize := s.recPage c.by_.key c.by_.space (i / 16) erec
      let cs := (upto from_ ((mmaOp opb).m - from_)).flatMap (fun m => (upto 0 nc).map (fun k =>
        ((mmaOp opb).ec + (k : Nat), (mmaOp opb).er + (m : Nat))))
      let ps := s.rectPlaces w true erec psize cs
      let by_ := engineThread c.by_ i 4
      s.engineParts by_ true false ps ps = .ok →
      let e := (s.took by_ true ps).epilogue w (mmaOp opb) erec psize nc q.data ((mmaOp opb).m - from_) from_ 0
      ∃ t, o = .next t ∧ t.mem = e.1.mem ∧ ((t.tile i).queue 4).cmds = r ∧ ((t.tile i).queue 4).done = c.ticket ∧
        ((t.tile i).slot n).data = q.data ∧
        bits ((t.tile i).slot n).accstat.toNat 15 0 =
          (match low with | some d => d.toNat % 2 ^ 16 | none => bits q.accstat.toNat 15 0) ∧
        (∀ k, 16 ≤ k → k < 20 → ((t.tile i).slot n).accstat.getLsbD k =
          (q.accstat.getLsbD k || (match low with | some d => d.getLsbD k | none => false) || (accEvents e.2.1).getLsbD k)) ∧
        match e.2.2 with
        | none => bits ((t.tile i).slot n).accstat.toNat 31 30 = 1 ∧ bits ((t.tile i).slot n).accstat.toNat 39 32 = 0 ∧
            ((t.tile i).slot n).erec = 0 ∧ ((t.tile i).slot n).eopb = 0
        | some m => bits ((t.tile i).slot n).accstat.toNat 31 30 = 3 ∧
            bits ((t.tile i).slot n).accstat.toNat 39 32 = m % 256 ∧
            ((t.tile i).slot n).erec = erec ∧ ((t.tile i).slot n).eopb = opb
    s.NoneWaits →
    (∀ act erec opa opb nw low, c.work = .mma n true act erec opa opb (some (nw, low)) →
      E (exec (.epilogueComplete tile) s) erec opb 0 nw (some low)) ∧
    (∀ nc, c.work = .mresume n nc →
      (q.faulted = true → E (exec (.mresumeRun tile) s) q.erec q.eopb (accFrow q.accstat) nc none) ∧
      (q.faulted = false → Completes s (exec (.mresumeRun tile) s) i 4 c r x none)))

/-- R123 to R128, R130 to R132, R134, R261: MMA and MMAE at the head of q4 add to every element (m, n) of their rectangle the
shelf sums of the activation row and the active plane, combined over the usable shelves or, in canonical order, over all
four, and leave the other elements; the fold descriptor and the sticky flags follow, of MMA in ACCSTAT as it completes, of
MMAE in what its epilogue, which is then pending, will set. A FAULTED slot receives nothing but DISC, and with no usable
shelf the command waits. CAUSE and the flags of an operand that is NaN are the model's reading: log entries 29 and 97. That
an update is one step, the flags of a NaN product, and CAUSE of a command without products are the model's (log entries 5, 29
and 97). -/
def Obligations.MatrixMultiplyAddsShelfSums : Prop :=
  ∀ (s : State) (tile : BitVec 7) (c : Cmd) (r : List Cmd) (n : Nat) (epi : Bool) (act erec : BitVec 1024) (opa opb : Word),
    s.NoneWaits → s.txns = [] →
    let i := tile.toNat
    let x := s.tile i
    let q := x.slot n
    let u := s.shelfUp (i / 16)
    let o := mmaOp opb
    let p := x.active
    let ks := (kShelf ((p.fmt.map (fun f => f.toNat)).getD 0)).getD 0
    let keff := (min (p.kw : Int) (recExt act 0 - loHalf opa)).toNat
    let w := recWho c.by_ (s.tilePos i) act
    let psize := s.recPage c.by_.key c.by_.space (i / 16) act
    let sums (m k g : Nat) : Nat × Flags :=
      shelfSums p c.by_.ftz16 ks keff (s.actRow w act psize c.by_.ftz16 (loHalf opa) (hiHalf opa + m) keff) k g
    let sum (m k : Nat) : Nat × Flags :=
      combine (c.by_.order || u == 0xF) u (q.data.readNum (1024 * m + 4 * k) 4) (fun g => if g < 4 then (sums m k g).1 else 0)
    let data (y : Memory) : Prop := ∀ m k, m < 128 → k < 256 → y.readNum (1024 * m + 4 * k) 4 =
      if m < o.m ∧ k < p.nw ∧ keff ≠ 0 then (sum m k).1 % 2 ^ 32 else q.data.readNum (1024 * m + 4 * k) 4
    let raised (f : Flags) : Prop := keff ≠ 0 ∧ ∃ m < o.m, ∃ k < p.nw, (sum m k).2 &&& f ≠ 0 ∨ ∃ g < 4, (sums m k g).2 &&& f ≠ 0
    let sets (d : BitVec 20) : Prop :=
      (if keff = 0 ∨ p.nw = 0 then d.toNat % 2 ^ 16 = 0x300 else IsDescriptor (s.tower (i / 16)) u c.by_.order (d.toNat % 2 ^ 16)) ∧
        (d.getLsbD 16 = true ↔ raised fOF) ∧ (d.getLsbD 17 = true ↔ raised fNV) ∧ (d.getLsbD 18 = true ↔ raised fSAT) ∧
        d.getLsbD 19 = false
    (x.queue 4).cmds = c :: r → x.mayStart c = true → q.owner ≠ none → c.work = .mma n epi act erec opa opb none →
    (q.faulted = true → Completes s (exec (.mmaRun tile) s) i 4 c r
      (x.setSlot n { q with accstat := q.accstat ||| 0x80000 }) none) ∧
    (q.faulted = false → u = 0 → exec (.mmaRun tile) s = .next s) ∧
    (q.faulted = false → u ≠ 0 → p.nw ≤ 256 → ∃ d, sets d ∧
      (epi = false → ∃ y, Completes s (exec (.mmaRun tile) s) i 4 c r (x.setSlot n y) none ∧
        y = { q with data := y.data, accstat := y.accstat } ∧ data y.data ∧
        bits y.accstat.toNat 15 0 = d.toNat % 2 ^ 16 ∧ bits y.accstat.toNat 63 20 = bits q.accstat.toNat 63 20 ∧
        ∀ e, 16 ≤ e → e < 20 → y.accstat.getLsbD e = (q.accstat.getLsbD e || d.getLsbD e)) ∧
      (epi = true → ∃ t, exec (.mmaRun tile) s = .next t ∧ t = { s with tiles := t.tiles } ∧
        (∀ j, j ≠ i → t.tile j = s.tile j) ∧
        t.tile i = { x with
          queues := (t.tile i).queues
          slots := (t.tile i).slots } ∧
        (∀ k, k ≠ 4 → (t.tile i).queue k = x.queue k) ∧
        (t.tile i).queue 4 = { x.queue 4 with cmds := { c with work := .mma n true act erec opa opb (some (p.nw, d)) } :: r } ∧
        (∀ k, k ≠ n → (t.tile i).slot k = x.slot k) ∧
        (t.tile i).slot n = { q with data := ((t.tile i).slot n).data } ∧ data ((t.tile i).slot n).data))

/-- R66, R86, R91 to R97, R139 to R147, R158, R270: a segment of a copy that shares no granule with another stores its
elements' codes, all or none, and is left no more; COPYM hands its follow-on to q4 with the last one, where the slot that it
names is bound here and not FAULTED and the checks of MMA pass. The arrival word receives the add of the segment, or that of
the command with the last one, with ERR for a failure and DGERR for a digest that does not match, and the last segment
completes the command. (Where the word stands at a peer, its add goes there as a message.) A copy of a REPLICA page takes the
bytes of the oldest store that it does not hold, once no other agent holds its line. An outstanding store reaches memory, and
an outstanding load its registers, when the accesses before it allow and no other agent holds its line; fences that then have
nothing before them are passed. That a follow-on is handed over after a failed segment is the model's choice: log entry 110.
That a segment reads all before it writes is the model's reading (log entry 38); which accesses stay outstanding, and a
follow-on for which there is no room, its choice (log entries 6 and 98). -/
def Obligations.OutstandingWorkIsPerformed : Prop :=
  (∀ (s : State) (tile : BitVec 7) (q : BitVec 2) (n : Nat) (c : Cmd) (r : List Cmd) (kind : CopyKind) (b : BitVec 2048)
      (src dst : BitVec 1024) (aw : Option Nat) (left failed : List Nat) (wrote : List (Nat × List Byte)),
    s.NoneWaits → s.txns = [] → s.bad = [] →
    let i := tile.toNat
    let x := s.tile i
    let j := s.copyJob i q.toNat c.by_ kind b src dst aw c.read
    let us := j.units n
    let from_ := s.segSources j.ws us
    let left' := left.filter (fun m => m != n)
    let last := left'.isEmpty
    let to_ := s.copyTargets j us (left.length == 1)
    let by_ := engineThread c.by_ i q.toNat
    let a := s.copyReach j by_ us (left.length == 1)
    let ws := us.flatMap ((a.withRead c.read).unitWrites j.ws j.wd b (recFmt src))
    let ok := ws.all Option.isSome
    let failed' := if ok then failed else n :: failed
    (x.queue q.toNat).cmds = c :: r → x.mayStart c = true → c.work = .copy kind b src dst aw left failed wrote →
    n ∈ left → x.serves q.toNat = true → cbSetf b = false → s.withShared j left left.length [n] = [n] →
    s.engineParts by_ false (recStream src) from_ from_ = .ok → s.engineParts by_ true false to_ to_ = .ok →
    a.noteImages c.by_.scsz (a.segPlaces j.wd us) = a →
    (∀ y ∈ ws, ∀ z, y = some z → z.high = none ∧ (z.locs.map (fun l => l.n)).sum = z.n) →
    (∀ key, aw = some key → s.isPeer key = false ∧ (a.darkCheck {
      va := 0
      n := 16
      key := key
      win := if isCoreKey key then some .core else if isHearthKey key then some .hearth else none } = .ok ())) →
    let s1 := if ok then a.writeAll (ws.filterMap id) else a
    (kind = .copym → last = true → s.followNeed i c.by_ b = none ∧ s1.followNeed i c.by_ b = none) →
    let wrote' := if ok && kind == .copyd then wrote ++ [(n, s1.segStream j.wd us)] else wrote
    let stream := ((upto 0 j.segs.length).map (fun m => Tab.get wrote' m [])).flatten
    let handed := if kind = .copym ∧ last = true then s1.followOn i q.toNat c.by_ b else (s1, true)
    let dg := kind == .copyd && shake256 stream != cbDgst b
    let add : Option (Nat × Bool × Bool) :=
      if cbArrv b then (if last then some (1, !failed'.isEmpty || !handed.2, dg) else none)
      else if kind = .copyd then (if last then some ((j.segs.map (segCount (recFmt src))).sum, !failed'.isEmpty, dg) else none)
      else some (segCount (recFmt src) us, !ok || !handed.2, false)
    ∃ t u, exec (.copySegment tile q n) s = .next t ∧
      t = { s.like t with
        mem := t.mem
        bad := t.bad
        remote := t.remote
        pins := t.pins } ∧ KeptCores s t ∧
      (∀ k, k ≠ i → t.tile k = { s.tile k with cells := (t.tile k).cells }) ∧
      t.tile i = { x with
        queues := (t.tile i).queues
        cells := (t.tile i).cells
        lastq := q } ∧
      (∀ k, k ≠ q.toNat → k ≠ 4 → (t.tile i).queue k = x.queue k) ∧
      (∀ k, Memory.read u k = if ok then
          (storedAt (ws.flatMap (fun y => (y.map (fun z => z.locs)).getD []))
            (ws.flatMap (fun y => (y.map (fun z => leBytes z.n z.code)).getD [])) k).getD (s.mem.read k)
        else s.mem.read k) ∧
      t.mem = (match aw, add with
        | some key, some (m, e, g) => u.writeBytes key (leBytes 16 (arrivalAdd (u.readNum key 16) m e g))
        | _, _ => u) ∧
      (last = true → ((t.tile i).queue q.toNat).cmds = r ∧ ((t.tile i).queue q.toNat).done = c.ticket) ∧
      (last = false → ((t.tile i).queue q.toNat).cmds =
        { c with
          work := .copy kind b src dst aw left' failed' wrote'
          read := c.read ++ ((s.sharedSources j [n] left).filter (fun g => !c.read.any (fun x => x.1 == g))).map
            (fun g => (g, s.bytesAt (16 * g) 16)) } :: r) ∧
      (let slot := fowSlot (cbFow b)
       let epi := (cbFow b).extractLsb' 24 8 == (0xC5 : BitVec 8)
       let bound (m : Nat) : Prop := ∃ th cl, s1.find c.by_.key = some th ∧ th.claim? slot = some cl ∧ cl.phys = some (i, m)
       kind = .copym → last = true →
       (∀ m la le, bound m → (s1.tile i).isFaulted m = false → s1.mmaCheck c.by_ i epi (cbFoa b) (cbFob b) = .ok (la, le) →
         handed.2 = true ∧ (t.tile i).queue 4 = { x.queue 4 with
           enq := x.nextTicket 4
           cmds := (x.queue 4).cmds ++ [{
             ticket := x.nextTicket 4
             by_ := c.by_
             direct := false
             kept := if x.keptEntry q.toNat then some q.toNat else none
             after := x.marksFor 4
             work := .mma m epi la le (cbFoa b) (cbFob b) none : Cmd }] }) ∧
       ((∀ m, bound m → (s1.tile i).isFaulted m = true ∨ ∀ y, s1.mmaCheck c.by_ i epi (cbFoa b) (cbFob b) ≠ .ok y) →
         handed.2 = false ∧ (t.tile i).queue 4 = x.queue 4))) ∧
  (∀ (s : State) (n : Nat) (copy : BitVec 9) (f : Forward) (key : Nat), s.forwards[n]? = some f →
    f.left[copy.toNat]? = some key →
    (earlierForward (s.forwards.take n) f key = true → exec (.replicaForward n copy) s = .next s) ∧
    (earlierForward (s.forwards.take n) f key = false → s.readyLoc (copierThread s) true (f.copyLoc key) = .ok →
      (∀ u c k r, s.find f.thread = some u → u.accs ≠ .fence c k :: r) →
      ∃ t, exec (.replicaForward n copy) s = .next t ∧
      t = { s.like t with
        mem := t.mem
        bad := t.bad
        remote := t.remote
        forwards := if (without f.left copy.toNat).isEmpty then without s.forwards n
          else adjust s.forwards n (fun g => { g with left := without f.left copy.toNat }) } ∧ Kept s t ∧
      ∀ a, t.mem.read a = if key ≤ a ∧ a < key + f.bytes.length then f.bytes.getD (a - key) 0 else s.mem.read a)) ∧
  (∀ (s : State) (t : Thread) (n : Nat) (before : List Acc) (a : Acc), s.find t.key = some t → s.forwards = [] →
    splitAcc n [] t.accs = some (before, a) → s.accsReady { t with accs := [a] } = .ok →
    let after : List Acc := (t.accs.filter (fun b => b.number != some n)).dropWhile (fun b => b.number.isNone)
    (∀ ps, a = .store n ps → (∀ p ∈ ps, p.copies = []) →
      (mayPerform a false before = true → ∃ u, exec (.storeApplied t.key n) s = .next u ∧
        u.find t.key = some { t with accs := after } ∧
        Stored s u (ps.map (fun p => { va := 0, n := p.bytes.length, key := p.key : Loc })) (ps.flatMap (fun p => p.bytes))) ∧
      (mayPerform a false before = false → exec (.storeApplied t.key n) s = .next s)) ∧
    (∀ ps, a = .load n ps →
      (mayPerform a false before = true → ∃ u, exec (.loadPerformed t.key n) s = .next u ∧ u.mem = s.mem ∧
        u.find t.key = some { (s.loadPieces t ps) with accs := after }) ∧
      (mayPerform a false before = false → exec (.loadPerformed t.key n) s = .next s)))

/-! ### Firmware (spec R59, R126, R295, R324 to R326, R340, R368, R375, R378, R379) -/

/-- R295, R340: a stage of the watchdog that is due is marked in its launch. Stage 1 makes the launch come last, and what a
core holds of its threads issues nothing more; stage 2 kills the launch as CTL.killl does; stage 3 fences and reports the
cores that hold its threads, or reports that none does, and the launch counts as complete. Stages 1 and 2 leave a record in
the space's queue. A stage that is not due does nothing. What the threads of a fenced core do is the model's reading (log
entry 78). -/
def Obligations.WatchdogStagesFire : Prop :=
  ∀ (s : State) (q : BitVec 6) (l : Launch), s.launch? l.id = some l →
    (s.stageDue q.toNat 1 = none → exec (.wdogPreempt q) s = .next s) ∧
    (s.stageDue q.toNat 2 = none → exec (.wdogKill q) s = .next s) ∧
    (s.stageDue q.toNat 3 = none → exec (.wdogFence q) s = .next s) ∧
    (s.stageDue q.toNat 1 = some l → ∃ t, exec (.wdogPreempt q) s = .next t ∧
      t.launch? l.id = some { l with fired := l.fired ||| 1, depri := true } ∧
      ∀ u ∈ t.all, u.key.launch = l.id → u.held = true → u.leaving = true) ∧
    (s.stageDue q.toNat 2 = some l → ∃ u : State, exec (.wdogKill q) s = .next (u.killLaunch l.id) ∧
      u.launch? l.id = some { l with fired := l.fired ||| 2 } ∧ u.all.map Thread.key = s.all.map Thread.key) ∧
    (s.stageDue q.toNat 3 = some l → ∃ t, exec (.wdogFence q) s = .next t ∧
      (∀ k, (t.core k).fenced = ((s.core k).fenced || (s.coresOf l.id).contains k)) ∧
      t.reports = s.reports ++ (if s.coresOf l.id = [] then [.noneFenced q.toNat]
        else (s.coresOf l.id).map (fun k => .coreFenced k q.toNat)) ∧
      (l.reported.contains s.dev = false → ∀ m, t.launch? l.id = some m → m.localDone = true)) ∧
    (s.NoneWaits → (∀ u ∈ s.all, u.key.launch = l.id → u.held = false ∧ u.state = .done) →
      (∀ x, s.space? l.space = some x → x.tqPend = [] → x.tqLate = [] → x.tqSize ≤ x.tqCount →
        (∀ u ∈ s.all, u.space = l.space → u.trapStage = .none) →
        let rec_ (k : Nat) : Option (SpaceSt) := some { x with
          tqSeq := x.tqSeq + 1
          tqPend := [(none, BitVec.ofNat 512 (plainRecord { cls := .wdog, cause := k, detail := q.toNat } l.space l.id s.nsec +
            (x.tqSeq + 1).toNat * 2 ^ 448))] }
        (s.stageDue q.toNat 1 = some l → ∃ t, exec (.wdogPreempt q) s = .next t ∧ t.mem = s.mem ∧
          t.space? l.space = rec_ 1 ∧ t.launch? l.id = some { l with fired := l.fired ||| 1, depri := true }) ∧
        (s.stageDue q.toNat 2 = some l → l.spans = false → l.aw = none → ∃ t, exec (.wdogKill q) s = .next t ∧
          t.mem = s.mem ∧ t.space? l.space = rec_ 2 ∧ t.launch? l.id = none)) ∧
      (s.stageDue q.toNat 3 = some l → l.spans = false → l.aw = none → ∃ t, exec (.wdogFence q) s = .next t ∧
        t = { s with launches := t.launches, reports := s.reports ++ [.noneFenced q.toNat] } ∧
        t.launch? l.id = some { l with fired := l.fired ||| 4, localDone := true }))

/-- R59, R73, R126, R340, R378, R379: the last reading of a sensor in a sample is what it reads until the next sample, but
none is valid while its layer is off; after a sample of one sensor, a shelf whose reading is at or above SHELF_LIM is
throttled, a hearth at or above HEARTH_LIM limited, and a tower with a reading at or above TRIP has its cores fenced and is
reported. A sample changes no memory and no thread. -/
def Obligations.SensorsThrottleAndTrip : Prop :=
  (∀ (s : State) (l : List (BitVec 11 × Option (BitVec 11))), ∃ t, exec (.sensorSample l) s = .next t ∧
    t.mem = s.mem ∧ t.thr = s.thr ∧ t.threads = s.threads ∧
    (l = [] → ∀ i, t.sensor i = if s.sensorOff i then none else s.sensor i) ∧
    ∀ i r, l.getLast? = some (i, some r) → t.sensor i.toNat = if s.sensorOff i.toNat then none else some r) ∧
  (∀ (s : State) (i r : BitVec 11), i.toNat < 1792 → s.sensorOff i.toNat = false → ∃ t, exec (.sensorSample [(i, some r)]) s = .next t ∧
    let tower := i.toNat / 224
    let layer := i.toNat % 224 / 16
    (∀ j, t.sensor j = if j = i.toNat then some r else if s.sensorOff j then none else s.sensor j) ∧
    (2 ≤ layer → layer < 6 → s.therm.1.toNat ≤ r.toNat → (t.tower tower).throttled.getLsbD (layer - 2) = true) ∧
    (layer = 0 → s.therm.2.1.toNat ≤ r.toNat → (t.tower tower).hthrot = true) ∧
    (s.therm.2.2.toNat ≤ r.toNat → (∀ k, k / 64 = tower → (t.core k).fenced = true ∧ k ∈ t.refenced) ∧ Report.trip tower ∈ t.reports))

/-- R324 to R326, R375, R376: the patrol marks and reports the shards of a space that are not what was recorded, once no
other agent holds their lines; the evaluation keeps, of the firmware's choices among pages that may move, those toward a tier
that it prefers, or away from one to make room for a page with more accesses, those with the most accesses first, and a new
interval begins (which of them it keeps is log entry 68); a move claims the entry with MV, fences and performs what resolved
before, and copies the page; its end installs the new frame exactly if the entry is still what it was with MV. Where a move
finds its frame is the model's choice (log entry 68), and a shard with bad data a mismatch by its reading (log entry 79). -/
def Obligations.PatrolsAndPageMoves : Prop :=
  (∀ (s : State) (sp : BitVec 16) (x : SpaceSt), s.space? sp = some x →
    (x.field 223 192 = 0 → exec (.shardPatrol sp) s = .next s) ∧
    (x.field 223 192 ≠ 0 →
      s.ready (firmwareThread sp) false ((s.shards.filter (fun y => y.space == sp)).map (fun y => plainLoc y.base y.len)) = .ok →
      ∃ t, exec (.shardPatrol sp) s = .next t ∧ t = { s.like t with shards := t.shards, reports := t.reports } ∧ Kept s t ∧
      t.shards.length = s.shards.length ∧
      (∀ y ∈ s.shards, y.space = sp → s.shardFails y = true →
        { y with bad := true } ∈ t.shards ∧ Report.shardBad y.part.toNat y.number ∈ t.reports) ∧
      (∀ y ∈ s.shards, (y.space ≠ sp ∨ s.shardFails y = false) → y ∈ t.shards))) ∧
  (∀ (s : State) (l : List (BitVec 16 × Word × BitVec 60)),
    let all := l.filterMap s.choice?
    let wanted (x : Choice) : Prop := x.new < x.old ∨
      (x.old < x.new ∧ ∃ y ∈ all, y.new ≤ x.old ∧ x.old < y.old ∧ x.count < y.count)
    (∀ c x, s.choice? c = some x → x.space = c.1 ∧ x.va = c.2.1 ∧ x.frame = c.2.2 ∧
      ∃ at_ e, s.movable c.1 c.2.1.toNat c.2.2.toNat = some (at_, e) ∧ x.count = Tab.get s.counts (eBase e / 2 ^ 17) 0 ∧
        s.tierRank (eBase e) = some x.old ∧ s.tierRank c.2.2.toNat = some x.new) ∧
    ∃ (t : State) (best : List Choice), exec (.residencyEval l) s = .next t ∧ t = { s with chosen := t.chosen, counts := [] } ∧
      t.chosen = best.map (fun x => (x.space, x.va, x.frame)) ∧ best.Pairwise (fun x y => y.count ≤ x.count) ∧
      ∀ x, x ∈ best ↔ x ∈ all ∧ wanted x) ∧
  (∀ (s : State) (sp : BitVec 16) (va : Word) (f : BitVec 60) (r : List (BitVec 16 × Word × BitVec 60)),
    s.chosen = (sp, va, f) :: r → (∀ u ∈ s.all, u.accs = []) → s.forwards = [] →
    (s.movable sp va.toNat f.toNat = none → exec .pageMove s = .next { s with chosen := r }) ∧
    (∀ at_ e, s.movable sp va.toNat f.toNat = some (at_, e) → s.frameBusy (eBase e) = false →
      (at_ + 16 ≤ eBase e ∨ eBase e + 2 ^ 17 ≤ at_) → (at_ + 16 ≤ f.toNat ∨ f.toNat + 2 ^ 17 ≤ at_) →
      s.ready (moverThread sp) true [plainLoc at_ 16, plainLoc (eBase e) (2 ^ 17), plainLoc f.toNat (2 ^ 17)] = .ok →
      ∃ t, exec .pageMove s = .next t ∧ t.chosen = r ∧
        t.moves = s.moves ++ [{ space := sp, va := BitVec.ofNat 64 va.toNat, entryAt := at_, old := BitVec.ofNat 128 e, frame := f.toNat }] ∧
        t.mem.readNum at_ 16 = (e + 4) % 2 ^ 128 ∧
        t.mem.readBytes f.toNat (2 ^ 17) = s.mem.readBytes (eBase e) (2 ^ 17) ∧
        (∀ a, (a < at_ ∨ at_ + 16 ≤ a) → (a < f.toNat ∨ f.toNat + 2 ^ 17 ≤ a) → t.mem.read a = s.mem.read a) ∧
        (∀ b ∈ t.banks, eBase b.entry.toNat ≠ eBase e) ∧ ∀ k, ∀ x ∈ (t.core k).l1, inFrame (eBase e) x.key = false)) ∧
  (∀ (s : State) (m : Move) (r : List Move), s.moves = m :: r → s.waiting = [] →
    s.ready (moverThread m.space) true [plainLoc m.entryAt 16] = .ok →
    ∃ t, exec .pageMoveInstall s = .next t ∧ t.moves = r ∧
      (s.mem.readNum m.entryAt 16 = m.old.toNat + 4 →
        t.mem.readNum m.entryAt 16 = (m.old.toNat - eBase m.old.toNat + m.frame) % 2 ^ 128) ∧
      (s.mem.readNum m.entryAt 16 ≠ m.old.toNat + 4 → t.mem = s.mem))

/-- R368: after MODULE_RESET memory is zero, nothing is loaded, accepted or held, no tower has a partition; hearths are on,
and the cores that the self-test failed are fenced; the ports that the flash configuration names are in peer mode, and two
others are command ports 0 and 1. What the state right after reset holds is that of the spec: no thread runs, and the limits
are those of R379. The powered layers and fuses are the facts of the event. What the spec gives no reset value for, and what
the bring-up keeps, are the model's choice (log entries 2 and 69). -/
def Obligations.ResetLeavesAnEmptyMachine : Prop :=
  (∀ (s : State) (x : BootFacts), ∃ t, exec (.moduleReset x) s = .next t ∧ t.mem = [] ∧ t.bad = [] ∧ t.threads = [] ∧
    t.thr = {} ∧ t.spaces = [] ∧ t.launches = [] ∧ t.recordsIn = [] ∧ t.away = [] ∧ t.posted = [] ∧ t.pins = [] ∧
    t.banks = [] ∧ t.uppers = [] ∧ t.shards = [] ∧ t.partmap = 0 ∧
    t.caches = [] ∧ t.hearths = [] ∧ t.halves = [] ∧ t.dir = [] ∧ t.remote = [] ∧
    (∀ p < 18, (t.port p).peer = x.peerPorts.getLsbD p) ∧
    (∀ a b : BitVec 5, x.commandPorts = (a, b) → a ≠ b → a.toNat < 18 → b.toNat < 18 → x.peerPorts.getLsbD a.toNat = false →
      x.peerPorts.getLsbD b.toNat = false → t.cmdPorts = [(0, a), (1, b)]) ∧
    t.sdtb = [] ∧ t.booted = true ∧ t.holder = 0 ∧ t.clock = 0 ∧ t.therm = (840, 760, 920) ∧
    (∀ k < 512, (t.core k).fenced = x.failed.getLsbD k ∧ (t.core k).cycle = 0) ∧
    (∀ k < 8, (t.tower k).fused = x.fused.extractLsb' (4 * k) 4 ∧ t.powerOf k = .on) ∧
    (∀ k < 8, ∀ i < 8, t.powerOf (k + 16 * (6 + i)) = if x.weightOn.getLsbD (8 * k + i) then .on else .off) ∧
    (∀ q < 64, t.wdlimOf q = BitVec.ofNat 64 (10000 * 2 ^ 40 + 1000 * 2 ^ 20 + 100))) ∧
  (State.reset.mem = [] ∧ State.reset.threads = [] ∧ State.reset.thr.state = .done ∧ State.reset.clock = 0 ∧
    State.reset.partmap = 0 ∧ State.reset.holder = 0 ∧ State.reset.therm = (840, 760, 920) ∧
    (∀ k, State.reset.core k = {}) ∧ ∀ q, State.reset.wdlimOf q = BitVec.ofNat 64 (10000 * 2 ^ 40 + 1000 * 2 ^ 20 + 100))

/-! ### Host commands and the configuration semaphore (spec R366 to R375, R377, R379) -/

/-- R366, R367: REQ of a free semaphore makes its command port the holder, with the next generation and LEASE 1,000; of its
holder it renews the lease; of another port it changes nothing. REL of the holder frees it, of another changes nothing; a
port that bring-up did not designate changes nothing. Writes of both ports in one cycle are taken in turn from the port with
the older grant; a read gives the word. A lease that lapses frees it and is reported. A configuration command of a port that
does not hold it is answered with status 2 and changes nothing else, and any command before the bring-up has ended with
status 6. The order in which a command is checked, and ties at the semaphore, are the model's choice (log entries 61 and
118). -/
def Obligations.SemaphoreIsGrantedAndFreed : Prop :=
  ∀ (s : State) (p : Bool),
    (s.isCommandPort p = false → exec (.cfgsemReq p) s = .next s ∧ exec (.cfgsemRel p) s = .next s) ∧
    (s.isCommandPort p = true →
      (s.holder = 0 → ∃ t, exec (.cfgsemReq p) s = .next t ∧
        t = { s with
          holder := if p then 2 else 1
          semGen := s.semGen + 1
          lease := 1000
          lastGrant := some p }) ∧
      (s.holder ≠ 0 → s.holder = (if p then 2 else 1) → exec (.cfgsemReq p) s = .next { s with lease := 1000 }) ∧
      (s.holder ≠ 0 → s.holder ≠ (if p then 2 else 1) → exec (.cfgsemReq p) s = .next s) ∧
      (s.holder = (if p then 2 else 1) → exec (.cfgsemRel p) s = .next { s with holder := 0, lease := 0 }) ∧
      (s.holder ≠ (if p then 2 else 1) → exec (.cfgsemRel p) s = .next s)) ∧
    (∀ a b r, s.turns = .semWrites a b :: r → s.isCommandPort false = true → s.isCommandPort true = true → s.holder = 0 →
      a.toNat % 4 = 1 → b.toNat % 4 = 1 →
      ∃ t, step s = .next t ∧ t.semGen = s.semGen + 1 ∧ t.lease = 1000 ∧
        (s.lastGrant = some true → t.holder = 1) ∧ (s.lastGrant = some false → t.holder = 2)) ∧
    (∀ r, s.turns = .semRead p :: r → s.isCommandPort p = true → ∃ w : Word,
      step s = .next { s with turns := r, outHost := s.outHost ++ [.cfgsem p w] } ∧
      bits w.toNat 9 8 = s.holder.toNat ∧ bits w.toNat 31 16 = s.semGen.toNat ∧ bits w.toNat 63 32 = s.lease.toNat ∧
      bits w.toNat 7 0 = 0 ∧ bits w.toNat 15 10 = 0) ∧
    (s.holder ≠ 0 → exec .leaseLapse s = .next { s with
      holder := 0
      lease := 0
      reports := s.reports ++ [.leaseLapsed] }) ∧
    (s.holder = 0 → exec .leaseLapse s = .next s) ∧
    (∀ b : BitVec 2048, s.inHand.contains (.port p b) = false →
      let C (o : Out) (r : CmdRow) : Prop := cmdCode b = r.code →
        let R (n : Nat) : Prop := ∃ t, Answers s o p n [] t ∧
          t = { s with outHost := t.outHost, inHand := t.inHand, flips := s.flips.filter (fun x => x.src != .port p b) }
        (s.booted = false → R 6) ∧
        (s.booted = true → s.isCommandPort p = true → r.clean b = true → s.holder ≠ (if p then 2 else 1) → R 2)
      C (exec (.partset (.port p b)) s) ⟨0x10, true, false, [(64, 4), (72, 3), (80, 1), (128, 64)]⟩ ∧
      C (exec (.sdtset (.port p b)) s) ⟨0x11, true, true, [(64, 128)]⟩ ∧
      C (exec (.bias (.port p b)) s) ⟨0x30, true, true, [(64, 64), (128, 32), (192, 1), (256, 64)]⟩ ∧
      C (exec (.power (.port p b)) s) ⟨0x40, true, true, [(64, 192)]⟩ ∧
      C (exec (.shelf (.port p b)) s) ⟨0x41, true, true, [(64, 3), (128, 4), (192, 1), (256, 64)]⟩ ∧
      C (exec (.unfence (.port p b)) s) ⟨0x60, true, true, [(64, 9)]⟩ ∧
      C (exec (.thermlim (.port p b)) s)
        ⟨0x70, true, false, [(64, 11), (80, 11), (96, 11), (128, 11), (144, 11), (160, 11)]⟩)

/-- R369 to R377, R379: what the host commands do for a port whose command passes the checks, and what they answer. IDENTIFY
gives the device, the present towers, the fused shelves and the fenced cores; ATTEST writes its reply, through DOE it gives
it whole; PARTSET changes a tower's partition and gives PARTMAP; SDTSET moves a partition's table; LAUNCH and KILL act as
CTL.launch and CTL.killl; BIAS changes the bias of its pages one after another, each once the other side holds no line of it,
and later requests for the page wait until then; POWER and SHELF act as LPWR, CTL.park and CTL.unpark; a layer that goes off,
or leaves off, loses its bytes, bad marks and L1 lines, and one that goes off its recorded shards; SHARDLD copies and records
a shard whose digest fits; SHARDDROP forgets one; UNFENCE returns an empty core, unless it was fenced again meanwhile;
THERMLIM sets limits. A configuration command renews the lease. Nothing else changes but the caches where memory is touched.
The order of the checks, what BIAS counts, SHARDLD of a wrong digest and UNFENCE of a core that is not fenced are the model's
(log entries 56, 57, 58 and 61). -/
def Obligations.HostCommandsAct : Prop :=
  ∀ (s : State) (p : Bool) (b : BitVec 2048),
    let src := CmdSrc.port p b
    let part := bits b.toNat 18 16
    let w := cmdDw b
    let ok (code : Nat) (config owned : Bool) (named : List (Nat × Nat)) : Prop :=
      cmdCode b = code ∧ s.inHand.contains src = false ∧ s.isCommandPort p = true ∧
        s.cmdStatus { code := code, config := config, owned := owned, named := named } src b none = 0
    let free_ := s.flips.filter (fun x => x.src != src)
    let frame (config : Bool) (t u : State) : Prop := t = { u with
      outHost := t.outHost
      inHand := t.inHand
      flips := free_
      lease := if config then 1000 else s.lease }
    (ok 0x01 false false [(64, 12), (80, 8), (128, 32), (192, 1024)] →
      ∃ t, Answers s (exec (.identify src) s) p 0
        ([(1, s.dev.toNat + s.present.toNat * 2 ^ 16), (2, s.fusedMask)] ++ dwordsFrom 3 8 s.fencedMask) t ∧ frame false t s) ∧
    (ok 0x02 false false [(64, 448)] → w 5 % 8 = 0 →
      let bs := s.attestReply (bits b.toNat 319 64)
      bs.length ≤ w 6 → s.usable (w 5) bs.length = true → s.ready (firmwareThread 0) true [plainLoc (w 5) bs.length] = .ok →
      let a := s.took (firmwareThread 0) true [plainLoc (w 5) bs.length] true
      ∃ t, Answers a (exec (.attest src) s) p 0 [(7, bs.length)] t ∧
        frame false t { s.like t with mem := t.mem, bad := t.bad, remote := t.remote } ∧ Kept s t ∧
        t.mem.readBytes (w 5) bs.length = bs ∧
        ∀ a, (a < w 5 ∨ w 5 + bs.length ≤ a) → t.mem.read a = s.mem.read a) ∧
    (∀ port nonce, exec (.attest (.doe port nonce)) s = .next (
      if s.booted = true ∧ port.toNat < 18 ∧ (s.port port.toNat).peer = false then
        { s with outHost := s.outHost ++ [.doe port (s.attestReply nonce.toNat)] }
      else s)) ∧
    (ok 0x10 true false [(64, 4), (72, 3), (80, 1), (128, 64)] →
      (s.towerKept (w 1 % 8) = true → ∃ t, Answers s (exec (.partset src) s) p 5 [] t ∧ frame true t s) ∧
      (s.towerKept (w 1 % 8) = false → ∃ t, Answers s (exec (.partset src) s) p 0 [(2, t.partmap.toNat)] t ∧
        frame true t { s with partmap := t.partmap, mport := t.mport } ∧
        ∀ q k, q < 8 → k < 8 → t.towerIn q k =
          if k = w 1 % 8 then (w 1).testBit 3 && w 1 / 2 ^ 8 % 8 == q else s.towerIn q k)) ∧
    (ok 0x11 true true [(64, 128)] →
      (w 1 % 2 ^ 17 = 0 → w 1 < 2 ^ 60 → s.inMemory (w 1) (2 ^ 17) = true →
        ∃ t, Answers s (exec (.sdtset src) s) p 0 [(2, w 1)] t ∧ frame true t { s with sdtb := t.sdtb } ∧
          Tab.get t.sdtb part 0 = BitVec.ofNat 64 (w 1) ∧ ∀ q, q ≠ part → Tab.get t.sdtb q 0 = Tab.get s.sdtb q 0) ∧
      (w 1 % 2 ^ 17 ≠ 0 → ∃ t, Answers s (exec (.sdtset src) s) p 1 [] t ∧ frame true t s)) ∧
    (ok 0x20 false true [(64, 64), (128, 16), (192, 64)] → w 1 % 256 = 0 → s.usable (w 1) 256 = true →
      s.badByte (w 1) 256 = none →
      let sp := BitVec.ofNat 16 (w 2)
      (spaceOk part sp = false → ∃ t, Answers s (exec (.launch src) s) p 3 [] t ∧ frame false t s) ∧
      (spaceOk part sp = true → s.ready (firmwareThread sp) false [plainLoc (w 1) 256] = .ok →
        let a := s.took (firmwareThread sp) false [plainLoc (w 1) 256] true
        ∀ u x, a.submit (BitVec.ofNat 2048 (s.mem.readNum (w 1) 256)) sp part (a.hostWho sp part) true = .code u x →
        ∃ t, Answers u (exec (.launch src) s) p 0 [(3, x.toNat)] t ∧ frame false t u)) ∧
    (ok 0x21 false true [(64, 16), (128, 32), (192, 64)] →
      let sp := BitVec.ofNat 16 (w 1)
      (spaceOk part sp = true → s.killable sp (BitVec.ofNat 32 (w 2)) = false →
        ∃ t, Answers s (exec (.kill src) s) p 0 [(3, 1)] t ∧ frame false t s) ∧
      (spaceOk part sp = true → s.killable sp (BitVec.ofNat 32 (w 2)) = true →
        ∃ t, Answers (s.killLaunch (BitVec.ofNat 32 (w 2))) (exec (.kill src) s) p 0 [(3, 0)] t ∧
          frame false t (s.killLaunch (BitVec.ofNat 32 (w 2))))) ∧
    (cmdCode b = 0x30 → s.isCommandPort p = true → w 1 % 2 ^ 17 = 0 → w 2 ≠ 0 →
      let pages := (upto 0 (w 2)).map (fun i => w 1 + i * 2 ^ 17)
      (∀ a ∈ pages, a / 2 ^ 48 = s.dev.toNat ∧ s.inMemory a (2 ^ 17) = true) →
      (s.inHand.contains src = true ∨
        (ok 0x30 true true [(64, 64), (128, 32), (192, 1), (256, 64)] ∧
          ∀ a ∈ pages, s.towerIn part (memTower (a % 2 ^ 48)) = true)) →
      let host := (w 3).testBit 0
      let x : Flip := (s.flips.find? (fun y => y.src == src)).getD { src := src }
      let lease := if s.inHand.contains src then s.lease else 1000
      let hand := src :: s.inHand.filter (fun y => y != src)
      let o := exec (.bias src) s
      match ((pages.map localPage).drop x.at_).head? with
      | none => ∃ t, Answers s o p 0 [(4, x.count)] t ∧
          t = { s with outHost := t.outHost, inHand := t.inHand, flips := free_, lease := lease }
      | some n =>
        (s.hostBias.contains n = host →
          o = .next { s with flips := { x with at_ := x.at_ + 1, page := none } :: free_, inHand := hand, lease := lease }) ∧
        (s.hostBias.contains n ≠ host →
          let held (d : DirEntry) : Prop :=
            if host then d.state = .busy ∨ d.ownerDev ≠ none ∨ d.rdev ≠ [] ∨ d.rovf = true else d.host ≠ 0
          ((∀ d ∈ s.pageDirs n, ¬ held d) → ∃ t, o = .next t ∧
            t = { s.like t with
              hostBias := t.hostBias
              flips := { x with at_ := x.at_ + 1, page := none, count := x.count + 1 } :: free_
              inHand := hand
              lease := lease } ∧ Kept s t ∧
            ∀ m, m ∈ t.hostBias ↔ (m = n ∧ host = true) ∨ (m ≠ n ∧ m ∈ s.hostBias)) ∧
          ((∃ d ∈ s.pageDirs n, held d) → ∃ t, o = .next t ∧
            t = { s with
              dir := t.dir
              outPeer := t.outPeer
              outHost := t.outHost
              bisnp := t.bisnp
              flips := { x with page := some n } :: free_
              inHand := hand
              lease := lease } ∧
            ∀ line, line / 1024 = n → t.flipping line = true))) ∧
    (ok 0x40 true true [(64, 192)] →
      (powerRequest (w 1) (w 2) = none → ∃ t, Answers s (exec (.power src) s) p 0 [(3, 2)] t ∧ frame true t s) ∧
      (∀ tw l x, powerRequest (w 1) (w 2) = some (tw, l, x) → s.towerIn part tw = true → (∀ u ∈ s.all, u.accs = []) → s.forwards = [] →
        ¬ (x = .off ∧ l < 16) →
        let old := s.powerOf l
        let lost (k : Nat) : Prop := match layerRange l with
          | some (r, n) =>
            x ≠ old ∧ (x = .off ∨ old = .off) ∧ s.dev.toNat * 2 ^ 48 + r ≤ k ∧ k < s.dev.toNat * 2 ^ 48 + r + n
          | none => False
        ∃ t, Answers s (exec (.power src) s) p 0 [(3, old.code * 256)] t ∧
          frame true t { s with power := t.power, mem := t.mem, bad := t.bad, cores := t.cores, shards := t.shards } ∧
          t.powerOf l = x ∧ (∀ j, j ≠ l → t.powerOf j = s.powerOf j) ∧
          (∀ k, (lost k → t.mem.read k = unlisted) ∧ (¬ lost k → t.mem.read k = s.mem.read k)) ∧
          (∀ g, g ∈ t.bad ↔ g ∈ s.bad ∧ ¬ lost (g * 16)) ∧
          (∀ y, y ∈ t.shards ↔ y ∈ s.shards ∧ ¬ (x = .off ∧ s.shardIn l y = true)) ∧
          ∀ k, t.core k = { s.core k with l1 := (t.core k).l1 } ∧ ∀ y, y ∈ (t.core k).l1 ↔ y ∈ (s.core k).l1 ∧ ¬ lost y.key)) ∧
    (ok 0x41 true true [(64, 3), (128, 4), (192, 1), (256, 64)] → s.towerIn part (w 1) = true →
      ∃ t, Answers s (exec (.shelf src) s) p 0 [(4, (t.shelfUp (w 1)).toNat)] t ∧ frame true t { s with towers := t.towers } ∧
        ∀ i < 4, (t.tower (w 1)).parked.getLsbD i =
          if (w 2).testBit i then !(w 3).testBit 0 else (s.tower (w 1)).parked.getLsbD i) ∧
    (ok 0x50 false true [(64, 16), (128, 512)] →
      let sp := BitVec.ofNat 16 (w 1)
      let bs := s.mem.readBytes (w 4) (w 3)
      w 2 % 2 ^ 17 = 0 → w 3 % 2 ^ 17 = 0 → w 2 / 2 ^ 48 = s.dev.toNat → s.usable (w 2) (w 3) = true →
      s.usable (w 4) (w 3) = true → spaceOk part sp = true →
      (∀ x ∈ parts (w 2) (w 3), s.towerIn part (memTower (x.1 % 2 ^ 48)) = true) →
      s.shards.any (fun x => x.space != sp && overlaps (x.base, x.len) (w 2, w 3)) = false →
      s.ready (firmwareThread sp) false [plainLoc (w 4) (w 3)] = .ok →
      let a := s.took (firmwareThread sp) false [plainLoc (w 4) (w 3)] true
      let a2 := a.took (firmwareThread sp) true [plainLoc (w 2) (w 3)] true
      a.ready (firmwareThread sp) true [plainLoc (w 2) (w 3)] = .ok → s.badByte (w 4) (w 3) = none →
      let n := Tab.get s.shardCount part 0 + 1
      let copied (t : State) : Prop :=
        frame false t { s.like t with mem := t.mem, bad := t.bad, shards := t.shards, shardCount := t.shardCount } ∧ Kept s t ∧
        (∀ q, q ≠ part → Tab.get t.shardCount q 0 = Tab.get s.shardCount q 0) ∧
        t.mem.readBytes (w 2) (w 3) = bs ∧ ∀ a, (a < w 2 ∨ w 2 + w 3 ≤ a) → t.mem.read a = s.mem.read a
      (shake256 bs = BitVec.ofNat 256 (bits b.toNat 575 320) → ∃ t, Answers a2 (exec (.shardld src) s) p 0 [(9, n)] t ∧ copied t ∧
        Tab.get t.shardCount part 0 = n ∧ t.shards = s.shards ++ [{ part := BitVec.ofNat 3 part, number := n, space := sp, base := w 2, len := w 3, digest := shake256 bs }]) ∧
      (shake256 bs ≠ BitVec.ofNat 256 (bits b.toNat 575 320) → ∃ t, Answers a2 (exec (.shardld src) s) p 4 [] t ∧ copied t ∧
        t.shardCount = s.shardCount ∧ t.shards = s.shards)) ∧
    (ok 0x51 false true [(64, 16), (128, 64)] → spaceOk part (BitVec.ofNat 16 (w 1)) = true →
      let mine (x : Shard) : Prop := x.part.toNat = part ∧ x.space = BitVec.ofNat 16 (w 1) ∧ x.number = w 2
      ((∃ x ∈ s.shards, mine x) → ∃ t, Answers s (exec (.sharddrop src) s) p 0 [] t ∧ frame false t { s with shards := t.shards } ∧
        ∀ x, x ∈ t.shards ↔ x ∈ s.shards ∧ ¬ mine x) ∧
      ((∀ x ∈ s.shards, ¬ mine x) → ∃ t, Answers s (exec (.sharddrop src) s) p 1 [] t ∧ frame false t s)) ∧
    (ok 0x60 true true [(64, 9)] → s.towerIn part (w 1 / 64) = true → s.on (w 1) = [] →
      ∃ t, Answers s (exec (.unfence src) s) p 0 [] t ∧ frame true t { s with cores := t.cores, refenced := t.refenced } ∧
        (t.core (w 1)).fenced = false ∧ ∀ k, k ≠ w 1 → t.core k = s.core k) ∧
    (cmdCode b = 0x60 → s.isCommandPort p = true → s.inHand.contains src = true → s.towerIn part (w 1 / 64) = true → s.on (w 1) = [] →
      (s.core (w 1)).fenced = true → ∃ t, Answers s (exec (.unfence src) s) p 0 [] t ∧
        t = { s with
          outHost := t.outHost
          inHand := t.inHand
          flips := free_
          cores := t.cores } ∧
        (t.core (w 1)).fenced = s.refenced.contains (w 1) ∧ (t.core (w 1)).mode = none ∧ ∀ k, k ≠ w 1 → t.core k = s.core k) ∧
    (ok 0x70 true false [(64, 11), (80, 11), (96, 11), (128, 11), (144, 11), (160, 11)] →
      ∃ t, Answers s (exec (.thermlim src) s) p 0
          [(2, t.therm.1.toNat + t.therm.2.1.toNat * 2 ^ 16 + t.therm.2.2.toNat * 2 ^ 32)] t ∧
        frame true t { s with therm := t.therm } ∧
        t.therm.1 = (if w 1 % 2 ^ 11 = 0 then s.therm.1 else BitVec.ofNat 11 (w 1)) ∧
        t.therm.2.1 = (if w 1 / 2 ^ 16 % 2 ^ 11 = 0 then s.therm.2.1 else BitVec.ofNat 11 (w 1 / 2 ^ 16)) ∧
        t.therm.2.2 = (if w 1 / 2 ^ 32 % 2 ^ 11 = 0 then s.therm.2.2 else BitVec.ofNat 11 (w 1 / 2 ^ 32)))

/-! ### Hosts (spec R161, R357 to R362) -/

/-- R357, R360, R362: a host's request for a line waits behind earlier ones; in its turn, a write changes the bytes that it
enables and is completed, a read is answered with the half's bytes, MEMINV with a completion; a write and MEMINV leave no
copy in the module; what the line's directory entry displaces goes home before the answer; a request that asks to keep a copy
of a half in host bias makes the host a holder. A BIRSP ends its snoop with the dirty data at home; a conflicting request is
served once no peer stands in its way, and acknowledged before the snoop is sent again; a request that meets the snoop in the
queue of its line stays there. R358, R359: a snoop of a half of host memory is answered with the half's bytes if a tile holds
it in M; afterwards every copy is S at most (SnpData), I (SnpInv), or as it was (SnpCur). While the module waits for the half
the snoop waits. A grant or fill gives the half its state at the tile that asked for it and, with data, its bytes; what
RdCurr brings changes no state. What a MemInv leaves and what a snoop finds are the model's (log entries 59 and 71). -/
def Obligations.HostsReachModuleAndSnoop : Prop :=
  (∀ (s : State) (pa : BitVec 48) (data : BitVec 512) (be : BitVec 64),
    let half := pa.toNat / 64
    let line := half / 2
    let key := s.dev.toNat * 2 ^ 48 + half * 64
    let held : Prop := (s.hostBias.contains (pa.toNat / 2 ^ 17)) = true
    let wrote (t : State) : Prop := ∀ a, t.mem.read a =
      if key ≤ a ∧ a < key + 64 ∧ be.getLsbD (a - key) = true then (leBytes 64 data.toNat).getD (a - key) 0 else s.mem.read a
    let made := (s.dirRoom line).outHost
    let hostGets (t : State) (ms : List HostMsg) : Prop := t.outHost = made ++ ms
    let conflicts (t : State) (ms : List HostMsg) : Prop := t.outHost = s.outHost ++ ms
    let behind : Prop := s.lineQueue.any (fun q => q.line == line) = true ∧ s.called.contains line = false
    let turn : Prop := ¬ behind ∧ s.flipping line = false ∧ s.wayLater line = none
    let holds (t : State) : Prop := (t.dirEntry line).host.getLsbD (half % 2) = true
    let same (t : State) : Prop := (t.dirEntry line).host = (s.dirEntry line).host
    (s.snooped half = false → behind → ∀ e ∈ [Instr.memwr pa data be, .memrd pa true, .memrd pa false, .meminv pa],
      exec e s = .next { s with lineQueue := s.lineQueue ++ [{ line := line, req := .event e }] }) ∧
    (s.snooped half = false → turn → s.readyAmongPeers 0 true line = .ok →
      (∃ t, exec (.memwr pa data be) s = .next t ∧ wrote t ∧ hostGets t [.memCmp half] ∧
        t = { s.like t with mem := t.mem, bad := t.bad } ∧ Kept s t ∧ (t.dirEntry line).inside = false) ∧
      (∃ t, exec (.meminv pa) s = .next t ∧ t = s.like t ∧ Kept s t ∧ hostGets t [.memCmp half] ∧
        (t.dirEntry line).inside = false ∧ (¬ held → same t) ∧ (held → holds t))) ∧
    (∀ retain, s.snooped half = false → turn → s.readyAmongPeers 0 (retain && s.hostBias.contains (pa.toNat / 2 ^ 17)) line = .ok →
      ∃ t, exec (.memrd pa retain) s = .next t ∧ t = s.like t ∧ Kept s t ∧ hostGets t [.memData half (s.mem.readBytes key 64)] ∧
        ((retain = false ∨ ¬ held) → same t) ∧ (retain = true → held → holds t)) ∧
    (s.snooped half = true →
      (∀ e ∈ [Instr.memwr pa data be, .memrd pa true, .memrd pa false, .meminv pa],
        exec e s = .next (if s.called.contains line then { s with
            lineQueue := { line := line, req := .event e } :: s.lineQueue
            called := s.called.filter (fun n => n != line) }
          else s)) ∧
      ∃ inv, (half, inv) ∈ s.bisnp ∧
      (s.readyAmongPeers 0 true line = .ok →
        (∃ t, exec (.biconflict pa (.write data be)) s = .next t ∧ wrote t ∧
          conflicts t [.memCmp half, .biConflictAck half, .biSnp half inv]) ∧
        (∃ t, exec (.biconflict pa .inv) s = .next t ∧ t = s.like t ∧ Kept s t ∧ (t.dirEntry line).inside = false ∧
          conflicts t [.memCmp half, .biConflictAck half, .biSnp half inv])) ∧
      (s.readyAmongPeers 0 false line = .ok → ∃ t, exec (.biconflict pa .read) s = .next t ∧ t = s.like t ∧ Kept s t ∧
        conflicts t [.memData half (s.mem.readBytes key 64), .biConflictAck half, .biSnp half inv])) ∧
    (∀ inv, s.bisnp.find? (fun x => x.1 == half) = some (half, inv) → s.waiting = [] →
      ∃ t, exec (.birsp pa (some data)) s = .next t ∧
        (∀ a, t.mem.read a = if key ≤ a ∧ a < key + 64 then (leBytes 64 data.toNat).getD (a - key) 0 else s.mem.read a) ∧
        t.bisnp = s.bisnp.filter (fun x => x.1 != half) ∧
        (inv = true → (t.dirEntry line).host.getLsbD (half % 2) = false) ∧
        ∃ u, exec (.birsp pa none) s = .next u ∧ u.mem = s.mem ∧ u.bisnp = t.bisnp) ∧
    (s.snooped half = false → ∀ d r, exec (.birsp pa d) s = .next s ∧ exec (.biconflict pa r) s = .next s)) ∧
  (∀ (s : State) (pa : BitVec 48), s.NoneWaits →
    let half := (0xFFF * 2 ^ 48 + pa.toNat) / 64
    let st := s.halfState half
    let data := if ∃ h ∈ s.halves, h.unit = half ∧ h.st = .m then some (s.mem.readBytes (half * 64) 64) else none
    let A (o : Out) (to_ : HalfSt → HalfSt) : Prop := ∃ t, o = .next t ∧
      t = { s with outHost := s.outHost ++ [.snpAnswer half data], halves := t.halves, cores := t.cores, dir := t.dir } ∧
      t.halfState half = to_ st ∧ (∀ h, h ≠ half → t.halfState h = s.halfState h) ∧
      ∀ h ∈ t.halves, h.unit = half → ∃ g ∈ s.halves, g.tile = h.tile ∧ g.unit = half ∧ h.st = to_ g.st
    let W (o : Out) (e : Instr) : Prop := o = .next { s with waiting := s.waiting ++ [{ line := hostWait half, event := e }] }
    let G (t : State) (d : Option (BitVec 512)) : Prop := t.asksHalf half = false ∧ ∀ a, t.mem.read a = match d with
      | some (y : BitVec 512) => if st = .i ∧ half * 64 ≤ a ∧ a < half * 64 + 64 then (leBytes 64 y.toNat).getD (a - half * 64) 0
        else s.mem.read a
      | none => s.mem.read a
    (s.asksHalf half = false →
      A (exec (.snpdata pa) s) (fun x => if x = .i then .i else .s) ∧
      (∃ t, exec (.snpinv pa) s = .next t ∧ A (exec (.snpinv pa) s) (fun _ => .i) ∧ ∀ h ∈ t.halves, h.unit ≠ half) ∧
      A (exec (.snpcur pa) s) id ∧ ∀ x d, exec (.hostGrantOrFill pa x d) s = .next s) ∧
    (s.asksHalf half = true →
      W (exec (.snpdata pa) s) (.snpdata pa) ∧ W (exec (.snpinv pa) s) (.snpinv pa) ∧ W (exec (.snpcur pa) s) (.snpcur pa) ∧
      ∀ x d, ∃ t, exec (.hostGrantOrFill pa x d) s = .next t ∧ G t d ∧
        (∀ tile, s.halfAsks.find? (fun a => a.1 == half) = some (half, tile) → x ≠ .i →
          t.halfState half = x ∧ { tile := tile, unit := half, st := x : HalfLine } ∈ t.halves) ∧
        (s.halfAsks.find? (fun a => a.1 == half) = none → t.halves = s.halves)))

/-! ### Peers (spec R27, R28, R352 to R356, R365) -/

/-- R353 to R356, R365: a request of a peer for a line of this module waits behind earlier ones; one that can be served in
its turn is answered with its tag. RDS gets the line and a shared copy is recorded, RDO gets it and ownership, RDC keeps no
copy, UPG of a sharer is granted, of another answered with the line; WRL and WRP change the bytes that they carry, AMO, CELL
and ARRV operate at home and answer with the old value, the cell's result and the word. What another agent alone may hold is
in no cache of the module. A place outside memory, dark or bad is answered with NAK. The lower four bits of an atomic's
address, a peer that asks for what it holds, and an arrival of count 0 are the model's reading (log entries 63, 72 and 101).
-/
def Obligations.HomesServePeers : Prop :=
  ∀ (s : State) (h : MsgHdr), s.NoneWaits → s.waiting = [] →
    let line := h.addr.toNat / 8
    let key := s.dev.toNat * 2 ^ 48 + line * 128
    let at_ := s.dev.toNat * 2 ^ 48 + h.addr.toNat * 16
    let sends (t : State) (opc : Opc) (arg : Nat) (bs : List Byte) : Prop :=
      t.outPeer = s.outPeer ++ [answerTo h opc (BitVec.ofNat 9 arg) bs]
    let data := s.mem.readBytes key 128
    let put (t : State) (a : Nat) (bs : List Byte) : Prop :=
      ∀ n, t.mem.read n = if a ≤ n ∧ n < a + bs.length then bs.getD (n - a) 0 else s.mem.read n
    let behind : Prop := s.lineQueue.any (fun q => q.line == line) = true ∧ s.called.contains line = false
    let turn : Prop := ¬ behind ∧ s.flipping line = false
    let alone (t : State) : Prop := (t.dirEntry line).inside = false
    let part := halfIn at_
    (s.homeFault key 128 true = none → behind → ∀ e ∈ [Instr.rds h, .rdo h, .rdc h, .upg h],
      exec e s = .next { s with lineQueue := s.lineQueue ++ [{ line := line, req := .event e }] }) ∧
    (s.homeFault key 128 true = none → turn →
      (s.readyPeerReq h false false false [0, 1] = .ok →
        (∃ t, exec (.rds h) s = .next t ∧ t = { s.like t with outPeer := t.outPeer } ∧ Kept s t ∧ sends t .dats 0 data ∧
          ((t.dirEntry line).rdev.contains h.srcDev = true ∨ (t.dirEntry line).rovf = true)) ∧
        (∃ t, exec (.rdc h) s = .next t ∧ t = { s.like t with outPeer := t.outPeer } ∧ Kept s t ∧ sends t .dats 0 data)) ∧
      (s.readyPeerReq h true true false [0, 1] = .ok →
        (∃ t, exec (.rdo h) s = .next t ∧ t = { s.like t with outPeer := t.outPeer } ∧ Kept s t ∧ sends t .date 0 data ∧
          (t.dirEntry line).ownerDev = some h.srcDev ∧ alone t) ∧
        (∃ t, exec (.upg h) s = .next t ∧ t = { s.like t with outPeer := t.outPeer } ∧ Kept s t ∧
          (if (s.dirEntry line).rdev.contains h.srcDev then sends t .grt 0 [] else sends t .date 0 data) ∧
          (t.dirEntry line).ownerDev = some h.srcDev ∧ alone t))) ∧
    (turn →
      (∀ d : BitVec 1024, s.homeFault key 128 false = none → s.readyPeerReq h true false true [0, 1] = .ok →
        ∃ t, exec (.wrl h d) s = .next t ∧ sends t .cmp 0 [] ∧ put t key (leBytes 128 d.toNat) ∧ alone t) ∧
      (∀ (d : BitVec 128) (be : BitVec 16), s.homeFault at_ 16 false = none → s.readyPeerReq h true false true [part] = .ok →
        ∃ t, exec (.wrp h d be) s = .next t ∧ alone t ∧
        sends t .cmp 0 [] ∧ ∀ n, t.mem.read n = if at_ ≤ n ∧ n < at_ + 16 ∧ be.getLsbD (n - at_) = true
          then (leBytes 16 d.toNat).getD (n - at_) 0 else s.mem.read n) ∧
      (∀ (ord : AmoOrd) (fn : AmoFn) (dw : Bool) (x y : BitVec 64),
        let n := if dw then 8 else 4
        let old := s.mem.readNum at_ n
        s.homeFault at_ n true = none → s.readyPeerReq h true false true [part] = .ok →
        ∃ t, exec (.amo h ord fn dw x y) s = .next t ∧ sends t .res 0 (leBytes 16 old) ∧ alone t ∧
          match (amoNew fn n old (x.toNat % 2 ^ (8 * n)) (y.toNat % 2 ^ (8 * n))).1 with
          | some z => put t at_ (leBytes n z)
          | none => t.mem = s.mem) ∧
      (∀ (n : BitVec 32) (e g : Bool), s.homeFault at_ 16 true = none → s.readyPeerReq h true false true [part] = .ok →
        ∃ t, exec (.arrv h n e g) s = .next t ∧ alone t ∧
        let x := if e || g then arrivalAdd (s.mem.readNum at_ 16) n.toNat e g else arwAdd (s.mem.readNum at_ 16) n.toNat
        put t at_ (leBytes 16 x) ∧ sends t .res 0 (leBytes 16 x)) ∧
      (∀ (op : CellOp) (w : Bool) (val : BitVec 64) (gen : BitVec 16), s.homeFault at_ 16 true = none →
        s.readyPeerReq h (op != .crd) false true [part] = .ok →
        let c := s.mem.readNum at_ 16
        (cellBad c = true → ∃ t, exec (.cell h op w val gen) s = .next t ∧ sends t .nak 55 [] ∧ t.mem = s.mem) ∧
        (cellBad c = false →
          match cellOp op w c val.toNat gen.toNat h.srcPos.toNat with
          | none => ∃ t, exec (.cell h op w val gen) s = .next t ∧ Kept s t ∧
              t = { s.like t with waiting := [{ line := at_ / 128, event := .cell h op w val gen }] }
          | some r => ∃ t, exec (.cell h op w val gen) s = .next t ∧
              sends t .res 0 (leBytes 16 (r.value % 2 ^ 64 + r.status * 2 ^ 64)) ∧
              match r.new with
              | some z => put t at_ (leBytes 16 z)
              | none => t.mem = s.mem))) ∧
    (∀ c k, s.homeFault key 128 true = some (c, k) →
      (∃ t, exec (.rds h) s = .next t ∧ t = { s.like t with outPeer := t.outPeer } ∧ sends t .nak (c + 16 * k) []) ∧
      (∃ t, exec (.rdc h) s = .next t ∧ t = { s.like t with outPeer := t.outPeer } ∧ sends t .nak (c + 16 * k) []))

/-- R353, R356: an answer to this home's probe takes the owner's data; when the last one is here the line is no longer BUSY
and what waited for it is served next. A write-back of the owner is taken and completed, one of another is dropped and
completed. R157, R352, R356, R365: a probe of a line that this module holds of a peer is answered, with the bytes if it is M
or for a downgrade, and the line is I, in no cache of the module, or S after a downgrade. While a fill of the line is
outstanding, or has not served its thread yet, the probe is held. That data goes with the answer to a downgrade, and which
probes are held, are the model's choice (log entry 71). -/
def Obligations.HomesAndHoldersAnswer : Prop :=
  (∀ (s : State) (h : MsgHdr) (data : BitVec 1024),
    let line := h.addr.toNat / 8
    let key := s.dev.toNat * 2 ^ 48 + line * 128
    let d := s.dirEntry line
    let taken (t : State) : Prop := ∀ n, t.mem.read n =
      if key ≤ n ∧ n < key + 128 then (leBytes 128 data.toNat).getD (n - key) 0 else s.mem.read n
    let next : List Turn := (s.waiting.filter (fun w => w.line == line)).map (fun w => Turn.again w.event) ++
      (match s.lineQueue.find? (fun q => q.line == line) with
        | some { req := .event e, .. } => if s.called.contains line then [] else [.again e]
        | _ => [])
    (d.state ≠ .busy → exec (.prd h data) s = .next s ∧ exec (.pack h) s = .next s) ∧
    (d.state = .busy → d.ownerDev = some h.srcDev → d.rdev = [] → d.line = line →
      (∃ t, exec (.prd h data) s = .next t ∧ taken t ∧ (t.dirEntry line).state ≠ .busy ∧ (t.dirEntry line).ownerDev = none ∧
        ((t.dirEntry line).rdev = if d.down then [h.srcDev] else []) ∧ t.turns = next ++ s.turns) ∧
      (∃ t, exec (.pack h) s = .next t ∧ t.mem = s.mem ∧ (t.dirEntry line).state ≠ .busy ∧ (t.dirEntry line).ownerDev = none ∧
        t.turns = next ++ s.turns)) ∧
    (let done (t : State) : Prop := t.outPeer = s.outPeer ++ [answerTo h .cmp 0 []]
     (d.ownerDev = some h.srcDev → d.line = line → ∃ t, exec (.wb h data) s = .next t ∧ taken t ∧ done t ∧
        (t.dirEntry line).ownerDev = none) ∧
     (d.ownerDev ≠ some h.srcDev → ∃ t, exec (.wb h data) s = .next t ∧ t = { s with outPeer := t.outPeer } ∧ done t))) ∧
  (∀ (s : State) (h : MsgHdr), s.NoneWaits →
    let unit := h.srcDev.toNat * 2 ^ 41 + h.addr.toNat / 8
    let st := s.lineState unit
    s.writingBack unit = false →
    let P (o : Out) (dirty : Bool) (to_ : HalfSt) : Prop := ∃ t, o = .next t ∧ t.mem = s.mem ∧ t.thr = s.thr ∧
      t.lineState unit = to_ ∧ (∀ n, n ≠ unit → t.lineState n = s.lineState n) ∧
      (to_ = .i → st ≠ .i → (∀ c ∈ t.caches, c.unit ≠ unit) ∧ ∀ c ∈ t.hearths, c.unit ≠ unit) ∧
      t.outPeer = s.outPeer ++ [answerTo h (if dirty then .prd else .pack) 0 (if dirty then s.mem.readBytes (unit * 128) 128 else [])]
    (s.lineHeld unit = false →
      P (exec (.pinv h) s) (st == .m) .i ∧ P (exec (.prcl h) s) (st == .m) .i ∧
      P (exec (.pshr h) s) true (if st = .i then .i else .s)) ∧
    (s.lineHeld unit = true → ∀ e ∈ [Instr.pinv h, .prcl h, .pshr h],
      exec e s = .next { s with waiting := s.waiting ++ [{ line := unit, event := e }] }))

/-- R31, R365: a reply ends the transaction of its device and tag, or gives it its answer: DATS, DATE and GRT bring the line
in state S, E (or M), and E, for the thread that asked to use; what RDC asked for is not kept; RES gives the value, CMP ends
a write, NAK gives class and cause; CRA drops the thread's record here and notes where it is, CRR returns its crumb. A reply
to nothing changes nothing. That the module keeps what a peer's line holds in its own memory, and where a thread counts that
a peer accepted, are the model's (log entries 21 and 74). -/
def Obligations.RepliesEndTransactions : Prop :=
  ∀ (s : State) (h : MsgHdr) (x : Txn), s.NoneWaits → s.waiting = [] → x.dev = h.srcDev → x.tag = h.tag → x.answer = none →
    x.stale = false → x.thread ≠ some firmwareKey → (∀ k, x.thread = some k → s.orphan k = false) →
    let unit := x.key / 128
    let only (p : Opc → Bool) : Prop := s.txnOf h p = some x
    let ended (t : State) : Prop := t.txns = s.txns.filter (fun y => y != x)
    let used (t : State) : Prop := t.txns = (if s.keepsTxn x then [{ x with answer := some .done }] else []) ++ s.txns.filter (fun y => y != x)
    let fill (t : State) (st : HalfSt) (d : BitVec 1024) : Prop := used t ∧ t.lineState unit = st ∧
      ∀ n, t.mem.read n = if unit * 128 ≤ n ∧ n < unit * 128 + 128 then (leBytes 128 d.toNat).getD (n - unit * 128) 0 else s.mem.read n
    (∀ d, only (fun o => o == .rds || o == .rdc) → x.opc = .rds → ∃ t, exec (.dats h d) s = .next t ∧ fill t .s d) ∧
    (∀ d, only (fun o => o == .rds || o == .rdc) → x.opc = .rdc → s.lineState unit = .i → ∃ t, exec (.dats h d) s = .next t ∧ fill t .i d) ∧
    (∀ d dirty, only (fun o => o == .rdo || o == .upg) →
      ∃ t, exec (.date h dirty d) s = .next t ∧ fill t (if dirty then .m else .e) d) ∧
    (only (fun o => o == .upg) → ∃ t, exec (.grt h) s = .next t ∧ used t ∧ t.lineState unit = .e ∧ t.mem = s.mem) ∧
    (∀ b, only (fun o => o == .amo || o == .cell || o == .arrv) → x.thread ≠ none →
      exec (.res h b) s = .next { s with txns := s.txns.map (fun y => if y = x then { y with answer := some (.value b) } else y) }) ∧
    (only (fun o => o == .wrl || o == .wrp || o == .wb) → ∃ t, exec (.cmp h) s = .next t ∧ t = { s.like t with txns := t.txns } ∧ Kept s t ∧
      ended t) ∧
    (∀ c k, only (fun _ => true) → x.thread ≠ none → x.opc ≠ .crumb → ∃ t, exec (.nak h c k) s = .next t ∧
      t = { s.like t with txns := s.txns.map (fun y => if y = x then { y with answer := some (.failed c k) } else y) } ∧ Kept s t) ∧
    (∀ k, only (fun o => o == .crumb) → x.thread = some k → k ≠ s.thr.key →
      (∃ t, exec (.cra h) s = .next t ∧ t.find k = none ∧
        ∀ u, s.find k = some u → u.killed = false → ended t ∧ t.mem = s.mem ∧
          { thread := k, space := u.space, ctx := u.ctx, dev := h.srcDev : Away } ∈ t.away) ∧
      (∀ r u, s.find k = some u → u.state = .travelling → u.trapStage = .none → u.killed = false → u.group = {} →
        posDev u.dest ≠ s.dev → x.opc = .crumb → x ∈ s.txns → s.ctxReady u true (u.ctx.toNat, 256) = .ok →
        ∃ t v, exec (.crr h r) s = .next t ∧ t.find k = some v ∧ v.trclass = 10 ∧ v.trinfo = 5 ∧ v.trpc = u.travelPc ∧
          v.trapStage = .evicted)) ∧
    (s.txnOf h (fun _ => true) = none → ∀ c k, exec (.nak h c k) s = .next s)

/-! ### Links and launches that span devices (spec R330, R364, R365) -/

/-- R364, R365: what arrives on a link. IDLE acknowledges and counts as received in order; a replay request has every flit
from its number sent again in order; every flit that this side sends carries as ACK the SEQ of the last one received in
order; CREDIT adds what was freed; HELLO of a peer port's training, which answers with this side's own, sets its device and,
with the ready bit, brings the link up with no credits and the whole of each buffer to give; KEEP counts, and its timeout
sends one; an error asks for a replay from the first flit not received in order. A link that fails loses its device, unless
another port leads there: then what it did not deliver leaves by that one. That the ninth replay of one flit takes the link
down, and which ports reach a device, are the model's (log entries 76 and 77). -/
def Obligations.LinksCountAndReplay : Prop :=
  ∀ (s : State) (port : BitVec 5),
    let p := s.port port.toNat
    let now (f : Flit) : Sent := { flit := f, ack := p.lastIn }
    let P (o : Out) (q : Port) : Prop := ∃ t, o = .next t ∧ t = { s with ports := t.ports } ∧ t.port port.toNat = q ∧
      ∀ n, n ≠ port.toNat → t.port n = s.port n
    (∀ seq ack, p.up = true →
      ((∀ x ∈ p.unacked, x.1 ≠ ack) →
        P (exec (.idle port seq ack) s) { p with lastIn := if seq = p.lastIn + 1 then seq else p.lastIn }) ∧
      ((∃ x ∈ p.unacked, x.1 = ack) → P (exec (.idle port seq ack) s) { p with
        lastIn := if seq = p.lastIn + 1 then seq else p.lastIn
        unacked := (p.unacked.dropWhile (fun x => x.1 != ack)).drop 1
        fails := 0 })) ∧
    (∀ seq, p.up = true → P (exec (.replayRequest port seq) s) { p with
      sent := p.sent ++ (p.unacked.dropWhile (fun x => x.1 != seq)).map (fun x => now (.replay x.1))
      toldAck := p.lastIn
      fails := if p.failSeq = seq then p.fails + 1 else 1
      failSeq := seq }) ∧
    (∀ a b c d : BitVec 16, ∀ w x y z : Nat, p.credits = [w, x, y, z] → P (exec (.credit port a b c d) s) { p with
      lastIn := p.lastIn + 1
      gotCredit := true
      credits := [w + a.toNat, x + b.toNat, y + c.toNat, z + d.toNat] }) ∧
    (∀ dev n ready, p.peer = true → P (exec (.hello port dev n ready) s) { p with
      dev := dev
      up := ready
      seq := 0
      lastIn := 0
      toldAck := 0
      unacked := []
      sent := if p.greeted = false ∧ p.up = false then p.sent ++ [now (.hello s.dev port.toNat true)] else p.sent
      fails := 0
      gotCredit := false
      greeted := !ready && (p.greeted || !p.up)
      credits := [0, 0, 0, 0]
      owed := (upto 0 4).map Config.classBuffer }) ∧
    (p.up = true → P (exec (.keep port) s) { p with lastIn := p.lastIn + 1 }) ∧
    (p.up = true → P (exec (.keepTimeout port) s) { p with
      seq := p.seq + 1
      sent := p.sent ++ [now (.keep (p.seq + 1))]
      toldAck := p.lastIn
      unacked := p.unacked ++ [(p.seq + 1, none)] }) ∧
    (p.up = true → P (exec (.flitError port) s) { p with
      sent := p.sent ++ [now (.replayRequest (p.lastIn + 1))]
      toldAck := p.lastIn }) ∧
    (p.up = false → (∀ a b, exec (.idle port a b) s = .next s ∧ exec (.replayRequest port a) s = .next s) ∧
      exec (.keep port) s = .next s ∧ exec (.keepTimeout port) s = .next s ∧ exec (.flitError port) s = .next s ∧
      exec (.linkDown port) s = .next s ∧ ∀ r, exec (.down port r) s = .next s) ∧
    (p.fails < 9 → exec (.linkDown port) s = .next s) ∧
    (p.up = true → s.launches = [] → s.txns = [] → s.dir = [] → s.locks = [] →
      (∀ q ∈ s.ports, q.1 ≠ port.toNat → q.2.up = false) →
      let L (o : Out) : Prop := ∃ t, o = .next t ∧ t = { s.like t with
          ports := t.ports
          remote := t.remote
          ghosts := t.ghosts
          away := t.away
          outPeer := s.outPeer.filter (fun m => m.dst != p.dev) } ∧
        (t.port port.toNat).up = false ∧ ∀ r, r ∈ t.remote ↔ r ∈ s.remote ∧ r.unit * 128 / 2 ^ 48 ≠ p.dev.toNat
      (∀ r, L (exec (.down port r) s)) ∧ (9 ≤ p.fails → L (exec (.linkDown port) s))) ∧
    (∀ r, p.up = true → s.txns = [] → (∃ q ∈ s.ports, q.1 ≠ port.toNat ∧ q.2.up = true ∧ q.2.dev = p.dev) →
      ∃ t, exec (.down port r) s = .next t ∧ t = { s with
          ports := t.ports
          outPeer := p.undelivered ++ s.outPeer } ∧
        (t.port port.toNat).up = false ∧ (t.port port.toNat).unacked = [] ∧ ∀ n, n ≠ port.toNat → t.port n = s.port n)

/-- R328, R330: a record that names this device joins its queue, or waits behind those that wait for room there, and what
other devices told of the launch before comes next; one that is known here already, or does not name this device, changes
nothing. The origin of a single-level launch hands out the next flat index that is not DONE, or says that none is left; a
grant brings an index here, or says that no more will come; a report is counted by the origin; a forwarded kill leaves no
thread of the launch here that is not DONE, but for one that travels, which is killed when its crumb arrives or returns
(R23), none CREATED, and hands out no index any more; where no thread of it is left here, the threads that this device gave
away are told; a kill that comes before the record is kept for it. A device that asks for the lock of a queue has it at once
where it is free, and after those that asked before where it is not. The grant that says that nothing is left, locks, records
that wait for room and threads of other devices are the model's reading (log entries 26, 73 and 74). -/
def Obligations.SpanningLaunchesAreShared : Prop :=
  (∀ (s : State) (o : BitVec 12) (id : BitVec 32) (sp : BitVec 16) (r : BitVec 2048),
    let given : Launch := { id := id, space := sp, record := r, origin := o }
    let l : Launch := match s.launch? id with
      | some x => { x with guest := false }
      | none => given
    let new : LaunchIn := { origin := l.origin, id := l.id, space := l.space, record := l.record }
    let mine (t : Turn) : Bool := match t with
      | .gone k => k.launch == id
      | .came k _ _ => k.launch == id
      | .killLaunch i => i == id
      | _ => false
    let a : State := { s with
      launches := s.launches.filter (fun y => y.id != id)
      early := s.early.filter (fun t => !mine t)
      turns := s.early.filter mine ++ s.turns }
    (given.devlist.contains s.dev = true → (∀ x, s.launch? id = some x → x.guest = true) →
      (a.queueFull l.queue = false → (∀ x ∈ s.recordsIn, x.queue ≠ l.queue) →
        exec (.launchRecordArrival o id sp r) s = .next { a with launches := a.launches ++ [{ l with waiting := false }] }) ∧
      ((a.queueFull l.queue = true ∨ ∃ x ∈ s.recordsIn, x.queue = l.queue) →
        exec (.launchRecordArrival o id sp r) s = .next { a with
          launches := a.launches ++ [{ l with waiting := true }]
          recordsIn := s.recordsIn ++ [new] })) ∧
    (given.devlist.contains s.dev = false → exec (.launchRecordArrival o id sp r) s = .next s) ∧
    (∀ x, s.launch? id = some x → x.guest = false → exec (.launchRecordArrival o id sp r) s = .next s)) ∧
  (∀ (s : State) (id : BitVec 32) (dev : BitVec 12),
    (s.launch? id = none → exec (.flatIndexRequest id dev) s = .next { s with outLaunch := s.outLaunch ++ [.grant dev id none] }) ∧
    (∀ l, s.launch? id = some l → (l.origin ≠ s.dev ∨ l.spans = false ∨ l.nlev ≠ 0) →
      exec (.flatIndexRequest id dev) s = .next s) ∧
    (∀ l, s.launch? id = some l → l.origin = s.dev → l.spans = true → l.nlev = 0 →
      (l.nextIndex < l.size → l.noMore = false → ∃ t m, exec (.flatIndexRequest id dev) s = .next t ∧
        t = { s with
          outLaunch := s.outLaunch ++ [.grant dev id (some (BitVec.ofNat 32 l.nextIndex))]
          launches := t.launches } ∧
        t.launch? id = some { l with nextIndex := m } ∧ l.nextIndex < m ∧ m ∉ l.done ∧ ∀ k, l.nextIndex < k → k < m → k ∈ l.done) ∧
      ((l.size ≤ l.nextIndex ∨ l.noMore = true) →
        exec (.flatIndexRequest id dev) s = .next { s with outLaunch := s.outLaunch ++ [.grant dev id none] }))) ∧
  (∀ (s : State) (id x : BitVec 32) (dev : BitVec 12), s.launch? id = none →
    exec (.flatIndexGrant id x) s = .next s ∧ exec (.completionReport id dev) s = .next s) ∧
  (∀ (s : State) (id x : BitVec 32) (l : Launch), s.launch? id = some l →
    (l.asked = true → x.toNat < l.size → ∃ t, exec (.flatIndexGrant id x) s = .next t ∧ t = { s with launches := t.launches } ∧
      t.launch? id = some { l with asked := false, granted := x.toNat :: l.granted }) ∧
    (l.asked = true → l.size ≤ x.toNat → ∃ t, exec (.flatIndexGrant id x) s = .next t ∧
      ∀ m, t.launch? id = some m → m.asked = false ∧ m.noMore = true ∧ m.granted = l.granted) ∧
    (l.asked = false → exec (.flatIndexGrant id x) s = .next s)) ∧
  (∀ (s : State) (id : BitVec 32) (dev : BitVec 12) (l : Launch), s.launch? id = some l →
    (l.origin = s.dev → l.spans = true → l.guest = false → ∃ t, exec (.completionReport id dev) s = .next t ∧
      (∀ m, t.launch? id = some m → m.reported.contains dev = true) ∧
      (l.allDone s.dev = false → (∃ v ∈ l.devlist, v ≠ dev ∧ l.reported.contains v = false) →
        t = { s with launches := t.launches } ∧ t.launch? id = some { l with reported := dev :: l.reported })) ∧
    ((l.origin ≠ s.dev ∨ l.spans = false) → exec (.completionReport id dev) s = .next s)) ∧
  (∀ (s : State) (id : BitVec 32),
    let live : Prop := ∃ u ∈ s.all, u.key.launch = id ∧ u.state ≠ .done
    (s.launch? id = none → exec (.killForward id) s = .next (if bits id.toNat 31 20 = s.dev.toNat then s
      else { s with early := s.early ++ [.killLaunch id] })) ∧
    (∀ l, s.launch? id = some l → (s.all.map Thread.key).Nodup →
      ∃ t, exec (.killForward id) s = .next t ∧
        t = ({ s with recordsIn := s.recordsIn.filter (fun x => x.id != id) } : State).killHere id ∧
        (∀ v ∈ t.all, v.key.launch = id → v.state = .done ∨ (v.state = .travelling ∧ v.killed = true)) ∧
        (∀ u ∈ s.all, ∃ v ∈ t.all, v.key = u.key) ∧
        (∀ m, t.launch? id = some m → m.noMore = true ∧ ∀ x < l.size, m.done.contains x = false →
          ∃ v ∈ t.all, v.key.launch = id ∧ v.key.index.toNat = x ∧ v.state = .travelling) ∧
        (¬ live → t.threads.map Thread.key = s.threads.map Thread.key ∧ (∀ a ∈ t.away, a.thread.launch ≠ id) ∧
          ∀ a ∈ s.away, a.thread.launch = id → LaunchMsg.killThread a.dev a.thread ∈ t.outLaunch))) ∧
  (∀ (s : State) (dev : BitVec 12) (q : BitVec 6) (r : List Turn), s.turns = .lock dev q :: r → dev ≠ s.dev →
    let ds := Tab.get s.locks q.toNat []
    ∃ t, step s = .next t ∧ Tab.get t.locks q.toNat [] = ds ++ [dev] ∧ t = { s with
      turns := r
      locks := t.locks
      outLaunch := if ds = [] then s.outLaunch ++ [.locked dev q.toNat] else s.outLaunch })

/-! ### Fetch and the step (spec R33, R162, R167, R168, R346) -/

/-- R162, R167, R168: a fetch whose access traps takes that trap for the whole group, and a fetched word that stands for no
instruction traps with class ILL, cause 1 where its opcode is not assigned, and cause 3 where a reserved bit is set and no
prefix rule is broken. The cause numbers of class ILL are the model's reading (log entry 33). -/
def Obligations.BadFetchesAndWordsTrap : Prop :=
  (∀ (s : State) (x : Trap), s.access (s.who s.thr .none) .fetch s.thr.pc 4 4 = .trap x →
    Traps s (exec .fetchFault s) x ∧ Traps s s.issue x) ∧
  (∀ (s : State) (w : Ins),
    (decode w = .error .unassigned → Traps s (exec (.illegalWord w) s)
      { cls := .ill, cause := 1, detail := s.thr.group.len, va := s.thr.pc }) ∧
    (decode w = .error .reserved → s.thr.group = {} → s.thr.afterHint = false → Traps s (exec (.illegalWord w) s)
      { cls := .ill, cause := 3, detail := 0, va := s.thr.pc }) ∧
    (∀ i, decode w = .ok i → exec (.illegalWord w) s = .next s))

/-- R32, R33, R162: where it is a core's turn and the word at the selected thread's PC stands for an instruction whose
operands are on no bad register line, and no other agent holds a line of the thread's outstanding accesses, a step is that
instruction's effect for the thread and the end of the core's cycle. A turn that brings an event is that event: a message of
a peer counts once, in the order of its flit's SEQ, on a link that is up, where it acknowledges and frees the slots that it
took (R355, R364). Which core acts next is the model's choice (log entry 4). -/
def Obligations.StepRunsTheDecodedWord : Prop :=
  (∀ (s : State) (core : Nat) (t : Thread) (w : Ins) (i : Instr) (u : State),
    s.turns = [] → s.evNext = false → s.nextCore = some core →
    let a : State := { s.tick core with late := false }
    let b := a.pruneOwed core []
    b.select core [] = some t →
    let f := b.focusOn t
    f.fetch f.thr = .word w → f.accsReady f.thr = .ok → decode w = .ok i →
    (f.opPending f.thr = true ∨ f.thr.badRead i = none) → exec i f = .next u →
    let v := (u.find t.key).getD t
    t.issued v = true →
    step s = .next (f.retire u core t v (f.nextInstr f.thr)) ∧ f.nextInstr f.thr = some i) ∧
  (∀ (s : State) (i : Instr) (r : List Turn), Instr.isTurn i = true →
    let a : State := { s with turns := r }
    (s.turns = .again i :: r → step s = exec i a) ∧
    (s.turns = .event i :: r → Instr.message? i = none → step s = exec i a) ∧
    (∀ h cls slots, s.turns = .event i :: r → Instr.message? i = some (h, cls, slots) →
      let p := s.port h.port.toNat
      (p.up = true → h.seq = p.lastIn + 1 →
        step s = exec i (a.setPort h.port.toNat
          (({ p with lastIn := h.seq + BitVec.ofNat 12 ((slots + 14) / 15 - 1) }.acked h.ack).free cls slots))) ∧
      ((p.up = false ∨ h.seq ≠ p.lastIn + 1) → step s = .next a)))

/-- R346: no step of the machine stops it; what a thread's word does wrong is a trap, and so a next state. The same of every
instruction and event in every state. Events whose condition is not met leave the state by the model's choice (log entry 10).
-/
def Obligations.NothingStopsTheMachine : Prop :=
  (∀ s : State, GoesOn (step s)) ∧
  (∀ (i : Instr) (s : State), GoesOn (exec i s))

/-- Every step keeps memory in its canonical form, so that equal contents are equal data. The canonical form is the model's;
what an unlisted byte reads as is log entry 1. -/
def Obligations.MemoryStaysCanonical : Prop :=
  ∀ s t : State, s.MemoryOk → step s = .next t → t.MemoryOk

/-- The memory of the reset state has that form. The canonical form is the model's; that memory lists nothing at reset is log
entries 1 and 2. -/
def Obligations.ResetMemoryIsCanonical : Prop :=
  State.reset.MemoryOk

/-! ### Encodings (spec R163 to R176) -/

/-- R163 to R165: every well-formed word decodes from its encoding, with every operand as it was. -/
def Obligations.DecodingInvertsEncoding : Prop :=
  ∀ i : Instr, i.WellFormed → decode (encode i) = .ok i

/-- R167, R168: a word that decodes is the encoding of what it stands for: no bit of it is without a meaning, so a reserved
bit or code that is set is not passed over. -/
def Obligations.DecodedWordsAreEncodings : Prop :=
  ∀ (w : Ins) (i : Instr), decode w = .ok i → i.WellFormed ∧ encode i = w

/-- The words that the spec's chapter on encoding writes out, and some written from its tables, decode to the instructions
that they stand for; opcodes 0x00 and 0xFF, and a reserved bit, are rejected. -/
def Obligations.SpecWordsDecode : Prop :=
  decode 0x010C1080 = .ok (.add 3 1 2) ∧ decode 0x20145FFF = .ok (.addi 5 5 (-1)) ∧
  decode 0x300C1081 = .ok (.fadd 3 1 2 .rtz) ∧ decode 0x8008310C = .ok (.vadd 2 3 4 1 true) ∧
  decode 0x54144000 = .ok (.ldw 5 4 0) ∧ decode 0xF1800188 = .ok (.pfxv true 0x188) ∧
  decode 0xF5000001 = .ok .yield ∧ decode 0xF3000005 = .ok (.pfxs .sys) ∧ decode 0x5B144000 = .ok (.lda 5 4 .d8 0) ∧
  decode 0x40140FFD = .ok (.beq 5 0 (-3)) ∧ decode 0x54183000 = .ok (.ldw 6 3 0) ∧
  decode 0b11000100000001000010000011100000 = .ok (.mma 1 2 3 2) ∧
  decode 0b11010000000001000101000000000011 = .ok (.copy 1 5 .q3) ∧
  decode 0b11100100000010000011000000000000 = .ok (.trq 2 3) ∧
  decode 0b10100000000001000010111111011100 = .ok (.vld 1 2 (-1) 3 true) ∧
  decode 0 = .error .unassigned ∧ decode 0xFFFFFFFF = .error .unassigned ∧ decode 0x010C1081 = .error .reserved
end

