-- ==== Sys2Proof/Laws/Memory.lean ====
section
/-! SUPPORT. Memories: what a read gives after a write, and that every operation keeps the canonical form. -/

namespace Sys2Proof.Machine

/-! ### Numbers and bytes -/

@[simp] theorem leBytes_length (n x : Nat) : (leBytes n x).length = n := by
  induction n generalizing x with
  | zero => rfl
  | succ n ih => simp [leBytes, ih]

theorem ofBytes_leBytes (n x : Nat) : ofBytes (leBytes n x) = x % 256 ^ n := by
  induction n generalizing x with
  | zero => simp [leBytes, ofBytes, Nat.mod_one]
  | succ n ih =>
    have h : x % 256 ^ (n + 1) = x % 256 + 256 * (x / 256 % 256 ^ n) := by rw [Nat.pow_succ', Nat.mod_mul]
    simp only [leBytes, ofBytes, ih, BitVec.toNat_ofNat, h]

theorem ofBytes_lt (bs : List Byte) : ofBytes bs < 256 ^ bs.length := by
  induction bs with
  | nil => simp [ofBytes]
  | cons b bs ih =>
    have := b.isLt
    simp only [ofBytes, List.length_cons, Nat.pow_succ']
    omega

@[simp] theorem upto_length (a n : Nat) : (upto a n).length = n := by
  induction n generalizing a with
  | zero => rfl
  | succ n ih => simp [upto, ih]

@[simp] theorem mem_upto {a n x : Nat} : x ∈ upto a n ↔ a ≤ x ∧ x < a + n := by
  induction n generalizing a with
  | zero => simp [upto]
  | succ n ih => simp [upto, ih]; omega

theorem upto_getD (a n i : Nat) (h : i < n) : (upto a n)[i]? = some (a + i) := by
  induction n generalizing a i with
  | zero => omega
  | succ n ih =>
    cases i with
    | zero => simp [upto]
    | succ i =>
      simp only [upto, List.getElem?_cons_succ]
      rw [ih _ _ (by omega)]
      congr 1
      omega

/-! ### Reading after writing -/

theorem read_append_of_not_listed (m k : Memory) (a : Nat) (h : ∀ c ∈ m, c.1 ≠ a) :
    Memory.read (m ++ k) a = Memory.read k a := by
  induction m with
  | nil => rfl
  | cons c m ih =>
    have hc := h c (by simp)
    simp only [List.cons_append, Memory.read, hc, if_false]
    exact ih fun d hd => h d (by simp [hd])

theorem read_append_not_listed (m k : Memory) (a : Nat) (h : ∀ c ∈ k, c.1 ≠ a) :
    Memory.read (m ++ k) a = Memory.read m a := by
  induction m with
  | nil =>
    have := read_append_of_not_listed k [] a h
    simpa using this
  | cons c m ih =>
    simp only [List.cons_append, Memory.read]
    split <;> simp_all

theorem read_filter (m : Memory) (p : Host.Cell → Bool) (a : Nat) (h : ∀ c ∈ m, c.1 = a → p c = true) :
    Memory.read (m.filter p) a = Memory.read m a := by
  induction m with
  | nil => rfl
  | cons c m ih =>
    have hr := ih fun d hd => h d (by simp [hd])
    by_cases hp : p c = true
    · simp only [List.filter_cons, hp, if_true, Memory.read, hr]
    · have hne : c.1 ≠ a := fun e => hp (h c (by simp) e)
      simp [hp, Memory.read, hne, hr]

theorem read_filter_none (m : Memory) (p : Host.Cell → Bool) (a : Nat) (h : ∀ c ∈ m, c.1 = a → p c = false) :
    Memory.read (m.filter p) a = unlisted := by
  have := read_append_of_not_listed (m.filter p) [] a (by
    intro c hc e
    have := List.mem_filter.1 hc
    simp [h c this.1 e] at this)
  simpa [Memory.read] using this

theorem mem_freshCells {a : Nat} {bs : List Byte} {c : Host.Cell} (h : c ∈ freshCells a bs) :
    a ≤ c.1 ∧ c.1 < a + bs.length ∧ c.2 ≠ unlisted := by
  induction bs generalizing a with
  | nil => simp [freshCells] at h
  | cons b bs ih =>
    have step : c ∈ freshCells (a + 1) bs → a ≤ c.1 ∧ c.1 < a + (b :: bs).length ∧ c.2 ≠ unlisted := by
      intro h
      have := ih h
      simp only [List.length_cons]
      exact ⟨by omega, by omega, this.2.2⟩
    simp only [freshCells] at h
    split at h
    · exact step h
    · rcases List.mem_cons.1 h with rfl | h
      · simp only [List.length_cons]
        exact ⟨Nat.le_refl _, by omega, by assumption⟩
      · exact step h

theorem read_freshCells (a x : Nat) (bs : List Byte) (h : a ≤ x ∧ x < a + bs.length) :
    Memory.read (freshCells a bs) x = bs.getD (x - a) 0 := by
  induction bs generalizing a with
  | nil => simp at h; omega
  | cons b bs ih =>
    simp only [List.length_cons] at h
    by_cases hx : x = a
    · subst hx
      simp only [freshCells]
      split
      · rename_i hb
        have := read_append_of_not_listed (freshCells (x + 1) bs) [] x (by
          intro c hc; have := mem_freshCells hc; omega)
        simp at this
        simp [this, Memory.read, hb]
      · simp [Memory.read]
    · have hr := ih (a + 1) (by omega)
      have e : x - a = (x - (a + 1)) + 1 := by omega
      simp only [freshCells]
      split
      · rw [hr, e]; rfl
      · simp only [Memory.read, Ne.symm hx, if_false, hr, e]; rfl

/-- A byte reads as it was written where a write covers it, and as before elsewhere. -/
theorem read_writeBytes (m : Memory) (a : Nat) (bs : List Byte) (x : Nat) :
    (m.writeBytes a bs).read x = if a ≤ x ∧ x < a + bs.length then bs.getD (x - a) 0 else m.read x := by
  unfold Memory.writeBytes
  have lo : ∀ c ∈ m.filter (fun c => decide (c.1 < a)), c.1 < a := by
    intro c hc; simpa using (List.mem_filter.1 hc).2
  have hi : ∀ c ∈ m.filter (fun c => decide (a + bs.length ≤ c.1)), a + bs.length ≤ c.1 := by
    intro c hc; simpa using (List.mem_filter.1 hc).2
  have mid : ∀ c ∈ freshCells a bs, a ≤ c.1 ∧ c.1 < a + bs.length := fun c hc =>
    ⟨(mem_freshCells hc).1, (mem_freshCells hc).2.1⟩
  split
  · rename_i h
    rw [read_append_not_listed _ _ _ (fun c hc e => by have := hi c hc; omega),
      read_append_of_not_listed _ _ _ (fun c hc e => by have := lo c hc; omega), read_freshCells _ _ _ h]
  · rename_i h
    by_cases hx : x < a
    · rw [read_append_not_listed _ _ _ (fun c hc e => by have := hi c hc; omega),
        read_append_not_listed _ _ _ (fun c hc e => by have := mid c hc; omega),
        read_filter _ _ _ (fun c _ e => by simp [e, hx])]
    · rw [List.append_assoc, read_append_of_not_listed _ _ _ (fun c hc e => by have := lo c hc; omega),
        read_append_of_not_listed _ _ _ (fun c hc e => by have := mid c hc; omega),
        read_filter _ _ _ (fun c _ e => by simp [e]; omega)]

/-- Clearing makes its bytes unlisted and leaves the others. -/
theorem read_clear (m : Memory) (a n x : Nat) :
    (m.clear a n).read x = if a ≤ x ∧ x < a + n then unlisted else m.read x := by
  unfold Memory.clear
  have lo : ∀ c ∈ m.filter (fun c => decide (c.1 < a)), c.1 < a := by
    intro c hc; simpa using (List.mem_filter.1 hc).2
  have hi : ∀ c ∈ m.filter (fun c => decide (a + n ≤ c.1)), a + n ≤ c.1 := by
    intro c hc; simpa using (List.mem_filter.1 hc).2
  split
  · rename_i h
    rw [read_append_of_not_listed _ _ _ (fun c hc e => by have := lo c hc; omega)]
    exact read_filter_none _ _ _ (fun c _ e => by simp [e]; omega)
  · rename_i h
    by_cases hx : x < a
    · rw [read_append_not_listed _ _ _ (fun c hc e => by have := hi c hc; omega),
        read_filter _ _ _ (fun c _ e => by simp [e, hx])]
    · rw [read_append_of_not_listed _ _ _ (fun c hc e => by have := lo c hc; omega),
        read_filter _ _ _ (fun c _ e => by simp [e]; omega)]

/-- Bytes read back as they were written. -/
theorem readBytes_writeBytes_same (m : Memory) (a : Nat) (bs : List Byte) :
    (m.writeBytes a bs).readBytes a bs.length = bs := by
  apply List.ext_getElem?
  intro i
  simp only [Memory.readBytes, List.getElem?_map]
  by_cases h : i < bs.length
  · rw [upto_getD _ _ _ h]
    simp [read_writeBytes, h]
  · simp [List.getElem?_eq_none (by simpa using h : (upto a bs.length).length ≤ i),
      List.getElem?_eq_none (by omega : bs.length ≤ i)]

/-- Bytes apart from a write read as before it. -/
theorem readBytes_writeBytes_apart (m : Memory) (a : Nat) (bs : List Byte) (b n : Nat)
    (h : b + n ≤ a ∨ a + bs.length ≤ b) : (m.writeBytes a bs).readBytes b n = m.readBytes b n := by
  simp only [Memory.readBytes]
  apply List.map_congr_left
  intro x hx
  have := mem_upto.1 hx
  rw [read_writeBytes, if_neg (by omega)]

theorem readNum_writeNum_same (m : Memory) (a n x : Nat) : (m.writeNum a n x).readNum a n = x % 256 ^ n := by
  have := readBytes_writeBytes_same m a (leBytes n x)
  rw [leBytes_length] at this
  rw [Memory.readNum, Memory.writeNum, this, ofBytes_leBytes]

theorem readNum_writeNum_apart (m : Memory) (a n x b k : Nat) (h : b + k ≤ a ∨ a + n ≤ b) :
    (m.writeNum a n x).readNum b k = m.readNum b k := by
  rw [Memory.readNum, Memory.writeNum, readBytes_writeBytes_apart _ _ _ _ _ (by simpa using h), Memory.readNum]

theorem readNum_lt (m : Memory) (a n : Nat) : m.readNum a n < 256 ^ n := by
  have := ofBytes_lt (m.readBytes a n)
  simpa [Memory.readNum, Memory.readBytes] using this

/-! ### The canonical form -/

/-- Addresses strictly rise and no entry holds what an unlisted address reads as. -/
def Canon (m : Memory) : Prop := m.wf

@[simp] theorem canon_nil : Canon [] := by simp [Canon, Memory.wf]

theorem canon_filter {m : Memory} (h : Canon m) (p : Host.Cell → Bool) : Canon (m.filter p) :=
  ⟨h.1.filter p, fun c hc => h.2 c (List.mem_filter.1 hc).1⟩

theorem canon_freshCells (a : Nat) (bs : List Byte) : Canon (freshCells a bs) := by
  refine ⟨?_, fun c hc => (mem_freshCells hc).2.2⟩
  induction bs generalizing a with
  | nil => simp [freshCells]
  | cons b bs ih =>
    simp only [freshCells]
    split
    · exact ih _
    · refine List.pairwise_cons.2 ⟨fun c hc => ?_, ih _⟩
      have := mem_freshCells hc
      simp only; omega

theorem canon_append {m k : Memory} (hm : Canon m) (hk : Canon k) (h : ∀ x ∈ m, ∀ y ∈ k, x.1 < y.1) :
    Canon (m ++ k) :=
  ⟨List.pairwise_append.2 ⟨hm.1, hk.1, h⟩, fun c hc => (List.mem_append.1 hc).elim (hm.2 c) (hk.2 c)⟩

/-- A write keeps the canonical form. -/
@[simp] theorem canon_writeBytes {m : Memory} (h : Canon m) (a : Nat) (bs : List Byte) : Canon (m.writeBytes a bs) := by
  refine canon_append (canon_append (canon_filter h _) (canon_freshCells a bs) ?_) (canon_filter h _) ?_
  · intro x hx y hy
    have := (List.mem_filter.1 hx).2
    have := mem_freshCells hy
    simp at *; omega
  · intro x hx y hy
    have hy := (List.mem_filter.1 hy).2
    rcases List.mem_append.1 hx with hx | hx
    · have := (List.mem_filter.1 hx).2
      simp at *; omega
    · have := mem_freshCells hx
      simp at hy; omega

/-- So does clearing. -/
@[simp] theorem canon_clear {m : Memory} (h : Canon m) (a n : Nat) : Canon (m.clear a n) := by
  refine canon_append (canon_filter h _) (canon_filter h _) ?_
  intro x hx y hy
  have := (List.mem_filter.1 hx).2
  have := (List.mem_filter.1 hy).2
  simp at *; omega

@[simp] theorem canon_writeNum {m : Memory} (h : Canon m) (a n x : Nat) : Canon (m.writeNum a n x) :=
  canon_writeBytes h _ _

end Sys2Proof.Machine
end

