-- ==== Sys2Proof/Laws/State.lean ====
section
/-! SUPPORT. What each update of a record leaves of every field: one lemma per field and update, so that no proof unfolds
an update; and what the tables, spaces, launches and threads give back after a change. -/

namespace Sys2Proof.Machine

/-! ### The focus thread replaced -/

@[simp] theorem put_thr (s : State) (t : Thread) : (s.put t).thr = t := rfl
@[simp] theorem put_threads (s : State) (t : Thread) : (s.put t).threads = s.threads := rfl
@[simp] theorem put_focus (s : State) (t : Thread) : (s.put t).focus = s.focus := rfl
@[simp] theorem put_evNext (s : State) (t : Thread) : (s.put t).evNext = s.evNext := rfl
@[simp] theorem put_turns (s : State) (t : Thread) : (s.put t).turns = s.turns := rfl
@[simp] theorem put_late (s : State) (t : Thread) : (s.put t).late = s.late := rfl
@[simp] theorem put_accCount (s : State) (t : Thread) : (s.put t).accCount = s.accCount := rfl
@[simp] theorem put_freeCount (s : State) (t : Thread) : (s.put t).freeCount = s.freeCount := rfl
@[simp] theorem put_mem (s : State) (t : Thread) : (s.put t).mem = s.mem := rfl
@[simp] theorem put_bad (s : State) (t : Thread) : (s.put t).bad = s.bad := rfl
@[simp] theorem put_cores (s : State) (t : Thread) : (s.put t).cores = s.cores := rfl
@[simp] theorem put_tiles (s : State) (t : Thread) : (s.put t).tiles = s.tiles := rfl
@[simp] theorem put_towers (s : State) (t : Thread) : (s.put t).towers = s.towers := rfl
@[simp] theorem put_present (s : State) (t : Thread) : (s.put t).present = s.present := rfl
@[simp] theorem put_power (s : State) (t : Thread) : (s.put t).power = s.power := rfl
@[simp] theorem put_sensors (s : State) (t : Thread) : (s.put t).sensors = s.sensors := rfl
@[simp] theorem put_therm (s : State) (t : Thread) : (s.put t).therm = s.therm := rfl
@[simp] theorem put_spaces (s : State) (t : Thread) : (s.put t).spaces = s.spaces := rfl
@[simp] theorem put_pins (s : State) (t : Thread) : (s.put t).pins = s.pins := rfl
@[simp] theorem put_kept (s : State) (t : Thread) : (s.put t).kept = s.kept := rfl
@[simp] theorem put_banks (s : State) (t : Thread) : (s.put t).banks = s.banks := rfl
@[simp] theorem put_uppers (s : State) (t : Thread) : (s.put t).uppers = s.uppers := rfl
@[simp] theorem put_peers (s : State) (t : Thread) : (s.put t).peers = s.peers := rfl
@[simp] theorem put_chosen (s : State) (t : Thread) : (s.put t).chosen = s.chosen := rfl
@[simp] theorem put_moves (s : State) (t : Thread) : (s.put t).moves = s.moves := rfl
@[simp] theorem put_launches (s : State) (t : Thread) : (s.put t).launches = s.launches := rfl
@[simp] theorem put_recordsIn (s : State) (t : Thread) : (s.put t).recordsIn = s.recordsIn := rfl
@[simp] theorem put_early (s : State) (t : Thread) : (s.put t).early = s.early := rfl
@[simp] theorem put_submitting (s : State) (t : Thread) : (s.put t).submitting = s.submitting := rfl
@[simp] theorem put_locks (s : State) (t : Thread) : (s.put t).locks = s.locks := rfl
@[simp] theorem put_away (s : State) (t : Thread) : (s.put t).away = s.away := rfl
@[simp] theorem put_posted (s : State) (t : Thread) : (s.put t).posted = s.posted := rfl
@[simp] theorem put_launchCount (s : State) (t : Thread) : (s.put t).launchCount = s.launchCount := rfl
@[simp] theorem put_ageCount (s : State) (t : Thread) : (s.put t).ageCount = s.ageCount := rfl
@[simp] theorem put_actCount (s : State) (t : Thread) : (s.put t).actCount = s.actCount := rfl
@[simp] theorem put_clock (s : State) (t : Thread) : (s.put t).clock = s.clock := rfl
@[simp] theorem put_dev (s : State) (t : Thread) : (s.put t).dev = s.dev := rfl
@[simp] theorem put_booted (s : State) (t : Thread) : (s.put t).booted = s.booted := rfl
@[simp] theorem put_partmap (s : State) (t : Thread) : (s.put t).partmap = s.partmap := rfl
@[simp] theorem put_mport (s : State) (t : Thread) : (s.put t).mport = s.mport := rfl
@[simp] theorem put_sdtb (s : State) (t : Thread) : (s.put t).sdtb = s.sdtb := rfl
@[simp] theorem put_wdlim (s : State) (t : Thread) : (s.put t).wdlim = s.wdlim := rfl
@[simp] theorem put_shards (s : State) (t : Thread) : (s.put t).shards = s.shards := rfl
@[simp] theorem put_shardCount (s : State) (t : Thread) : (s.put t).shardCount = s.shardCount := rfl
@[simp] theorem put_cmnts (s : State) (t : Thread) : (s.put t).cmnts = s.cmnts := rfl
@[simp] theorem put_cmntCount (s : State) (t : Thread) : (s.put t).cmntCount = s.cmntCount := rfl
@[simp] theorem put_inHand (s : State) (t : Thread) : (s.put t).inHand = s.inHand := rfl
@[simp] theorem put_flips (s : State) (t : Thread) : (s.put t).flips = s.flips := rfl
@[simp] theorem put_refenced (s : State) (t : Thread) : (s.put t).refenced = s.refenced := rfl
@[simp] theorem put_counts (s : State) (t : Thread) : (s.put t).counts = s.counts := rfl
@[simp] theorem put_cmdPorts (s : State) (t : Thread) : (s.put t).cmdPorts = s.cmdPorts := rfl
@[simp] theorem put_forwards (s : State) (t : Thread) : (s.put t).forwards = s.forwards := rfl
@[simp] theorem put_hostBias (s : State) (t : Thread) : (s.put t).hostBias = s.hostBias := rfl
@[simp] theorem put_dir (s : State) (t : Thread) : (s.put t).dir = s.dir := rfl
@[simp] theorem put_caches (s : State) (t : Thread) : (s.put t).caches = s.caches := rfl
@[simp] theorem put_hearths (s : State) (t : Thread) : (s.put t).hearths = s.hearths := rfl
@[simp] theorem put_lineQueue (s : State) (t : Thread) : (s.put t).lineQueue = s.lineQueue := rfl
@[simp] theorem put_called (s : State) (t : Thread) : (s.put t).called = s.called := rfl
@[simp] theorem put_waiting (s : State) (t : Thread) : (s.put t).waiting = s.waiting := rfl
@[simp] theorem put_bisnp (s : State) (t : Thread) : (s.put t).bisnp = s.bisnp := rfl
@[simp] theorem put_remote (s : State) (t : Thread) : (s.put t).remote = s.remote := rfl
@[simp] theorem put_ghosts (s : State) (t : Thread) : (s.put t).ghosts = s.ghosts := rfl
@[simp] theorem put_halves (s : State) (t : Thread) : (s.put t).halves = s.halves := rfl
@[simp] theorem put_halfAsks (s : State) (t : Thread) : (s.put t).halfAsks = s.halfAsks := rfl
@[simp] theorem put_txns (s : State) (t : Thread) : (s.put t).txns = s.txns := rfl
@[simp] theorem put_outPeer (s : State) (t : Thread) : (s.put t).outPeer = s.outPeer := rfl
@[simp] theorem put_outHost (s : State) (t : Thread) : (s.put t).outHost = s.outHost := rfl
@[simp] theorem put_outLaunch (s : State) (t : Thread) : (s.put t).outLaunch = s.outLaunch := rfl
@[simp] theorem put_reports (s : State) (t : Thread) : (s.put t).reports = s.reports := rfl
@[simp] theorem put_ports (s : State) (t : Thread) : (s.put t).ports = s.ports := rfl
@[simp] theorem put_lease (s : State) (t : Thread) : (s.put t).lease = s.lease := rfl
@[simp] theorem put_semGen (s : State) (t : Thread) : (s.put t).semGen = s.semGen := rfl
@[simp] theorem put_holder (s : State) (t : Thread) : (s.put t).holder = s.holder := rfl
@[simp] theorem put_lastGrant (s : State) (t : Thread) : (s.put t).lastGrant = s.lastGrant := rfl

/-! ### The focus thread changed -/

@[simp] theorem upd_thr (s : State) (f : Thread → Thread) : (s.upd f).thr = f s.thr := rfl
@[simp] theorem upd_threads (s : State) (f : Thread → Thread) : (s.upd f).threads = s.threads := rfl
@[simp] theorem upd_focus (s : State) (f : Thread → Thread) : (s.upd f).focus = s.focus := rfl
@[simp] theorem upd_evNext (s : State) (f : Thread → Thread) : (s.upd f).evNext = s.evNext := rfl
@[simp] theorem upd_turns (s : State) (f : Thread → Thread) : (s.upd f).turns = s.turns := rfl
@[simp] theorem upd_late (s : State) (f : Thread → Thread) : (s.upd f).late = s.late := rfl
@[simp] theorem upd_accCount (s : State) (f : Thread → Thread) : (s.upd f).accCount = s.accCount := rfl
@[simp] theorem upd_freeCount (s : State) (f : Thread → Thread) : (s.upd f).freeCount = s.freeCount := rfl
@[simp] theorem upd_mem (s : State) (f : Thread → Thread) : (s.upd f).mem = s.mem := rfl
@[simp] theorem upd_bad (s : State) (f : Thread → Thread) : (s.upd f).bad = s.bad := rfl
@[simp] theorem upd_cores (s : State) (f : Thread → Thread) : (s.upd f).cores = s.cores := rfl
@[simp] theorem upd_tiles (s : State) (f : Thread → Thread) : (s.upd f).tiles = s.tiles := rfl
@[simp] theorem upd_towers (s : State) (f : Thread → Thread) : (s.upd f).towers = s.towers := rfl
@[simp] theorem upd_present (s : State) (f : Thread → Thread) : (s.upd f).present = s.present := rfl
@[simp] theorem upd_power (s : State) (f : Thread → Thread) : (s.upd f).power = s.power := rfl
@[simp] theorem upd_sensors (s : State) (f : Thread → Thread) : (s.upd f).sensors = s.sensors := rfl
@[simp] theorem upd_therm (s : State) (f : Thread → Thread) : (s.upd f).therm = s.therm := rfl
@[simp] theorem upd_spaces (s : State) (f : Thread → Thread) : (s.upd f).spaces = s.spaces := rfl
@[simp] theorem upd_pins (s : State) (f : Thread → Thread) : (s.upd f).pins = s.pins := rfl
@[simp] theorem upd_kept (s : State) (f : Thread → Thread) : (s.upd f).kept = s.kept := rfl
@[simp] theorem upd_banks (s : State) (f : Thread → Thread) : (s.upd f).banks = s.banks := rfl
@[simp] theorem upd_uppers (s : State) (f : Thread → Thread) : (s.upd f).uppers = s.uppers := rfl
@[simp] theorem upd_peers (s : State) (f : Thread → Thread) : (s.upd f).peers = s.peers := rfl
@[simp] theorem upd_chosen (s : State) (f : Thread → Thread) : (s.upd f).chosen = s.chosen := rfl
@[simp] theorem upd_moves (s : State) (f : Thread → Thread) : (s.upd f).moves = s.moves := rfl
@[simp] theorem upd_launches (s : State) (f : Thread → Thread) : (s.upd f).launches = s.launches := rfl
@[simp] theorem upd_recordsIn (s : State) (f : Thread → Thread) : (s.upd f).recordsIn = s.recordsIn := rfl
@[simp] theorem upd_early (s : State) (f : Thread → Thread) : (s.upd f).early = s.early := rfl
@[simp] theorem upd_submitting (s : State) (f : Thread → Thread) : (s.upd f).submitting = s.submitting := rfl
@[simp] theorem upd_locks (s : State) (f : Thread → Thread) : (s.upd f).locks = s.locks := rfl
@[simp] theorem upd_away (s : State) (f : Thread → Thread) : (s.upd f).away = s.away := rfl
@[simp] theorem upd_posted (s : State) (f : Thread → Thread) : (s.upd f).posted = s.posted := rfl
@[simp] theorem upd_launchCount (s : State) (f : Thread → Thread) : (s.upd f).launchCount = s.launchCount := rfl
@[simp] theorem upd_ageCount (s : State) (f : Thread → Thread) : (s.upd f).ageCount = s.ageCount := rfl
@[simp] theorem upd_actCount (s : State) (f : Thread → Thread) : (s.upd f).actCount = s.actCount := rfl
@[simp] theorem upd_clock (s : State) (f : Thread → Thread) : (s.upd f).clock = s.clock := rfl
@[simp] theorem upd_dev (s : State) (f : Thread → Thread) : (s.upd f).dev = s.dev := rfl
@[simp] theorem upd_booted (s : State) (f : Thread → Thread) : (s.upd f).booted = s.booted := rfl
@[simp] theorem upd_partmap (s : State) (f : Thread → Thread) : (s.upd f).partmap = s.partmap := rfl
@[simp] theorem upd_mport (s : State) (f : Thread → Thread) : (s.upd f).mport = s.mport := rfl
@[simp] theorem upd_sdtb (s : State) (f : Thread → Thread) : (s.upd f).sdtb = s.sdtb := rfl
@[simp] theorem upd_wdlim (s : State) (f : Thread → Thread) : (s.upd f).wdlim = s.wdlim := rfl
@[simp] theorem upd_shards (s : State) (f : Thread → Thread) : (s.upd f).shards = s.shards := rfl
@[simp] theorem upd_shardCount (s : State) (f : Thread → Thread) : (s.upd f).shardCount = s.shardCount := rfl
@[simp] theorem upd_cmnts (s : State) (f : Thread → Thread) : (s.upd f).cmnts = s.cmnts := rfl
@[simp] theorem upd_cmntCount (s : State) (f : Thread → Thread) : (s.upd f).cmntCount = s.cmntCount := rfl
@[simp] theorem upd_inHand (s : State) (f : Thread → Thread) : (s.upd f).inHand = s.inHand := rfl
@[simp] theorem upd_flips (s : State) (f : Thread → Thread) : (s.upd f).flips = s.flips := rfl
@[simp] theorem upd_refenced (s : State) (f : Thread → Thread) : (s.upd f).refenced = s.refenced := rfl
@[simp] theorem upd_counts (s : State) (f : Thread → Thread) : (s.upd f).counts = s.counts := rfl
@[simp] theorem upd_cmdPorts (s : State) (f : Thread → Thread) : (s.upd f).cmdPorts = s.cmdPorts := rfl
@[simp] theorem upd_forwards (s : State) (f : Thread → Thread) : (s.upd f).forwards = s.forwards := rfl
@[simp] theorem upd_hostBias (s : State) (f : Thread → Thread) : (s.upd f).hostBias = s.hostBias := rfl
@[simp] theorem upd_dir (s : State) (f : Thread → Thread) : (s.upd f).dir = s.dir := rfl
@[simp] theorem upd_caches (s : State) (f : Thread → Thread) : (s.upd f).caches = s.caches := rfl
@[simp] theorem upd_hearths (s : State) (f : Thread → Thread) : (s.upd f).hearths = s.hearths := rfl
@[simp] theorem upd_lineQueue (s : State) (f : Thread → Thread) : (s.upd f).lineQueue = s.lineQueue := rfl
@[simp] theorem upd_called (s : State) (f : Thread → Thread) : (s.upd f).called = s.called := rfl
@[simp] theorem upd_waiting (s : State) (f : Thread → Thread) : (s.upd f).waiting = s.waiting := rfl
@[simp] theorem upd_bisnp (s : State) (f : Thread → Thread) : (s.upd f).bisnp = s.bisnp := rfl
@[simp] theorem upd_remote (s : State) (f : Thread → Thread) : (s.upd f).remote = s.remote := rfl
@[simp] theorem upd_ghosts (s : State) (f : Thread → Thread) : (s.upd f).ghosts = s.ghosts := rfl
@[simp] theorem upd_halves (s : State) (f : Thread → Thread) : (s.upd f).halves = s.halves := rfl
@[simp] theorem upd_halfAsks (s : State) (f : Thread → Thread) : (s.upd f).halfAsks = s.halfAsks := rfl
@[simp] theorem upd_txns (s : State) (f : Thread → Thread) : (s.upd f).txns = s.txns := rfl
@[simp] theorem upd_outPeer (s : State) (f : Thread → Thread) : (s.upd f).outPeer = s.outPeer := rfl
@[simp] theorem upd_outHost (s : State) (f : Thread → Thread) : (s.upd f).outHost = s.outHost := rfl
@[simp] theorem upd_outLaunch (s : State) (f : Thread → Thread) : (s.upd f).outLaunch = s.outLaunch := rfl
@[simp] theorem upd_reports (s : State) (f : Thread → Thread) : (s.upd f).reports = s.reports := rfl
@[simp] theorem upd_ports (s : State) (f : Thread → Thread) : (s.upd f).ports = s.ports := rfl
@[simp] theorem upd_lease (s : State) (f : Thread → Thread) : (s.upd f).lease = s.lease := rfl
@[simp] theorem upd_semGen (s : State) (f : Thread → Thread) : (s.upd f).semGen = s.semGen := rfl
@[simp] theorem upd_holder (s : State) (f : Thread → Thread) : (s.upd f).holder = s.holder := rfl
@[simp] theorem upd_lastGrant (s : State) (f : Thread → Thread) : (s.upd f).lastGrant = s.lastGrant := rfl

/-! ### A store to memory -/

@[simp] theorem store_thr (s : State) (k : Nat) (bs : List Byte) : (s.store k bs).thr = s.thr := rfl
@[simp] theorem store_threads (s : State) (k : Nat) (bs : List Byte) : (s.store k bs).threads = s.threads := rfl
@[simp] theorem store_focus (s : State) (k : Nat) (bs : List Byte) : (s.store k bs).focus = s.focus := rfl
@[simp] theorem store_evNext (s : State) (k : Nat) (bs : List Byte) : (s.store k bs).evNext = s.evNext := rfl
@[simp] theorem store_turns (s : State) (k : Nat) (bs : List Byte) : (s.store k bs).turns = s.turns := rfl
@[simp] theorem store_late (s : State) (k : Nat) (bs : List Byte) : (s.store k bs).late = s.late := rfl
@[simp] theorem store_accCount (s : State) (k : Nat) (bs : List Byte) : (s.store k bs).accCount = s.accCount := rfl
@[simp] theorem store_freeCount (s : State) (k : Nat) (bs : List Byte) : (s.store k bs).freeCount = s.freeCount := rfl
@[simp] theorem store_mem (s : State) (k : Nat) (bs : List Byte) : (s.store k bs).mem = s.mem.writeBytes k bs := rfl
@[simp] theorem store_bad (s : State) (k : Nat) (bs : List Byte) : (s.store k bs).bad = clearBad s.bad k bs.length := rfl
@[simp] theorem store_cores (s : State) (k : Nat) (bs : List Byte) : (s.store k bs).cores = s.cores := rfl
@[simp] theorem store_tiles (s : State) (k : Nat) (bs : List Byte) : (s.store k bs).tiles = s.tiles := rfl
@[simp] theorem store_towers (s : State) (k : Nat) (bs : List Byte) : (s.store k bs).towers = s.towers := rfl
@[simp] theorem store_present (s : State) (k : Nat) (bs : List Byte) : (s.store k bs).present = s.present := rfl
@[simp] theorem store_power (s : State) (k : Nat) (bs : List Byte) : (s.store k bs).power = s.power := rfl
@[simp] theorem store_sensors (s : State) (k : Nat) (bs : List Byte) : (s.store k bs).sensors = s.sensors := rfl
@[simp] theorem store_therm (s : State) (k : Nat) (bs : List Byte) : (s.store k bs).therm = s.therm := rfl
@[simp] theorem store_spaces (s : State) (k : Nat) (bs : List Byte) : (s.store k bs).spaces = s.spaces := rfl
@[simp] theorem store_pins (s : State) (k : Nat) (bs : List Byte) : (s.store k bs).pins = s.pins := rfl
@[simp] theorem store_kept (s : State) (k : Nat) (bs : List Byte) : (s.store k bs).kept = s.kept := rfl
@[simp] theorem store_banks (s : State) (k : Nat) (bs : List Byte) : (s.store k bs).banks = s.banks := rfl
@[simp] theorem store_uppers (s : State) (k : Nat) (bs : List Byte) : (s.store k bs).uppers = s.uppers := rfl
@[simp] theorem store_peers (s : State) (k : Nat) (bs : List Byte) : (s.store k bs).peers = s.peers := rfl
@[simp] theorem store_chosen (s : State) (k : Nat) (bs : List Byte) : (s.store k bs).chosen = s.chosen := rfl
@[simp] theorem store_moves (s : State) (k : Nat) (bs : List Byte) : (s.store k bs).moves = s.moves := rfl
@[simp] theorem store_launches (s : State) (k : Nat) (bs : List Byte) : (s.store k bs).launches = s.launches := rfl
@[simp] theorem store_recordsIn (s : State) (k : Nat) (bs : List Byte) : (s.store k bs).recordsIn = s.recordsIn := rfl
@[simp] theorem store_early (s : State) (k : Nat) (bs : List Byte) : (s.store k bs).early = s.early := rfl
@[simp] theorem store_submitting (s : State) (k : Nat) (bs : List Byte) : (s.store k bs).submitting = s.submitting := rfl
@[simp] theorem store_locks (s : State) (k : Nat) (bs : List Byte) : (s.store k bs).locks = s.locks := rfl
@[simp] theorem store_away (s : State) (k : Nat) (bs : List Byte) : (s.store k bs).away = s.away := rfl
@[simp] theorem store_posted (s : State) (k : Nat) (bs : List Byte) : (s.store k bs).posted = s.posted := rfl
@[simp] theorem store_launchCount (s : State) (k : Nat) (bs : List Byte) : (s.store k bs).launchCount = s.launchCount := rfl
@[simp] theorem store_ageCount (s : State) (k : Nat) (bs : List Byte) : (s.store k bs).ageCount = s.ageCount := rfl
@[simp] theorem store_actCount (s : State) (k : Nat) (bs : List Byte) : (s.store k bs).actCount = s.actCount := rfl
@[simp] theorem store_clock (s : State) (k : Nat) (bs : List Byte) : (s.store k bs).clock = s.clock := rfl
@[simp] theorem store_dev (s : State) (k : Nat) (bs : List Byte) : (s.store k bs).dev = s.dev := rfl
@[simp] theorem store_booted (s : State) (k : Nat) (bs : List Byte) : (s.store k bs).booted = s.booted := rfl
@[simp] theorem store_partmap (s : State) (k : Nat) (bs : List Byte) : (s.store k bs).partmap = s.partmap := rfl
@[simp] theorem store_mport (s : State) (k : Nat) (bs : List Byte) : (s.store k bs).mport = s.mport := rfl
@[simp] theorem store_sdtb (s : State) (k : Nat) (bs : List Byte) : (s.store k bs).sdtb = s.sdtb := rfl
@[simp] theorem store_wdlim (s : State) (k : Nat) (bs : List Byte) : (s.store k bs).wdlim = s.wdlim := rfl
@[simp] theorem store_shards (s : State) (k : Nat) (bs : List Byte) : (s.store k bs).shards = s.shards := rfl
@[simp] theorem store_shardCount (s : State) (k : Nat) (bs : List Byte) : (s.store k bs).shardCount = s.shardCount := rfl
@[simp] theorem store_cmnts (s : State) (k : Nat) (bs : List Byte) : (s.store k bs).cmnts = s.cmnts := rfl
@[simp] theorem store_cmntCount (s : State) (k : Nat) (bs : List Byte) : (s.store k bs).cmntCount = s.cmntCount := rfl
@[simp] theorem store_inHand (s : State) (k : Nat) (bs : List Byte) : (s.store k bs).inHand = s.inHand := rfl
@[simp] theorem store_flips (s : State) (k : Nat) (bs : List Byte) : (s.store k bs).flips = s.flips := rfl
@[simp] theorem store_refenced (s : State) (k : Nat) (bs : List Byte) : (s.store k bs).refenced = s.refenced := rfl
@[simp] theorem store_counts (s : State) (k : Nat) (bs : List Byte) : (s.store k bs).counts = s.counts := rfl
@[simp] theorem store_cmdPorts (s : State) (k : Nat) (bs : List Byte) : (s.store k bs).cmdPorts = s.cmdPorts := rfl
@[simp] theorem store_forwards (s : State) (k : Nat) (bs : List Byte) : (s.store k bs).forwards = s.forwards := rfl
@[simp] theorem store_hostBias (s : State) (k : Nat) (bs : List Byte) : (s.store k bs).hostBias = s.hostBias := rfl
@[simp] theorem store_dir (s : State) (k : Nat) (bs : List Byte) : (s.store k bs).dir = s.dir := rfl
@[simp] theorem store_caches (s : State) (k : Nat) (bs : List Byte) : (s.store k bs).caches = s.caches := rfl
@[simp] theorem store_hearths (s : State) (k : Nat) (bs : List Byte) : (s.store k bs).hearths = s.hearths := rfl
@[simp] theorem store_lineQueue (s : State) (k : Nat) (bs : List Byte) : (s.store k bs).lineQueue = s.lineQueue := rfl
@[simp] theorem store_called (s : State) (k : Nat) (bs : List Byte) : (s.store k bs).called = s.called := rfl
@[simp] theorem store_waiting (s : State) (k : Nat) (bs : List Byte) : (s.store k bs).waiting = s.waiting := rfl
@[simp] theorem store_bisnp (s : State) (k : Nat) (bs : List Byte) : (s.store k bs).bisnp = s.bisnp := rfl
@[simp] theorem store_remote (s : State) (k : Nat) (bs : List Byte) : (s.store k bs).remote = s.remote := rfl
@[simp] theorem store_ghosts (s : State) (k : Nat) (bs : List Byte) : (s.store k bs).ghosts = s.ghosts := rfl
@[simp] theorem store_halves (s : State) (k : Nat) (bs : List Byte) : (s.store k bs).halves = s.halves := rfl
@[simp] theorem store_halfAsks (s : State) (k : Nat) (bs : List Byte) : (s.store k bs).halfAsks = s.halfAsks := rfl
@[simp] theorem store_txns (s : State) (k : Nat) (bs : List Byte) : (s.store k bs).txns = s.txns := rfl
@[simp] theorem store_outPeer (s : State) (k : Nat) (bs : List Byte) : (s.store k bs).outPeer = s.outPeer := rfl
@[simp] theorem store_outHost (s : State) (k : Nat) (bs : List Byte) : (s.store k bs).outHost = s.outHost := rfl
@[simp] theorem store_outLaunch (s : State) (k : Nat) (bs : List Byte) : (s.store k bs).outLaunch = s.outLaunch := rfl
@[simp] theorem store_reports (s : State) (k : Nat) (bs : List Byte) : (s.store k bs).reports = s.reports := rfl
@[simp] theorem store_ports (s : State) (k : Nat) (bs : List Byte) : (s.store k bs).ports = s.ports := rfl
@[simp] theorem store_lease (s : State) (k : Nat) (bs : List Byte) : (s.store k bs).lease = s.lease := rfl
@[simp] theorem store_semGen (s : State) (k : Nat) (bs : List Byte) : (s.store k bs).semGen = s.semGen := rfl
@[simp] theorem store_holder (s : State) (k : Nat) (bs : List Byte) : (s.store k bs).holder = s.holder := rfl
@[simp] theorem store_lastGrant (s : State) (k : Nat) (bs : List Byte) : (s.store k bs).lastGrant = s.lastGrant := rfl

/-! ### A core changed -/

@[simp] theorem setCore_thr (s : State) (i : Nat) (x : Core) : (s.setCore i x).thr = s.thr := rfl
@[simp] theorem setCore_threads (s : State) (i : Nat) (x : Core) : (s.setCore i x).threads = s.threads := rfl
@[simp] theorem setCore_focus (s : State) (i : Nat) (x : Core) : (s.setCore i x).focus = s.focus := rfl
@[simp] theorem setCore_evNext (s : State) (i : Nat) (x : Core) : (s.setCore i x).evNext = s.evNext := rfl
@[simp] theorem setCore_turns (s : State) (i : Nat) (x : Core) : (s.setCore i x).turns = s.turns := rfl
@[simp] theorem setCore_late (s : State) (i : Nat) (x : Core) : (s.setCore i x).late = s.late := rfl
@[simp] theorem setCore_accCount (s : State) (i : Nat) (x : Core) : (s.setCore i x).accCount = s.accCount := rfl
@[simp] theorem setCore_freeCount (s : State) (i : Nat) (x : Core) : (s.setCore i x).freeCount = s.freeCount := rfl
@[simp] theorem setCore_mem (s : State) (i : Nat) (x : Core) : (s.setCore i x).mem = s.mem := rfl
@[simp] theorem setCore_bad (s : State) (i : Nat) (x : Core) : (s.setCore i x).bad = s.bad := rfl
@[simp] theorem setCore_cores (s : State) (i : Nat) (x : Core) : (s.setCore i x).cores = Tab.put s.cores i x := rfl
@[simp] theorem setCore_tiles (s : State) (i : Nat) (x : Core) : (s.setCore i x).tiles = s.tiles := rfl
@[simp] theorem setCore_towers (s : State) (i : Nat) (x : Core) : (s.setCore i x).towers = s.towers := rfl
@[simp] theorem setCore_present (s : State) (i : Nat) (x : Core) : (s.setCore i x).present = s.present := rfl
@[simp] theorem setCore_power (s : State) (i : Nat) (x : Core) : (s.setCore i x).power = s.power := rfl
@[simp] theorem setCore_sensors (s : State) (i : Nat) (x : Core) : (s.setCore i x).sensors = s.sensors := rfl
@[simp] theorem setCore_therm (s : State) (i : Nat) (x : Core) : (s.setCore i x).therm = s.therm := rfl
@[simp] theorem setCore_spaces (s : State) (i : Nat) (x : Core) : (s.setCore i x).spaces = s.spaces := rfl
@[simp] theorem setCore_pins (s : State) (i : Nat) (x : Core) : (s.setCore i x).pins = s.pins := rfl
@[simp] theorem setCore_kept (s : State) (i : Nat) (x : Core) : (s.setCore i x).kept = s.kept := rfl
@[simp] theorem setCore_banks (s : State) (i : Nat) (x : Core) : (s.setCore i x).banks = s.banks := rfl
@[simp] theorem setCore_uppers (s : State) (i : Nat) (x : Core) : (s.setCore i x).uppers = s.uppers := rfl
@[simp] theorem setCore_peers (s : State) (i : Nat) (x : Core) : (s.setCore i x).peers = s.peers := rfl
@[simp] theorem setCore_chosen (s : State) (i : Nat) (x : Core) : (s.setCore i x).chosen = s.chosen := rfl
@[simp] theorem setCore_moves (s : State) (i : Nat) (x : Core) : (s.setCore i x).moves = s.moves := rfl
@[simp] theorem setCore_launches (s : State) (i : Nat) (x : Core) : (s.setCore i x).launches = s.launches := rfl
@[simp] theorem setCore_recordsIn (s : State) (i : Nat) (x : Core) : (s.setCore i x).recordsIn = s.recordsIn := rfl
@[simp] theorem setCore_early (s : State) (i : Nat) (x : Core) : (s.setCore i x).early = s.early := rfl
@[simp] theorem setCore_submitting (s : State) (i : Nat) (x : Core) : (s.setCore i x).submitting = s.submitting := rfl
@[simp] theorem setCore_locks (s : State) (i : Nat) (x : Core) : (s.setCore i x).locks = s.locks := rfl
@[simp] theorem setCore_away (s : State) (i : Nat) (x : Core) : (s.setCore i x).away = s.away := rfl
@[simp] theorem setCore_posted (s : State) (i : Nat) (x : Core) : (s.setCore i x).posted = s.posted := rfl
@[simp] theorem setCore_launchCount (s : State) (i : Nat) (x : Core) : (s.setCore i x).launchCount = s.launchCount := rfl
@[simp] theorem setCore_ageCount (s : State) (i : Nat) (x : Core) : (s.setCore i x).ageCount = s.ageCount := rfl
@[simp] theorem setCore_actCount (s : State) (i : Nat) (x : Core) : (s.setCore i x).actCount = s.actCount := rfl
@[simp] theorem setCore_clock (s : State) (i : Nat) (x : Core) : (s.setCore i x).clock = s.clock := rfl
@[simp] theorem setCore_dev (s : State) (i : Nat) (x : Core) : (s.setCore i x).dev = s.dev := rfl
@[simp] theorem setCore_booted (s : State) (i : Nat) (x : Core) : (s.setCore i x).booted = s.booted := rfl
@[simp] theorem setCore_partmap (s : State) (i : Nat) (x : Core) : (s.setCore i x).partmap = s.partmap := rfl
@[simp] theorem setCore_mport (s : State) (i : Nat) (x : Core) : (s.setCore i x).mport = s.mport := rfl
@[simp] theorem setCore_sdtb (s : State) (i : Nat) (x : Core) : (s.setCore i x).sdtb = s.sdtb := rfl
@[simp] theorem setCore_wdlim (s : State) (i : Nat) (x : Core) : (s.setCore i x).wdlim = s.wdlim := rfl
@[simp] theorem setCore_shards (s : State) (i : Nat) (x : Core) : (s.setCore i x).shards = s.shards := rfl
@[simp] theorem setCore_shardCount (s : State) (i : Nat) (x : Core) : (s.setCore i x).shardCount = s.shardCount := rfl
@[simp] theorem setCore_cmnts (s : State) (i : Nat) (x : Core) : (s.setCore i x).cmnts = s.cmnts := rfl
@[simp] theorem setCore_cmntCount (s : State) (i : Nat) (x : Core) : (s.setCore i x).cmntCount = s.cmntCount := rfl
@[simp] theorem setCore_inHand (s : State) (i : Nat) (x : Core) : (s.setCore i x).inHand = s.inHand := rfl
@[simp] theorem setCore_flips (s : State) (i : Nat) (x : Core) : (s.setCore i x).flips = s.flips := rfl
@[simp] theorem setCore_refenced (s : State) (i : Nat) (x : Core) : (s.setCore i x).refenced = s.refenced := rfl
@[simp] theorem setCore_counts (s : State) (i : Nat) (x : Core) : (s.setCore i x).counts = s.counts := rfl
@[simp] theorem setCore_cmdPorts (s : State) (i : Nat) (x : Core) : (s.setCore i x).cmdPorts = s.cmdPorts := rfl
@[simp] theorem setCore_forwards (s : State) (i : Nat) (x : Core) : (s.setCore i x).forwards = s.forwards := rfl
@[simp] theorem setCore_hostBias (s : State) (i : Nat) (x : Core) : (s.setCore i x).hostBias = s.hostBias := rfl
@[simp] theorem setCore_dir (s : State) (i : Nat) (x : Core) : (s.setCore i x).dir = s.dir := rfl
@[simp] theorem setCore_caches (s : State) (i : Nat) (x : Core) : (s.setCore i x).caches = s.caches := rfl
@[simp] theorem setCore_hearths (s : State) (i : Nat) (x : Core) : (s.setCore i x).hearths = s.hearths := rfl
@[simp] theorem setCore_lineQueue (s : State) (i : Nat) (x : Core) : (s.setCore i x).lineQueue = s.lineQueue := rfl
@[simp] theorem setCore_called (s : State) (i : Nat) (x : Core) : (s.setCore i x).called = s.called := rfl
@[simp] theorem setCore_waiting (s : State) (i : Nat) (x : Core) : (s.setCore i x).waiting = s.waiting := rfl
@[simp] theorem setCore_bisnp (s : State) (i : Nat) (x : Core) : (s.setCore i x).bisnp = s.bisnp := rfl
@[simp] theorem setCore_remote (s : State) (i : Nat) (x : Core) : (s.setCore i x).remote = s.remote := rfl
@[simp] theorem setCore_ghosts (s : State) (i : Nat) (x : Core) : (s.setCore i x).ghosts = s.ghosts := rfl
@[simp] theorem setCore_halves (s : State) (i : Nat) (x : Core) : (s.setCore i x).halves = s.halves := rfl
@[simp] theorem setCore_halfAsks (s : State) (i : Nat) (x : Core) : (s.setCore i x).halfAsks = s.halfAsks := rfl
@[simp] theorem setCore_txns (s : State) (i : Nat) (x : Core) : (s.setCore i x).txns = s.txns := rfl
@[simp] theorem setCore_outPeer (s : State) (i : Nat) (x : Core) : (s.setCore i x).outPeer = s.outPeer := rfl
@[simp] theorem setCore_outHost (s : State) (i : Nat) (x : Core) : (s.setCore i x).outHost = s.outHost := rfl
@[simp] theorem setCore_outLaunch (s : State) (i : Nat) (x : Core) : (s.setCore i x).outLaunch = s.outLaunch := rfl
@[simp] theorem setCore_reports (s : State) (i : Nat) (x : Core) : (s.setCore i x).reports = s.reports := rfl
@[simp] theorem setCore_ports (s : State) (i : Nat) (x : Core) : (s.setCore i x).ports = s.ports := rfl
@[simp] theorem setCore_lease (s : State) (i : Nat) (x : Core) : (s.setCore i x).lease = s.lease := rfl
@[simp] theorem setCore_semGen (s : State) (i : Nat) (x : Core) : (s.setCore i x).semGen = s.semGen := rfl
@[simp] theorem setCore_holder (s : State) (i : Nat) (x : Core) : (s.setCore i x).holder = s.holder := rfl
@[simp] theorem setCore_lastGrant (s : State) (i : Nat) (x : Core) : (s.setCore i x).lastGrant = s.lastGrant := rfl

/-! ### A tile changed -/

@[simp] theorem setTile_thr (s : State) (i : Nat) (x : TileSt) : (s.setTile i x).thr = s.thr := rfl
@[simp] theorem setTile_threads (s : State) (i : Nat) (x : TileSt) : (s.setTile i x).threads = s.threads := rfl
@[simp] theorem setTile_focus (s : State) (i : Nat) (x : TileSt) : (s.setTile i x).focus = s.focus := rfl
@[simp] theorem setTile_evNext (s : State) (i : Nat) (x : TileSt) : (s.setTile i x).evNext = s.evNext := rfl
@[simp] theorem setTile_turns (s : State) (i : Nat) (x : TileSt) : (s.setTile i x).turns = s.turns := rfl
@[simp] theorem setTile_late (s : State) (i : Nat) (x : TileSt) : (s.setTile i x).late = s.late := rfl
@[simp] theorem setTile_accCount (s : State) (i : Nat) (x : TileSt) : (s.setTile i x).accCount = s.accCount := rfl
@[simp] theorem setTile_freeCount (s : State) (i : Nat) (x : TileSt) : (s.setTile i x).freeCount = s.freeCount := rfl
@[simp] theorem setTile_mem (s : State) (i : Nat) (x : TileSt) : (s.setTile i x).mem = s.mem := rfl
@[simp] theorem setTile_bad (s : State) (i : Nat) (x : TileSt) : (s.setTile i x).bad = s.bad := rfl
@[simp] theorem setTile_cores (s : State) (i : Nat) (x : TileSt) : (s.setTile i x).cores = s.cores := rfl
@[simp] theorem setTile_tiles (s : State) (i : Nat) (x : TileSt) : (s.setTile i x).tiles = Tab.put s.tiles i x := rfl
@[simp] theorem setTile_towers (s : State) (i : Nat) (x : TileSt) : (s.setTile i x).towers = s.towers := rfl
@[simp] theorem setTile_present (s : State) (i : Nat) (x : TileSt) : (s.setTile i x).present = s.present := rfl
@[simp] theorem setTile_power (s : State) (i : Nat) (x : TileSt) : (s.setTile i x).power = s.power := rfl
@[simp] theorem setTile_sensors (s : State) (i : Nat) (x : TileSt) : (s.setTile i x).sensors = s.sensors := rfl
@[simp] theorem setTile_therm (s : State) (i : Nat) (x : TileSt) : (s.setTile i x).therm = s.therm := rfl
@[simp] theorem setTile_spaces (s : State) (i : Nat) (x : TileSt) : (s.setTile i x).spaces = s.spaces := rfl
@[simp] theorem setTile_pins (s : State) (i : Nat) (x : TileSt) : (s.setTile i x).pins = s.pins := rfl
@[simp] theorem setTile_kept (s : State) (i : Nat) (x : TileSt) : (s.setTile i x).kept = s.kept := rfl
@[simp] theorem setTile_banks (s : State) (i : Nat) (x : TileSt) : (s.setTile i x).banks = s.banks := rfl
@[simp] theorem setTile_uppers (s : State) (i : Nat) (x : TileSt) : (s.setTile i x).uppers = s.uppers := rfl
@[simp] theorem setTile_peers (s : State) (i : Nat) (x : TileSt) : (s.setTile i x).peers = s.peers := rfl
@[simp] theorem setTile_chosen (s : State) (i : Nat) (x : TileSt) : (s.setTile i x).chosen = s.chosen := rfl
@[simp] theorem setTile_moves (s : State) (i : Nat) (x : TileSt) : (s.setTile i x).moves = s.moves := rfl
@[simp] theorem setTile_launches (s : State) (i : Nat) (x : TileSt) : (s.setTile i x).launches = s.launches := rfl
@[simp] theorem setTile_recordsIn (s : State) (i : Nat) (x : TileSt) : (s.setTile i x).recordsIn = s.recordsIn := rfl
@[simp] theorem setTile_early (s : State) (i : Nat) (x : TileSt) : (s.setTile i x).early = s.early := rfl
@[simp] theorem setTile_submitting (s : State) (i : Nat) (x : TileSt) : (s.setTile i x).submitting = s.submitting := rfl
@[simp] theorem setTile_locks (s : State) (i : Nat) (x : TileSt) : (s.setTile i x).locks = s.locks := rfl
@[simp] theorem setTile_away (s : State) (i : Nat) (x : TileSt) : (s.setTile i x).away = s.away := rfl
@[simp] theorem setTile_posted (s : State) (i : Nat) (x : TileSt) : (s.setTile i x).posted = s.posted := rfl
@[simp] theorem setTile_launchCount (s : State) (i : Nat) (x : TileSt) : (s.setTile i x).launchCount = s.launchCount := rfl
@[simp] theorem setTile_ageCount (s : State) (i : Nat) (x : TileSt) : (s.setTile i x).ageCount = s.ageCount := rfl
@[simp] theorem setTile_actCount (s : State) (i : Nat) (x : TileSt) : (s.setTile i x).actCount = s.actCount := rfl
@[simp] theorem setTile_clock (s : State) (i : Nat) (x : TileSt) : (s.setTile i x).clock = s.clock := rfl
@[simp] theorem setTile_dev (s : State) (i : Nat) (x : TileSt) : (s.setTile i x).dev = s.dev := rfl
@[simp] theorem setTile_booted (s : State) (i : Nat) (x : TileSt) : (s.setTile i x).booted = s.booted := rfl
@[simp] theorem setTile_partmap (s : State) (i : Nat) (x : TileSt) : (s.setTile i x).partmap = s.partmap := rfl
@[simp] theorem setTile_mport (s : State) (i : Nat) (x : TileSt) : (s.setTile i x).mport = s.mport := rfl
@[simp] theorem setTile_sdtb (s : State) (i : Nat) (x : TileSt) : (s.setTile i x).sdtb = s.sdtb := rfl
@[simp] theorem setTile_wdlim (s : State) (i : Nat) (x : TileSt) : (s.setTile i x).wdlim = s.wdlim := rfl
@[simp] theorem setTile_shards (s : State) (i : Nat) (x : TileSt) : (s.setTile i x).shards = s.shards := rfl
@[simp] theorem setTile_shardCount (s : State) (i : Nat) (x : TileSt) : (s.setTile i x).shardCount = s.shardCount := rfl
@[simp] theorem setTile_cmnts (s : State) (i : Nat) (x : TileSt) : (s.setTile i x).cmnts = s.cmnts := rfl
@[simp] theorem setTile_cmntCount (s : State) (i : Nat) (x : TileSt) : (s.setTile i x).cmntCount = s.cmntCount := rfl
@[simp] theorem setTile_inHand (s : State) (i : Nat) (x : TileSt) : (s.setTile i x).inHand = s.inHand := rfl
@[simp] theorem setTile_flips (s : State) (i : Nat) (x : TileSt) : (s.setTile i x).flips = s.flips := rfl
@[simp] theorem setTile_refenced (s : State) (i : Nat) (x : TileSt) : (s.setTile i x).refenced = s.refenced := rfl
@[simp] theorem setTile_counts (s : State) (i : Nat) (x : TileSt) : (s.setTile i x).counts = s.counts := rfl
@[simp] theorem setTile_cmdPorts (s : State) (i : Nat) (x : TileSt) : (s.setTile i x).cmdPorts = s.cmdPorts := rfl
@[simp] theorem setTile_forwards (s : State) (i : Nat) (x : TileSt) : (s.setTile i x).forwards = s.forwards := rfl
@[simp] theorem setTile_hostBias (s : State) (i : Nat) (x : TileSt) : (s.setTile i x).hostBias = s.hostBias := rfl
@[simp] theorem setTile_dir (s : State) (i : Nat) (x : TileSt) : (s.setTile i x).dir = s.dir := rfl
@[simp] theorem setTile_caches (s : State) (i : Nat) (x : TileSt) : (s.setTile i x).caches = s.caches := rfl
@[simp] theorem setTile_hearths (s : State) (i : Nat) (x : TileSt) : (s.setTile i x).hearths = s.hearths := rfl
@[simp] theorem setTile_lineQueue (s : State) (i : Nat) (x : TileSt) : (s.setTile i x).lineQueue = s.lineQueue := rfl
@[simp] theorem setTile_called (s : State) (i : Nat) (x : TileSt) : (s.setTile i x).called = s.called := rfl
@[simp] theorem setTile_waiting (s : State) (i : Nat) (x : TileSt) : (s.setTile i x).waiting = s.waiting := rfl
@[simp] theorem setTile_bisnp (s : State) (i : Nat) (x : TileSt) : (s.setTile i x).bisnp = s.bisnp := rfl
@[simp] theorem setTile_remote (s : State) (i : Nat) (x : TileSt) : (s.setTile i x).remote = s.remote := rfl
@[simp] theorem setTile_ghosts (s : State) (i : Nat) (x : TileSt) : (s.setTile i x).ghosts = s.ghosts := rfl
@[simp] theorem setTile_halves (s : State) (i : Nat) (x : TileSt) : (s.setTile i x).halves = s.halves := rfl
@[simp] theorem setTile_halfAsks (s : State) (i : Nat) (x : TileSt) : (s.setTile i x).halfAsks = s.halfAsks := rfl
@[simp] theorem setTile_txns (s : State) (i : Nat) (x : TileSt) : (s.setTile i x).txns = s.txns := rfl
@[simp] theorem setTile_outPeer (s : State) (i : Nat) (x : TileSt) : (s.setTile i x).outPeer = s.outPeer := rfl
@[simp] theorem setTile_outHost (s : State) (i : Nat) (x : TileSt) : (s.setTile i x).outHost = s.outHost := rfl
@[simp] theorem setTile_outLaunch (s : State) (i : Nat) (x : TileSt) : (s.setTile i x).outLaunch = s.outLaunch := rfl
@[simp] theorem setTile_reports (s : State) (i : Nat) (x : TileSt) : (s.setTile i x).reports = s.reports := rfl
@[simp] theorem setTile_ports (s : State) (i : Nat) (x : TileSt) : (s.setTile i x).ports = s.ports := rfl
@[simp] theorem setTile_lease (s : State) (i : Nat) (x : TileSt) : (s.setTile i x).lease = s.lease := rfl
@[simp] theorem setTile_semGen (s : State) (i : Nat) (x : TileSt) : (s.setTile i x).semGen = s.semGen := rfl
@[simp] theorem setTile_holder (s : State) (i : Nat) (x : TileSt) : (s.setTile i x).holder = s.holder := rfl
@[simp] theorem setTile_lastGrant (s : State) (i : Nat) (x : TileSt) : (s.setTile i x).lastGrant = s.lastGrant := rfl

/-! ### A tower changed -/

@[simp] theorem setTower_thr (s : State) (i : Nat) (x : TowerSt) : (s.setTower i x).thr = s.thr := rfl
@[simp] theorem setTower_threads (s : State) (i : Nat) (x : TowerSt) : (s.setTower i x).threads = s.threads := rfl
@[simp] theorem setTower_focus (s : State) (i : Nat) (x : TowerSt) : (s.setTower i x).focus = s.focus := rfl
@[simp] theorem setTower_evNext (s : State) (i : Nat) (x : TowerSt) : (s.setTower i x).evNext = s.evNext := rfl
@[simp] theorem setTower_turns (s : State) (i : Nat) (x : TowerSt) : (s.setTower i x).turns = s.turns := rfl
@[simp] theorem setTower_late (s : State) (i : Nat) (x : TowerSt) : (s.setTower i x).late = s.late := rfl
@[simp] theorem setTower_accCount (s : State) (i : Nat) (x : TowerSt) : (s.setTower i x).accCount = s.accCount := rfl
@[simp] theorem setTower_freeCount (s : State) (i : Nat) (x : TowerSt) : (s.setTower i x).freeCount = s.freeCount := rfl
@[simp] theorem setTower_mem (s : State) (i : Nat) (x : TowerSt) : (s.setTower i x).mem = s.mem := rfl
@[simp] theorem setTower_bad (s : State) (i : Nat) (x : TowerSt) : (s.setTower i x).bad = s.bad := rfl
@[simp] theorem setTower_cores (s : State) (i : Nat) (x : TowerSt) : (s.setTower i x).cores = s.cores := rfl
@[simp] theorem setTower_tiles (s : State) (i : Nat) (x : TowerSt) : (s.setTower i x).tiles = s.tiles := rfl
@[simp] theorem setTower_towers (s : State) (i : Nat) (x : TowerSt) : (s.setTower i x).towers = Tab.put s.towers i x := rfl
@[simp] theorem setTower_present (s : State) (i : Nat) (x : TowerSt) : (s.setTower i x).present = s.present := rfl
@[simp] theorem setTower_power (s : State) (i : Nat) (x : TowerSt) : (s.setTower i x).power = s.power := rfl
@[simp] theorem setTower_sensors (s : State) (i : Nat) (x : TowerSt) : (s.setTower i x).sensors = s.sensors := rfl
@[simp] theorem setTower_therm (s : State) (i : Nat) (x : TowerSt) : (s.setTower i x).therm = s.therm := rfl
@[simp] theorem setTower_spaces (s : State) (i : Nat) (x : TowerSt) : (s.setTower i x).spaces = s.spaces := rfl
@[simp] theorem setTower_pins (s : State) (i : Nat) (x : TowerSt) : (s.setTower i x).pins = s.pins := rfl
@[simp] theorem setTower_kept (s : State) (i : Nat) (x : TowerSt) : (s.setTower i x).kept = s.kept := rfl
@[simp] theorem setTower_banks (s : State) (i : Nat) (x : TowerSt) : (s.setTower i x).banks = s.banks := rfl
@[simp] theorem setTower_uppers (s : State) (i : Nat) (x : TowerSt) : (s.setTower i x).uppers = s.uppers := rfl
@[simp] theorem setTower_peers (s : State) (i : Nat) (x : TowerSt) : (s.setTower i x).peers = s.peers := rfl
@[simp] theorem setTower_chosen (s : State) (i : Nat) (x : TowerSt) : (s.setTower i x).chosen = s.chosen := rfl
@[simp] theorem setTower_moves (s : State) (i : Nat) (x : TowerSt) : (s.setTower i x).moves = s.moves := rfl
@[simp] theorem setTower_launches (s : State) (i : Nat) (x : TowerSt) : (s.setTower i x).launches = s.launches := rfl
@[simp] theorem setTower_recordsIn (s : State) (i : Nat) (x : TowerSt) : (s.setTower i x).recordsIn = s.recordsIn := rfl
@[simp] theorem setTower_early (s : State) (i : Nat) (x : TowerSt) : (s.setTower i x).early = s.early := rfl
@[simp] theorem setTower_submitting (s : State) (i : Nat) (x : TowerSt) : (s.setTower i x).submitting = s.submitting := rfl
@[simp] theorem setTower_locks (s : State) (i : Nat) (x : TowerSt) : (s.setTower i x).locks = s.locks := rfl
@[simp] theorem setTower_away (s : State) (i : Nat) (x : TowerSt) : (s.setTower i x).away = s.away := rfl
@[simp] theorem setTower_posted (s : State) (i : Nat) (x : TowerSt) : (s.setTower i x).posted = s.posted := rfl
@[simp] theorem setTower_launchCount (s : State) (i : Nat) (x : TowerSt) : (s.setTower i x).launchCount = s.launchCount := rfl
@[simp] theorem setTower_ageCount (s : State) (i : Nat) (x : TowerSt) : (s.setTower i x).ageCount = s.ageCount := rfl
@[simp] theorem setTower_actCount (s : State) (i : Nat) (x : TowerSt) : (s.setTower i x).actCount = s.actCount := rfl
@[simp] theorem setTower_clock (s : State) (i : Nat) (x : TowerSt) : (s.setTower i x).clock = s.clock := rfl
@[simp] theorem setTower_dev (s : State) (i : Nat) (x : TowerSt) : (s.setTower i x).dev = s.dev := rfl
@[simp] theorem setTower_booted (s : State) (i : Nat) (x : TowerSt) : (s.setTower i x).booted = s.booted := rfl
@[simp] theorem setTower_partmap (s : State) (i : Nat) (x : TowerSt) : (s.setTower i x).partmap = s.partmap := rfl
@[simp] theorem setTower_mport (s : State) (i : Nat) (x : TowerSt) : (s.setTower i x).mport = s.mport := rfl
@[simp] theorem setTower_sdtb (s : State) (i : Nat) (x : TowerSt) : (s.setTower i x).sdtb = s.sdtb := rfl
@[simp] theorem setTower_wdlim (s : State) (i : Nat) (x : TowerSt) : (s.setTower i x).wdlim = s.wdlim := rfl
@[simp] theorem setTower_shards (s : State) (i : Nat) (x : TowerSt) : (s.setTower i x).shards = s.shards := rfl
@[simp] theorem setTower_shardCount (s : State) (i : Nat) (x : TowerSt) : (s.setTower i x).shardCount = s.shardCount := rfl
@[simp] theorem setTower_cmnts (s : State) (i : Nat) (x : TowerSt) : (s.setTower i x).cmnts = s.cmnts := rfl
@[simp] theorem setTower_cmntCount (s : State) (i : Nat) (x : TowerSt) : (s.setTower i x).cmntCount = s.cmntCount := rfl
@[simp] theorem setTower_inHand (s : State) (i : Nat) (x : TowerSt) : (s.setTower i x).inHand = s.inHand := rfl
@[simp] theorem setTower_flips (s : State) (i : Nat) (x : TowerSt) : (s.setTower i x).flips = s.flips := rfl
@[simp] theorem setTower_refenced (s : State) (i : Nat) (x : TowerSt) : (s.setTower i x).refenced = s.refenced := rfl
@[simp] theorem setTower_counts (s : State) (i : Nat) (x : TowerSt) : (s.setTower i x).counts = s.counts := rfl
@[simp] theorem setTower_cmdPorts (s : State) (i : Nat) (x : TowerSt) : (s.setTower i x).cmdPorts = s.cmdPorts := rfl
@[simp] theorem setTower_forwards (s : State) (i : Nat) (x : TowerSt) : (s.setTower i x).forwards = s.forwards := rfl
@[simp] theorem setTower_hostBias (s : State) (i : Nat) (x : TowerSt) : (s.setTower i x).hostBias = s.hostBias := rfl
@[simp] theorem setTower_dir (s : State) (i : Nat) (x : TowerSt) : (s.setTower i x).dir = s.dir := rfl
@[simp] theorem setTower_caches (s : State) (i : Nat) (x : TowerSt) : (s.setTower i x).caches = s.caches := rfl
@[simp] theorem setTower_hearths (s : State) (i : Nat) (x : TowerSt) : (s.setTower i x).hearths = s.hearths := rfl
@[simp] theorem setTower_lineQueue (s : State) (i : Nat) (x : TowerSt) : (s.setTower i x).lineQueue = s.lineQueue := rfl
@[simp] theorem setTower_called (s : State) (i : Nat) (x : TowerSt) : (s.setTower i x).called = s.called := rfl
@[simp] theorem setTower_waiting (s : State) (i : Nat) (x : TowerSt) : (s.setTower i x).waiting = s.waiting := rfl
@[simp] theorem setTower_bisnp (s : State) (i : Nat) (x : TowerSt) : (s.setTower i x).bisnp = s.bisnp := rfl
@[simp] theorem setTower_remote (s : State) (i : Nat) (x : TowerSt) : (s.setTower i x).remote = s.remote := rfl
@[simp] theorem setTower_ghosts (s : State) (i : Nat) (x : TowerSt) : (s.setTower i x).ghosts = s.ghosts := rfl
@[simp] theorem setTower_halves (s : State) (i : Nat) (x : TowerSt) : (s.setTower i x).halves = s.halves := rfl
@[simp] theorem setTower_halfAsks (s : State) (i : Nat) (x : TowerSt) : (s.setTower i x).halfAsks = s.halfAsks := rfl
@[simp] theorem setTower_txns (s : State) (i : Nat) (x : TowerSt) : (s.setTower i x).txns = s.txns := rfl
@[simp] theorem setTower_outPeer (s : State) (i : Nat) (x : TowerSt) : (s.setTower i x).outPeer = s.outPeer := rfl
@[simp] theorem setTower_outHost (s : State) (i : Nat) (x : TowerSt) : (s.setTower i x).outHost = s.outHost := rfl
@[simp] theorem setTower_outLaunch (s : State) (i : Nat) (x : TowerSt) : (s.setTower i x).outLaunch = s.outLaunch := rfl
@[simp] theorem setTower_reports (s : State) (i : Nat) (x : TowerSt) : (s.setTower i x).reports = s.reports := rfl
@[simp] theorem setTower_ports (s : State) (i : Nat) (x : TowerSt) : (s.setTower i x).ports = s.ports := rfl
@[simp] theorem setTower_lease (s : State) (i : Nat) (x : TowerSt) : (s.setTower i x).lease = s.lease := rfl
@[simp] theorem setTower_semGen (s : State) (i : Nat) (x : TowerSt) : (s.setTower i x).semGen = s.semGen := rfl
@[simp] theorem setTower_holder (s : State) (i : Nat) (x : TowerSt) : (s.setTower i x).holder = s.holder := rfl
@[simp] theorem setTower_lastGrant (s : State) (i : Nat) (x : TowerSt) : (s.setTower i x).lastGrant = s.lastGrant := rfl

/-! ### A port changed -/

@[simp] theorem setPort_thr (s : State) (i : Nat) (x : Port) : (s.setPort i x).thr = s.thr := rfl
@[simp] theorem setPort_threads (s : State) (i : Nat) (x : Port) : (s.setPort i x).threads = s.threads := rfl
@[simp] theorem setPort_focus (s : State) (i : Nat) (x : Port) : (s.setPort i x).focus = s.focus := rfl
@[simp] theorem setPort_evNext (s : State) (i : Nat) (x : Port) : (s.setPort i x).evNext = s.evNext := rfl
@[simp] theorem setPort_turns (s : State) (i : Nat) (x : Port) : (s.setPort i x).turns = s.turns := rfl
@[simp] theorem setPort_late (s : State) (i : Nat) (x : Port) : (s.setPort i x).late = s.late := rfl
@[simp] theorem setPort_accCount (s : State) (i : Nat) (x : Port) : (s.setPort i x).accCount = s.accCount := rfl
@[simp] theorem setPort_freeCount (s : State) (i : Nat) (x : Port) : (s.setPort i x).freeCount = s.freeCount := rfl
@[simp] theorem setPort_mem (s : State) (i : Nat) (x : Port) : (s.setPort i x).mem = s.mem := rfl
@[simp] theorem setPort_bad (s : State) (i : Nat) (x : Port) : (s.setPort i x).bad = s.bad := rfl
@[simp] theorem setPort_cores (s : State) (i : Nat) (x : Port) : (s.setPort i x).cores = s.cores := rfl
@[simp] theorem setPort_tiles (s : State) (i : Nat) (x : Port) : (s.setPort i x).tiles = s.tiles := rfl
@[simp] theorem setPort_towers (s : State) (i : Nat) (x : Port) : (s.setPort i x).towers = s.towers := rfl
@[simp] theorem setPort_present (s : State) (i : Nat) (x : Port) : (s.setPort i x).present = s.present := rfl
@[simp] theorem setPort_power (s : State) (i : Nat) (x : Port) : (s.setPort i x).power = s.power := rfl
@[simp] theorem setPort_sensors (s : State) (i : Nat) (x : Port) : (s.setPort i x).sensors = s.sensors := rfl
@[simp] theorem setPort_therm (s : State) (i : Nat) (x : Port) : (s.setPort i x).therm = s.therm := rfl
@[simp] theorem setPort_spaces (s : State) (i : Nat) (x : Port) : (s.setPort i x).spaces = s.spaces := rfl
@[simp] theorem setPort_pins (s : State) (i : Nat) (x : Port) : (s.setPort i x).pins = s.pins := rfl
@[simp] theorem setPort_kept (s : State) (i : Nat) (x : Port) : (s.setPort i x).kept = s.kept := rfl
@[simp] theorem setPort_banks (s : State) (i : Nat) (x : Port) : (s.setPort i x).banks = s.banks := rfl
@[simp] theorem setPort_uppers (s : State) (i : Nat) (x : Port) : (s.setPort i x).uppers = s.uppers := rfl
@[simp] theorem setPort_peers (s : State) (i : Nat) (x : Port) : (s.setPort i x).peers = s.peers := rfl
@[simp] theorem setPort_chosen (s : State) (i : Nat) (x : Port) : (s.setPort i x).chosen = s.chosen := rfl
@[simp] theorem setPort_moves (s : State) (i : Nat) (x : Port) : (s.setPort i x).moves = s.moves := rfl
@[simp] theorem setPort_launches (s : State) (i : Nat) (x : Port) : (s.setPort i x).launches = s.launches := rfl
@[simp] theorem setPort_recordsIn (s : State) (i : Nat) (x : Port) : (s.setPort i x).recordsIn = s.recordsIn := rfl
@[simp] theorem setPort_early (s : State) (i : Nat) (x : Port) : (s.setPort i x).early = s.early := rfl
@[simp] theorem setPort_submitting (s : State) (i : Nat) (x : Port) : (s.setPort i x).submitting = s.submitting := rfl
@[simp] theorem setPort_locks (s : State) (i : Nat) (x : Port) : (s.setPort i x).locks = s.locks := rfl
@[simp] theorem setPort_away (s : State) (i : Nat) (x : Port) : (s.setPort i x).away = s.away := rfl
@[simp] theorem setPort_posted (s : State) (i : Nat) (x : Port) : (s.setPort i x).posted = s.posted := rfl
@[simp] theorem setPort_launchCount (s : State) (i : Nat) (x : Port) : (s.setPort i x).launchCount = s.launchCount := rfl
@[simp] theorem setPort_ageCount (s : State) (i : Nat) (x : Port) : (s.setPort i x).ageCount = s.ageCount := rfl
@[simp] theorem setPort_actCount (s : State) (i : Nat) (x : Port) : (s.setPort i x).actCount = s.actCount := rfl
@[simp] theorem setPort_clock (s : State) (i : Nat) (x : Port) : (s.setPort i x).clock = s.clock := rfl
@[simp] theorem setPort_dev (s : State) (i : Nat) (x : Port) : (s.setPort i x).dev = s.dev := rfl
@[simp] theorem setPort_booted (s : State) (i : Nat) (x : Port) : (s.setPort i x).booted = s.booted := rfl
@[simp] theorem setPort_partmap (s : State) (i : Nat) (x : Port) : (s.setPort i x).partmap = s.partmap := rfl
@[simp] theorem setPort_mport (s : State) (i : Nat) (x : Port) : (s.setPort i x).mport = s.mport := rfl
@[simp] theorem setPort_sdtb (s : State) (i : Nat) (x : Port) : (s.setPort i x).sdtb = s.sdtb := rfl
@[simp] theorem setPort_wdlim (s : State) (i : Nat) (x : Port) : (s.setPort i x).wdlim = s.wdlim := rfl
@[simp] theorem setPort_shards (s : State) (i : Nat) (x : Port) : (s.setPort i x).shards = s.shards := rfl
@[simp] theorem setPort_shardCount (s : State) (i : Nat) (x : Port) : (s.setPort i x).shardCount = s.shardCount := rfl
@[simp] theorem setPort_cmnts (s : State) (i : Nat) (x : Port) : (s.setPort i x).cmnts = s.cmnts := rfl
@[simp] theorem setPort_cmntCount (s : State) (i : Nat) (x : Port) : (s.setPort i x).cmntCount = s.cmntCount := rfl
@[simp] theorem setPort_inHand (s : State) (i : Nat) (x : Port) : (s.setPort i x).inHand = s.inHand := rfl
@[simp] theorem setPort_flips (s : State) (i : Nat) (x : Port) : (s.setPort i x).flips = s.flips := rfl
@[simp] theorem setPort_refenced (s : State) (i : Nat) (x : Port) : (s.setPort i x).refenced = s.refenced := rfl
@[simp] theorem setPort_counts (s : State) (i : Nat) (x : Port) : (s.setPort i x).counts = s.counts := rfl
@[simp] theorem setPort_cmdPorts (s : State) (i : Nat) (x : Port) : (s.setPort i x).cmdPorts = s.cmdPorts := rfl
@[simp] theorem setPort_forwards (s : State) (i : Nat) (x : Port) : (s.setPort i x).forwards = s.forwards := rfl
@[simp] theorem setPort_hostBias (s : State) (i : Nat) (x : Port) : (s.setPort i x).hostBias = s.hostBias := rfl
@[simp] theorem setPort_dir (s : State) (i : Nat) (x : Port) : (s.setPort i x).dir = s.dir := rfl
@[simp] theorem setPort_caches (s : State) (i : Nat) (x : Port) : (s.setPort i x).caches = s.caches := rfl
@[simp] theorem setPort_hearths (s : State) (i : Nat) (x : Port) : (s.setPort i x).hearths = s.hearths := rfl
@[simp] theorem setPort_lineQueue (s : State) (i : Nat) (x : Port) : (s.setPort i x).lineQueue = s.lineQueue := rfl
@[simp] theorem setPort_called (s : State) (i : Nat) (x : Port) : (s.setPort i x).called = s.called := rfl
@[simp] theorem setPort_waiting (s : State) (i : Nat) (x : Port) : (s.setPort i x).waiting = s.waiting := rfl
@[simp] theorem setPort_bisnp (s : State) (i : Nat) (x : Port) : (s.setPort i x).bisnp = s.bisnp := rfl
@[simp] theorem setPort_remote (s : State) (i : Nat) (x : Port) : (s.setPort i x).remote = s.remote := rfl
@[simp] theorem setPort_ghosts (s : State) (i : Nat) (x : Port) : (s.setPort i x).ghosts = s.ghosts := rfl
@[simp] theorem setPort_halves (s : State) (i : Nat) (x : Port) : (s.setPort i x).halves = s.halves := rfl
@[simp] theorem setPort_halfAsks (s : State) (i : Nat) (x : Port) : (s.setPort i x).halfAsks = s.halfAsks := rfl
@[simp] theorem setPort_txns (s : State) (i : Nat) (x : Port) : (s.setPort i x).txns = s.txns := rfl
@[simp] theorem setPort_outPeer (s : State) (i : Nat) (x : Port) : (s.setPort i x).outPeer = s.outPeer := rfl
@[simp] theorem setPort_outHost (s : State) (i : Nat) (x : Port) : (s.setPort i x).outHost = s.outHost := rfl
@[simp] theorem setPort_outLaunch (s : State) (i : Nat) (x : Port) : (s.setPort i x).outLaunch = s.outLaunch := rfl
@[simp] theorem setPort_reports (s : State) (i : Nat) (x : Port) : (s.setPort i x).reports = s.reports := rfl
@[simp] theorem setPort_ports (s : State) (i : Nat) (x : Port) : (s.setPort i x).ports = Tab.put s.ports i x := rfl
@[simp] theorem setPort_lease (s : State) (i : Nat) (x : Port) : (s.setPort i x).lease = s.lease := rfl
@[simp] theorem setPort_semGen (s : State) (i : Nat) (x : Port) : (s.setPort i x).semGen = s.semGen := rfl
@[simp] theorem setPort_holder (s : State) (i : Nat) (x : Port) : (s.setPort i x).holder = s.holder := rfl
@[simp] theorem setPort_lastGrant (s : State) (i : Nat) (x : Port) : (s.setPort i x).lastGrant = s.lastGrant := rfl

/-! ### The caches of another state -/

@[simp] theorem like_thr (s t : State) : (s.like t).thr = s.thr := rfl
@[simp] theorem like_threads (s t : State) : (s.like t).threads = s.threads := rfl
@[simp] theorem like_focus (s t : State) : (s.like t).focus = s.focus := rfl
@[simp] theorem like_evNext (s t : State) : (s.like t).evNext = s.evNext := rfl
@[simp] theorem like_turns (s t : State) : (s.like t).turns = t.turns := rfl
@[simp] theorem like_late (s t : State) : (s.like t).late = s.late := rfl
@[simp] theorem like_accCount (s t : State) : (s.like t).accCount = s.accCount := rfl
@[simp] theorem like_freeCount (s t : State) : (s.like t).freeCount = s.freeCount := rfl
@[simp] theorem like_mem (s t : State) : (s.like t).mem = s.mem := rfl
@[simp] theorem like_bad (s t : State) : (s.like t).bad = s.bad := rfl
@[simp] theorem like_cores (s t : State) : (s.like t).cores = t.cores := rfl
@[simp] theorem like_tiles (s t : State) : (s.like t).tiles = t.tiles := rfl
@[simp] theorem like_towers (s t : State) : (s.like t).towers = s.towers := rfl
@[simp] theorem like_present (s t : State) : (s.like t).present = s.present := rfl
@[simp] theorem like_power (s t : State) : (s.like t).power = s.power := rfl
@[simp] theorem like_sensors (s t : State) : (s.like t).sensors = s.sensors := rfl
@[simp] theorem like_therm (s t : State) : (s.like t).therm = s.therm := rfl
@[simp] theorem like_spaces (s t : State) : (s.like t).spaces = s.spaces := rfl
@[simp] theorem like_pins (s t : State) : (s.like t).pins = s.pins := rfl
@[simp] theorem like_kept (s t : State) : (s.like t).kept = s.kept := rfl
@[simp] theorem like_banks (s t : State) : (s.like t).banks = s.banks := rfl
@[simp] theorem like_uppers (s t : State) : (s.like t).uppers = s.uppers := rfl
@[simp] theorem like_peers (s t : State) : (s.like t).peers = s.peers := rfl
@[simp] theorem like_chosen (s t : State) : (s.like t).chosen = s.chosen := rfl
@[simp] theorem like_moves (s t : State) : (s.like t).moves = s.moves := rfl
@[simp] theorem like_launches (s t : State) : (s.like t).launches = s.launches := rfl
@[simp] theorem like_recordsIn (s t : State) : (s.like t).recordsIn = s.recordsIn := rfl
@[simp] theorem like_early (s t : State) : (s.like t).early = s.early := rfl
@[simp] theorem like_submitting (s t : State) : (s.like t).submitting = s.submitting := rfl
@[simp] theorem like_locks (s t : State) : (s.like t).locks = s.locks := rfl
@[simp] theorem like_away (s t : State) : (s.like t).away = s.away := rfl
@[simp] theorem like_posted (s t : State) : (s.like t).posted = s.posted := rfl
@[simp] theorem like_launchCount (s t : State) : (s.like t).launchCount = s.launchCount := rfl
@[simp] theorem like_ageCount (s t : State) : (s.like t).ageCount = s.ageCount := rfl
@[simp] theorem like_actCount (s t : State) : (s.like t).actCount = s.actCount := rfl
@[simp] theorem like_clock (s t : State) : (s.like t).clock = s.clock := rfl
@[simp] theorem like_dev (s t : State) : (s.like t).dev = s.dev := rfl
@[simp] theorem like_booted (s t : State) : (s.like t).booted = s.booted := rfl
@[simp] theorem like_partmap (s t : State) : (s.like t).partmap = s.partmap := rfl
@[simp] theorem like_mport (s t : State) : (s.like t).mport = s.mport := rfl
@[simp] theorem like_sdtb (s t : State) : (s.like t).sdtb = s.sdtb := rfl
@[simp] theorem like_wdlim (s t : State) : (s.like t).wdlim = s.wdlim := rfl
@[simp] theorem like_shards (s t : State) : (s.like t).shards = s.shards := rfl
@[simp] theorem like_shardCount (s t : State) : (s.like t).shardCount = s.shardCount := rfl
@[simp] theorem like_cmnts (s t : State) : (s.like t).cmnts = s.cmnts := rfl
@[simp] theorem like_cmntCount (s t : State) : (s.like t).cmntCount = s.cmntCount := rfl
@[simp] theorem like_inHand (s t : State) : (s.like t).inHand = s.inHand := rfl
@[simp] theorem like_flips (s t : State) : (s.like t).flips = s.flips := rfl
@[simp] theorem like_refenced (s t : State) : (s.like t).refenced = s.refenced := rfl
@[simp] theorem like_counts (s t : State) : (s.like t).counts = t.counts := rfl
@[simp] theorem like_cmdPorts (s t : State) : (s.like t).cmdPorts = s.cmdPorts := rfl
@[simp] theorem like_forwards (s t : State) : (s.like t).forwards = s.forwards := rfl
@[simp] theorem like_hostBias (s t : State) : (s.like t).hostBias = s.hostBias := rfl
@[simp] theorem like_dir (s t : State) : (s.like t).dir = t.dir := rfl
@[simp] theorem like_caches (s t : State) : (s.like t).caches = t.caches := rfl
@[simp] theorem like_hearths (s t : State) : (s.like t).hearths = t.hearths := rfl
@[simp] theorem like_lineQueue (s t : State) : (s.like t).lineQueue = t.lineQueue := rfl
@[simp] theorem like_called (s t : State) : (s.like t).called = t.called := rfl
@[simp] theorem like_waiting (s t : State) : (s.like t).waiting = t.waiting := rfl
@[simp] theorem like_bisnp (s t : State) : (s.like t).bisnp = s.bisnp := rfl
@[simp] theorem like_remote (s t : State) : (s.like t).remote = t.remote := rfl
@[simp] theorem like_ghosts (s t : State) : (s.like t).ghosts = t.ghosts := rfl
@[simp] theorem like_halves (s t : State) : (s.like t).halves = t.halves := rfl
@[simp] theorem like_halfAsks (s t : State) : (s.like t).halfAsks = s.halfAsks := rfl
@[simp] theorem like_txns (s t : State) : (s.like t).txns = s.txns := rfl
@[simp] theorem like_outPeer (s t : State) : (s.like t).outPeer = s.outPeer := rfl
@[simp] theorem like_outHost (s t : State) : (s.like t).outHost = t.outHost := rfl
@[simp] theorem like_outLaunch (s t : State) : (s.like t).outLaunch = s.outLaunch := rfl
@[simp] theorem like_reports (s t : State) : (s.like t).reports = s.reports := rfl
@[simp] theorem like_ports (s t : State) : (s.like t).ports = s.ports := rfl
@[simp] theorem like_lease (s t : State) : (s.like t).lease = s.lease := rfl
@[simp] theorem like_semGen (s t : State) : (s.like t).semGen = s.semGen := rfl
@[simp] theorem like_holder (s t : State) : (s.like t).holder = s.holder := rfl
@[simp] theorem like_lastGrant (s t : State) : (s.like t).lastGrant = s.lastGrant := rfl

/-! ### A space changed -/

@[simp] theorem setSpace_thr (s : State) (x : SpaceSt) : (s.setSpace x).thr = s.thr := rfl
@[simp] theorem setSpace_threads (s : State) (x : SpaceSt) : (s.setSpace x).threads = s.threads := rfl
@[simp] theorem setSpace_focus (s : State) (x : SpaceSt) : (s.setSpace x).focus = s.focus := rfl
@[simp] theorem setSpace_evNext (s : State) (x : SpaceSt) : (s.setSpace x).evNext = s.evNext := rfl
@[simp] theorem setSpace_turns (s : State) (x : SpaceSt) : (s.setSpace x).turns = s.turns := rfl
@[simp] theorem setSpace_late (s : State) (x : SpaceSt) : (s.setSpace x).late = s.late := rfl
@[simp] theorem setSpace_accCount (s : State) (x : SpaceSt) : (s.setSpace x).accCount = s.accCount := rfl
@[simp] theorem setSpace_freeCount (s : State) (x : SpaceSt) : (s.setSpace x).freeCount = s.freeCount := rfl
@[simp] theorem setSpace_mem (s : State) (x : SpaceSt) : (s.setSpace x).mem = s.mem := rfl
@[simp] theorem setSpace_bad (s : State) (x : SpaceSt) : (s.setSpace x).bad = s.bad := rfl
@[simp] theorem setSpace_cores (s : State) (x : SpaceSt) : (s.setSpace x).cores = s.cores := rfl
@[simp] theorem setSpace_tiles (s : State) (x : SpaceSt) : (s.setSpace x).tiles = s.tiles := rfl
@[simp] theorem setSpace_towers (s : State) (x : SpaceSt) : (s.setSpace x).towers = s.towers := rfl
@[simp] theorem setSpace_present (s : State) (x : SpaceSt) : (s.setSpace x).present = s.present := rfl
@[simp] theorem setSpace_power (s : State) (x : SpaceSt) : (s.setSpace x).power = s.power := rfl
@[simp] theorem setSpace_sensors (s : State) (x : SpaceSt) : (s.setSpace x).sensors = s.sensors := rfl
@[simp] theorem setSpace_therm (s : State) (x : SpaceSt) : (s.setSpace x).therm = s.therm := rfl
@[simp] theorem setSpace_spaces (s : State) (x : SpaceSt) : (s.setSpace x).spaces = s.spaces.map (fun y => if y.id = x.id then x else y) := rfl
@[simp] theorem setSpace_pins (s : State) (x : SpaceSt) : (s.setSpace x).pins = s.pins := rfl
@[simp] theorem setSpace_kept (s : State) (x : SpaceSt) : (s.setSpace x).kept = s.kept := rfl
@[simp] theorem setSpace_banks (s : State) (x : SpaceSt) : (s.setSpace x).banks = s.banks := rfl
@[simp] theorem setSpace_uppers (s : State) (x : SpaceSt) : (s.setSpace x).uppers = s.uppers := rfl
@[simp] theorem setSpace_peers (s : State) (x : SpaceSt) : (s.setSpace x).peers = s.peers := rfl
@[simp] theorem setSpace_chosen (s : State) (x : SpaceSt) : (s.setSpace x).chosen = s.chosen := rfl
@[simp] theorem setSpace_moves (s : State) (x : SpaceSt) : (s.setSpace x).moves = s.moves := rfl
@[simp] theorem setSpace_launches (s : State) (x : SpaceSt) : (s.setSpace x).launches = s.launches := rfl
@[simp] theorem setSpace_recordsIn (s : State) (x : SpaceSt) : (s.setSpace x).recordsIn = s.recordsIn := rfl
@[simp] theorem setSpace_early (s : State) (x : SpaceSt) : (s.setSpace x).early = s.early := rfl
@[simp] theorem setSpace_submitting (s : State) (x : SpaceSt) : (s.setSpace x).submitting = s.submitting := rfl
@[simp] theorem setSpace_locks (s : State) (x : SpaceSt) : (s.setSpace x).locks = s.locks := rfl
@[simp] theorem setSpace_away (s : State) (x : SpaceSt) : (s.setSpace x).away = s.away := rfl
@[simp] theorem setSpace_posted (s : State) (x : SpaceSt) : (s.setSpace x).posted = s.posted := rfl
@[simp] theorem setSpace_launchCount (s : State) (x : SpaceSt) : (s.setSpace x).launchCount = s.launchCount := rfl
@[simp] theorem setSpace_ageCount (s : State) (x : SpaceSt) : (s.setSpace x).ageCount = s.ageCount := rfl
@[simp] theorem setSpace_actCount (s : State) (x : SpaceSt) : (s.setSpace x).actCount = s.actCount := rfl
@[simp] theorem setSpace_clock (s : State) (x : SpaceSt) : (s.setSpace x).clock = s.clock := rfl
@[simp] theorem setSpace_dev (s : State) (x : SpaceSt) : (s.setSpace x).dev = s.dev := rfl
@[simp] theorem setSpace_booted (s : State) (x : SpaceSt) : (s.setSpace x).booted = s.booted := rfl
@[simp] theorem setSpace_partmap (s : State) (x : SpaceSt) : (s.setSpace x).partmap = s.partmap := rfl
@[simp] theorem setSpace_mport (s : State) (x : SpaceSt) : (s.setSpace x).mport = s.mport := rfl
@[simp] theorem setSpace_sdtb (s : State) (x : SpaceSt) : (s.setSpace x).sdtb = s.sdtb := rfl
@[simp] theorem setSpace_wdlim (s : State) (x : SpaceSt) : (s.setSpace x).wdlim = s.wdlim := rfl
@[simp] theorem setSpace_shards (s : State) (x : SpaceSt) : (s.setSpace x).shards = s.shards := rfl
@[simp] theorem setSpace_shardCount (s : State) (x : SpaceSt) : (s.setSpace x).shardCount = s.shardCount := rfl
@[simp] theorem setSpace_cmnts (s : State) (x : SpaceSt) : (s.setSpace x).cmnts = s.cmnts := rfl
@[simp] theorem setSpace_cmntCount (s : State) (x : SpaceSt) : (s.setSpace x).cmntCount = s.cmntCount := rfl
@[simp] theorem setSpace_inHand (s : State) (x : SpaceSt) : (s.setSpace x).inHand = s.inHand := rfl
@[simp] theorem setSpace_flips (s : State) (x : SpaceSt) : (s.setSpace x).flips = s.flips := rfl
@[simp] theorem setSpace_refenced (s : State) (x : SpaceSt) : (s.setSpace x).refenced = s.refenced := rfl
@[simp] theorem setSpace_counts (s : State) (x : SpaceSt) : (s.setSpace x).counts = s.counts := rfl
@[simp] theorem setSpace_cmdPorts (s : State) (x : SpaceSt) : (s.setSpace x).cmdPorts = s.cmdPorts := rfl
@[simp] theorem setSpace_forwards (s : State) (x : SpaceSt) : (s.setSpace x).forwards = s.forwards := rfl
@[simp] theorem setSpace_hostBias (s : State) (x : SpaceSt) : (s.setSpace x).hostBias = s.hostBias := rfl
@[simp] theorem setSpace_dir (s : State) (x : SpaceSt) : (s.setSpace x).dir = s.dir := rfl
@[simp] theorem setSpace_caches (s : State) (x : SpaceSt) : (s.setSpace x).caches = s.caches := rfl
@[simp] theorem setSpace_hearths (s : State) (x : SpaceSt) : (s.setSpace x).hearths = s.hearths := rfl
@[simp] theorem setSpace_lineQueue (s : State) (x : SpaceSt) : (s.setSpace x).lineQueue = s.lineQueue := rfl
@[simp] theorem setSpace_called (s : State) (x : SpaceSt) : (s.setSpace x).called = s.called := rfl
@[simp] theorem setSpace_waiting (s : State) (x : SpaceSt) : (s.setSpace x).waiting = s.waiting := rfl
@[simp] theorem setSpace_bisnp (s : State) (x : SpaceSt) : (s.setSpace x).bisnp = s.bisnp := rfl
@[simp] theorem setSpace_remote (s : State) (x : SpaceSt) : (s.setSpace x).remote = s.remote := rfl
@[simp] theorem setSpace_ghosts (s : State) (x : SpaceSt) : (s.setSpace x).ghosts = s.ghosts := rfl
@[simp] theorem setSpace_halves (s : State) (x : SpaceSt) : (s.setSpace x).halves = s.halves := rfl
@[simp] theorem setSpace_halfAsks (s : State) (x : SpaceSt) : (s.setSpace x).halfAsks = s.halfAsks := rfl
@[simp] theorem setSpace_txns (s : State) (x : SpaceSt) : (s.setSpace x).txns = s.txns := rfl
@[simp] theorem setSpace_outPeer (s : State) (x : SpaceSt) : (s.setSpace x).outPeer = s.outPeer := rfl
@[simp] theorem setSpace_outHost (s : State) (x : SpaceSt) : (s.setSpace x).outHost = s.outHost := rfl
@[simp] theorem setSpace_outLaunch (s : State) (x : SpaceSt) : (s.setSpace x).outLaunch = s.outLaunch := rfl
@[simp] theorem setSpace_reports (s : State) (x : SpaceSt) : (s.setSpace x).reports = s.reports := rfl
@[simp] theorem setSpace_ports (s : State) (x : SpaceSt) : (s.setSpace x).ports = s.ports := rfl
@[simp] theorem setSpace_lease (s : State) (x : SpaceSt) : (s.setSpace x).lease = s.lease := rfl
@[simp] theorem setSpace_semGen (s : State) (x : SpaceSt) : (s.setSpace x).semGen = s.semGen := rfl
@[simp] theorem setSpace_holder (s : State) (x : SpaceSt) : (s.setSpace x).holder = s.holder := rfl
@[simp] theorem setSpace_lastGrant (s : State) (x : SpaceSt) : (s.setSpace x).lastGrant = s.lastGrant := rfl

/-! ### A launch changed -/

@[simp] theorem setLaunch_thr (s : State) (l : Launch) : (s.setLaunch l).thr = s.thr := rfl
@[simp] theorem setLaunch_threads (s : State) (l : Launch) : (s.setLaunch l).threads = s.threads := rfl
@[simp] theorem setLaunch_focus (s : State) (l : Launch) : (s.setLaunch l).focus = s.focus := rfl
@[simp] theorem setLaunch_evNext (s : State) (l : Launch) : (s.setLaunch l).evNext = s.evNext := rfl
@[simp] theorem setLaunch_turns (s : State) (l : Launch) : (s.setLaunch l).turns = s.turns := rfl
@[simp] theorem setLaunch_late (s : State) (l : Launch) : (s.setLaunch l).late = s.late := rfl
@[simp] theorem setLaunch_accCount (s : State) (l : Launch) : (s.setLaunch l).accCount = s.accCount := rfl
@[simp] theorem setLaunch_freeCount (s : State) (l : Launch) : (s.setLaunch l).freeCount = s.freeCount := rfl
@[simp] theorem setLaunch_mem (s : State) (l : Launch) : (s.setLaunch l).mem = s.mem := rfl
@[simp] theorem setLaunch_bad (s : State) (l : Launch) : (s.setLaunch l).bad = s.bad := rfl
@[simp] theorem setLaunch_cores (s : State) (l : Launch) : (s.setLaunch l).cores = s.cores := rfl
@[simp] theorem setLaunch_tiles (s : State) (l : Launch) : (s.setLaunch l).tiles = s.tiles := rfl
@[simp] theorem setLaunch_towers (s : State) (l : Launch) : (s.setLaunch l).towers = s.towers := rfl
@[simp] theorem setLaunch_present (s : State) (l : Launch) : (s.setLaunch l).present = s.present := rfl
@[simp] theorem setLaunch_power (s : State) (l : Launch) : (s.setLaunch l).power = s.power := rfl
@[simp] theorem setLaunch_sensors (s : State) (l : Launch) : (s.setLaunch l).sensors = s.sensors := rfl
@[simp] theorem setLaunch_therm (s : State) (l : Launch) : (s.setLaunch l).therm = s.therm := rfl
@[simp] theorem setLaunch_spaces (s : State) (l : Launch) : (s.setLaunch l).spaces = s.spaces := rfl
@[simp] theorem setLaunch_pins (s : State) (l : Launch) : (s.setLaunch l).pins = s.pins := rfl
@[simp] theorem setLaunch_kept (s : State) (l : Launch) : (s.setLaunch l).kept = s.kept := rfl
@[simp] theorem setLaunch_banks (s : State) (l : Launch) : (s.setLaunch l).banks = s.banks := rfl
@[simp] theorem setLaunch_uppers (s : State) (l : Launch) : (s.setLaunch l).uppers = s.uppers := rfl
@[simp] theorem setLaunch_peers (s : State) (l : Launch) : (s.setLaunch l).peers = s.peers := rfl
@[simp] theorem setLaunch_chosen (s : State) (l : Launch) : (s.setLaunch l).chosen = s.chosen := rfl
@[simp] theorem setLaunch_moves (s : State) (l : Launch) : (s.setLaunch l).moves = s.moves := rfl
@[simp] theorem setLaunch_launches (s : State) (l : Launch) : (s.setLaunch l).launches = s.launches.map (fun y => if y.id = l.id then l else y) := rfl
@[simp] theorem setLaunch_recordsIn (s : State) (l : Launch) : (s.setLaunch l).recordsIn = s.recordsIn := rfl
@[simp] theorem setLaunch_early (s : State) (l : Launch) : (s.setLaunch l).early = s.early := rfl
@[simp] theorem setLaunch_submitting (s : State) (l : Launch) : (s.setLaunch l).submitting = s.submitting := rfl
@[simp] theorem setLaunch_locks (s : State) (l : Launch) : (s.setLaunch l).locks = s.locks := rfl
@[simp] theorem setLaunch_away (s : State) (l : Launch) : (s.setLaunch l).away = s.away := rfl
@[simp] theorem setLaunch_posted (s : State) (l : Launch) : (s.setLaunch l).posted = s.posted := rfl
@[simp] theorem setLaunch_launchCount (s : State) (l : Launch) : (s.setLaunch l).launchCount = s.launchCount := rfl
@[simp] theorem setLaunch_ageCount (s : State) (l : Launch) : (s.setLaunch l).ageCount = s.ageCount := rfl
@[simp] theorem setLaunch_actCount (s : State) (l : Launch) : (s.setLaunch l).actCount = s.actCount := rfl
@[simp] theorem setLaunch_clock (s : State) (l : Launch) : (s.setLaunch l).clock = s.clock := rfl
@[simp] theorem setLaunch_dev (s : State) (l : Launch) : (s.setLaunch l).dev = s.dev := rfl
@[simp] theorem setLaunch_booted (s : State) (l : Launch) : (s.setLaunch l).booted = s.booted := rfl
@[simp] theorem setLaunch_partmap (s : State) (l : Launch) : (s.setLaunch l).partmap = s.partmap := rfl
@[simp] theorem setLaunch_mport (s : State) (l : Launch) : (s.setLaunch l).mport = s.mport := rfl
@[simp] theorem setLaunch_sdtb (s : State) (l : Launch) : (s.setLaunch l).sdtb = s.sdtb := rfl
@[simp] theorem setLaunch_wdlim (s : State) (l : Launch) : (s.setLaunch l).wdlim = s.wdlim := rfl
@[simp] theorem setLaunch_shards (s : State) (l : Launch) : (s.setLaunch l).shards = s.shards := rfl
@[simp] theorem setLaunch_shardCount (s : State) (l : Launch) : (s.setLaunch l).shardCount = s.shardCount := rfl
@[simp] theorem setLaunch_cmnts (s : State) (l : Launch) : (s.setLaunch l).cmnts = s.cmnts := rfl
@[simp] theorem setLaunch_cmntCount (s : State) (l : Launch) : (s.setLaunch l).cmntCount = s.cmntCount := rfl
@[simp] theorem setLaunch_inHand (s : State) (l : Launch) : (s.setLaunch l).inHand = s.inHand := rfl
@[simp] theorem setLaunch_flips (s : State) (l : Launch) : (s.setLaunch l).flips = s.flips := rfl
@[simp] theorem setLaunch_refenced (s : State) (l : Launch) : (s.setLaunch l).refenced = s.refenced := rfl
@[simp] theorem setLaunch_counts (s : State) (l : Launch) : (s.setLaunch l).counts = s.counts := rfl
@[simp] theorem setLaunch_cmdPorts (s : State) (l : Launch) : (s.setLaunch l).cmdPorts = s.cmdPorts := rfl
@[simp] theorem setLaunch_forwards (s : State) (l : Launch) : (s.setLaunch l).forwards = s.forwards := rfl
@[simp] theorem setLaunch_hostBias (s : State) (l : Launch) : (s.setLaunch l).hostBias = s.hostBias := rfl
@[simp] theorem setLaunch_dir (s : State) (l : Launch) : (s.setLaunch l).dir = s.dir := rfl
@[simp] theorem setLaunch_caches (s : State) (l : Launch) : (s.setLaunch l).caches = s.caches := rfl
@[simp] theorem setLaunch_hearths (s : State) (l : Launch) : (s.setLaunch l).hearths = s.hearths := rfl
@[simp] theorem setLaunch_lineQueue (s : State) (l : Launch) : (s.setLaunch l).lineQueue = s.lineQueue := rfl
@[simp] theorem setLaunch_called (s : State) (l : Launch) : (s.setLaunch l).called = s.called := rfl
@[simp] theorem setLaunch_waiting (s : State) (l : Launch) : (s.setLaunch l).waiting = s.waiting := rfl
@[simp] theorem setLaunch_bisnp (s : State) (l : Launch) : (s.setLaunch l).bisnp = s.bisnp := rfl
@[simp] theorem setLaunch_remote (s : State) (l : Launch) : (s.setLaunch l).remote = s.remote := rfl
@[simp] theorem setLaunch_ghosts (s : State) (l : Launch) : (s.setLaunch l).ghosts = s.ghosts := rfl
@[simp] theorem setLaunch_halves (s : State) (l : Launch) : (s.setLaunch l).halves = s.halves := rfl
@[simp] theorem setLaunch_halfAsks (s : State) (l : Launch) : (s.setLaunch l).halfAsks = s.halfAsks := rfl
@[simp] theorem setLaunch_txns (s : State) (l : Launch) : (s.setLaunch l).txns = s.txns := rfl
@[simp] theorem setLaunch_outPeer (s : State) (l : Launch) : (s.setLaunch l).outPeer = s.outPeer := rfl
@[simp] theorem setLaunch_outHost (s : State) (l : Launch) : (s.setLaunch l).outHost = s.outHost := rfl
@[simp] theorem setLaunch_outLaunch (s : State) (l : Launch) : (s.setLaunch l).outLaunch = s.outLaunch := rfl
@[simp] theorem setLaunch_reports (s : State) (l : Launch) : (s.setLaunch l).reports = s.reports := rfl
@[simp] theorem setLaunch_ports (s : State) (l : Launch) : (s.setLaunch l).ports = s.ports := rfl
@[simp] theorem setLaunch_lease (s : State) (l : Launch) : (s.setLaunch l).lease = s.lease := rfl
@[simp] theorem setLaunch_semGen (s : State) (l : Launch) : (s.setLaunch l).semGen = s.semGen := rfl
@[simp] theorem setLaunch_holder (s : State) (l : Launch) : (s.setLaunch l).holder = s.holder := rfl
@[simp] theorem setLaunch_lastGrant (s : State) (l : Launch) : (s.setLaunch l).lastGrant = s.lastGrant := rfl

@[simp] theorem takeTrap_eq (s : State) (x : Trap) : s.takeTrap x = s.put (s.thr.trap s.clock x) := rfl
@[simp] theorem result_eq (s : State) (d : BitVec 6) (x : Word) : s.result d x = s.put (s.thr.setG d x).advance := rfl

/-! ### The word behind a thread -/

@[simp] theorem advance_pc (t : Thread) : t.advance.pc = t.pc + 4 := rfl
@[simp] theorem advance_state (t : Thread) : t.advance.state = t.state := rfl
@[simp] theorem advance_priv (t : Thread) : t.advance.priv = t.priv := rfl
@[simp] theorem advance_prio (t : Thread) : t.advance.prio = t.prio := rfl
@[simp] theorem advance_policy (t : Thread) : t.advance.policy = t.policy := rfl
@[simp] theorem advance_order (t : Thread) : t.advance.order = t.order := rfl
@[simp] theorem advance_ftz16 (t : Thread) : t.advance.ftz16 = t.ftz16 := rfl
@[simp] theorem advance_parkc (t : Thread) : t.advance.parkc = t.parkc := rfl
@[simp] theorem advance_space (t : Thread) : t.advance.space = t.space := rfl
@[simp] theorem advance_anchor (t : Thread) : t.advance.anchor = t.anchor := rfl
@[simp] theorem advance_cur (t : Thread) : t.advance.cur = t.cur := rfl
@[simp] theorem advance_gcount (t : Thread) : t.advance.gcount = t.gcount := rfl
@[simp] theorem advance_vcount (t : Thread) : t.advance.vcount = t.vcount := rfl
@[simp] theorem advance_vbase (t : Thread) : t.advance.vbase = t.vbase := rfl
@[simp] theorem advance_tbase (t : Thread) : t.advance.tbase = t.tbase := rfl
@[simp] theorem advance_rsize (t : Thread) : t.advance.rsize = t.rsize := rfl
@[simp] theorem advance_fpst (t : Thread) : t.advance.fpst = t.fpst := rfl
@[simp] theorem advance_vtype (t : Thread) : t.advance.vtype = t.vtype := rfl
@[simp] theorem advance_index (t : Thread) : t.advance.index = t.index := rfl
@[simp] theorem advance_launch (t : Thread) : t.advance.launch = t.launch := rfl
@[simp] theorem advance_parkva (t : Thread) : t.advance.parkva = t.parkva := rfl
@[simp] theorem advance_trclass (t : Thread) : t.advance.trclass = t.trclass := rfl
@[simp] theorem advance_trinfo (t : Thread) : t.advance.trinfo = t.trinfo := rfl
@[simp] theorem advance_trva (t : Thread) : t.advance.trva = t.trva := rfl
@[simp] theorem advance_trpc (t : Thread) : t.advance.trpc = t.trpc := rfl
@[simp] theorem advance_barg (t : Thread) : t.advance.barg = t.barg := rfl
@[simp] theorem advance_hotl (t : Thread) : t.advance.hotl = t.hotl := rfl
@[simp] theorem advance_hotn (t : Thread) : t.advance.hotn = t.hotn := rfl
@[simp] theorem advance_dest (t : Thread) : t.advance.dest = t.dest := rfl
@[simp] theorem advance_age (t : Thread) : t.advance.age = t.age := rfl
@[simp] theorem advance_ctx (t : Thread) : t.advance.ctx = t.ctx := rfl
@[simp] theorem advance_regs (t : Thread) : t.advance.regs = t.regs := rfl
@[simp] theorem advance_lines (t : Thread) : t.advance.lines = t.lines := rfl
@[simp] theorem advance_dirty (t : Thread) : t.advance.dirty = t.dirty := rfl
@[simp] theorem advance_alloc (t : Thread) : t.advance.alloc = t.alloc := rfl
@[simp] theorem advance_fresh (t : Thread) : t.advance.fresh = t.fresh := rfl
@[simp] theorem advance_badLines (t : Thread) : t.advance.badLines = t.badLines := rfl
@[simp] theorem advance_recent (t : Thread) : t.advance.recent = t.recent := rfl
@[simp] theorem advance_usedAt (t : Thread) : t.advance.usedAt = t.usedAt := rfl
@[simp] theorem advance_held (t : Thread) : t.advance.held = t.held := rfl
@[simp] theorem advance_slot (t : Thread) : t.advance.slot = t.slot := rfl
@[simp] theorem advance_actSeq (t : Thread) : t.advance.actSeq = t.actSeq := rfl
@[simp] theorem advance_group (t : Thread) : t.advance.group = {} := rfl
@[simp] theorem advance_afterHint (t : Thread) : t.advance.afterHint = false := rfl
@[simp] theorem advance_trapStage (t : Thread) : t.advance.trapStage = t.trapStage := rfl
@[simp] theorem advance_trapAt (t : Thread) : t.advance.trapAt = t.trapAt := rfl
@[simp] theorem advance_took (t : Thread) : t.advance.took = t.took := rfl
@[simp] theorem advance_stall (t : Thread) : t.advance.stall = t.stall := rfl
@[simp] theorem advance_readyAt (t : Thread) : t.advance.readyAt = t.readyAt := rfl
@[simp] theorem advance_owed (t : Thread) : t.advance.owed = t.owed := rfl
@[simp] theorem advance_busy (t : Thread) : t.advance.busy = t.busy := rfl
@[simp] theorem advance_claims (t : Thread) : t.advance.claims = t.claims := rfl
@[simp] theorem advance_accs (t : Thread) : t.advance.accs = t.accs := rfl
@[simp] theorem advance_wait (t : Thread) : t.advance.wait = t.wait := rfl
@[simp] theorem advance_waitLoad (t : Thread) : t.advance.waitLoad = t.waitLoad := rfl
@[simp] theorem advance_halting (t : Thread) : t.advance.halting = t.halting := rfl
@[simp] theorem advance_leaving (t : Thread) : t.advance.leaving = t.leaving := rfl
@[simp] theorem advance_travelPc (t : Thread) : t.advance.travelPc = t.travelPc := rfl
@[simp] theorem advance_crumbTower (t : Thread) : t.advance.crumbTower = t.crumbTower := rfl
@[simp] theorem advance_arrived (t : Thread) : t.advance.arrived = t.arrived := rfl
@[simp] theorem advance_killed (t : Thread) : t.advance.killed = t.killed := rfl
@[simp] theorem advance_named (t : Thread) : t.advance.named = t.named := rfl
@[simp] theorem advance_firm (t : Thread) : t.advance.firm = t.firm := rfl
@[simp] theorem advance_fetchFrom (t : Thread) : t.advance.fetchFrom = t.fetchFrom := rfl
@[simp] theorem advance_homeless (t : Thread) : t.advance.homeless = t.homeless := rfl

/-! ### A jump -/

@[simp] theorem jump_pc (t : Thread) (a : Word) : (t.jump a).pc = a := rfl
@[simp] theorem jump_state (t : Thread) (a : Word) : (t.jump a).state = t.state := rfl
@[simp] theorem jump_priv (t : Thread) (a : Word) : (t.jump a).priv = t.priv := rfl
@[simp] theorem jump_prio (t : Thread) (a : Word) : (t.jump a).prio = t.prio := rfl
@[simp] theorem jump_policy (t : Thread) (a : Word) : (t.jump a).policy = t.policy := rfl
@[simp] theorem jump_order (t : Thread) (a : Word) : (t.jump a).order = t.order := rfl
@[simp] theorem jump_ftz16 (t : Thread) (a : Word) : (t.jump a).ftz16 = t.ftz16 := rfl
@[simp] theorem jump_parkc (t : Thread) (a : Word) : (t.jump a).parkc = t.parkc := rfl
@[simp] theorem jump_space (t : Thread) (a : Word) : (t.jump a).space = t.space := rfl
@[simp] theorem jump_anchor (t : Thread) (a : Word) : (t.jump a).anchor = t.anchor := rfl
@[simp] theorem jump_cur (t : Thread) (a : Word) : (t.jump a).cur = t.cur := rfl
@[simp] theorem jump_gcount (t : Thread) (a : Word) : (t.jump a).gcount = t.gcount := rfl
@[simp] theorem jump_vcount (t : Thread) (a : Word) : (t.jump a).vcount = t.vcount := rfl
@[simp] theorem jump_vbase (t : Thread) (a : Word) : (t.jump a).vbase = t.vbase := rfl
@[simp] theorem jump_tbase (t : Thread) (a : Word) : (t.jump a).tbase = t.tbase := rfl
@[simp] theorem jump_rsize (t : Thread) (a : Word) : (t.jump a).rsize = t.rsize := rfl
@[simp] theorem jump_fpst (t : Thread) (a : Word) : (t.jump a).fpst = t.fpst := rfl
@[simp] theorem jump_vtype (t : Thread) (a : Word) : (t.jump a).vtype = t.vtype := rfl
@[simp] theorem jump_index (t : Thread) (a : Word) : (t.jump a).index = t.index := rfl
@[simp] theorem jump_launch (t : Thread) (a : Word) : (t.jump a).launch = t.launch := rfl
@[simp] theorem jump_parkva (t : Thread) (a : Word) : (t.jump a).parkva = t.parkva := rfl
@[simp] theorem jump_trclass (t : Thread) (a : Word) : (t.jump a).trclass = t.trclass := rfl
@[simp] theorem jump_trinfo (t : Thread) (a : Word) : (t.jump a).trinfo = t.trinfo := rfl
@[simp] theorem jump_trva (t : Thread) (a : Word) : (t.jump a).trva = t.trva := rfl
@[simp] theorem jump_trpc (t : Thread) (a : Word) : (t.jump a).trpc = t.trpc := rfl
@[simp] theorem jump_barg (t : Thread) (a : Word) : (t.jump a).barg = t.barg := rfl
@[simp] theorem jump_hotl (t : Thread) (a : Word) : (t.jump a).hotl = t.hotl := rfl
@[simp] theorem jump_hotn (t : Thread) (a : Word) : (t.jump a).hotn = t.hotn := rfl
@[simp] theorem jump_dest (t : Thread) (a : Word) : (t.jump a).dest = t.dest := rfl
@[simp] theorem jump_age (t : Thread) (a : Word) : (t.jump a).age = t.age := rfl
@[simp] theorem jump_ctx (t : Thread) (a : Word) : (t.jump a).ctx = t.ctx := rfl
@[simp] theorem jump_regs (t : Thread) (a : Word) : (t.jump a).regs = t.regs := rfl
@[simp] theorem jump_lines (t : Thread) (a : Word) : (t.jump a).lines = t.lines := rfl
@[simp] theorem jump_dirty (t : Thread) (a : Word) : (t.jump a).dirty = t.dirty := rfl
@[simp] theorem jump_alloc (t : Thread) (a : Word) : (t.jump a).alloc = t.alloc := rfl
@[simp] theorem jump_fresh (t : Thread) (a : Word) : (t.jump a).fresh = t.fresh := rfl
@[simp] theorem jump_badLines (t : Thread) (a : Word) : (t.jump a).badLines = t.badLines := rfl
@[simp] theorem jump_recent (t : Thread) (a : Word) : (t.jump a).recent = t.recent := rfl
@[simp] theorem jump_usedAt (t : Thread) (a : Word) : (t.jump a).usedAt = t.usedAt := rfl
@[simp] theorem jump_held (t : Thread) (a : Word) : (t.jump a).held = t.held := rfl
@[simp] theorem jump_slot (t : Thread) (a : Word) : (t.jump a).slot = t.slot := rfl
@[simp] theorem jump_actSeq (t : Thread) (a : Word) : (t.jump a).actSeq = t.actSeq := rfl
@[simp] theorem jump_group (t : Thread) (a : Word) : (t.jump a).group = {} := rfl
@[simp] theorem jump_afterHint (t : Thread) (a : Word) : (t.jump a).afterHint = false := rfl
@[simp] theorem jump_trapStage (t : Thread) (a : Word) : (t.jump a).trapStage = t.trapStage := rfl
@[simp] theorem jump_trapAt (t : Thread) (a : Word) : (t.jump a).trapAt = t.trapAt := rfl
@[simp] theorem jump_took (t : Thread) (a : Word) : (t.jump a).took = true := rfl
@[simp] theorem jump_stall (t : Thread) (a : Word) : (t.jump a).stall = t.stall := rfl
@[simp] theorem jump_readyAt (t : Thread) (a : Word) : (t.jump a).readyAt = t.readyAt := rfl
@[simp] theorem jump_owed (t : Thread) (a : Word) : (t.jump a).owed = t.owed := rfl
@[simp] theorem jump_busy (t : Thread) (a : Word) : (t.jump a).busy = t.busy := rfl
@[simp] theorem jump_claims (t : Thread) (a : Word) : (t.jump a).claims = t.claims := rfl
@[simp] theorem jump_accs (t : Thread) (a : Word) : (t.jump a).accs = t.accs := rfl
@[simp] theorem jump_wait (t : Thread) (a : Word) : (t.jump a).wait = t.wait := rfl
@[simp] theorem jump_waitLoad (t : Thread) (a : Word) : (t.jump a).waitLoad = t.waitLoad := rfl
@[simp] theorem jump_halting (t : Thread) (a : Word) : (t.jump a).halting = t.halting := rfl
@[simp] theorem jump_leaving (t : Thread) (a : Word) : (t.jump a).leaving = t.leaving := rfl
@[simp] theorem jump_travelPc (t : Thread) (a : Word) : (t.jump a).travelPc = t.travelPc := rfl
@[simp] theorem jump_crumbTower (t : Thread) (a : Word) : (t.jump a).crumbTower = t.crumbTower := rfl
@[simp] theorem jump_arrived (t : Thread) (a : Word) : (t.jump a).arrived = t.arrived := rfl
@[simp] theorem jump_killed (t : Thread) (a : Word) : (t.jump a).killed = t.killed := rfl
@[simp] theorem jump_named (t : Thread) (a : Word) : (t.jump a).named = t.named := rfl
@[simp] theorem jump_firm (t : Thread) (a : Word) : (t.jump a).firm = t.firm := rfl
@[simp] theorem jump_fetchFrom (t : Thread) (a : Word) : (t.jump a).fetchFrom = t.fetchFrom := rfl
@[simp] theorem jump_homeless (t : Thread) (a : Word) : (t.jump a).homeless = t.homeless := rfl

/-! ### A group to be issued again -/

@[simp] theorem regroup_pc (t : Thread) : t.regroup.pc = t.groupStart := rfl
@[simp] theorem regroup_state (t : Thread) : t.regroup.state = t.state := rfl
@[simp] theorem regroup_priv (t : Thread) : t.regroup.priv = t.priv := rfl
@[simp] theorem regroup_prio (t : Thread) : t.regroup.prio = t.prio := rfl
@[simp] theorem regroup_policy (t : Thread) : t.regroup.policy = t.policy := rfl
@[simp] theorem regroup_order (t : Thread) : t.regroup.order = t.order := rfl
@[simp] theorem regroup_ftz16 (t : Thread) : t.regroup.ftz16 = t.ftz16 := rfl
@[simp] theorem regroup_parkc (t : Thread) : t.regroup.parkc = t.parkc := rfl
@[simp] theorem regroup_space (t : Thread) : t.regroup.space = t.space := rfl
@[simp] theorem regroup_anchor (t : Thread) : t.regroup.anchor = t.anchor := rfl
@[simp] theorem regroup_cur (t : Thread) : t.regroup.cur = t.cur := rfl
@[simp] theorem regroup_gcount (t : Thread) : t.regroup.gcount = t.gcount := rfl
@[simp] theorem regroup_vcount (t : Thread) : t.regroup.vcount = t.vcount := rfl
@[simp] theorem regroup_vbase (t : Thread) : t.regroup.vbase = t.vbase := rfl
@[simp] theorem regroup_tbase (t : Thread) : t.regroup.tbase = t.tbase := rfl
@[simp] theorem regroup_rsize (t : Thread) : t.regroup.rsize = t.rsize := rfl
@[simp] theorem regroup_fpst (t : Thread) : t.regroup.fpst = t.fpst := rfl
@[simp] theorem regroup_vtype (t : Thread) : t.regroup.vtype = t.vtype := rfl
@[simp] theorem regroup_index (t : Thread) : t.regroup.index = t.index := rfl
@[simp] theorem regroup_launch (t : Thread) : t.regroup.launch = t.launch := rfl
@[simp] theorem regroup_parkva (t : Thread) : t.regroup.parkva = t.parkva := rfl
@[simp] theorem regroup_trclass (t : Thread) : t.regroup.trclass = t.trclass := rfl
@[simp] theorem regroup_trinfo (t : Thread) : t.regroup.trinfo = t.trinfo := rfl
@[simp] theorem regroup_trva (t : Thread) : t.regroup.trva = t.trva := rfl
@[simp] theorem regroup_trpc (t : Thread) : t.regroup.trpc = t.trpc := rfl
@[simp] theorem regroup_barg (t : Thread) : t.regroup.barg = t.barg := rfl
@[simp] theorem regroup_hotl (t : Thread) : t.regroup.hotl = t.hotl := rfl
@[simp] theorem regroup_hotn (t : Thread) : t.regroup.hotn = t.hotn := rfl
@[simp] theorem regroup_dest (t : Thread) : t.regroup.dest = t.dest := rfl
@[simp] theorem regroup_age (t : Thread) : t.regroup.age = t.age := rfl
@[simp] theorem regroup_ctx (t : Thread) : t.regroup.ctx = t.ctx := rfl
@[simp] theorem regroup_regs (t : Thread) : t.regroup.regs = t.regs := rfl
@[simp] theorem regroup_lines (t : Thread) : t.regroup.lines = t.lines := rfl
@[simp] theorem regroup_dirty (t : Thread) : t.regroup.dirty = t.dirty := rfl
@[simp] theorem regroup_alloc (t : Thread) : t.regroup.alloc = t.alloc := rfl
@[simp] theorem regroup_fresh (t : Thread) : t.regroup.fresh = t.fresh := rfl
@[simp] theorem regroup_badLines (t : Thread) : t.regroup.badLines = t.badLines := rfl
@[simp] theorem regroup_recent (t : Thread) : t.regroup.recent = t.recent := rfl
@[simp] theorem regroup_usedAt (t : Thread) : t.regroup.usedAt = t.usedAt := rfl
@[simp] theorem regroup_held (t : Thread) : t.regroup.held = t.held := rfl
@[simp] theorem regroup_slot (t : Thread) : t.regroup.slot = t.slot := rfl
@[simp] theorem regroup_actSeq (t : Thread) : t.regroup.actSeq = t.actSeq := rfl
@[simp] theorem regroup_group (t : Thread) : t.regroup.group = {} := rfl
@[simp] theorem regroup_afterHint (t : Thread) : t.regroup.afterHint = t.afterHint := rfl
@[simp] theorem regroup_trapStage (t : Thread) : t.regroup.trapStage = t.trapStage := rfl
@[simp] theorem regroup_trapAt (t : Thread) : t.regroup.trapAt = t.trapAt := rfl
@[simp] theorem regroup_took (t : Thread) : t.regroup.took = t.took := rfl
@[simp] theorem regroup_stall (t : Thread) : t.regroup.stall = t.stall := rfl
@[simp] theorem regroup_readyAt (t : Thread) : t.regroup.readyAt = t.readyAt := rfl
@[simp] theorem regroup_owed (t : Thread) : t.regroup.owed = t.owed := rfl
@[simp] theorem regroup_busy (t : Thread) : t.regroup.busy = t.busy := rfl
@[simp] theorem regroup_claims (t : Thread) : t.regroup.claims = t.claims := rfl
@[simp] theorem regroup_accs (t : Thread) : t.regroup.accs = t.accs := rfl
@[simp] theorem regroup_wait (t : Thread) : t.regroup.wait = t.wait := rfl
@[simp] theorem regroup_waitLoad (t : Thread) : t.regroup.waitLoad = t.waitLoad := rfl
@[simp] theorem regroup_halting (t : Thread) : t.regroup.halting = t.halting := rfl
@[simp] theorem regroup_leaving (t : Thread) : t.regroup.leaving = t.leaving := rfl
@[simp] theorem regroup_travelPc (t : Thread) : t.regroup.travelPc = t.travelPc := rfl
@[simp] theorem regroup_crumbTower (t : Thread) : t.regroup.crumbTower = t.crumbTower := rfl
@[simp] theorem regroup_arrived (t : Thread) : t.regroup.arrived = t.arrived := rfl
@[simp] theorem regroup_killed (t : Thread) : t.regroup.killed = t.killed := rfl
@[simp] theorem regroup_named (t : Thread) : t.regroup.named = t.named := rfl
@[simp] theorem regroup_firm (t : Thread) : t.regroup.firm = t.firm := rfl
@[simp] theorem regroup_fetchFrom (t : Thread) : t.regroup.fetchFrom = t.fetchFrom := rfl
@[simp] theorem regroup_homeless (t : Thread) : t.regroup.homeless = t.homeless := rfl

/-! ### A trapped thread -/

@[simp] theorem trap_state (t : Thread) (n : Nat) (x : Trap) : (t.trap n x).state = t.state := rfl
@[simp] theorem trap_priv (t : Thread) (n : Nat) (x : Trap) : (t.trap n x).priv = t.priv := rfl
@[simp] theorem trap_prio (t : Thread) (n : Nat) (x : Trap) : (t.trap n x).prio = t.prio := rfl
@[simp] theorem trap_policy (t : Thread) (n : Nat) (x : Trap) : (t.trap n x).policy = t.policy := rfl
@[simp] theorem trap_order (t : Thread) (n : Nat) (x : Trap) : (t.trap n x).order = t.order := rfl
@[simp] theorem trap_ftz16 (t : Thread) (n : Nat) (x : Trap) : (t.trap n x).ftz16 = t.ftz16 := rfl
@[simp] theorem trap_parkc (t : Thread) (n : Nat) (x : Trap) : (t.trap n x).parkc = t.parkc := rfl
@[simp] theorem trap_space (t : Thread) (n : Nat) (x : Trap) : (t.trap n x).space = t.space := rfl
@[simp] theorem trap_anchor (t : Thread) (n : Nat) (x : Trap) : (t.trap n x).anchor = t.anchor := rfl
@[simp] theorem trap_cur (t : Thread) (n : Nat) (x : Trap) : (t.trap n x).cur = t.cur := rfl
@[simp] theorem trap_gcount (t : Thread) (n : Nat) (x : Trap) : (t.trap n x).gcount = t.gcount := rfl
@[simp] theorem trap_vcount (t : Thread) (n : Nat) (x : Trap) : (t.trap n x).vcount = t.vcount := rfl
@[simp] theorem trap_vbase (t : Thread) (n : Nat) (x : Trap) : (t.trap n x).vbase = t.vbase := rfl
@[simp] theorem trap_tbase (t : Thread) (n : Nat) (x : Trap) : (t.trap n x).tbase = t.tbase := rfl
@[simp] theorem trap_rsize (t : Thread) (n : Nat) (x : Trap) : (t.trap n x).rsize = t.rsize := rfl
@[simp] theorem trap_fpst (t : Thread) (n : Nat) (x : Trap) : (t.trap n x).fpst = t.fpst := rfl
@[simp] theorem trap_vtype (t : Thread) (n : Nat) (x : Trap) : (t.trap n x).vtype = t.vtype := rfl
@[simp] theorem trap_index (t : Thread) (n : Nat) (x : Trap) : (t.trap n x).index = t.index := rfl
@[simp] theorem trap_launch (t : Thread) (n : Nat) (x : Trap) : (t.trap n x).launch = t.launch := rfl
@[simp] theorem trap_parkva (t : Thread) (n : Nat) (x : Trap) : (t.trap n x).parkva = t.parkva := rfl
@[simp] theorem trap_trclass (t : Thread) (n : Nat) (x : Trap) : (t.trap n x).trclass = x.cls.code := rfl
@[simp] theorem trap_trinfo (t : Thread) (n : Nat) (x : Trap) : (t.trap n x).trinfo = x.info := rfl
@[simp] theorem trap_trva (t : Thread) (n : Nat) (x : Trap) : (t.trap n x).trva = x.va := rfl
@[simp] theorem trap_trpc (t : Thread) (n : Nat) (x : Trap) : (t.trap n x).trpc = t.groupStart := rfl
@[simp] theorem trap_barg (t : Thread) (n : Nat) (x : Trap) : (t.trap n x).barg = t.barg := rfl
@[simp] theorem trap_hotl (t : Thread) (n : Nat) (x : Trap) : (t.trap n x).hotl = t.hotl := rfl
@[simp] theorem trap_hotn (t : Thread) (n : Nat) (x : Trap) : (t.trap n x).hotn = t.hotn := rfl
@[simp] theorem trap_dest (t : Thread) (n : Nat) (x : Trap) : (t.trap n x).dest = t.dest := rfl
@[simp] theorem trap_age (t : Thread) (n : Nat) (x : Trap) : (t.trap n x).age = t.age := rfl
@[simp] theorem trap_ctx (t : Thread) (n : Nat) (x : Trap) : (t.trap n x).ctx = t.ctx := rfl
@[simp] theorem trap_regs (t : Thread) (n : Nat) (x : Trap) : (t.trap n x).regs = t.regs := rfl
@[simp] theorem trap_lines (t : Thread) (n : Nat) (x : Trap) : (t.trap n x).lines = t.lines := rfl
@[simp] theorem trap_dirty (t : Thread) (n : Nat) (x : Trap) : (t.trap n x).dirty = t.dirty := rfl
@[simp] theorem trap_alloc (t : Thread) (n : Nat) (x : Trap) : (t.trap n x).alloc = t.alloc := rfl
@[simp] theorem trap_fresh (t : Thread) (n : Nat) (x : Trap) : (t.trap n x).fresh = t.fresh := rfl
@[simp] theorem trap_badLines (t : Thread) (n : Nat) (x : Trap) : (t.trap n x).badLines = t.badLines := rfl
@[simp] theorem trap_recent (t : Thread) (n : Nat) (x : Trap) : (t.trap n x).recent = t.recent := rfl
@[simp] theorem trap_usedAt (t : Thread) (n : Nat) (x : Trap) : (t.trap n x).usedAt = t.usedAt := rfl
@[simp] theorem trap_held (t : Thread) (n : Nat) (x : Trap) : (t.trap n x).held = t.held := rfl
@[simp] theorem trap_slot (t : Thread) (n : Nat) (x : Trap) : (t.trap n x).slot = t.slot := rfl
@[simp] theorem trap_actSeq (t : Thread) (n : Nat) (x : Trap) : (t.trap n x).actSeq = t.actSeq := rfl
@[simp] theorem trap_group (t : Thread) (n : Nat) (x : Trap) : (t.trap n x).group = {} := rfl
@[simp] theorem trap_afterHint (t : Thread) (n : Nat) (x : Trap) : (t.trap n x).afterHint = t.afterHint := rfl
@[simp] theorem trap_trapStage (t : Thread) (n : Nat) (x : Trap) : (t.trap n x).trapStage = .delivered := rfl
@[simp] theorem trap_trapAt (t : Thread) (n : Nat) (x : Trap) : (t.trap n x).trapAt = n := rfl
@[simp] theorem trap_took (t : Thread) (n : Nat) (x : Trap) : (t.trap n x).took = false := rfl
@[simp] theorem trap_stall (t : Thread) (n : Nat) (x : Trap) : (t.trap n x).stall = 0 := rfl
@[simp] theorem trap_readyAt (t : Thread) (n : Nat) (x : Trap) : (t.trap n x).readyAt = 0 := rfl
@[simp] theorem trap_owed (t : Thread) (n : Nat) (x : Trap) : (t.trap n x).owed = t.owed := rfl
@[simp] theorem trap_busy (t : Thread) (n : Nat) (x : Trap) : (t.trap n x).busy = t.busy := rfl
@[simp] theorem trap_claims (t : Thread) (n : Nat) (x : Trap) : (t.trap n x).claims = t.claims := rfl
@[simp] theorem trap_accs (t : Thread) (n : Nat) (x : Trap) : (t.trap n x).accs = t.accs := rfl
@[simp] theorem trap_wait (t : Thread) (n : Nat) (x : Trap) : (t.trap n x).wait = t.wait := rfl
@[simp] theorem trap_waitLoad (t : Thread) (n : Nat) (x : Trap) : (t.trap n x).waitLoad = none := rfl
@[simp] theorem trap_halting (t : Thread) (n : Nat) (x : Trap) : (t.trap n x).halting = t.halting := rfl
@[simp] theorem trap_leaving (t : Thread) (n : Nat) (x : Trap) : (t.trap n x).leaving = t.leaving := rfl
@[simp] theorem trap_travelPc (t : Thread) (n : Nat) (x : Trap) : (t.trap n x).travelPc = t.travelPc := rfl
@[simp] theorem trap_crumbTower (t : Thread) (n : Nat) (x : Trap) : (t.trap n x).crumbTower = t.crumbTower := rfl
@[simp] theorem trap_arrived (t : Thread) (n : Nat) (x : Trap) : (t.trap n x).arrived = t.arrived := rfl
@[simp] theorem trap_killed (t : Thread) (n : Nat) (x : Trap) : (t.trap n x).killed = t.killed := rfl
@[simp] theorem trap_named (t : Thread) (n : Nat) (x : Trap) : (t.trap n x).named = t.named := rfl
@[simp] theorem trap_firm (t : Thread) (n : Nat) (x : Trap) : (t.trap n x).firm = t.firm := rfl
@[simp] theorem trap_fetchFrom (t : Thread) (n : Nat) (x : Trap) : (t.trap n x).fetchFrom = t.fetchFrom := rfl
@[simp] theorem trap_homeless (t : Thread) (n : Nat) (x : Trap) : (t.trap n x).homeless = t.homeless := rfl

/-! ### A parked thread -/

@[simp] theorem park_pc (t : Thread) (c : BitVec 4) (va : Word) (w : Wait) : (t.park c va w).pc = t.groupStart := rfl
@[simp] theorem park_state (t : Thread) (c : BitVec 4) (va : Word) (w : Wait) : (t.park c va w).state = .parked := rfl
@[simp] theorem park_priv (t : Thread) (c : BitVec 4) (va : Word) (w : Wait) : (t.park c va w).priv = t.priv := rfl
@[simp] theorem park_prio (t : Thread) (c : BitVec 4) (va : Word) (w : Wait) : (t.park c va w).prio = t.prio := rfl
@[simp] theorem park_policy (t : Thread) (c : BitVec 4) (va : Word) (w : Wait) : (t.park c va w).policy = t.policy := rfl
@[simp] theorem park_order (t : Thread) (c : BitVec 4) (va : Word) (w : Wait) : (t.park c va w).order = t.order := rfl
@[simp] theorem park_ftz16 (t : Thread) (c : BitVec 4) (va : Word) (w : Wait) : (t.park c va w).ftz16 = t.ftz16 := rfl
@[simp] theorem park_parkc (t : Thread) (c : BitVec 4) (va : Word) (w : Wait) : (t.park c va w).parkc = c := rfl
@[simp] theorem park_space (t : Thread) (c : BitVec 4) (va : Word) (w : Wait) : (t.park c va w).space = t.space := rfl
@[simp] theorem park_anchor (t : Thread) (c : BitVec 4) (va : Word) (w : Wait) : (t.park c va w).anchor = t.anchor := rfl
@[simp] theorem park_cur (t : Thread) (c : BitVec 4) (va : Word) (w : Wait) : (t.park c va w).cur = t.cur := rfl
@[simp] theorem park_gcount (t : Thread) (c : BitVec 4) (va : Word) (w : Wait) : (t.park c va w).gcount = t.gcount := rfl
@[simp] theorem park_vcount (t : Thread) (c : BitVec 4) (va : Word) (w : Wait) : (t.park c va w).vcount = t.vcount := rfl
@[simp] theorem park_vbase (t : Thread) (c : BitVec 4) (va : Word) (w : Wait) : (t.park c va w).vbase = t.vbase := rfl
@[simp] theorem park_tbase (t : Thread) (c : BitVec 4) (va : Word) (w : Wait) : (t.park c va w).tbase = t.tbase := rfl
@[simp] theorem park_rsize (t : Thread) (c : BitVec 4) (va : Word) (w : Wait) : (t.park c va w).rsize = t.rsize := rfl
@[simp] theorem park_fpst (t : Thread) (c : BitVec 4) (va : Word) (w : Wait) : (t.park c va w).fpst = t.fpst := rfl
@[simp] theorem park_vtype (t : Thread) (c : BitVec 4) (va : Word) (w : Wait) : (t.park c va w).vtype = t.vtype := rfl
@[simp] theorem park_index (t : Thread) (c : BitVec 4) (va : Word) (w : Wait) : (t.park c va w).index = t.index := rfl
@[simp] theorem park_launch (t : Thread) (c : BitVec 4) (va : Word) (w : Wait) : (t.park c va w).launch = t.launch := rfl
@[simp] theorem park_parkva (t : Thread) (c : BitVec 4) (va : Word) (w : Wait) : (t.park c va w).parkva = va := rfl
@[simp] theorem park_trclass (t : Thread) (c : BitVec 4) (va : Word) (w : Wait) : (t.park c va w).trclass = t.trclass := rfl
@[simp] theorem park_trinfo (t : Thread) (c : BitVec 4) (va : Word) (w : Wait) : (t.park c va w).trinfo = t.trinfo := rfl
@[simp] theorem park_trva (t : Thread) (c : BitVec 4) (va : Word) (w : Wait) : (t.park c va w).trva = t.trva := rfl
@[simp] theorem park_trpc (t : Thread) (c : BitVec 4) (va : Word) (w : Wait) : (t.park c va w).trpc = t.trpc := rfl
@[simp] theorem park_barg (t : Thread) (c : BitVec 4) (va : Word) (w : Wait) : (t.park c va w).barg = t.barg := rfl
@[simp] theorem park_hotl (t : Thread) (c : BitVec 4) (va : Word) (w : Wait) : (t.park c va w).hotl = t.hotl := rfl
@[simp] theorem park_hotn (t : Thread) (c : BitVec 4) (va : Word) (w : Wait) : (t.park c va w).hotn = t.hotn := rfl
@[simp] theorem park_dest (t : Thread) (c : BitVec 4) (va : Word) (w : Wait) : (t.park c va w).dest = t.dest := rfl
@[simp] theorem park_age (t : Thread) (c : BitVec 4) (va : Word) (w : Wait) : (t.park c va w).age = t.age := rfl
@[simp] theorem park_ctx (t : Thread) (c : BitVec 4) (va : Word) (w : Wait) : (t.park c va w).ctx = t.ctx := rfl
@[simp] theorem park_regs (t : Thread) (c : BitVec 4) (va : Word) (w : Wait) : (t.park c va w).regs = t.regs := rfl
@[simp] theorem park_lines (t : Thread) (c : BitVec 4) (va : Word) (w : Wait) : (t.park c va w).lines = t.lines := rfl
@[simp] theorem park_dirty (t : Thread) (c : BitVec 4) (va : Word) (w : Wait) : (t.park c va w).dirty = t.dirty := rfl
@[simp] theorem park_alloc (t : Thread) (c : BitVec 4) (va : Word) (w : Wait) : (t.park c va w).alloc = t.alloc := rfl
@[simp] theorem park_fresh (t : Thread) (c : BitVec 4) (va : Word) (w : Wait) : (t.park c va w).fresh = t.fresh := rfl
@[simp] theorem park_badLines (t : Thread) (c : BitVec 4) (va : Word) (w : Wait) : (t.park c va w).badLines = t.badLines := rfl
@[simp] theorem park_recent (t : Thread) (c : BitVec 4) (va : Word) (w : Wait) : (t.park c va w).recent = t.recent := rfl
@[simp] theorem park_usedAt (t : Thread) (c : BitVec 4) (va : Word) (w : Wait) : (t.park c va w).usedAt = t.usedAt := rfl
@[simp] theorem park_held (t : Thread) (c : BitVec 4) (va : Word) (w : Wait) : (t.park c va w).held = t.held := rfl
@[simp] theorem park_slot (t : Thread) (c : BitVec 4) (va : Word) (w : Wait) : (t.park c va w).slot = none := rfl
@[simp] theorem park_actSeq (t : Thread) (c : BitVec 4) (va : Word) (w : Wait) : (t.park c va w).actSeq = t.actSeq := rfl
@[simp] theorem park_group (t : Thread) (c : BitVec 4) (va : Word) (w : Wait) : (t.park c va w).group = {} := rfl
@[simp] theorem park_afterHint (t : Thread) (c : BitVec 4) (va : Word) (w : Wait) : (t.park c va w).afterHint = false := rfl
@[simp] theorem park_trapStage (t : Thread) (c : BitVec 4) (va : Word) (w : Wait) : (t.park c va w).trapStage = t.trapStage := rfl
@[simp] theorem park_trapAt (t : Thread) (c : BitVec 4) (va : Word) (w : Wait) : (t.park c va w).trapAt = t.trapAt := rfl
@[simp] theorem park_took (t : Thread) (c : BitVec 4) (va : Word) (w : Wait) : (t.park c va w).took = t.took := rfl
@[simp] theorem park_stall (t : Thread) (c : BitVec 4) (va : Word) (w : Wait) : (t.park c va w).stall = t.stall := rfl
@[simp] theorem park_readyAt (t : Thread) (c : BitVec 4) (va : Word) (w : Wait) : (t.park c va w).readyAt = 0 := rfl
@[simp] theorem park_owed (t : Thread) (c : BitVec 4) (va : Word) (w : Wait) : (t.park c va w).owed = [] := rfl
@[simp] theorem park_busy (t : Thread) (c : BitVec 4) (va : Word) (w : Wait) : (t.park c va w).busy = t.busy := rfl
@[simp] theorem park_claims (t : Thread) (c : BitVec 4) (va : Word) (w : Wait) : (t.park c va w).claims = t.claims := rfl
@[simp] theorem park_accs (t : Thread) (c : BitVec 4) (va : Word) (w : Wait) : (t.park c va w).accs = t.accs := rfl
@[simp] theorem park_wait (t : Thread) (c : BitVec 4) (va : Word) (w : Wait) : (t.park c va w).wait = w := rfl
@[simp] theorem park_waitLoad (t : Thread) (c : BitVec 4) (va : Word) (w : Wait) : (t.park c va w).waitLoad = t.waitLoad := rfl
@[simp] theorem park_halting (t : Thread) (c : BitVec 4) (va : Word) (w : Wait) : (t.park c va w).halting = t.halting := rfl
@[simp] theorem park_leaving (t : Thread) (c : BitVec 4) (va : Word) (w : Wait) : (t.park c va w).leaving = t.leaving := rfl
@[simp] theorem park_travelPc (t : Thread) (c : BitVec 4) (va : Word) (w : Wait) : (t.park c va w).travelPc = t.travelPc := rfl
@[simp] theorem park_crumbTower (t : Thread) (c : BitVec 4) (va : Word) (w : Wait) : (t.park c va w).crumbTower = t.crumbTower := rfl
@[simp] theorem park_arrived (t : Thread) (c : BitVec 4) (va : Word) (w : Wait) : (t.park c va w).arrived = t.arrived := rfl
@[simp] theorem park_killed (t : Thread) (c : BitVec 4) (va : Word) (w : Wait) : (t.park c va w).killed = t.killed := rfl
@[simp] theorem park_named (t : Thread) (c : BitVec 4) (va : Word) (w : Wait) : (t.park c va w).named = t.named := rfl
@[simp] theorem park_firm (t : Thread) (c : BitVec 4) (va : Word) (w : Wait) : (t.park c va w).firm = t.firm := rfl
@[simp] theorem park_fetchFrom (t : Thread) (c : BitVec 4) (va : Word) (w : Wait) : (t.park c va w).fetchFrom = t.fetchFrom := rfl
@[simp] theorem park_homeless (t : Thread) (c : BitVec 4) (va : Word) (w : Wait) : (t.park c va w).homeless = t.homeless := rfl

/-! ### Register bytes written -/

@[simp] theorem writeRegs_pc (t : Thread) (a : Nat) (bs : List Byte) : (t.writeRegs a bs).pc = t.pc := rfl
@[simp] theorem writeRegs_state (t : Thread) (a : Nat) (bs : List Byte) : (t.writeRegs a bs).state = t.state := rfl
@[simp] theorem writeRegs_priv (t : Thread) (a : Nat) (bs : List Byte) : (t.writeRegs a bs).priv = t.priv := rfl
@[simp] theorem writeRegs_prio (t : Thread) (a : Nat) (bs : List Byte) : (t.writeRegs a bs).prio = t.prio := rfl
@[simp] theorem writeRegs_policy (t : Thread) (a : Nat) (bs : List Byte) : (t.writeRegs a bs).policy = t.policy := rfl
@[simp] theorem writeRegs_order (t : Thread) (a : Nat) (bs : List Byte) : (t.writeRegs a bs).order = t.order := rfl
@[simp] theorem writeRegs_ftz16 (t : Thread) (a : Nat) (bs : List Byte) : (t.writeRegs a bs).ftz16 = t.ftz16 := rfl
@[simp] theorem writeRegs_parkc (t : Thread) (a : Nat) (bs : List Byte) : (t.writeRegs a bs).parkc = t.parkc := rfl
@[simp] theorem writeRegs_space (t : Thread) (a : Nat) (bs : List Byte) : (t.writeRegs a bs).space = t.space := rfl
@[simp] theorem writeRegs_anchor (t : Thread) (a : Nat) (bs : List Byte) : (t.writeRegs a bs).anchor = t.anchor := rfl
@[simp] theorem writeRegs_cur (t : Thread) (a : Nat) (bs : List Byte) : (t.writeRegs a bs).cur = t.cur := rfl
@[simp] theorem writeRegs_gcount (t : Thread) (a : Nat) (bs : List Byte) : (t.writeRegs a bs).gcount = t.gcount := rfl
@[simp] theorem writeRegs_vcount (t : Thread) (a : Nat) (bs : List Byte) : (t.writeRegs a bs).vcount = t.vcount := rfl
@[simp] theorem writeRegs_vbase (t : Thread) (a : Nat) (bs : List Byte) : (t.writeRegs a bs).vbase = t.vbase := rfl
@[simp] theorem writeRegs_tbase (t : Thread) (a : Nat) (bs : List Byte) : (t.writeRegs a bs).tbase = t.tbase := rfl
@[simp] theorem writeRegs_rsize (t : Thread) (a : Nat) (bs : List Byte) : (t.writeRegs a bs).rsize = t.rsize := rfl
@[simp] theorem writeRegs_fpst (t : Thread) (a : Nat) (bs : List Byte) : (t.writeRegs a bs).fpst = t.fpst := rfl
@[simp] theorem writeRegs_vtype (t : Thread) (a : Nat) (bs : List Byte) : (t.writeRegs a bs).vtype = t.vtype := rfl
@[simp] theorem writeRegs_index (t : Thread) (a : Nat) (bs : List Byte) : (t.writeRegs a bs).index = t.index := rfl
@[simp] theorem writeRegs_launch (t : Thread) (a : Nat) (bs : List Byte) : (t.writeRegs a bs).launch = t.launch := rfl
@[simp] theorem writeRegs_parkva (t : Thread) (a : Nat) (bs : List Byte) : (t.writeRegs a bs).parkva = t.parkva := rfl
@[simp] theorem writeRegs_trclass (t : Thread) (a : Nat) (bs : List Byte) : (t.writeRegs a bs).trclass = t.trclass := rfl
@[simp] theorem writeRegs_trinfo (t : Thread) (a : Nat) (bs : List Byte) : (t.writeRegs a bs).trinfo = t.trinfo := rfl
@[simp] theorem writeRegs_trva (t : Thread) (a : Nat) (bs : List Byte) : (t.writeRegs a bs).trva = t.trva := rfl
@[simp] theorem writeRegs_trpc (t : Thread) (a : Nat) (bs : List Byte) : (t.writeRegs a bs).trpc = t.trpc := rfl
@[simp] theorem writeRegs_barg (t : Thread) (a : Nat) (bs : List Byte) : (t.writeRegs a bs).barg = t.barg := rfl
@[simp] theorem writeRegs_hotl (t : Thread) (a : Nat) (bs : List Byte) : (t.writeRegs a bs).hotl = t.hotl := rfl
@[simp] theorem writeRegs_hotn (t : Thread) (a : Nat) (bs : List Byte) : (t.writeRegs a bs).hotn = t.hotn := rfl
@[simp] theorem writeRegs_dest (t : Thread) (a : Nat) (bs : List Byte) : (t.writeRegs a bs).dest = t.dest := rfl
@[simp] theorem writeRegs_age (t : Thread) (a : Nat) (bs : List Byte) : (t.writeRegs a bs).age = t.age := rfl
@[simp] theorem writeRegs_ctx (t : Thread) (a : Nat) (bs : List Byte) : (t.writeRegs a bs).ctx = t.ctx := rfl
@[simp] theorem writeRegs_regs (t : Thread) (a : Nat) (bs : List Byte) : (t.writeRegs a bs).regs = t.regs.writeBytes a bs := rfl
@[simp] theorem writeRegs_lines (t : Thread) (a : Nat) (bs : List Byte) : (t.writeRegs a bs).lines = t.lines := rfl
@[simp] theorem writeRegs_dirty (t : Thread) (a : Nat) (bs : List Byte) : (t.writeRegs a bs).dirty = t.dirty := rfl
@[simp] theorem writeRegs_alloc (t : Thread) (a : Nat) (bs : List Byte) : (t.writeRegs a bs).alloc = t.alloc := rfl
@[simp] theorem writeRegs_fresh (t : Thread) (a : Nat) (bs : List Byte) : (t.writeRegs a bs).fresh = t.fresh := rfl
@[simp] theorem writeRegs_badLines (t : Thread) (a : Nat) (bs : List Byte) : (t.writeRegs a bs).badLines = t.badLines := rfl
@[simp] theorem writeRegs_recent (t : Thread) (a : Nat) (bs : List Byte) : (t.writeRegs a bs).recent = t.recent := rfl
@[simp] theorem writeRegs_usedAt (t : Thread) (a : Nat) (bs : List Byte) : (t.writeRegs a bs).usedAt = t.usedAt := rfl
@[simp] theorem writeRegs_held (t : Thread) (a : Nat) (bs : List Byte) : (t.writeRegs a bs).held = t.held := rfl
@[simp] theorem writeRegs_slot (t : Thread) (a : Nat) (bs : List Byte) : (t.writeRegs a bs).slot = t.slot := rfl
@[simp] theorem writeRegs_actSeq (t : Thread) (a : Nat) (bs : List Byte) : (t.writeRegs a bs).actSeq = t.actSeq := rfl
@[simp] theorem writeRegs_group (t : Thread) (a : Nat) (bs : List Byte) : (t.writeRegs a bs).group = t.group := rfl
@[simp] theorem writeRegs_afterHint (t : Thread) (a : Nat) (bs : List Byte) : (t.writeRegs a bs).afterHint = t.afterHint := rfl
@[simp] theorem writeRegs_trapStage (t : Thread) (a : Nat) (bs : List Byte) : (t.writeRegs a bs).trapStage = t.trapStage := rfl
@[simp] theorem writeRegs_trapAt (t : Thread) (a : Nat) (bs : List Byte) : (t.writeRegs a bs).trapAt = t.trapAt := rfl
@[simp] theorem writeRegs_took (t : Thread) (a : Nat) (bs : List Byte) : (t.writeRegs a bs).took = t.took := rfl
@[simp] theorem writeRegs_stall (t : Thread) (a : Nat) (bs : List Byte) : (t.writeRegs a bs).stall = t.stall := rfl
@[simp] theorem writeRegs_readyAt (t : Thread) (a : Nat) (bs : List Byte) : (t.writeRegs a bs).readyAt = t.readyAt := rfl
@[simp] theorem writeRegs_owed (t : Thread) (a : Nat) (bs : List Byte) : (t.writeRegs a bs).owed = t.owed := rfl
@[simp] theorem writeRegs_busy (t : Thread) (a : Nat) (bs : List Byte) : (t.writeRegs a bs).busy = t.busy := rfl
@[simp] theorem writeRegs_claims (t : Thread) (a : Nat) (bs : List Byte) : (t.writeRegs a bs).claims = t.claims := rfl
@[simp] theorem writeRegs_accs (t : Thread) (a : Nat) (bs : List Byte) : (t.writeRegs a bs).accs = t.accs := rfl
@[simp] theorem writeRegs_wait (t : Thread) (a : Nat) (bs : List Byte) : (t.writeRegs a bs).wait = t.wait := rfl
@[simp] theorem writeRegs_waitLoad (t : Thread) (a : Nat) (bs : List Byte) : (t.writeRegs a bs).waitLoad = t.waitLoad := rfl
@[simp] theorem writeRegs_halting (t : Thread) (a : Nat) (bs : List Byte) : (t.writeRegs a bs).halting = t.halting := rfl
@[simp] theorem writeRegs_leaving (t : Thread) (a : Nat) (bs : List Byte) : (t.writeRegs a bs).leaving = t.leaving := rfl
@[simp] theorem writeRegs_travelPc (t : Thread) (a : Nat) (bs : List Byte) : (t.writeRegs a bs).travelPc = t.travelPc := rfl
@[simp] theorem writeRegs_crumbTower (t : Thread) (a : Nat) (bs : List Byte) : (t.writeRegs a bs).crumbTower = t.crumbTower := rfl
@[simp] theorem writeRegs_arrived (t : Thread) (a : Nat) (bs : List Byte) : (t.writeRegs a bs).arrived = t.arrived := rfl
@[simp] theorem writeRegs_killed (t : Thread) (a : Nat) (bs : List Byte) : (t.writeRegs a bs).killed = t.killed := rfl
@[simp] theorem writeRegs_named (t : Thread) (a : Nat) (bs : List Byte) : (t.writeRegs a bs).named = t.named := rfl
@[simp] theorem writeRegs_firm (t : Thread) (a : Nat) (bs : List Byte) : (t.writeRegs a bs).firm = t.firm := rfl
@[simp] theorem writeRegs_fetchFrom (t : Thread) (a : Nat) (bs : List Byte) : (t.writeRegs a bs).fetchFrom = t.fetchFrom := rfl
@[simp] theorem writeRegs_homeless (t : Thread) (a : Nat) (bs : List Byte) : (t.writeRegs a bs).homeless = t.homeless := rfl
/-! ### Tables -/

theorem tab_get_filter_ne {α : Type} (t : Tab α) (k j : Nat) (d : α) (h : j ≠ k) :
    Tab.get (t.filter (fun p => p.1 != k)) j d = Tab.get t j d := by
  induction t with
  | nil => rfl
  | cons p r ih =>
    obtain ⟨x, v⟩ := p
    by_cases hx : x = k
    · subst hx
      simp [Tab.get, Ne.symm h, ih]
    · simp only [List.filter_cons, bne_iff_ne, ne_eq, hx, not_false_eq_true, if_true, Tab.get, ih]

/-- A table gives what was put, and elsewhere what it gave. -/
theorem tab_get_put {α : Type} (t : Tab α) (k j : Nat) (v d : α) : Tab.get (Tab.put t k v) j d = if j = k then v else Tab.get t j d := by
  unfold Tab.put
  by_cases h : j = k
  · simp [Tab.get, h]
  · simp only [Tab.get, Ne.symm h, if_false, h]
    exact tab_get_filter_ne t k j d h

@[simp] theorem tab_get_put_self {α : Type} (t : Tab α) (k : Nat) (v d : α) : Tab.get (Tab.put t k v) k d = v := by
  simp [tab_get_put]

@[simp] theorem core_setCore_self (s : State) (i : Nat) (c : Core) : (s.setCore i c).core i = c := tab_get_put_self _ _ _ _
theorem core_setCore (s : State) (i j : Nat) (c : Core) : (s.setCore i c).core j = if j = i then c else s.core j := tab_get_put _ _ _ _ _
@[simp] theorem tile_setTile_self (s : State) (i : Nat) (x : TileSt) : (s.setTile i x).tile i = x := tab_get_put_self _ _ _ _
theorem tile_setTile (s : State) (i j : Nat) (x : TileSt) : (s.setTile i x).tile j = if j = i then x else s.tile j := tab_get_put _ _ _ _ _
theorem tower_setTower (s : State) (i j : Nat) (x : TowerSt) : (s.setTower i x).tower j = if j = i then x else s.tower j := tab_get_put _ _ _ _ _
theorem port_setPort (s : State) (i j : Nat) (x : Port) : (s.setPort i x).port j = if j = i then x else s.port j := tab_get_put _ _ _ _ _
theorem queue_setQueue (x : TileSt) (i j : Nat) (q : QueueSt) : (x.setQueue i q).queue j = if j = i then q else x.queue j := tab_get_put _ _ _ _ _
theorem slot_setSlot (x : TileSt) (i j : Nat) (q : SlotSt) : (x.setSlot i q).slot j = if j = i then q else x.slot j := tab_get_put _ _ _ _ _

@[simp] theorem core_put (s : State) (t : Thread) (i : Nat) : (s.put t).core i = s.core i := rfl
@[simp] theorem tile_put (s : State) (t : Thread) (i : Nat) : (s.put t).tile i = s.tile i := rfl
@[simp] theorem core_upd (s : State) (f : Thread → Thread) (i : Nat) : (s.upd f).core i = s.core i := rfl
@[simp] theorem tile_upd (s : State) (f : Thread → Thread) (i : Nat) : (s.upd f).tile i = s.tile i := rfl
@[simp] theorem queue_setSlot (x : TileSt) (i j : Nat) (q : SlotSt) : (x.setSlot i q).queue j = x.queue j := rfl
@[simp] theorem slot_setQueue (x : TileSt) (i j : Nat) (q : QueueSt) : (x.setQueue i q).slot j = x.slot j := rfl

/-! ### Records found by name -/

/-- Replacing the entries of one name changes no search for another. -/
theorem find?_map_ne {α β : Type} [DecidableEq β] (l : List α) (name : α → β) (x : α) (k : β) (h : k ≠ name x) :
    (l.map (fun y => if name y = name x then x else y)).find? (fun y => name y == k) = l.find? (fun y => name y == k) := by
  induction l with
  | nil => rfl
  | cons y r ih =>
    by_cases hy : name y = name x
    · have h1 : (name x == k) = false := by simp [Ne.symm h]
      simp [hy, h1, ih]
    · simp only [List.map_cons, hy, if_false, List.find?_cons, ih]

/-- A search for the name itself finds the replacement. -/
theorem find?_map_self {α β : Type} [DecidableEq β] (l : List α) (name : α → β) (x y : α)
    (h : l.find? (fun y => name y == name x) = some y) :
    (l.map (fun y => if name y = name x then x else y)).find? (fun y => name y == name x) = some x := by
  induction l with
  | nil => simp at h
  | cons z r ih =>
    by_cases hz : name z = name x
    · simp [hz]
    · have : (name z == name x) = false := by simp [hz]
      simp only [List.find?_cons, this] at h
      simp only [List.map_cons, hz, if_false, List.find?_cons, this]
      exact ih h

/-- A loaded space that was changed is found as it was changed to. -/
theorem space?_setSpace_self (s : State) (x y : SpaceSt) (h : s.space? x.id = some y) : (s.setSpace x).space? x.id = some x :=
  find?_map_self s.spaces SpaceSt.id x y h

/-- The others are found as before. -/
theorem space?_setSpace_of_ne (s : State) (x : SpaceSt) (id : BitVec 16) (h : id ≠ x.id) : (s.setSpace x).space? id = s.space? id :=
  find?_map_ne s.spaces SpaceSt.id x id h

/-- A launch that was changed is found as it was changed to. -/
theorem launch?_setLaunch_self (s : State) (x y : Launch) (h : s.launch? x.id = some y) : (s.setLaunch x).launch? x.id = some x :=
  find?_map_self s.launches Launch.id x y h

/-- The others are found as before. -/
theorem launch?_setLaunch_of_ne (s : State) (x : Launch) (id : BitVec 32) (h : id ≠ x.id) :
    (s.setLaunch x).launch? id = s.launch? id :=
  find?_map_ne s.launches Launch.id x id h

/-- What is found by a name has the name. -/
theorem space?_id {s : State} {id : BitVec 16} {x : SpaceSt} (h : s.space? id = some x) : x.id = id := by
  simpa using List.find?_some h

theorem launch?_id {s : State} {id : BitVec 32} {l : Launch} (h : s.launch? id = some l) : l.id = id := by
  simpa using List.find?_some h

theorem find_key {s : State} {k : Key} {t : Thread} (h : s.find k = some t) : t.key = k := by
  simpa using List.find?_some h

/-- The focus thread is found by its own name. -/
@[simp] theorem find_thr (s : State) : s.find s.thr.key = some s.thr := by simp [State.find, State.all]

/-- A thread whose record was replaced is found as it was replaced. -/
theorem find_setThread_self (s : State) (t u : Thread) (h : s.find t.key = some u) : (s.setThread t).find t.key = some t := by
  unfold State.setThread
  by_cases hk : s.thr.key = t.key
  · simp [hk, State.find, State.all]
  · have hb : (s.thr.key == t.key) = false := by simp [hk]
    simp only [hk, if_false, State.find, State.all, List.find?_cons, hb] at h ⊢
    exact find?_map_self s.threads Thread.key t u h

/-- Every other thread is found as before. -/
theorem find_setThread_of_ne (s : State) (t : Thread) (k : Key) (h : k ≠ t.key) : (s.setThread t).find k = s.find k := by
  unfold State.setThread
  by_cases hk : s.thr.key = t.key
  · have h1 : (t.key == k) = false := by simp [Ne.symm h]
    simp [hk, State.find, State.all, h1]
  · simp only [hk, if_false, State.find, State.all, List.find?_cons]
    rw [find?_map_ne s.threads Thread.key t k h]

end Sys2Proof.Machine
end

