-- ==== Sys2Proof/Laws/Access.lean ====
section
/-! SUPPORT. The checks of an access: when they pass, and what they cannot find. -/

namespace Sys2Proof.Machine

/-! ### Lists of checks -/

theorem resAll_ok_iff {α : Type} (f : α → Res Unit) (l : List α) : Res.all f l = .ok () ↔ ∀ x ∈ l, f x = .ok () := by
  induction l with
  | nil => simp [Res.all]
  | cons x r ih => cases h : f x <;> simp [Res.all, h, ih]

theorem resMap_ok_length {α β : Type} {f : α → Res β} {l : List α} {ys : List β} (h : Res.map f l = .ok ys) :
    ys.length = l.length := by
  induction l generalizing ys with
  | nil => cases h; rfl
  | cons x r ih =>
    simp only [Res.map] at h
    split at h <;> try cases h
    split at h <;> cases h
    simp [ih ‹_›]

theorem resMap_ok_mem {α β : Type} {f : α → Res β} {l : List α} {ys : List β} (h : Res.map f l = .ok ys) :
    ∀ y ∈ ys, ∃ x ∈ l, f x = .ok y := by
  induction l generalizing ys with
  | nil => cases h; simp
  | cons x r ih =>
    simp only [Res.map] at h
    split at h <;> try cases h
    split at h <;> cases h
    intro y hy
    rcases List.mem_cons.1 hy with rfl | hy
    · exact ⟨x, by simp, ‹_›⟩
    · obtain ⟨z, hz, e⟩ := ih ‹_› y hy
      exact ⟨z, by simp [hz], e⟩

/-! ### What the checks of R203 find -/

/-- An access finds its places exactly if every check of R203 passes. -/
theorem access_ok_iff (s : State) (w : Who) (k : Kind) (va : Word) (n align : Nat) (ls : List Loc) :
    s.access w k va n align = .ok ls ↔
      s.addrCheck w k va.toNat n align = .ok () ∧ Res.map (s.locate w k) (parts va.toNat n) = .ok ls ∧
      (∀ l ∈ ls, replCheck k l = .ok ()) ∧ (∀ l ∈ ls, typeCheck k l = .ok ()) ∧ (∀ l ∈ ls, stewardCheck k l = .ok ()) ∧
      (∀ l ∈ ls, travelOf w k l = none) ∧ (∀ l ∈ ls, s.darkCheck l = .ok ()) ∧ ∀ l ∈ ls, s.dataCheck k l = .ok () := by
  have travels : (∀ l ∈ ls, travelOf w k l = none) ↔
      ls.findSome? (fun l => (travelOf w k l).map (fun d => (d, l.va))) = none := by simp
  simp only [← resAll_ok_iff, travels]
  unfold State.access
  constructor
  · intro h
    repeat' split at h
    all_goals try cases h
    refine ⟨‹_›, ‹_›, ‹_›, ‹_›, ‹_›, ‹_›, ‹_›, ‹_›⟩
  · rintro ⟨h1, h2, h3, h4, h5, h6, h7, h8⟩
    simp only [h1, h2, h3, h4, h5, h6, h7, h8]

/-- An address at or above 2 ^ 57 is the first thing found. -/
theorem access_high (s : State) (w : Who) (k : Kind) (va : Word) (n align : Nat) (h : 2 ^ 57 ≤ va.toNat) :
    s.access w k va n align = .trap (addrTrap 1 va.toNat) := by
  simp only [State.access, State.addrCheck, h, if_true]

/-- The next is an access that is not aligned. -/
theorem access_unaligned (s : State) (w : Who) (k : Kind) (va : Word) (n align : Nat) (h : va.toNat < 2 ^ 57)
    (ha : va.toNat % align ≠ 0) : s.access w k va n align = .trap (addrTrap 2 va.toNat) := by
  have h1 : ¬ 2 ^ 57 ≤ va.toNat := by omega
  simp only [State.access, State.addrCheck, h1, ha, if_false, if_true, ne_eq, not_false_eq_true]

/-- Where no byte of memory is bad, none is found, and check 7 finds nothing. -/
theorem badByte_clean (s : State) (k n : Nat) (h : s.bad = []) : s.badByte k n = none := by simp [State.badByte, h]

theorem dataCheck_clean (s : State) (k : Kind) (l : Loc) (h : s.bad = []) : s.dataCheck k l = .ok () := by
  simp [State.dataCheck, badByte_clean s _ _ h]

/-- Places whose parts are each ready are ready. -/
theorem ready_of_readyLoc (s : State) (t : Thread) (excl : Bool) (ls : List Loc) (once : Bool)
    (h : ∀ l ∈ ls, s.readyLoc t excl l ls once = .ok) : s.ready t excl ls once = .ok := by
  have (r : List Loc) : (∀ l ∈ r, s.readyLoc t excl l ls once = .ok) → s.readyList t excl ls once r = .ok := by
    induction r with
    | nil => exact fun _ => rfl
    | cons l r ih =>
      intro h
      simp only [State.readyList, h l (by simp)]
      exact ih fun l hl => h l (by simp [hl])
  exact this ls h

/-- A plain place of this module is ready where no line has a directory entry, a queue or a change of bias under way. -/
theorem ready_of_no_dir (s : State) (t : Thread) (excl : Bool) (ls : List Loc) (hd : s.dir = []) (hq : s.lineQueue = [])
    (hf : s.flips = []) (h : ∀ l ∈ ls, l.win.isSome = true ∨ 2 ^ 60 ≤ l.key ∨ l.key / 2 ^ 48 = s.dev.toNat) :
    s.ready t excl ls = .ok := by
  refine ready_of_readyLoc s t excl ls false fun l hl => ?_
  unfold State.readyLoc
  split
  · rfl
  · rename_i hw
    rcases h l hl with h | h | h
    · simp [h] at hw
    · exact absurd (by rw [decide_eq_true h, Bool.or_true]) hw
    · rw [if_pos h, if_pos (by simp [hd, hq, hf])]

/-- An image that is there is not made again; a place outside core scratch makes none. -/
theorem noteImages_of (s : State) (n : BitVec 8) (ls : List Loc)
    (h : ∀ l ∈ ls, l.win ≠ some .core ∨ (s.imageAt l.key).isSome = true) : s.noteImages n ls = s := by
  induction ls with
  | nil => rfl
  | cons l r ih =>
    have : ¬ ((l.win = some .core && (s.imageAt l.key).isNone) = true) := by
      rcases h l (by simp) with h | h
      · simp [h]
      · simp [Option.isNone_eq_false_iff.2 h]
    rw [State.noteImages, if_neg this]
    exact ih fun l hl => h l (by simp [hl])

end Sys2Proof.Machine
end

