-- ==== Sys2Proof/Laws/Caches.lean ====
section
/-! SUPPORT. What the tile caches, the hearths and the directory can change: which lines they hold, and never a value. -/

namespace Sys2Proof.Machine

/-- `t` is `s` but for its caches: of the cores only probes on their way differ, of the tiles only cached cells. -/
def Cached (s t : State) : Prop :=
  t = s.like t ∧ (∀ i, t.core i = { s.core i with probes := (t.core i).probes }) ∧
    ∀ i, t.tile i = { s.tile i with cells := (t.tile i).cells }

theorem Cached.refl (s : State) : Cached s s := ⟨rfl, fun _ => rfl, fun _ => rfl⟩

theorem Cached.trans {s t u : State} (h : Cached s t) (k : Cached t u) : Cached s u := by
  obtain ⟨a, b, c⟩ := h
  obtain ⟨d, e, f⟩ := k
  refine ⟨?_, fun i => ?_, fun i => ?_⟩
  · rw [d, a]; rfl
  · rw [e i, b i]
  · rw [f i, c i]

/-- An update that leaves cores and tiles is one of the caches if it is one of their fields. -/
theorem cached_of {s t : State} (h : t = s.like t) (hc : t.cores = s.cores) (ht : t.tiles = s.tiles) : Cached s t :=
  ⟨h, fun i => by simp [State.core, hc], fun i => by simp [State.tile, ht]⟩

theorem cached_ite {p : Prop} [Decidable p] {s t u : State} (h : p → Cached s t) (k : ¬ p → Cached s u) :
    Cached s (if p then t else u) := by
  split
  · exact h ‹_›
  · exact k ‹_›

theorem cached_foldl {α : Type} (f : State → α → State) (h : ∀ s a, Cached s (f s a)) (l : List α) (s : State) :
    Cached s (l.foldl f s) := by
  induction l generalizing s with
  | nil => exact .refl s
  | cons a r ih => exact (h s a).trans (ih _)

/-- Values, threads and memory stay. -/
theorem Cached.mem {s t : State} (h : Cached s t) : t.mem = s.mem := by rw [h.1]; rfl
theorem Cached.thr {s t : State} (h : Cached s t) : t.thr = s.thr := by rw [h.1]; rfl

/-- So does every line of every L1: one that must go has a probe on its way. -/
theorem Cached.l1 {s t : State} (h : Cached s t) (i : Nat) : (t.core i).l1 = (s.core i).l1 := by rw [h.2.1 i]

theorem Cached.kept {s t : State} (h : Cached s t) : Kept s t :=
  ⟨⟨fun i => by rw [h.2.1 i], fun i _ => h.l1 i⟩, h.2.2⟩

/-! ### Each operation -/

theorem tab_get_map {α : Type} (f : Nat × α → α) (t : Tab α) (i : Nat) (d : α) :
    Tab.get (t.map (fun c => (c.1, f c))) i d = Tab.get t i d ∨ ∃ c ∈ t, c.2 = Tab.get t i d ∧
      Tab.get (t.map (fun c => (c.1, f c))) i d = f c := by
  induction t with
  | nil => exact .inl rfl
  | cons c r ih =>
    obtain ⟨x, v⟩ := c
    by_cases h : x = i
    · exact .inr ⟨(x, v), by simp, by simp [Tab.get, h], by simp [Tab.get, h]⟩
    · rcases ih with h1 | ⟨c, hc, h1, h2⟩
      · left; simp [Tab.get, h, h1]
      · exact .inr ⟨c, by simp [hc], by simp [Tab.get, h, h1], by simp [Tab.get, h, h2]⟩

theorem cached_probeL1s (s : State) (p : Nat → Bool) (key n : Nat) : Cached s (s.probeL1s p key n) := by
  refine ⟨rfl, fun i => ?_, fun _ => rfl⟩
  rcases tab_get_map (fun c => if p c.1 && c.2.l1.any (fun l => overlaps (l.key, 128) (key, n)) then
      { c.2 with probes := (key, n) :: c.2.probes } else c.2) s.cores i {} with h | ⟨c, -, h1, h2⟩
  · simp only [State.core, State.probeL1s]; rw [h]
  · simp only [State.core, State.probeL1s]
    rw [h2, ← h1]
    split <;> rfl

theorem cached_setDir (s : State) (d : DirEntry) : Cached s (s.setDir d) := by
  unfold State.setDir; dsimp only; split <;> exact cached_of rfl rfl rfl

theorem cached_dropTiles (s : State) (u : Nat) (p : Nat → Bool) : Cached s (s.dropTiles u p) :=
  cached_ite (fun _ => .trans (cached_of rfl rfl rfl) (cached_probeL1s _ _ _ _)) (fun _ => .refl s)

theorem cached_dropHearths (s : State) (u : Nat) (p : Nat → Bool) : Cached s (s.dropHearths u p) :=
  cached_ite (fun _ => cached_of rfl rfl rfl) (fun _ => .refl s)

theorem cached_dropTowers (s : State) (u : Nat) (p : Nat → Bool) : Cached s (s.dropTowers u p) :=
  (cached_dropTiles ..).trans (cached_dropHearths ..)

theorem cached_shareLine (s : State) (u : Nat) (p q : Nat → Bool) : Cached s (s.shareLine u p q) := cached_of rfl rfl rfl
theorem cached_setTileLine (s : State) (i u : Nat) (x : LineSt) : Cached s (s.setTileLine i u x) := cached_of rfl rfl rfl
theorem cached_setHearthLine (s : State) (i : Nat) (sp : BitVec 16) (u : Nat) (x : LineSt) :
    Cached s (s.setHearthLine i sp u x) := cached_of rfl rfl rfl

theorem cached_endSnoop (s : State) (n : Nat) : Cached s (s.endSnoop n) :=
  cached_ite (fun _ => .refl s) (fun _ => cached_setDir ..)

theorem cached_recallInside (s : State) (e : Bool) (n : Nat) : Cached s (s.recallInside e n) := by
  unfold State.recallInside; dsimp only
  refine .trans (cached_endSnoop s n) ?_
  generalize s.endSnoop n = s
  exact cached_ite (fun _ => .refl s) fun _ => cached_ite (fun _ => (cached_dropTowers ..).trans (cached_setDir ..))
    fun _ => .trans (cached_of rfl rfl rfl) (cached_setDir ..)

theorem cached_toHost (s : State) (m : HostMsg) : Cached s (s.toHost m) := cached_of rfl rfl rfl

theorem cached_trackHost (s : State) (u : Nat) : Cached s (s.trackHost u) := cached_setDir ..

theorem cached_halves (s : State) (hs : List HalfLine) : Cached s { s with halves := hs } := cached_of rfl rfl rfl

theorem cached_evictHalf (s : State) (h : HalfLine) : Cached s (s.evictHalf h) := by
  have k (u : State) : Cached u (({ u with halves := u.halves.filter (fun x => x != h) }.trackHost (h.unit / 2)).probeL1s
      (fun c => c / 4 == h.tile) (h.unit * 64) 64) :=
    ((cached_halves u _).trans (cached_trackHost _ _)).trans (cached_probeL1s _ _ _ _)
  unfold State.evictHalf
  refine Cached.trans ?_ (k _)
  split
  · exact cached_toHost ..
  · exact cached_toHost ..
  · exact .refl s

theorem cached_takeHalf (s : State) (n i : Nat) : Cached s (s.takeHalf n i) := by
  unfold State.takeHalf; dsimp only
  exact cached_ite (fun _ => .trans (cached_of rfl rfl rfl) (cached_probeL1s ..)) (fun _ => .refl s)

theorem cached_recallEntry (s : State) (d : DirEntry) : Cached s (s.recallEntry d) :=
  cached_ite (fun _ => cached_recallInside ..) fun _ => cached_ite
    (fun _ => cached_foldl _ (fun s h => cached_evictHalf s h) _ _) (fun _ => cached_dropTowers ..)

theorem cached_dirRoom (s : State) (n : Nat) : Cached s (s.dirRoom n) := by
  unfold State.dirRoom
  split
  · exact cached_ite (fun _ => .refl s) (fun _ => cached_recallEntry ..)
  · exact .refl s

theorem cached_homeServe (s : State) (n : Nat) (w : Holder) (e : Bool) : Cached s (s.homeServe n w e).1 := by
  unfold State.homeServe
  refine .trans (cached_dirRoom s n) ?_
  generalize s.dirRoom n = s
  dsimp only
  split
  · cases w
    · exact ((cached_dropTiles ..).trans (cached_dropHearths ..)).trans (cached_setDir ..)
    · exact (cached_dropTowers ..).trans (cached_setDir ..)
  · split
    · exact cached_setDir ..
    · exact (cached_shareLine ..).trans (cached_setDir ..)

theorem cached_sliceServe (s : State) (i u : Nat) (x : LineSt) (e : Bool) : Cached s (s.sliceServe i u x e) := by
  unfold State.sliceServe
  dsimp only
  refine .trans (cached_dirRoom s (sliceLine (i / 16) u)) ?_
  generalize s.dirRoom (sliceLine (i / 16) u) = s
  split
  · exact ((cached_dropTiles ..).trans (cached_setDir ..)).trans (cached_setTileLine ..)
  · exact ((cached_shareLine s u _ _).trans (cached_ite (fun _ => cached_setDir ..) (fun _ => cached_setDir ..))).trans
      (cached_setTileLine ..)

theorem cached_evictTile (s : State) (i u : Nat) : Cached s (s.evictTile i u) := by
  unfold State.evictTile
  split
  · exact .refl s
  · dsimp only
    refine .trans (u := _) (t := { s with caches := s.caches.filter (fun c => !(c.tile == i && c.unit == u)) })
      (cached_of rfl rfl rfl) ?_
    generalize ({ s with caches := _ } : State) = s
    have give (s : State) (n : Nat) : Cached s (if (s.dirEntry n).owner == some (.tile i) then
        s.setDir ({ s.dirEntry n with owner := none } : DirEntry).settled else s) :=
      cached_ite (fun _ => cached_setDir ..) (fun _ => .refl s)
    exact cached_ite (fun _ => cached_ite (fun _ => .trans (give ..) (give ..)) (fun _ => give ..)) (fun _ => .refl s)

theorem cached_cells (s : State) (i : Nat) (cs : List CellCopy) : Cached s (s.setTile i { s.tile i with cells := cs }) := by
  refine ⟨rfl, fun _ => rfl, fun j => ?_⟩
  rw [tile_setTile]
  split
  · subst j; rfl
  · rfl

theorem cached_tileRoom (s : State) (i u : Nat) : Cached s (s.tileRoom i u) := by
  unfold State.tileRoom; dsimp only
  refine cached_ite (fun _ => .refl s) fun _ => ?_
  split
  · exact cached_evictTile ..
  · exact cached_foldl _ (fun s h => cached_evictHalf s h) _ _
  · exact cached_cells ..
  · exact .refl s

theorem cached_evictHearth (s : State) (i u : Nat) : Cached s (s.evictHearth i u) := by
  unfold State.evictHearth; dsimp only
  exact cached_ite (fun _ => (cached_dropTowers ..).trans (cached_setDir ..)) (fun _ => cached_dropTowers ..)

theorem cached_hearthRoom (s : State) (i : Nat) (sp : BitVec 16) (u : Nat) : Cached s (s.hearthRoom i sp u) := by
  unfold State.hearthRoom; dsimp only
  refine cached_ite (fun _ => .refl s) fun _ => ?_
  split
  · exact cached_evictHearth ..
  · exact .refl s

theorem cached_reachLocal (s : State) (i : Nat) (sp : BitVec 16) (e : Bool) (u : Nat) : Cached s (s.reachLocal i sp e u) := by
  unfold State.reachLocal
  dsimp only
  split
  · split
    · exact (cached_endSnoop ..).trans (cached_recallInside ..)
    · exact cached_endSnoop ..
  · refine .trans (cached_tileRoom s i u) ?_
    generalize s.tileRoom i u = s
    split
    · split
      · split
        · exact (cached_setHearthLine ..).trans (cached_sliceServe ..)
        · have h := cached_homeServe s (u % 2 ^ 41) (.hearth (i / 16)) e
          generalize s.homeServe (u % 2 ^ 41) (.hearth (i / 16)) e = p at h
          exact (h.trans (cached_setHearthLine ..)).trans (cached_sliceServe ..)
      · have h := (cached_hearthRoom s (i / 16) sp u).trans (cached_homeServe _ (u % 2 ^ 41) (.hearth (i / 16)) e)
        generalize (s.hearthRoom (i / 16) sp u).homeServe (u % 2 ^ 41) (.hearth (i / 16)) e = p at h
        exact (h.trans (cached_setHearthLine ..)).trans (cached_sliceServe ..)
    · have h := cached_homeServe s (u % 2 ^ 41) (.tile i) e
      generalize s.homeServe (u % 2 ^ 41) (.tile i) e = p at h
      exact h.trans (cached_setTileLine ..)

theorem cached_unghost (s : State) (u : Nat) : Cached s (s.unghost u) :=
  cached_ite (fun _ => cached_of rfl rfl rfl) (fun _ => .refl s)

theorem cached_reachPeer (s : State) (i : Nat) (sp : BitVec 16) (e : Bool) (u : Nat) : Cached s (s.reachPeer i sp e u) := by
  unfold State.reachPeer; dsimp only
  refine cached_ite (fun _ => .refl s) fun _ => .trans ((cached_unghost s u).trans (cached_tileRoom _ i u)) ?_
  generalize (s.unghost u).tileRoom i u = s
  refine .trans ?_ (cached_sliceServe ..)
  have h : Cached s (if e = true then s.dropTowers u (fun t => t != i / 16)
      else s.shareLine u (fun j => j / 16 != i / 16) (fun t => t != i / 16)) :=
    cached_ite (fun _ => cached_dropTowers ..) (fun _ => cached_shareLine ..)
  exact cached_ite (fun _ => (h.trans (cached_hearthRoom ..)).trans (cached_setHearthLine ..)) (fun _ => h)

theorem cached_reachHalf (s : State) (i : Nat) (e : Bool) (n : Nat) : Cached s (s.reachHalf i e n) := by
  unfold State.reachHalf; dsimp only
  refine .trans (cached_tileRoom s i (n / 2)) ?_
  split
  · exact .refl _
  · refine Cached.trans ?_ (((cached_dirRoom _ _).trans (cached_halves _ _)).trans (cached_trackHost _ _))
    exact cached_ite (fun _ => cached_takeHalf ..) (fun _ => .refl _)

theorem cached_reachLine (s : State) (i : Nat) (sp : BitVec 16) (e : Bool) (u : Nat) : Cached s (s.reachLine i sp e u) := by
  unfold State.reachLine
  repeat' split
  all_goals first
    | exact cached_setTileLine ..
    | exact cached_reachLocal ..
    | exact cached_reachPeer ..

theorem cached_reachHearth (s : State) (i : Nat) (sp : BitVec 16) (u : Nat) : Cached s (s.reachHearth i sp u) := by
  unfold State.reachHearth
  refine cached_ite (fun _ => ?_) (fun _ => .refl s)
  have h := (cached_hearthRoom s i sp u).trans (cached_homeServe _ (u % 2 ^ 41) (.hearth i) false)
  generalize (s.hearthRoom i sp u).homeServe (u % 2 ^ 41) (.hearth i) false = p at h
  exact h.trans (cached_setHearthLine ..)

theorem cached_reach (s : State) (i : Nat) (sp : BitVec 16) (e : Bool) (ls : List Loc) : Cached s (s.reach i sp e ls) := by
  induction ls generalizing s with
  | nil => exact .refl s
  | cons l r ih =>
    rw [State.reach]
    exact cached_ite (fun _ => ih s) fun _ => cached_ite
      (fun _ => (cached_foldl _ (fun s _ => cached_reachHalf s ..) _ _).trans (ih _))
      (fun _ => (cached_foldl _ (fun s _ => cached_reachLine s ..) _ _).trans (ih _))

theorem cached_reachHome (s : State) (i : Nat) (e : Bool) (ls : List Loc) : Cached s (s.reachHome i e ls) := by
  induction ls generalizing s with
  | nil => exact .refl s
  | cons l r ih =>
    rw [State.reachHome]
    exact cached_ite (fun _ => ih s) fun _ => cached_ite
      (fun _ => (cached_foldl _ (fun s _ => cached_reachHalf s ..) _ _).trans (ih _)) fun _ => cached_ite
      (fun _ => (cached_foldl _ (fun s _ => cached_recallInside s ..) _ _).trans (ih _)) (fun _ => ih s)

theorem cached_counted (s : State) (ls : List Loc) : Cached s (s.counted ls) := by
  unfold State.counted; dsimp only; split <;> exact cached_of rfl rfl rfl

theorem cached_callNext (s : State) (n : Nat) : Cached s (s.callNext n) := by
  unfold State.callNext
  repeat' split
  all_goals first | exact .refl s | exact cached_of rfl rfl rfl

theorem cached_release (s : State) (n : Nat) : Cached s (s.release n) :=
  (cached_callNext ..).trans (cached_ite (fun _ => .refl _) (fun _ => cached_of rfl rfl rfl))

theorem cached_served (s : State) (n : Nat) (r : LineReq) : Cached s (s.served n r) := by
  unfold State.served
  refine cached_ite (fun _ => .refl s) fun _ => ?_
  cases r
  · exact .trans (cached_of rfl rfl rfl) (cached_callNext ..)
  · exact .trans (cached_of rfl rfl rfl) (cached_release ..)

/-- A ready access that takes its lines changes caches alone. -/
theorem cached_took (s : State) (t : Thread) (e : Bool) (ls : List Loc) (home once : Bool) : Cached s (s.took t e ls home once) := by
  unfold State.took; dsimp only
  generalize ha : (if once = true then _ else _ : State) = a
  have h : Cached s a := by
    rw [← ha]
    exact cached_ite (fun _ => cached_foldl _ (fun s _ => cached_endSnoop s _) _ _) fun _ =>
      cached_ite (fun _ => cached_reachHome ..) (fun _ => cached_reach ..)
  have k := h.trans (cached_counted a ls)
  exact cached_ite (fun _ => k) (fun _ => k.trans (cached_foldl _ (fun s _ => cached_served s ..) _ _))

/-! ### The L1 of one core (spec R55, R140) -/

/-- `t` is `s` but for the lines and cells of the L1 of one core: a line there was there before, or holds the bytes of memory. -/
def L1Only (core : Nat) (s t : State) : Prop :=
  t = { s with cores := t.cores } ∧
    (∀ i, t.core i = { s.core i with l1 := (t.core i).l1, cells := (t.core i).cells }) ∧
    (∀ i, i ≠ core → (t.core i).l1 = (s.core i).l1) ∧
    ∀ l ∈ (t.core core).l1, l ∈ (s.core core).l1 ∨ l.data = s.bytesAt l.key 128

theorem L1Only.refl (n : Nat) (s : State) : L1Only n s s := ⟨rfl, fun _ => rfl, fun _ _ => rfl, fun _ h => .inl h⟩

theorem L1Only.trans {n : Nat} {s t u : State} (h : L1Only n s t) (k : L1Only n t u) : L1Only n s u := by
  obtain ⟨a, b, c, d⟩ := h
  obtain ⟨a', b', c', d'⟩ := k
  refine ⟨?_, fun i => ?_, fun i hi => ?_, fun l hl => ?_⟩
  · rw [a', a]
  · rw [b' i, b i]
  · rw [c' i hi, c i hi]
  · rcases d' l hl with h | h
    · exact d l h
    · right; rw [h, a]; rfl

/-- A core whose L1 keeps some of its lines, and takes such as hold the bytes of memory. -/
theorem l1Only_setCore (s : State) (n : Nat) (ls : List L1Line) (cs : List CellCopy)
    (h : ∀ l ∈ ls, l ∈ (s.core n).l1 ∨ l.data = s.bytesAt l.key 128) :
    L1Only n s (s.setCore n { s.core n with l1 := ls, cells := cs }) := by
  refine ⟨rfl, fun i => ?_, fun i hi => ?_, fun l hl => ?_⟩
  · rw [core_setCore]; split
    · subst i; rfl
    · rfl
  · rw [core_setCore, if_neg hi]
  · rw [core_setCore_self] at hl; exact h l hl

theorem L1Only.mem {n : Nat} {s t : State} (h : L1Only n s t) : t.mem = s.mem := by rw [h.1]

/-- A load past the L1 forgets lines of it. -/
theorem l1Only_forgetL1 (s : State) (n : Nat) (rs : List (Nat × Nat)) : L1Only n s (s.forgetL1 n rs) := by
  unfold State.forgetL1; dsimp only
  split
  · exact .refl n s
  · exact l1Only_setCore s n _ _ fun l hl => .inl (List.mem_filter.1 hl).1

/-- None of the lines that it names stays. -/
theorem forgetL1_gone (s : State) (core : Nat) (rs : List (Nat × Nat)) :
    ∀ l ∈ ((s.forgetL1 core rs).core core).l1, rangesMeet [(l.key, 128)] rs = false := by
  unfold State.forgetL1; simp only
  split
  · intro l h; simp_all
  · intro l h; simpa using (List.mem_filter.1 ((core_setCore_self s core _ ▸ h :))).2

/-- An acquire forgets lines too. -/
theorem l1Only_acquireFor (s : State) (t : Thread) (c : Scope) : L1Only (posCore t.cur) s (s.acquireFor t c) := by
  unfold State.acquireFor; dsimp only
  split
  · exact .refl _ s
  · exact l1Only_setCore s _ _ _ fun l hl => .inl (List.mem_filter.1 hl).1

/-- A fill takes a line with the bytes of memory. -/
theorem l1Only_fillOne (s : State) (w : Who) (l : Loc) (n : Nat) : L1Only (posCore w.here) s (s.fillOne w l n) := by
  unfold State.fillOne; dsimp only
  split
  · exact .refl _ s
  · refine l1Only_setCore s _ _ _ fun x hx => ?_
    rcases List.mem_cons.1 (List.mem_of_mem_take hx) with rfl | hx
    · exact .inr rfl
    · exact .inl (List.mem_filter.1 hx).1

theorem l1Only_fillFrom (s : State) (w : Who) (ls : List Loc) : L1Only (posCore w.here) s (s.fillFrom w ls) := by
  have lines (l : Loc) (ns : List Nat) (s : State) : L1Only (posCore w.here) s (ns.foldl (fun a n => a.fillOne w l n) s) := by
    induction ns generalizing s with
    | nil => exact .refl _ s
    | cons n r ih => exact (l1Only_fillOne s w l n).trans (ih _)
  induction ls generalizing s with
  | nil => exact .refl _ s
  | cons l r ih =>
    rw [State.fillFrom]
    split
    · exact ih s
    · exact (lines l _ s).trans (ih _)

/-- Caches and then the focus thread's L1: what a load leaves of the machine. -/
theorem kept_filled {s a t : State} (h : Cached s a) (k : L1Only (posCore s.thr.cur) a t) :
    t = s.like t ∧ Kept s t ∧ Filled s t := by
  have e : t = s.like t := by rw [k.1, h.1]; rfl
  refine ⟨e, ⟨⟨fun i => ?_, fun i hi => ?_⟩, fun i => ?_⟩, fun l hl => ?_⟩
  · rw [k.2.1 i, h.2.1 i]
  · rw [k.2.2.1 i hi, h.l1 i]
  · have : t.tile i = a.tile i := by rw [k.1]; rfl
    rw [this, h.2.2 i]
  · have : (t.thr) = s.thr := by rw [e]; rfl
    rcases k.2.2.2 l hl with hl | hl
    · left; rwa [h.l1] at hl
    · right; rw [hl, h.1]; rfl

end Sys2Proof.Machine
end

