-- ==== Sys2Proof/Laws/Registers.lean ====
section
/-! SUPPORT. Scalar registers, the checks before a word's effect, and the shapes of words that only write a register. -/

namespace Sys2Proof.Machine

/-! ### Scalar registers (spec R36) -/

@[simp] theorem g_zero (t : Thread) : t.g 0 = 0 := rfl

theorem setG_zero (t : Thread) (x : Word) : t.setG 0 x = t := rfl

/-- A register reads as it was written; the others as before. -/
theorem g_setG (t : Thread) (d n : BitVec 6) (x : Word) (hn : n ≠ 0) :
    (t.setG d x).g n = if n = d then x else t.g n := by
  unfold Thread.setG
  by_cases hd : d = 0
  · subst hd; rw [if_pos rfl, if_neg hn]
  · rw [if_neg hd]
    simp only [Thread.g, if_neg hn]
    split
    · rename_i h
      subst h
      rw [readNum_writeNum_same]
      have : x.toNat % 256 ^ 8 = x.toNat := Nat.mod_eq_of_lt (by have := x.isLt; omega)
      rw [this, BitVec.ofNat_toNat, BitVec.setWidth_eq]
    · rename_i h
      rw [readNum_writeNum_apart]
      have : n.toNat ≠ d.toNat := fun e => h (BitVec.eq_of_toNat_eq e)
      omega

/-- A write of a register leaves every other byte of the register space. -/
theorem regs_setG_read (t : Thread) (d : BitVec 6) (x : Word) (a : Nat)
    (h : d = 0 ∨ a < 8 * d.toNat ∨ 8 * d.toNat + 8 ≤ a) : (t.setG d x).regs.read a = t.regs.read a := by
  unfold Thread.setG
  by_cases hd : d = 0
  · simp [hd]
  · rw [if_neg hd]
    simp only [Memory.writeNum]
    rw [read_writeBytes, if_neg]
    rw [leBytes_length]
    rcases h with h | h
    · exact absurd h hd
    · omega

/-- A register write changes the register bytes alone. -/
theorem setG_eq (t : Thread) (d : BitVec 6) (x : Word) : t.setG d x = { t with regs := (t.setG d x).regs } := by
  unfold Thread.setG; split <;> rfl

theorem past_eq_advance (t : Thread) : t.advance = t.past := rfl

/-! ### Checks that pass (spec R168) -/

/-- A word whose group and registers fit runs its effect. -/
theorem checked_of_fit {s : State} {a : Accepts} {n : Names} (h : s.thr.Fit a n) (f : Out) : s.checked a false n f = f := by
  simp [State.checked, Thread.check, h.1, h.2, State.after]

/-- So does a privileged one of a privileged thread. -/
theorem checked_of_priv {s : State} {a : Accepts} {n : Names} (h : s.thr.Fit a n) (hp : s.thr.priv = true) (f : Out) :
    s.checked a true n f = f := by
  simp [State.checked, Thread.check, Thread.sup, h.1, h.2, hp, State.after]

theorem control_of_fit {s : State} {n : Names} (h : s.thr.FitControl n) (f : Out) : s.control n f = f := by
  simp [State.control, Thread.checkControl, h.1, h.2.1, h.2.2, State.after]

/-- Taking a trap is what `Traps` says. -/
theorem traps_takeTrap (s : State) (x : Trap) : Traps s (.next (s.takeTrap x)) x := by
  simp only [Traps, State.takeTrap, State.put, Thread.trap, Thread.atTrap]
  cases x.cls <;> simp

/-- A word whose checks of R168 fail traps as they say and does nothing else. -/
theorem checked_trap {s : State} {a : Accepts} {p : Bool} {n : Names} {x : Trap} {f : Out}
    (h : s.thr.check a p n = .trap x) : Traps s (s.checked a p n f) x := by
  rw [State.checked, h]; exact traps_takeTrap _ _

theorem control_trap {s : State} {n : Names} {x : Trap} {f : Out} (h : s.thr.checkControl n = .trap x) :
    Traps s (s.control n f) x := by
  rw [State.control, h]; exact traps_takeTrap _ _

/-! ### Words that write a register -/

/-- A register write that ends its word is what `RegWrite` says. -/
theorem regWrite_setG (u : Thread) (d : BitVec 6) (x : Word) : RegWrite u (u.setG d x).advance d x := by
  refine ⟨?_, fun n hn => ?_, fun a ha => regs_setG_read _ _ _ _ ha⟩
  · rw [setG_eq]; rfl
  · exact g_setG u d n x hn

/-- A scalar result is what `Writes` says. -/
theorem writes_result (s : State) (d : BitVec 6) (x : Word) : Writes s (.next (s.result d x)) d x :=
  ⟨(s.thr.setG d x).advance, rfl, regWrite_setG _ _ _⟩

theorem setG_raise (u : Thread) (d : BitVec 6) (x : Word) (f : Flags) : (u.setG d x).raise f = (u.raise f).setG d x := by
  unfold Thread.setG; split <;> rfl

/-- A scalar result with flags is what `WritesFlags` says. -/
theorem writes_resultF (s : State) (d : BitVec 6) (x : Nat × Flags) :
    WritesFlags s (.next (s.resultF d x)) d (BitVec.ofNat 64 x.1) x.2 := by
  refine ⟨_, rfl, ?_⟩
  rw [setG_raise]
  exact regWrite_setG _ _ _

theorem int2_writes {s : State} {d a b : BitVec 6} (h : s.thr.Fit {} { g := [d, a, b] }) (f : Word → Word → Word) :
    Writes s (s.int2 d a b f) d (f (s.thr.g a) (s.thr.g b)) := by
  rw [State.int2, checked_of_fit h]; exact writes_result _ _ _

theorem int1_writes {s : State} {d a : BitVec 6} (h : s.thr.Fit {} { g := [d, a] }) (f : Word → Word) :
    Writes s (s.int1 d a f) d (f (s.thr.g a)) := by
  rw [State.int1, checked_of_fit h]; exact writes_result _ _ _

theorem intImm_writes {s : State} {d a : BitVec 6} {i : BitVec 12} (h : s.thr.Fit { imm := true } { g := [d, a] })
    (f : Word → Word → Word) : Writes s (s.intImm d a i f) d (f (s.thr.g a) (s.thr.imm i)) := by
  rw [State.intImm, checked_of_fit h]; exact writes_result _ _ _

theorem intShift_writes {s : State} {d a n : BitVec 6} (h : s.thr.Fit {} { g := [d, a] }) (f : Word → Nat → Word) :
    Writes s (s.intShift d a n f) d (f (s.thr.g a) n.toNat) := by
  rw [State.intShift, checked_of_fit h]; exact writes_result _ _ _

theorem fp_writes {s : State} {l : List (BitVec 6)} (h : s.thr.Fit { mods := true } { g := l }) (d : BitVec 6)
    (x : Nat × Flags) : WritesFlags s (s.fp l d x) d (BitVec.ofNat 64 x.1) x.2 := by
  rw [State.fp, checked_of_fit h]; exact writes_resultF _ _ _

theorem fpExact_writes {s : State} {d a b : BitVec 6} (h : s.thr.Fit {} { g := [d, a, b] }) (x : Nat × Flags) :
    WritesFlags s (s.fpExact d a b x) d (BitVec.ofNat 64 x.1) x.2 := by
  rw [State.fpExact, checked_of_fit h]; exact writes_resultF _ _ _

/-- A scalar result changes nothing of the machine but the focus thread. -/
theorem writesAs_frame {s : State} {o : Out} {u : Thread} {d : BitVec 6} {x : Word} (h : WritesAs s o u d x) :
    ∃ t, o = .next t ∧ t = { s with thr := t.thr } ∧ t.mem = s.mem ∧ t.thr.pc = u.pc + 4 := by
  obtain ⟨t, rfl, ht, -⟩ := h
  exact ⟨_, rfl, rfl, rfl, by rw [ht]; rfl⟩

end Sys2Proof.Machine
end

