-- ==== Sys2Proof/Laws/Perform.lean ====
section
/-! SUPPORT. What performing an access does: stores, and accesses with nothing outstanding. -/

namespace Sys2Proof.Machine

/-! ### With nothing outstanding -/

/-- Nothing is left to be performed, so a word that must wait for earlier accesses goes on at once. -/
theorem drain_settled {s : State} (h : s.Settled) : s.drain = s := by
  simp [State.drain, State.drainThread, h.1, h.2.1]

/-- With no FENCE outstanding a load looks at the L1 as it stands. -/
theorem fenced_of_no_fence {s : State} (h : ∀ a ∈ s.thr.accs, ∀ p q, a ≠ .fence p q) : s.fenced = s := by
  unfold State.fenced
  rw [if_neg]
  simp only [List.any_eq_true, not_exists, not_and]
  intro a ha hf
  cases a with
  | fence p q => exact h _ ha p q rfl
  | _ => simp at hf

theorem fenced_settled {s : State} (h : s.Settled) : s.fenced = s := by
  unfold State.fenced
  split
  · exact drain_settled h
  · rfl

/-- No thread of the core owes a store to core scratch. -/
theorem scratchFirst_settled {s : State} (h : s.Settled) (rs : List (Nat × Nat)) : s.scratchFirst s.thr rs s.all = s := by
  have skip (us : List Thread) (hu : ∀ u ∈ us, u ∈ s.all) : s.scratchFirst s.thr rs us = s := by
    induction us with
    | nil => rfl
    | cons u r ih =>
      rw [State.scratchFirst, if_neg]
      · exact ih fun v hv => hu v (by simp [hv])
      · rcases List.mem_cons.1 (hu u (by simp)) with rfl | hm
        · simp
        · simp only [Bool.and_eq_true, List.any_eq_true, not_and, not_exists, beq_iff_eq]
          intro hk a ha hs
          have := h.2.2.2 u hm hk.2 a ha
          simp [this] at hs
  exact skip s.all fun _ h => h

theorem settle_settled {s : State} (h : s.Settled) (b : Bool) (ls : List Loc) : s.settle b ls = s := by
  simp [State.settle, State.settleFor, Thread.mustDrain, State.ownForward, scratchFirst_settled h, h.1, h.2.1]

/-- So does a release. -/
theorem releaseAt_settled {s : State} (h : s.Settled) (sc : Scope) (ls : List Loc) : s.releaseAt sc ls = s := by
  simp [State.releaseAt, settle_settled h, h.2.2.1, drain_settled h]

/-- An access is performed in its own turn. -/
theorem mayDefer_settled {s : State} (h : s.Settled) (ls : List Loc) : s.mayDefer ls = false := by
  simp [State.mayDefer, h.2.2.1]

theorem mayDeferStore_settled {s : State} (h : s.Settled) (ls : List Loc) : s.mayDeferStore ls = false := by
  simp [State.mayDeferStore, h.2.2.1]

/-! ### Going on -/

/-- Places that are ready let the word go on, once its tile holds their lines. -/
theorem ready_next {s : State} {e : Bool} {ls : List Loc} (h : s.ready s.thr e ls = .ok) (f : State → Out) (home : Bool) :
    s.whenReady e ls f home = f (s.took s.thr e ls home) := by
  simp [State.whenReady, h]

theorem found_ok {s : State} {x : Found} {ls : List Loc} (h : x = .ok ls) (f : List Loc → Out) : s.found x f = f ls := by
  subst h; rfl

/-- A check that fails traps and does nothing else. -/
theorem found_trap {s : State} {x : Found} {t : Trap} (h : x = .trap t) (f : List Loc → Out) : Traps s (s.found x f) t := by
  subst h; exact traps_takeTrap _ _

/-! ### Stores -/

/-- Memory after stores of parts: the parts are written in order. -/
theorem storePieces_mem (s : State) (t : Thread) (ps : List StorePiece) :
    (s.storePieces t ps).mem = ps.foldl (fun m p => m.writeBytes p.key p.bytes) s.mem := by
  induction ps generalizing s with
  | nil => rfl
  | cons p r ih =>
    rw [State.storePieces, ih]
    simp only [List.foldl_cons]
    congr 1
    unfold State.storePiece
    dsimp only
    split <;> split <;> first | rfl | exact (l1Only_forgetL1 ..).mem

/-- Stores of parts touch memory, its bad granules, the L1 of the core and the copies still to follow. -/
theorem storePieces_frame (s : State) (t : Thread) (ps : List StorePiece) :
    s.storePieces t ps = { s with
      mem := (s.storePieces t ps).mem
      bad := (s.storePieces t ps).bad
      cores := (s.storePieces t ps).cores
      forwards := (s.storePieces t ps).forwards } := by
  induction ps generalizing s with
  | nil => rfl
  | cons p r ih =>
    rw [State.storePieces, ih]
    have : s.storePiece t p = { s with
      mem := (s.storePiece t p).mem
      bad := (s.storePiece t p).bad
      cores := (s.storePiece t p).cores
      forwards := (s.storePiece t p).forwards } := by
      unfold State.storePiece
      dsimp only
      split <;> split <;> first | rfl | (rw [(l1Only_forgetL1 ..).1]; rfl)
    rw [this]

/-- Marking what a store wrote touches the lines of peers and the halves of hosts. -/
theorem dirtied_frame (s : State) (ls : List Loc) :
    s.dirtied ls = { s with halves := (s.dirtied ls).halves, remote := (s.dirtied ls).remote } := by
  induction ls generalizing s with
  | nil => rfl
  | cons l r ih =>
    rw [State.dirtied]
    split
    · exact ih s
    · split <;> rw [ih]

/-- A byte after the parts of a store: what the store leaves there, or what was there. -/
theorem read_storeParts (ls : List Loc) (bs : List Byte) (m : Memory) (k : Nat) :
    Memory.read ((storeParts ls bs).foldl (fun m p => m.writeBytes p.key p.bytes) m) k = (storedAt ls bs k).getD (m.read k) := by
  induction ls generalizing bs m with
  | nil => rfl
  | cons l r ih =>
    simp only [storeParts, List.foldl_cons, storedAt]
    rw [ih]
    cases h : storedAt r (bs.drop l.n) k with
    | some b => simp
    | none =>
      simp only [Option.getD_none]
      rw [read_writeBytes]
      by_cases h1 : l.key ≤ k ∧ k < l.key + l.n
      · rw [if_pos h1]
        by_cases h2 : k < l.key + (bs.take l.n).length
        · rw [if_pos ⟨h1.1, h2⟩, List.getD_eq_getElem?_getD]
          have : k - l.key < (bs.take l.n).length := by omega
          simp [List.getElem?_eq_getElem this]
        · rw [if_neg (by omega), List.getElem?_eq_none (by omega)]; rfl
      · rw [if_neg h1, if_neg]
        · rfl
        · rw [List.length_take]; omega

/-- A store leaves its bytes at its places and every other byte as it was. -/
theorem storeNow_stored (s : State) (ls : List Loc) (bs : List Byte) :
    Stored s (s.storeNow ls bs) ls bs := by
  intro k
  rw [State.storeNow, dirtied_frame]
  simp only
  rw [storePieces_mem, read_storeParts]

/-- A store changes nothing of the machine but what `StoreFrame` names, and no thread. -/
theorem storeNow_frame (s : State) (ls : List Loc) (bs : List Byte) :
    s.storeNow ls bs = { s with
      mem := (s.storeNow ls bs).mem
      bad := (s.storeNow ls bs).bad
      cores := (s.storeNow ls bs).cores
      forwards := (s.storeNow ls bs).forwards
      halves := (s.storeNow ls bs).halves
      remote := (s.storeNow ls bs).remote } := by
  rw [State.storeNow, dirtied_frame, storePieces_frame]

/-! ### Loads -/

/-- A load leaves the focus thread as it was until its register is written. -/
theorem L1Only.thr {n : Nat} {s t : State} (h : L1Only n s t) : t.thr = s.thr := by rw [h.1]

/-- With nothing outstanding an acquire leaves the thread's record. -/
theorem acquire_settled {s : State} (h : s.Settled) (c : Scope) : s.acquire c = s.acquireFor s.thr c := by
  have e := (l1Only_acquireFor s s.thr c).1
  have e1 : (s.acquireFor s.thr c).thr = s.thr := by rw [e]
  have e2 : (s.acquireFor s.thr c).forwards = s.forwards := by rw [e]
  simp [State.acquire, State.refetch, e1, e2, h.1, h.2.1]

/-- A plain load with nothing outstanding writes the bytes of the L1 line that holds them, or of memory, in the state `s` that its
tile comes to from `a` when it takes the lines; the lines that it brings hold the bytes of memory. -/
theorem loadFrom_reads {a s : State} {w : Who} {ls : List Loc} (hc : Cached a s) (hw : w.here = s.thr.cur) (h : s.Settled)
    (hi : s.noteImages w.scsz ls = s) (he : s.emptyLines ls = []) (va : Word) (n : Nat) (sext : Bool) (d : BitVec 6) :
    Reads a (.next (s.loadFrom w va n sext d ls)) d (loaded sext n (ofBytes ((s.l1Bytes w va.toNat n ls).getD (s.readLocs ls)))) := by
  unfold State.loadFrom
  simp only [hi, he, ne_eq, not_true_eq_false, if_false, mayDefer_settled h, Bool.and_false, Bool.false_eq_true,
    settle_settled h]
  generalize hu : (if (s.l1Bytes w va.toNat n ls).isSome = true then s
    else (s.forgetL1 (posCore w.here) (locRanges ls)).fillFrom w ls) = u
  have k : L1Only (posCore a.thr.cur) s u := by
    rw [← hu, ← hc.thr, ← hw]
    split
    · exact .refl _ s
    · exact (l1Only_forgetL1 ..).trans (l1Only_fillFrom ..)
  obtain ⟨e, f, g⟩ := kept_filled hc k
  have hu : u.thr = a.thr := k.thr.trans hc.thr
  refine ⟨⟨_, rfl, ?_, f, ?_⟩, fun t ht => ?_⟩
  · simp only [State.put]; rw [e]; rfl
  · rw [put_thr, hu]; exact regWrite_setG a.thr d _
  · cases ht; exact g

/-! ### Probes on their way to an L1 -/

/-- A probe that was forwarded has changed no line yet. -/
theorem forwardProbe_frame (s : State) (key n : Nat) : s.forwardProbe key n = { s with cores := (s.forwardProbe key n).cores } := rfl

/-- One that reaches its L1 takes the lines that it names. -/
theorem takeProbes_gone (c : Core) : ∀ l ∈ c.takeProbes.l1, rangesMeet [(l.key, 128)] c.probes = false := by
  intro l h
  simpa using (List.mem_filter.1 h).2

end Sys2Proof.Machine
end

