-- ==== Sys2Proof/Tests/Slice0.lean ====
section
/-! SUPPORT. Tests: words decoded, results that the spec works out, and states that meet the hypotheses of the statements. -/

open Sys2Proof.Machine

namespace Sys2Proof.Tests

set_option Elab.async false
set_option maxRecDepth 100000

/-! ### Small states -/

/-- One privileged thread about to issue at 2 MiB, every view there, every address at itself. -/
def base : State := State.reset.placeWord 0

/-- Scalar register `n` of the focus thread holds `x`. -/
def sg (s : State) (n : BitVec 6) (x : Word) : State := { s with thr := s.thr.setG n x }

/-- Register bytes of the focus thread from `a` are `x`, `n` bytes. -/
def sr (s : State) (a n x : Nat) : State := { s with thr := { s.thr with regs := s.thr.regs.writeNum a n x } }

/-- Memory at `a` holds the `n` bytes `x`. -/
def sm (s : State) (a n x : Nat) : State := { s with mem := s.mem.writeNum a n x }

/-- The focus thread with another record. -/
def th (s : State) (f : Thread → Thread) : State := { s with thr := f s.thr }

/-- What an outcome's state says. -/
def at_ {α : Type} [Inhabited α] (o : Out) (f : State → α) : α :=
  match o with
  | .next t => f t
  | _ => default

/-- The place of `n` bytes of the page that maps each address to itself. -/
def home (a n : Nat) : Loc := { va := a, n := n, key := a, entry := 11, level := 2 }

/-! ### Well-formed words -/

/-- R228: with `self`, device bits must be zero. -/
theorem test_pfxv_self_dev_ill_formed : ¬ (Instr.pfxv true 0x200#21).WellFormed := by decide

theorem test_pfxv_self_well_formed : (Instr.pfxv true 0x188#21).WellFormed := by decide

/-! ### Words written out from the spec's encodings -/

/-- The spec's chapter on encoding: `ADD g3, g1, g2`. -/
theorem test_decode_add : decode 0x010C1080 = .ok (.add 3 1 2) := rfl
theorem test_decode_addi : decode 0x20145FFF = .ok (.addi 5 5 (-1)) := rfl
theorem test_decode_fadd : decode 0x300C1081 = .ok (.fadd 3 1 2 .rtz) := rfl
theorem test_decode_vadd : decode 0x8008310C = .ok (.vadd 2 3 4 1 true) := rfl
theorem test_decode_ldw : decode 0x54144000 = .ok (.ldw 5 4 0) := rfl
theorem test_decode_pfxv : decode 0xF1800188 = .ok (.pfxv true 0x188) := rfl
theorem test_decode_yield : decode 0xF5000001 = .ok .yield := rfl
theorem test_decode_pfxs : decode 0xF3000005 = .ok (.pfxs .sys) := rfl
theorem test_decode_lda : decode 0x5B144000 = .ok (.lda 5 4 .d8 0) := rfl
theorem test_decode_beq : decode 0x40140FFD = .ok (.beq 5 0 (-3)) := rfl
theorem test_encode_beq : encode (.beq 5 0 (-3)) = 0x40140FFD := by decide

/-- Example words of the spec's instruction tables. -/
theorem test_decode_integer : decode 0x190C1000 = .ok (.clz 3 1) ∧ decode 0x1C0C1100 = .ok (.bfx 3 1 4) ∧
    decode 0x270C1FF1 = .ok (.slti 3 1 (-15)) ∧ decode 0x250C103C = .ok (.shri 3 1 60) ∧
    decode 0xF0FFFFFE = .ok (.pfxi 0xFFFFFE) ∧ decode 0x070C1080 = .ok (.divz 3 1 2) :=
  ⟨rfl, rfl, rfl, rfl, rfl, rfl⟩

theorem test_decode_float : decode 0x380C2000 = .ok (.frcp 3 2 .rne) ∧ decode 0x3D0C1000 = .ok (.fcvti 3 1 .s32 .rne) ∧
    decode 0x3F0C2010 = .ok (.fcvtn 3 2 .e4m3 .rne) ∧ decode 0x3F0C6030 = .ok (.fcvtnUp 3 6 .e4m3 .rne) ∧
    decode 0xF400001A = .ok (.pfxm .sat (some .rup)) :=
  ⟨rfl, rfl, rfl, rfl, rfl⟩

theorem test_decode_control : decode 0x4104_2004 = .ok (.bne 1 2 4) ∧ decode 0x46FC_0040 = .ok (.jal 63 64) ∧
    decode 0x47FC_5008 = .ok (.jalr 63 5 8) ∧ decode 0x4800_0012 = .ok (.trapInsn 0x12) ∧ decode 0x4900_0007 = .ok (.brk 7) ∧
    decode 0x4A00_0000 = .ok .exit ∧ decode 0xF5002802 = .ok (.hintStall 40) ∧ decode 0xF5000403 = .ok (.hintPrio 4) :=
  ⟨rfl, rfl, rfl, rfl, rfl, rfl, rfl, rfl⟩

theorem test_decode_memory : decode 0x5B14_4802 = .ok (.lda 5 4 .h2 2) ∧ decode 0x6114_4408 = .ok (.stf 5 4 .w4 8) ∧
    decode 0x6200_4181 = .ok (.fest 4 6 .keep .set) ∧ decode 0x6304_4100 = .ok (.pref .tile 4 256) ∧
    decode 0x5D14_4198 = .ok (.amow 5 4 6 .acq .swap) ∧ decode 0x5E14_41B9 = .ok (.amod 5 4 6 .ar .cas) :=
  ⟨rfl, rfl, rfl, rfl, rfl, rfl⟩

theorem test_decode_sync : decode 0x7114_4180 = .ok (.arw 5 4 6) ∧ decode 0x7214_4180 = .ok (.await 5 4 6) ∧
    decode 0x7314_4180 = .ok (.prop 5 4 6) ∧ decode 0x7414_4181 = .ok (.crd 5 4 6 true) ∧ decode 0x7500_4180 = .ok (.crcy 4 6) ∧
    decode 0x7614_0001 = .ok (.pos 5 .cur) ∧ decode 0x7714_0010 = .ok (.idx 5 (.inst 0)) ∧ decode 0x7800_5001 = .ok (.migr 5 true) ∧
    decode 0xF180_0188 = .ok (.pfxv true 0x188) :=
  ⟨rfl, rfl, rfl, rfl, rfl, rfl, rfl, rfl, rfl⟩

theorem test_decode_vector : decode 0x8608_3000 = .ok (.vabs 2 3 0 false) ∧ decode 0x8E04_3100 = .ok (.vcmplt 1 3 4 0 false) ∧
    decode 0x9008_3108 = .ok (.vsel 2 3 4 1 false) ∧ decode 0x9408_30C2 = .ok (.vcvt 2 3 .e4m3 0 false .b32) ∧
    decode 0x9508_3101 = .ok (.vred 2 3 4 0 false .min) ∧ decode 0x9708_3141 = .ok (.vbcstEl 2 3 5 0 false) ∧
    decode 0x9B08_3141 = .ok (.vslideUp 2 3 5 0 false) ∧ decode 0x9D08_3008 = .ok (.vpopc 2 3 1) ∧
    decode 0x9F14_6002 = .ok (.vcfg 5 6 .f16) :=
  ⟨rfl, rfl, rfl, rfl, rfl, rfl, rfl, rfl, rfl⟩

theorem test_decode_vector_memory : decode 0xA008_4088 = .ok (.vld 2 4 2 1 false) ∧ decode 0xA308_4140 = .ok (.vsts 2 4 5 0 false) ∧
    decode 0xA408_4148 = .ok (.vgth 2 4 5 1 false) ∧ decode 0xB004_6180 = .ok (.tld 1 6 3) ∧ decode 0xB104_6180 = .ok (.tst 1 6 3) ∧
    decode 0xB200_4180 = .ok (.lreg 4 3) ∧ decode 0xB300_0180 = .ok (.lfree 3) ∧ decode 0xB408_0180 = .ok (.lqry 2 3) :=
  ⟨rfl, rfl, rfl, rfl, rfl, rfl, rfl, rfl⟩

theorem test_decode_matrix : decode 0xC000_4010 = .ok (.mclaim 4 1) ∧ decode 0xC100_0010 = .ok (.mfree 1) ∧
    decode 0xC214_61C0 = .ok (.mldw 5 6 7) ∧ decode 0xC514_61D0 = .ok (.mmae 5 6 7 1) ∧ decode 0xC708_6010 = .ok (.mread 2 6 1) ∧
    decode 0xCB14_0002 = .ok (.mmode 5 true false) ∧ decode 0xD014_6001 = .ok (.copy 5 6 .q1) ∧
    decode 0xD300_0011 = .ok (.qfence 0x11) ∧ decode 0xD414_000C = .ok (.qseq 5 .done .q4) :=
  ⟨rfl, rfl, rfl, rfl, rfl, rfl, rfl, rfl, rfl⟩

theorem test_decode_system : decode 0xE014_0002 = .ok (.mfsr 5 2) ∧ decode 0xE100_6149 = .ok (.mtsr 6 0x149) ∧
    decode 0xE214_61C0 = .ok (.xinv 5 6 7) ∧ decode 0xE314_61C5 = .ok (.ctlPark 5 6 7) ∧ decode 0xE408_6000 = .ok (.trq 2 6) ∧
    decode 0xE514_61C0 = .ok (.tret 5 6 7) ∧ decode 0xE814_6001 = .ok (.haltRel 5 6) ∧ decode 0xE914_6010 = .ok (.mresume 5 6 1) :=
  ⟨rfl, rfl, rfl, rfl, rfl, rfl, rfl, rfl⟩

/-! ### Results that the spec works out -/

/-- What the instruction of a word makes of a state. -/
def does {α : Type} [Inhabited α] (s : State) (w : Ins) (f : State → α) : α :=
  match decode w with
  | .ok i => at_ (exec i s) f
  | .error _ => default

/-- g3 after each word. -/
def g3After (s : State) (l : List (Ins × Word)) : Bool := l.all (fun p => does s p.1 (fun t => t.thr.g 3 == p.2))

/-- The registers of the examples of R183. -/
def ints : State := sg (sg (sg base 1 (-16)) 2 5) 4 0x802

/-- R183's table. -/
theorem test_integer_examples : g3After ints [(0x010C1080, 0xFFFFFFFFFFFFFFF5), (0x020C1080, 0xFFFFFFFFFFFFFFEB),
    (0x030C1080, 0xFFFFFFFFFFFFFFB0), (0x040C1080, 0xFFFFFFFFFFFFFFFF), (0x050C1080, 4), (0x060C1080, 0xFFFFFFFFFFFFFFFD),
    (0x070C1080, 0x3333333333333330), (0x080C1080, 0xFFFFFFFFFFFFFFFF), (0x090C1080, 0), (0x0A0C1080, 0),
    (0x0B0C1080, 0xFFFFFFFFFFFFFFF5), (0x0C0C1080, 0xFFFFFFFFFFFFFFF5), (0x0D0C1080, 0xFFFFFFFFFFFFFFF0),
    (0x0E0C1080, 0xFFFFFFFFFFFFFE00), (0x0F0C1080, 0x07FFFFFFFFFFFFFF), (0x100C1080, 0xFFFFFFFFFFFFFFFF)] = true := by
  decide +kernel

theorem test_integer_examples_more : g3After ints [(0x110C1080, 0xFFFFFFFFFFFFFE1F), (0x120C1080, 0xFFFFFFFFFFFFFFF0),
    (0x130C1080, 5), (0x140C1080, 5), (0x150C1080, 0xFFFFFFFFFFFFFFF0), (0x160C1080, 1), (0x170C1080, 0), (0x180C1080, 0),
    (0x190C1000, 0), (0x1A0C1000, 4), (0x1B0C1000, 60), (0x1C0C1100, 0xFFFFFFFFFFFFFFFC), (0x1D0C1100, 0xFC),
    (0x1E0C1100, 0x3C0), (0x1F0C1080, 5)] = true := by
  decide +kernel

/-- R186's table. -/
theorem test_immediate_examples : g3After ints [(0x200C1064, 0x54), (0x210C10FF, 0xF0), (0x220C1003, 0xFFFFFFFFFFFFFFF3),
    (0x230C1FFF, 0xF), (0x240C1004, 0xFFFFFFFFFFFFFF00), (0x250C103C, 0xF), (0x260C1002, 0xFFFFFFFFFFFFFFFC), (0x270C1FF1, 1),
    (0x280C1FF1, 1)] = true := by
  decide +kernel

/-- R186: ADDI g3, g1, -5000 in two words. -/
theorem test_wide_immediate : does ints 0xF0FFFFFE (fun t => does t 0x200C1C78 (fun u => u.thr.g 3)) = 0xFFFFFFFFFFFFEC68 := by
  decide +kernel

/-- The registers of the examples of R188. -/
def floats : State := sg (sg (sg (sg (sg (sg base 1 0x3FC00000) 2 0x40200000) 3 0x3F800000) 4 0x40100000) 5 (-3)) 6 0x42

/-- g3 and the flags after each word. -/
def g3AndFlags (s : State) (l : List (Ins × Word × Flags)) : Bool :=
  l.all (fun p => does s p.1 (fun t => t.thr.g 3 == p.2.1 && t.thr.fpst == p.2.2.setWidth 64))

/-- The tables of R188 to R191. -/
theorem test_float_examples : g3AndFlags floats [(0x300C1080, 0x40800000, 0), (0x310C1080, 0xBF800000, 0),
    (0x320C1080, 0x40700000, 0), (0x330C1080, 0x40980000, 0), (0x360C1080, 0x3F19999A, fNX), (0x370C4000, 0x3FC00000, 0),
    (0x380C2000, 0x3ECCD000, fNX), (0x390C4000, 0x3F2AB000, fNX), (0x340C1080, 0x3FC00000, 0), (0x350C1080, 0x40200000, 0),
    (0x3A0C1080, 1, 0), (0x3B0C1080, 1, 0), (0x3C0C1080, 0, 0), (0x3D0C1000, 2, fNX), (0x3E0C5000, 0xC0400000, 0),
    (0x3F0C2010, 0x42, 0), (0x3F0C6030, 0x40200000, 0)] = true := by
  decide +kernel

/-- R197: the largest finite number twice, rounded up, saturated, and saturated toward zero. -/
theorem test_saturating_sum :
    let s := sg (sg base 1 0x7F7FFFFF) 2 0x7F7FFFFF
    let two (p : Ins) : Word × Word := does s p (fun t => does t 0x300C1082 (fun u => (u.thr.g 3, u.thr.fpst)))
    g3AndFlags s [(0x300C1082, 0x7F800000, fOF ||| fNX)] = true ∧
    two 0xF4000010 = (0x7F7FFFFF, (fOF ||| fNX ||| fSAT).setWidth 64) ∧
    two 0xF4000019 = (0x7F7FFFFF, (fOF ||| fNX).setWidth 64) := by
  decide +kernel

/-- The worked conversions of 0x4134_CCCD: BF16, FP16, E4M3, E5M2. -/
theorem test_narrowing : [FFmt.bf16, .f16, .e4m3, .e5m2].map (fun f => FFmt.f32.convert f .rne .dflt 0x4134CCCD) =
    [(0x4135, fNX), (0x49A6, fNX), (0x53, fNX), (0x4A, fNX)] := by
  decide +kernel

/-- R192, R193: the examples at the address of the state's word. -/
theorem test_control_examples :
    [(0x40042004, 4), (0x41042004, 16), (0x42042004, 16), (0x43042004, 4), (0x44042004, 4), (0x45042004, 16),
      (0x46FC0040, 0x100)].all (fun (p : Ins × Word) => does ints p.1 (fun t => t.thr.pc == base.thr.pc + p.2)) = true ∧
    does (sg base 5 0x1000) 0x47FC5008 (fun t => (t.thr.pc, t.thr.g 63)) = (0x1008, base.thr.pc + 4) := by
  decide +kernel

/-- R194: TRAP 0x12 traps past itself. -/
theorem test_trap_example : does base 0x48000012 (fun t => (t.thr.pc, t.thr.trpc, t.thr.trclass, t.thr.trinfo)) =
    (0x200004, 0x200000, 13, 0x12) := by
  decide +kernel

/-- The base and data of the examples of R205. -/
def loads : State := sg (sg (sm base 0x300008 8 0x112233448899AAF0) 4 0x300000) 5 0x0102030405060708

/-- R205's loads, and its stores. -/
theorem test_load_examples : [(0x50144008, 0xFFFFFFFFFFFFFFF0), (0x51144008, 0xF0), (0x52144008, 0xFFFFFFFFFFFFAAF0),
    (0x53144008, 0xAAF0), (0x54144008, 0xFFFFFFFF8899AAF0), (0x55144008, 0x8899AAF0), (0x56144008, 0x112233448899AAF0)].all
    (fun (p : Ins × Word) => does loads p.1 (fun t => t.thr.g 5 == p.2)) = true := by
  decide +kernel

theorem test_store_examples : [(0x57144008, 0x112233448899AA08), (0x58144008, 0x1122334488990708), (0x59144008, 0x1122334405060708),
    (0x5A144008, 0x0102030405060708)].all (fun (p : Ins × Nat) =>
      does loads p.1 (fun t => t.mem.readNum 0x300008 8 == p.2 && t.mem.readNum 0x300010 8 == 0)) = true := by
  decide +kernel

/-- The word and the registers of the examples of R213. -/
def atoms : State := sg (sg (sg (sm base 0x300000 4 0xFFFFFFF0) 4 0x300000) 6 5) 5 0xFFFFFFFFFFFFFFF0

/-- R213's examples: memory after, and the old value in g5. -/
theorem test_atomic_examples : [(0x5D144180, 0xFFFFFFF5), (0x5D144181, 0), (0x5D144182, 0xFFFFFFF5), (0x5D144183, 0xFFFFFFF5),
    (0x5D144184, 0xFFFFFFF0), (0x5D144185, 5), (0x5D144186, 5), (0x5D144187, 0xFFFFFFF0), (0x5D144198, 5), (0x5D144189, 5)].all
    (fun (p : Ins × Nat) =>
      does atoms p.1 (fun t => t.mem.readNum 0x300000 4 == p.2 && t.thr.g 5 == 0xFFFFFFFFFFFFFFF0)) = true := by
  decide +kernel

theorem test_atomic_fadd : does (sg (sm atoms 0x300000 4 0x3FC00000) 6 0x40200000) 0x5D14418A
    (fun t => (t.mem.readNum 0x300000 4, t.thr.g 5)) = (0x40800000, 0x3FC00000) := by
  decide +kernel

/-- R220: GEN 3 has reached 1. R219: two arrivals at TARGET 2 raise GEN. -/
theorem test_arrival_examples :
    does (sg (sg (sm base 0x300000 16 (3 * 2 ^ 64)) 4 0x300000) 6 1) 0x72144180 (fun t => t.thr.g 5) = 3 ∧
    does (sg (sg (sm base 0x300000 16 (2 + 1 * 2 ^ 32 + 6 * 2 ^ 64)) 4 0x300000) 6 1) 0x71144180
      (fun t => (t.thr.g 5, t.mem.readNum 0x300000 16)) = (7, 2 + 7 * 2 ^ 64) := by
  decide +kernel

/-- With a page of crust cells, kind ONCE with the steward right, at 2 ^ 43: the cell at g4 has the bytes at 3 MiB. -/
def onces : State := sg (sm base (0x100000 + 16) 16 (0xB + 2 ^ 65 + 3 * 2 ^ 67)) 4 (2 ^ 43 + 0x300000)

/-- Steps 1, 2, 4 and 7 of the spec's two rounds of one cell: won, lost, recycled, stale from the home. -/
theorem test_cell_rounds :
    let a : State := th (sg onces 5 7) (fun t => { t with cur := 0x80 * 2 ^ 11 })
    let b (g5 g6 : Word) (t : State) : State := sg (sg (th t (fun t => { t with cur := 0x14E * 2 ^ 11 })) 5 g5) 6 g6
    does a 0x73144180 (fun t => (t.thr.g 5, t.thr.g 6, does (b 9 0 t) 0x73144180 (fun u => (u.thr.g 5, u.thr.g 6)),
      does (b 0 0 t) 0x75004180 (fun u => (u.thr.g 6, does (b 9 1 u) 0x73144180 (fun v => (v.thr.g 5, v.thr.g 6)))))) =
    (7, 0x02000000, (7, 0x02010000), (1, (9, 0x05380001))) := by
  decide +kernel

/-- R226: x = 299 in levels of 8, 4, 32. -/
theorem test_idx_examples :
    let r := BitVec.ofNat 2048 (2 * 2 ^ 328 + 8 * 2 ^ 1024 + 4 * 2 ^ 1088 + 32 * 2 ^ 1152)
    let s := th { base with launches := [{ id := 1, space := 1, origin := 0, record := r : Launch }] } (fun t => { t with index := 299 })
    [(0x77140001, 1), (0x77140009, 4), (0x77140010, 37), (0x77140018, 299)].all
      (fun (p : Ins × Word) => does s p.1 (fun t => t.thr.g 5 == p.2)) = true := by
  decide +kernel

/-- R234: VCFG.f16 g5, g6 with g6 = 300. -/
theorem test_vcfg_example : does (sg base 6 300) 0x9F146002 (fun t => (t.thr.g 5, t.thr.vl, t.thr.vtype)) = (128, 128, 0x8002) := by
  decide +kernel

/-- Elements of a vector register. -/
def sv (s : State) (v : BitVec 6) (size : Nat) (l : List Nat) : State :=
  sr s (s.thr.vOff v) (size * l.length) (pack (l.map (fun x => (8 * size, x))))

/-- R236: 16-bit sums of 30,000 and 10,000, wrapped, and saturated under PFXM sat; three elements of the example's 100. -/
theorem test_vadd_example :
    let s := th (sv (sv (sv base 3 2 (List.replicate 4 30000)) 4 2 (List.replicate 4 10000)) 1 1 [0xFF])
      (fun t => { t with vtype := 3 * 256 + 6 })
    s.thr.ety = .s16 ∧ does s 0x8008310C (fun t => (t.thr.element 2 2 0, t.thr.element 2 2 2)) = (0x9C40, 0x9C40) ∧
    does s 0xF4000010 (fun t => does t 0x8008310C (fun u => u.thr.element 2 2 2)) = 0x7FFF := by
  decide +kernel

/-- R240: the tree of six FP32 elements. -/
theorem test_vred_example :
    let s := th (sv base 3 4 [0x3F800000, 0x33800000, 0x33800000, 0x33800000, 0x33800000, 0xBF800000])
      (fun t => { t with vtype := 6 * 256 })
    does s 0x95083100 (fun t => (t.thr.element 2 4 0, t.thr.fpst)) = (0x34400000, fNX.setWidth 64) := by
  decide +kernel

/-- R113: four elements 1.1 to E4M3 with error feedback. -/
theorem test_feedback_example :
    let s := th (sv base 3 4 (List.replicate 4 0x3F8CCCCD)) (fun t => { t with vtype := 4 * 256 })
    does s 0x940830C2 (fun t => (upto 0 4).map (fun i => t.thr.element 2 1 i)) = [0x39, 0x39, 0x38, 0x39] := by
  decide +kernel

/-- The example of R265: row 5, quarter 2. -/
def claimed : State :=
  let s := th base (fun t => { t with claims := [{ name := 1, area := 0x400000, phys := some (0, 0) : Claim }] })
  s.setTile 0 ((s.tile 0).setSlot 0 { accstat := 0x40000000, owner := some (⟨1, 0⟩, 1) })

theorem test_mread_example :
    let m := Memory.writeNum [] (1024 * 5 + 4 * 128) 4 0x3F800000
    let x := claimed.tile 0
    let s := claimed.setTile 0 (x.setSlot 0 { x.slot 0 with data := m })
    does (sg s 6 0x105) 0xC7086010 (fun t => (t.thr.element 2 4 0, t.thr.element 2 4 1)) = (0x3F800000, 0) := by
  decide +kernel

/-- R268: MMODE g5, stable, noftz. -/
theorem test_mmode_example : does base 0xCB140002 (fun t => (t.thr.g 5, t.thr.order, t.thr.ftz16)) = (0, true, false) := by
  decide +kernel

/-! ### States that meet the hypotheses of the statements -/

/-- A thread in the middle of a group. -/
def inGroup (s : State) (g : Group) : State := th s (fun t => { t with group := { g with len := 1 } })

/-- A thread with 16 scalar registers and no other view. -/
def few : State := th base (fun t => { t with gcount := 16, vcount := 0, tbase := 0xFF })

/-- A thread of a user program. -/
def user : State := th base (fun t => { t with priv := false })

theorem witness_IntegerWordsWriteTheirResults : base.thr.Fit {} { g := [63, 0, 1] } ∧ base.thr.g 1 = 0 ∧
    ints.thr.Fit {} { g := [3, 1, 2] } ∧ ints.thr.g 2 ≠ 0 ∧ ints.thr.Fit {} { g := [3, 1] } := by
  simp only [Thread.Fit]; decide +kernel

theorem witness_ImmediateWordsWriteTheirResults : base.thr.Fit { imm := true } { g := [63, 0] } ∧
    (inGroup base { imm := some (-1) }).thr.Fit { imm := true } { g := [0, 63] } ∧ base.thr.Fit {} { g := [1, 2] } := by
  simp only [Thread.Fit]; decide +kernel

theorem witness_FloatArithmeticWritesItsResult : floats.thr.Fit { mods := true } { g := [3, 1, 2] } ∧
    (inGroup floats { mods := some (.sat, some .rtz) }).thr.Fit { mods := true } { g := [0, 63, 2] } ∧
    floats.thr.Fit { mods := true } { g := [3, 4] } := by
  simp only [Thread.Fit]; decide +kernel

theorem witness_FloatSelectionsAndConversions :
    let s := sg floats 7 0x7F800001
    s.thr.Fit {} { g := [3, 7, 2] } ∧ s.thr.fval 7 = .nan true ∧ s.thr.Fit { mods := true } { g := [3, 7] } ∧
      (s.thr.fval 7).isNan = true := by
  simp only [Thread.Fit]; decide +kernel

/-- The least `k`, at a tie. -/
theorem witness_RoundingGoesWhereTheModeSays : (0 < 1) ∧ roundAt .rne false 3 0 false (0 + (1 : Nat)) = (2, true) ∧
    roundAt .rne false 1 0 false (0 + (1 : Nat)) = (0, true) ∧ roundAt .rup false 1 0 false (0 + (1 : Nat)) = (1, true) := by
  decide +kernel

theorem witness_BranchesAndJumpsGoWhereTheySay : ints.thr.FitControl { g := [1, 2] } ∧ ints.thr.g 1 ≠ ints.thr.g 2 ∧
    ints.thr.FitControl { g := [2, 2] } ∧ (sg base 5 0x1000).thr.FitControl { g := [63, 5] } ∧
    ((sg base 5 0x1000).thr.g 5 + (8 : BitVec 12).signExtend 64).toNat % 4 = 0 ∧
    ((sg base 5 0x1000).thr.g 5 + (3 : BitVec 12).signExtend 64).toNat % 4 ≠ 0 := by
  simp only [Thread.FitControl]; decide +kernel

/-- A launch of two threads, whose first is the focus thread. -/
def two : State :=
  { base with launches := base.launches.map (fun l => { l with record := l.record + BitVec.ofNat 2048 (2 ^ 1024) }) }

theorem witness_TrapBreakAndExit : two.thr.FitControl {} ∧ two.Settled ∧ two.thr.claims = [] ∧ two.quiet two.thr = true ∧
    (∃ l, two.launch? two.thr.key.launch = some l ∧
      (({ l with done := 0 :: l.done.filter (fun y => y != 0) } : Launch).skipTo l.nextIndex).allDone two.dev = false ∧
      l.spans = false ∧ l.guest = false) ∧
    two.headerPlace two.thr = some 0x400000 ∧ two.ctxReady two.thr true (two.thr.ctx.toNat, 256) = .ok ∧
    (two.took two.thr true (two.ctxLocs two.thr (two.thr.ctxBytes [])) true).headerPlace two.thr = some 0x400000 ∧
    two.pins = [] ∧ (∀ u ∈ two.threads, u.state ≠ .parked) := by
  simp only [Thread.FitControl, State.Settled]
  constructorm* _ ∧ _ <;> decide +kernel

theorem witness_PrefixesJoinTheGroup : base.thr.group.imm = none ∧ base.thr.hasG 63 = true ∧
    (inGroup base { imm := some 5 }).thr.group.view = none := by
  decide +kernel

theorem witness_UnfitWordsTrap : (inGroup base { imm := some 1 }).thr.group.imm ≠ none ∧
    (inGroup base { view := some (.pos false 0) }).thr.group.view ≠ none ∧ (inGroup base { scope := some .sys }).thr.group.scope ≠ none ∧
    (inGroup base { mods := some (.sat, none) }).thr.group.mods ≠ none ∧
    (th base (fun t => { t with afterHint := true })).thr.group.len = 0 ∧ few.thr.group = {} ∧ few.thr.afterHint = false ∧
    few.thr.gcount.toNat ≤ (16 : BitVec 6).toNat ∧ few.thr.vcount.toNat ≤ (0 : BitVec 6).toNat ∧ few.thr.tbase = 0xFF ∧
    few.thr.sup = true := by
  decide +kernel

theorem witness_HintsActAndGoOn : base.thr.group.len = 0 := by decide +kernel

/-- A line of an L1 whose page is not mapped. -/
def oldLine : L1Line := { space := loads.thr.space, va := 2 ^ 43, dom := none, repl := false, pos := 0, key := 0x300000, data := List.replicate 128 7 }

/-- The L1 has that line, of which memory holds other bytes. -/
def lined : State :=
  sg (loads.setCore (posCore loads.thr.cur) { loads.core (posCore loads.thr.cur) with l1 := [oldLine] }) 4 (2 ^ 43)

theorem witness_LoadsWriteTheBytes : loads.thr.Fit { imm := true, view := true } { g := [5, 4] } ∧ loads.Settled ∧
    [1, 2, 4, 8].all (fun n =>
      loads.loadAccess (loads.who loads.thr loads.thr.view) (loads.thr.g 4 + loads.thr.imm 8) n 1 == .ok [home 0x300008 n] &&
      loads.ready loads.thr false [home 0x300008 n] == .ok && loads.emptyLines [home 0x300008 n] == []) = true ∧
    loads.noteImages (loads.who loads.thr loads.thr.view).scsz [home 0x300008 8] = loads ∧
    lined.thr.Fit { imm := true, view := true } { g := [5, 4] } ∧ lined.Settled ∧
    lined.l1Hit (lined.who lined.thr lined.thr.view) (2 ^ 43) 8 = some (List.replicate 8 7) ∧
    (lined.loadAccess (lined.who lined.thr lined.thr.view) (lined.thr.g 4 + lined.thr.imm 0) 8 1 ==
      .ok [oldLine.place (2 ^ 43) 8]) = true ∧ (oldLine.place (2 ^ 43) 8).win = none ∧
    lined.noteImages (lined.who lined.thr lined.thr.view).scsz [oldLine.place (2 ^ 43) 8] = lined ∧
    lined.emptyLines [oldLine.place (2 ^ 43) 8] = [] := by
  simp only [Thread.Fit, State.Settled]; decide +kernel

theorem witness_StoresPutTheBytes : loads.thr.Fit { imm := true, view := true } { g := [0, 4] } ∧ loads.Settled ∧
    [1, 2, 4, 8].all (fun n => loads.access (loads.who loads.thr loads.thr.view) .store (loads.thr.g 4 + loads.thr.imm 8) n 1 ==
      .ok [home 0x300008 n] && loads.ready loads.thr true [home 0x300008 n] == .ok) = true ∧
    loads.noteImages (loads.who loads.thr loads.thr.view).scsz [home 0x300008 8] = loads := by
  simp only [Thread.Fit, State.Settled]; decide +kernel

/-- An address above bit 56, one past the last mapped page, and unaligned ones. -/
theorem witness_FailedChecksTrapWithoutEffect :
    let s := sg base 4 (2 ^ 57)
    let u := sg base 4 (2 ^ 43)
    s.thr.Fit { imm := true, view := true } { g := [5, 4] } ∧ s.thr.group = {} ∧ s.thr.has { g := [5, 4, 6] } = true ∧
    s.fenced = s ∧ s.txns = [] ∧ u.fenced = u ∧ 2 ^ 57 ≤ (s.thr.g 4).toNat ∧
    [1, 2, 4, 8].all (fun n => u.loadAccess (u.who u.thr u.thr.view) (u.thr.g 4 + u.thr.imm 0) n 1 ==
      .trap (xlatTrap 1 2 (2 ^ 43)) && u.access (u.who u.thr u.thr.view) .store (u.thr.g 4 + u.thr.imm 0) n 1 ==
      .trap (xlatTrap 1 2 (2 ^ 43))) = true ∧
    (let v := sg base 4 (2 ^ 57 - 17)
     v.thr.has { g := [5, 4, 6] } = true ∧ v.fenced = v ∧ v.txns = [] ∧ (v.thr.g 4).toNat + 16 ≤ 2 ^ 57 ∧ (v.thr.g 4).toNat % 4 ≠ 0) := by
  simp only [Thread.Fit]; decide +kernel

theorem witness_AcquireReleaseFenceAndPrefetch :
    loads.thr.Fit { view := true, scope := true } { g := [5, 4] } ∧ loads.Settled ∧ loads.thr.scope ≠ .core ∧
    (inGroup loads { scope := some .core }).thr.scope = .core ∧
    loads.access (loads.who loads.thr loads.thr.view) .load (loads.thr.g 4 + (8 : BitVec 10).signExtend 64) 8 8 = .ok [home 0x300008 8] ∧
    loads.access (loads.who loads.thr loads.thr.view) .store (loads.thr.g 4 + (8 : BitVec 10).signExtend 64) 8 8 = .ok [home 0x300008 8] ∧
    loads.Usable false (loads.who loads.thr loads.thr.view) [home 0x300008 8] ∧
    loads.ready loads.thr true (copyLocs [home 0x300008 8]) = .ok ∧
    (let s := inGroup loads { scope := some .core }
     s.thr.Fit { view := true, scope := true } { g := [5, 4] } ∧ s.Settled ∧
     s.loadAccess (s.who s.thr s.thr.view) (s.thr.g 4 + (8 : BitVec 10).signExtend 64) 8 8 = .ok [home 0x300008 8] ∧
     s.Usable false (s.who s.thr s.thr.view) [home 0x300008 8]) ∧
    loads.thr.Fit {} {} ∧ loads.thr.Fit { imm := true, view := true } { g := [4] } := by
  simp only [Thread.Fit, State.Settled, State.Usable]; decide +kernel

theorem witness_AtomicsReadModifyWrite :
    let w := atoms.who atoms.thr atoms.thr.view
    atoms.thr.Fit { view := true, scope := true } { g := [5, 4, 6] } ∧ atoms.Settled ∧
    (upto 0 11).all (fun i => atoms.begun .amo (amoArg (([.add, .and, .or, .xor, .min, .max, .minz, .maxz, .swap, .cas, .fadd] :
      List AmoFn).getD i .add) .ar 4) (atoms.thr.g 4) 4 == none) = true ∧
    [(false, 4), (true, 4), (false, 8)].all (fun p => atoms.access w (.atomic p.1) (atoms.thr.g 4) p.2 p.2 == .ok [home 0x300000 p.2]) = true ∧
    atoms.Usable true w [home 0x300000 4] ∧ atoms.Usable true w [home 0x300000 8] ∧ atoms.isPeer (firstKey [home 0x300000 4]) = false ∧
    ({ home 0 4 with entry := 2 * 2 ^ 67 } : Loc).win = none ∧ eKind (2 * 2 ^ 67) = 2 ∧ eKind (3 * 2 ^ 67) = 3 ∧ eKind 11 ≠ 3 ∧
    ({ home 0 4 with key := 0xFFF * 2 ^ 48 } : Loc).key / 2 ^ 48 = 0xFFF := by
  simp only [Thread.Fit, State.Settled, State.Usable]; decide +kernel

/-- The focus thread's core scratch image, line 3 full, line 4 guarded and empty; g4 holds the address of line `n`. -/
def scratch (n : Nat) : State :=
  let i : Image := { dev := 0, core := 0, scsz := 16, settled := true, guarded := [4], full := [3] }
  let x : SpaceSt := { id := 1, desc := BitVec.ofNat 2048 0x100000, images := [i] }
  sg { base with spaces := [x] } 4 (BitVec.ofNat 64 (0x1FFFF * 2 ^ 40 + 128 * n))

/-- The first 8 bytes of that line. -/
def lineLoc (n : Nat) : Loc :=
  { va := 0x1FFFF * 2 ^ 40 + 128 * n, n := 8, key := coreKey 1 0 0 (128 * n), win := some .core }

theorem witness_SynchronisingScratchAccesses :
    [3, 4].all (fun n =>
      let s := scratch n
      let w := s.who s.thr s.thr.view
      [Kind.scratch, .fill].all (fun k => s.access w k (s.thr.g 4 + (0 : BitVec 10).signExtend 64) 8 8 == .ok [lineLoc n]) &&
      s.noteImages w.scsz [lineLoc n] == s && (s.imageAt (firstKey [lineLoc n])).isSome &&
      s.isFull (firstKey [lineLoc n]) == (n == 3)) = true ∧
    (let s := scratch 4
     let w := s.who s.thr s.thr.view
     s.thr.Fit { view := true, scope := true } { g := [5, 4] } ∧ s.Settled ∧ s.NoneWaits ∧
     s.thr.Fit { imm := true, view := true } { g := [5, 4] } ∧
     s.loadAccess w (s.thr.g 4 + s.thr.imm 0) 8 1 = .ok [lineLoc 4] ∧ s.ready s.thr false [lineLoc 4] = .ok ∧
     s.fenced = s ∧ s.noteImages w.scsz [lineLoc 4] = s ∧
     (∃ n ∈ unitsOf 128 (lineLoc 4).key 8, s.guardedEmpty (n * 128) = true) ∧ isCoreKey (lineLoc 4).key = true) ∧
    (let s := sg (scratch 0) 6 512
     let w := s.who s.thr s.thr.view
     s.thr.Fit { view := true } { g := [4, 6] } ∧ s.festCheck w (s.thr.g 4).toNat 512 = .ok () ∧
     (s.thr.g 4).toNat % 2 ^ 40 + 128 * 512 ≤ 2 ^ 19 ∧
     (s.imageAt (coreKey w.space (posDev w.pk) (posCore w.pk) 0)).isSome = true) := by
  simp only [Thread.Fit, State.Settled, State.NoneWaits]; decide +kernel

/-- A launch of one thread, whose barrier only the focus thread has to reach; of two threads; a level that is not there; a
pending barrier. -/
theorem witness_BarriersAndArrivalWords :
    base.thr.Fit {} {} ∧ base.Settled ∧ base.NoneWaits ∧ base.thr.barg.getLsbD 31 = false ∧
    (th base (fun t => { t with barg := 0x80000001 })).thr.barg.getLsbD 31 = true ∧
    (∃ l, base.launch? base.thr.launch = some l ∧ l.nlev < (1 : BitVec 3).toNat ∧ (0 : BitVec 3).toNat ≤ l.nlev ∧
      ({ l with arrivals := Tab.put l.arrivals 0 1 } : Launch).barrierDone 0 (l.inst 0 0) 1 = true) ∧
    (∃ l, two.launch? two.thr.launch = some l ∧
      ({ l with arrivals := Tab.put l.arrivals 0 1 } : Launch).barrierDone 0 (l.inst 0 0) 1 = false) ∧
    (let s := sg (sg (sm base 0x300000 16 (3 * 2 ^ 64)) 4 0x300000) 6 3
     let w := s.who s.thr s.thr.view
     s.thr.Fit { view := true } { g := [5, 4, 6] } ∧ s.access w .arrive (s.thr.g 4) 16 16 = .ok [home 0x300000 16] ∧
     (home 0x300000 16).key + 16 ≤ 2 ^ 62 ∧ s.noteImages w.scsz [home 0x300000 16] = s ∧ s.isPeer 0x300000 = false ∧ s.begun .arrv 0 (s.thr.g 4) 16 = none ∧
     s.begun .rdc 0 (s.thr.g 4) 16 = none ∧
     s.ready s.thr true [home 0x300000 16] = .ok ∧ s.ready s.thr false [home 0x300000 16] = .ok ∧
     (s.mem.readNum 0x300000 16 / 2 ^ 64 % 2 ^ 32 + 2 ^ 32 - (s.thr.g 6).toNat % 2 ^ 32) % 2 ^ 32 < 2 ^ 31 ∧
     2 ^ 31 ≤ (s.mem.readNum 0x300000 16 / 2 ^ 64 % 2 ^ 32 + 2 ^ 32 - 4) % 2 ^ 32) := by
  simp only [Thread.Fit, State.Settled, State.NoneWaits]
  constructorm* _ ∧ _ <;> decide +kernel

/-- A cell that is OPEN at generation 0, DECIDED, RETIRED, and malformed. -/
theorem witness_CrustCellsAreDecidedOnce :
    let l : Loc := { va := 2 ^ 43 + 0x300000, n := 16, key := 0x300000, entry := 0xB + 2 ^ 65 + 3 * 2 ^ 67, level := 2 }
    [0, 7 + 2 ^ 80, 0xFFFF * 2 ^ 64 + 2 * 2 ^ 80, 3 * 2 ^ 80].all (fun (c : Nat) =>
      let s := sm onces 0x300000 16 c
      let w := s.who s.thr s.thr.view
      [Kind.prop, .crd, .crcy].all (fun k => s.access w k (s.thr.g 4) 16 16 == .ok [l]) && s.ready s.thr true [l] == .ok &&
      s.ready s.thr false [l] == .ok && s.cellCopy? l.key 0 == none && s.isPeer l.key == false &&
      (cellBad (s.mem.readNum l.key 16) == (c == 3 * 2 ^ 80))) = true ∧
    onces.thr.Fit { view := true, scope := true } { g := [5, 4, 6] } ∧ onces.thr.Fit { view := true, scope := true } { g := [4, 6] } ∧
    [0, 1, 2, 5].all (fun (n : Nat) => onces.begun .cell (BitVec.ofNat 9 n) (onces.thr.g 4) 16 == none) = true ∧
    (onces.l1Cell? (onces.who onces.thr onces.thr.view) (onces.thr.g 4) 0).isNone = true ∧ (5 : BitVec 6) ≠ 6 ∧ onces.Settled ∧ onces.NoneWaits ∧ onces.waiting = [] ∧ (onces.thr.g 6).toNat % 2 ^ 16 = 0 ∧
    (sg onces 6 1).thr.g 6 = 1 := by
  simp only [Thread.Fit, State.Settled, State.NoneWaits]; decide +kernel

/-- Tower 7 belongs to the partition of the thread's space, tower 6 to none. -/
def mapped : State :=
  { th base (fun t => { t with lines := [0], dirty := [0] }) with
    partmap := 0x80000008
    spaces := [{ id := 1, desc := BitVec.ofNat 2048 (0x100000 + 2 ^ 232) }] }

theorem witness_PositionIndexAndMigration :
    base.thr.Fit {} { g := [5] } ∧ (∃ l, base.launch? base.thr.launch = some l ∧ bits l.record.toNat 330 328 < (1 : BitVec 3).toNat ∧
      (0 : BitVec 3).toNat ≤ bits l.record.toNat 330 328) ∧
    mapped.thr.Fit {} { g := [4] } ∧ mapped.Settled ∧ mapped.thr.claims = [] ∧
    mapped.destOk mapped.thr (6 * 2 ^ 17) = some false ∧ mapped.destOk mapped.thr (7 * 2 ^ 17) = some true ∧
    mapped.destOk mapped.thr 0 = some true ∧
    sameInstance .tile 0 mapped.thr.cur = true ∧ sameInstance .tile (7 * 2 ^ 17) mapped.thr.cur = false ∧
    posDev (7 * 2 ^ 17) = mapped.dev ∧
    mapped.matrixBusy mapped.thr = false ∧ mapped.thr.dirtyLines = [0] ∧
    (mapped.thr.ctxBytes [0]).all (fun x => mapped.ctxReady mapped.thr true x == .ok) = true ∧
    (let a := mapped.took mapped.thr true (mapped.ctxLocs mapped.thr (mapped.thr.ctxBytes [0])) true
     (a.writeLines mapped.thr [0]).2 = [] ∧ (a.writeLines mapped.thr [0]).1.headerPlace mapped.thr = some 0x400000) := by
  simp only [Thread.Fit, State.Settled]
  constructorm* _ ∧ _ <;> decide +kernel

/-- A thread whose VTYPE holds `vl` elements of type code `ty`. -/
def vt (s : State) (vl ty : Nat) : State := th s (fun t => { t with vtype := BitVec.ofNat 64 (vl * 256 + ty) })

/-- The least and the greatest VL of a type, with and without a mask. -/
theorem witness_VectorWordsWriteActiveElements : (vt base 0 0).thr.Fit { mods := true } { v := [2, 3, 4] ++ maskNames 0 } ∧
    (vt base 64 0).thr.Fit {} { v := [63, 3, 4] ++ maskNames 7 } ∧ (vt base 128 6).thr.ety = .s16 := by
  simp only [Thread.Fit]; decide +kernel

theorem witness_VectorApproximationsAndConversions :
    (vt base 64 0).thr.Fit { mods := true } { v := [2, 3] ++ maskNames 1 } ∧ (vt base 64 0).thr.ety = .f32 ∧
    (vt base 65 1).thr.ety ≠ .f32 ∧ (vt base 64 0).thr.vl ≤ ETy.vlmax .f32 ∧ ETy.vlmax .f32 < (vt base 65 1).thr.vl ∧
    floatOf .e4m3 = some .e4m3 ∧ (ETy.e4m3 ≠ .f32) := by
  simp only [Thread.Fit]; decide +kernel

theorem witness_VectorComparesReductionsAndDots :
    (vt base 64 0).thr.Fit {} { v := [2, 3, 4] ++ maskNames 1 } ∧ (vt base 128 6).thr.Fit { mods := true } { v := [2, 3, 4] ++ maskNames 0 } ∧
    floatOf (vt base 128 6).thr.ety = none ∧ (vt base 128 6).thr.ovf ≠ .sat ∧ (vt base 128 6).thr.vl % 2 = 0 ∧
    (vt base 128 6).thr.vl ≤ ETy.vlmax .s16 ∧ (vt base 256 7).thr.ety = .s8 ∧ (vt base 256 7).thr.vl % 4 = 0 ∧
    (vt base 2 1).thr.ety = .bf16 ∧ (vt base 4 3).thr.ety = .e4m3 ∧ (vt base 64 0).thr.ety = .f32 := by
  simp only [Thread.Fit]; decide +kernel

theorem witness_VectorMovesMasksAndConfiguration :
    let s := vt base 64 0
    s.thr.Fit {} { g := [3], v := [2] ++ maskNames 0 } ∧ s.thr.Fit {} { v := [2, 3] ++ maskNames 1 } ∧
    s.thr.Fit {} { v := [2, 3, 4] ++ maskNames 7 } ∧ s.thr.Fit {} { v := [2] ++ maskNames 0 } ∧
    s.thr.Fit {} { g := [2], v := [3] ++ maskNames 1 } ∧ s.thr.Fit {} { g := [2, 4], v := [3] } ∧
    s.thr.Fit {} { g := [3, 4], v := [2] } ∧ s.thr.Fit {} { g := [5, 6] } ∧ floatOf s.thr.ety ≠ none ∧
    floatOf (vt base 128 6).thr.ety = none := by
  simp only [Thread.Fit]; decide +kernel

/-- Two FP32 elements at 3 MiB and after; offsets 0 and 4 in v5; stride 4. -/
def vloads : State := sg (sg (sv (vt (sm base 0x300000 8 0x400000003F800000) 2 0) 5 4 [0, 4]) 4 0x300000) 6 4

/-- The places of its two elements. -/
def twoElems : List ElemLocs := [{ i := 0, locs := [home 0x300000 4] }, { i := 1, locs := [home 0x300004 4] }]

theorem witness_VectorLoadsFillActiveElements :
    let s := vloads
    let w := s.who s.thr s.thr.view
    let f (unit : Bool) (addr : Nat → Word) : Scan :=
      scan (fun va n => s.plainElem w .load va n (unit && (floatOf s.thr.ety).isSome && decide (2 ≤ s.thr.ety.size)))
        (((upto 0 s.thr.ety.vlmax).filter (s.thr.active 0)).map (fun i => { i := i, at_ := [(addr i, s.thr.ety.size)] : ElemAcc }))
    let locs := twoElems.flatMap (fun e => e.locs)
    let r := s.forgetPast w locs
    s.Settled ∧ r.ready r.thr false (locs.filter (fun l => !r.l1Serves w l)) = .ok ∧ s.noteImages w.scsz locs = s ∧
    s.emptyLines locs = [] ∧
    (match f false (fun i => s.thr.g 4 + BitVec.ofNat 64 (2 ^ 43) * BitVec.ofNat 64 i) with
      | .go ls (some x) => ls == twoElems.take 1 && x.cls == .xlat && x.elem == 1
      | _ => false) = true ∧
    f true (fun i => s.thr.g 4 + BitVec.ofInt 64 ((0 : BitVec 6).toInt * 256) + BitVec.ofNat 64 (4 * i)) = .go twoElems none ∧
    f false (fun i => s.thr.g 4 + s.thr.g 6 * BitVec.ofNat 64 i) = .go twoElems none ∧
    f false (fun i => s.thr.g 4 + (BitVec.ofNat 32 (s.thr.elem 5 4 i)).signExtend 64) = .go twoElems none ∧
    s.thr.Fit { view := true } { g := [4], v := 2 :: maskNames 0 } ∧ (s.pageFmt w .load (s.thr.g 4) 1 1).1 = 0 ∧
    s.thr.Fit { view := true } { g := [4, 6], v := 2 :: maskNames 0 } ∧
    s.thr.Fit { view := true } { g := [4], v := [2, 5] ++ maskNames 0 } ∧ s.thr.vl ≤ 64 ∧ 64 < (vt s 65 1).thr.vl := by
  simp only [Thread.Fit, State.Settled]; decide +kernel

theorem twoElems_single : ∀ e ∈ twoElems, ∃ l, e.locs = [l] ∧ l.n = 4 := by
  simp [twoElems, home]

/-- Two elements that pass; the second past the last mapped page, and so only the first. -/
theorem witness_VectorStoresPutActiveElements :
    let s := vloads
    let w := s.who s.thr s.thr.view
    let locs := twoElems.flatMap (fun e => e.locs)
    let f (addr : Nat → Word) : Scan := scan (s.plainElem w .store) (((upto 0 s.thr.ety.vlmax).filter (s.thr.active 0)).map
      (fun i => { i := i, at_ := [(addr i, s.thr.ety.size)] : ElemAcc }))
    s.Settled ∧ f (fun i => s.thr.g 4 + s.thr.g 6 * BitVec.ofNat 64 i) = .go twoElems none ∧
    (match f (fun i => s.thr.g 4 + BitVec.ofNat 64 (2 ^ 43 * i)) with
      | .go ls (some x) => ls == twoElems.take 1 && x.cls == .xlat
      | _ => false) = true ∧
    s.ready s.thr true locs = .ok ∧ s.noteImages w.scsz locs = s ∧ (∀ e ∈ twoElems, ∃ l, e.locs = [l] ∧ l.n = 4) ∧
    s.thr.Fit { view := true } { g := [4], v := 2 :: maskNames 0 } ∧ s.thr.Fit { view := true } { g := [4, 6], v := 2 :: maskNames 0 } ∧
    s.thr.Fit { view := true } { g := [4], v := [2, 5] ++ maskNames 0 } := by
  simp only [Thread.Fit, State.Settled]
  constructorm* _ ∧ _
  all_goals first
    | exact twoElems_single
    | decide +kernel

/-- A layout record: base, dimensions, format, extents and strides. -/
def rec_ (base_ fmt : Nat) (dims : List (Nat × Nat)) : BitVec 1024 :=
  BitVec.ofNat 1024 (pack [(64, base_), (4, dims.length), (4, fmt), (24, 0), (32, 0)] +
    pack (dims.map (fun d => (96, d.1 + d.2 * 2 ^ 32))) * 2 ^ 128)

/-- Layouts 0 and 3 are registered: two dimensions of one FP32 element at 3 MiB, and one dimension. -/
def laid : State :=
  let x : SpaceSt := { id := 1, desc := BitVec.ofNat 2048 0x100000, layouts := [(0, rec_ 0x300000 0 [(1, 1), (1, 1)]), (3, rec_ 0 0 [(1, 1)])] }
  sg (sm { base with spaces := [x] } 0x300000 128 (rec_ 0x310000 0 [(1, 1), (1, 1)]).toNat) 4 0x300000

theorem witness_TileAccessesGoThroughTheirRecord :
    let s := laid
    let r := rec_ 0x300000 0 [(1, 1), (1, 1)]
    let w := recWho (s.issuer s.thr) s.thr.cur r
    let xs : List (Nat × Elem × List Loc) := [(0, { va := 0x300000, n := 4 }, [home 0x300000 4])]
    let ys : List (TileStore × List Loc) := [({ q := 0, va := 0x300000, n := 4, high := none, code := 0 }, [home 0x300000 4])]
    s.thr.Fit {} { v := [6], t := true } ∧ s.layout? s.thr.space 31 = none ∧ s.layout? s.thr.space 3 = some (rec_ 0 0 [(1, 1)]) ∧
    recNdim (rec_ 0 0 [(1, 1)]) < 2 ∧ s.layout? s.thr.space 0 = some r ∧ 2 ≤ recNdim r ∧ recFmt r = s.thr.ety.code.toNat ∧
    recFmt r ≠ (vt s 0 1).thr.ety.code.toNat ∧ fmtBlock (recFmt r) = false ∧ s.Settled ∧
    Res.map (fun (q, e) => ((s.elemPlaces w e).bind (fun ls => .ok (q, e, ls))).atElem q)
      (s.thr.tileElems r (s.recPage s.thr.key s.thr.space (posTower s.thr.cur) r) 6) = .ok xs ∧
    Res.all (fun (q, _, ls) => (Res.all s.darkCheck ls).atElem q) xs = .ok () ∧
    Res.all (fun (q, _, ls) => (Res.all (s.dataCheck .load) ls).atElem q) xs = .ok () ∧
    s.ready s.thr false (xs.flatMap (fun x => x.2.2)) (recStream r) = .ok ∧ s.noteImages w.scsz (xs.flatMap (fun x => x.2.2)) = s ∧
    s.emptyLines (xs.flatMap (fun x => x.2.2)) = [] ∧
    s.tileScan w (s.thr.tileStores r (s.recPage s.thr.key s.thr.space (posTower s.thr.cur) r) 1 6) = .ok (ys, none) ∧
    s.ready s.thr true (ys.flatMap (fun x => x.2)) = .ok ∧ s.noteImages w.scsz (ys.flatMap (fun x => x.2)) = s ∧
    (∀ x ∈ ys, (x.2.map (fun l => l.n)).sum = x.1.n) := by
  simp only [Thread.Fit, State.Settled]
  constructorm* _ ∧ _ <;> decide +kernel

theorem witness_LayoutRecordsAreRegisteredAndFreed :
    let s := laid
    let w := s.who s.thr .none
    let r := rec_ 0x310000 0 [(1, 1), (1, 1)]
    s.thr.Fit {} { g := [4] } ∧ s.Settled ∧ s.access w .load (s.thr.g 4) 128 128 = .ok [home 0x300000 128] ∧
    s.Usable false w [home 0x300000 128] ∧ (s.space? s.thr.space).isSome = true ∧
    BitVec.ofNat 1024 (ofBytes (s.readLocs [home 0x300000 128])) = r ∧
    (s.took s.thr false [home 0x300000 128]).registerPins s.thr 31 r =
      .ok [{ space := 1, va := 0, level := 2, entry := 11, owner := .layout 31 }] ∧
    (s.took s.thr false [home 0x300000 128]).registerPins s.thr 0 r = .trap (engineTrap 3 2) ∧ s.thr.Fit {} {} ∧ s.layout? s.thr.space 31 = none ∧
    (s.layout? s.thr.space 0).isSome = true ∧ s.thr.Fit {} { v := [2] } := by
  simp only [Thread.Fit, State.Settled, State.Usable]; decide +kernel

/-- A tile whose queue 0 has issued two tickets and done one. -/
def queued : State :=
  base.setTile 0 ((base.tile 0).setQueue 0 { enq := 2, done := 1, cmds := [] })

theorem witness_QueueWordsCountAndWait : queued.thr.Fit {} {} ∧ queued.thr.Fit {} { g := [5] } ∧ queued.thr.Fit {} { g := [5, 6] } ∧
    ((queued.tile queued.thr.tile).queue (queueNo .q0)).enq < ((sg queued 6 3).thr.g 6).toNat ∧
    ((sg queued 6 2).thr.g 6).toNat ≤ ((queued.tile queued.thr.tile).queue (queueNo .q0)).enq ∧
    ((queued.tile queued.thr.tile).queue (queueNo .q0)).done < ((sg queued 6 2).thr.g 6).toNat ∧
    ((sg queued 6 1).thr.g 6).toNat ≤ ((queued.tile queued.thr.tile).queue (queueNo .q0)).done := by
  simp only [Thread.Fit]; decide +kernel

/-- The places of a slot image at 4 MiB, of a thread whose slot 0 is claimed. -/
def area : List Loc := [home 0x400000 131072, home 0x420000 256]

theorem witness_SlotWordsActOnTheirSlot :
    let s := sg claimed 4 0x400000
    let w := s.who s.thr .none
    let b := claimed.setTile 0 ((claimed.tile 0).setSlot 0 { accstat := 0xC0000000, owner := some (⟨1, 0⟩, 1) })
    s.thr.Fit {} { g := [4] } ∧ s.thr.claim? 1 ≠ none ∧ s.thr.claim? 2 = none ∧
    s.areaCheck w (s.thr.g 4).toNat = .ok area ∧ (s.tile s.thr.tile).freeSlot? = some 1 ∧ s.thr.Fit {} {} ∧
    s.thr.claim? 1 = some { name := 1, area := 0x400000, phys := some (0, 0) } ∧ (s.tile 0).slotBusy 0 = false ∧
    ((s.tile 0).slot 0).faulted = false ∧ s.thr.hasG 4 = true ∧ s.thr.hasV 2 = true ∧ ((sg s 6 511).thr.g 6).toNat < 512 ∧
    512 ≤ ((sg s 6 512).thr.g 6).toNat ∧ s.Settled ∧
    s.access w .store (s.thr.g 4) imageSize 256 = .ok area ∧ s.ready s.thr true area = .ok ∧ s.noteImages w.scsz area = s ∧
    s.ready s.thr false area = .ok ∧ s.emptyLines area = [] ∧
    ((claimed.tile 0).slot 0).bad = [] ∧ (24 ∈ ({ bad := [24] } : SlotSt).bad ∧ 1024 * 0 + 256 * 1 = 16 * 16) ∧
    ((b.tile 0).slot 0).faulted = true ∧ s.thr.Fit {} { g := [5, 4], v := [5] } ∧ s.thr.Fit {} { g := [5] } := by
  simp only [Thread.Fit, State.Settled]; decide +kernel

/-- The same thread's image can be read. -/
theorem witness_SlotWordsActOnTheirSlot_fill :
    let s := sg claimed 4 0x400000
    s.access (s.who s.thr .none) .load (s.thr.g 4) imageSize 256 = .ok area := by
  refine (access_ok_iff _ _ _ _ _ _ _).2 ?_
  repeat' refine And.intro ?_ ?_
  all_goals first
    | exact fun l _ => dataCheck_clean _ _ l rfl
    | decide +kernel

/-- The claimed slot's thread with layouts 0: BF16 in core scratch, 1: BF16 at 3 MiB; g6 names layout 0, M = 1. -/
def engined : State :=
  let x : SpaceSt := { id := 1, desc := BitVec.ofNat 2048 0x100000, layouts :=
    [(0, rec_ (0x1FFFF * 2 ^ 40) 1 [(32, 1), (1, 32)]), (1, rec_ 0x300000 1 [(32, 1), (1, 32)])] }
  sg (sr { claimed with spaces := [x] } (claimed.thr.vOff 2) 256 (2 ^ 576 + 2 ^ 608 + 2 ^ 64 + 2 ^ 72)) 6 1

/-- A full q4, and a full q0. -/
def fullQueues : State :=
  let w : Cmd := { ticket := 1, by_ := engined.issuer engined.thr, direct := true, after := [], work := .mswap }
  let x := engined.tile 0
  engined.setTile 0 ((x.setQueue 4 { enq := 64, done := 0, cmds := List.replicate 64 w }).setQueue 0 { enq := 64, done := 0, cmds := List.replicate 64 w })

theorem witness_EngineCommandsEnterTheirQueue :
    let s := engined
    let i := s.thr.tile
    let r := rec_ 0x300000 1 [(32, 1), (1, 32)]
    let act := rec_ (0x1FFFF * 2 ^ 40) 1 [(32, 1), (1, 32)]
    let f := s.setTile 0 ((s.tile 0).setSlot 0 { accstat := 0xC0000000, owner := some (⟨1, 0⟩, 1) })
    let block := BitVec.ofNat 2048 (ofBytes (s.thr.v 2))
    s.thr.Fit {} { g := [5] } ∧ s.Settled ∧ s.thr.hasG 4 = true ∧ (s.tile i).hasRoom 4 = true ∧
    s.layout? s.thr.space ((s.thr.g 6).toNat % 32) = some r ∧ (s.thr.g 6).toNat < 32 ∧ 2 ≤ recNdim r ∧ kShelf (recFmt r) ≠ none ∧
    0 ≤ loHalf (s.thr.g 4) ∧ 0 ≤ hiHalf (s.thr.g 4) ∧ (fmtBlock (recFmt r) = true → loHalf (s.thr.g 4) % 32 = 0) ∧
    s.spanCheck (recWho (s.issuer s.thr) s.thr.cur r) r = .ok () ∧ s.shelfCheck i 0 = .ok () ∧
    s.pinCheck s.thr.space 1 s.thr.sup false (rectElems r (s.recPage s.thr.key s.thr.space (posTower s.thr.cur) r) 0 32 0 32) = .ok () ∧
    (({ s with towers := [(0, { fused := 0xF })] } : State).tower (i / 16)).fused = 0xF ∧
    (fullQueues.tile i).hasRoom 4 = false ∧ s.thr.claim? 1 = some { name := 1, area := 0x400000, phys := some (i, 0) } ∧
    (s.tile i).isFaulted 0 = false ∧
    s.mmaCheck (s.issuer s.thr) i false (s.thr.g 4) (s.thr.g 6) = .ok (act, 0) ∧
    s.mmaCheck (s.issuer s.thr) i false (s.thr.g 4) 0 = .trap (engineTrap 3 2) ∧
    s.mmaCheck (s.issuer s.thr) i true (s.thr.g 4) 0x2001 = .ok (act, r) ∧
    (f.tile i).isFaulted 0 = true ∧ 1 ≤ ((sg f 4 256).thr.g 4).toNat ∧ ((sg f 4 256).thr.g 4).toNat ≤ 256 ∧
    s.thr.Fit {} { g := [5], v := [2] } ∧ (s.tile i).hasRoom 0 = true ∧ (fullQueues.tile i).hasRoom 0 = false ∧
    s.copyCheck .copy block = .ok (r, r, none) ∧ s.copyCheck .copyd block = .ok (r, r, none) ∧
    s.copyCheck .copym block = .trap (engineTrap 3 3) := by
  simp only [Thread.Fit, State.Settled]
  constructorm* _ ∧ _ <;> decide +kernel

/-- The management core's thread. -/
def firmed : State := th base (fun t => { t with firm := true })

theorem witness_SystemRegistersReadAndWrite : base.thr.Fit {} { g := [5] } ∧ base.thr.sup = true ∧ user.thr.sup = false ∧
    user.thr.Fit {} { g := [5] } ∧ bits base.thr.space.toNat 11 9 = 0 / 8 ∧ (63 / 8 : Nat) ≠ bits base.thr.space.toNat 11 9 ∧
    base.thr.firm = false ∧ firmed.thr.Fit {} { g := [5] } ∧ firmed.thr.firm = true ∧ firmed.thr.sup = true := by
  simp only [Thread.Fit]; decide +kernel

theorem witness_SystemWordsNeedPrivilege : user.thr.group = {} ∧ user.thr.sup = false ∧ firmed.thr.group = {} ∧ firmed.thr.firm = true ∧
    base.thr.priv = true ∧ base.thr.firm = false ∧ base.Settled ∧ base.thr.has { g := [5, 6, 7], v := [5] } = true ∧
    spaceOk (bits base.thr.space.toNat 11 9) (((sg base 5 0x200).thr.g 5).extractLsb' 0 16) = false := by
  simp only [State.Settled]; decide +kernel

/-- A loaded space 2 of no thread, and a table of descriptors at 5 MiB. -/
def spaced : State :=
  { base with
    spaces := base.spaces ++ [{ id := 2, desc := BitVec.ofNat 2048 0x100000 }]
    sdtb := [(0, 0x500000)] }

/-- Descriptor 3 of the table names the page table at 1 MiB, a queue of 16 records at 8 MiB, and this device. -/
def loadable : State :=
  sm spaced (0x500000 + 256 * 3) 256 (0x100000 + 0x800000 * 2 ^ 64 + 4 * 2 ^ 224 + 2 ^ 232 + 2 ^ 248)

/-- A launch record of one thread, at 3 MiB. -/
def records : State := sg (sm base 0x300000 256 firstRecord.toNat) 6 0x300000

/-- Space 3 is loaded with what its descriptor in the table says. -/
def reloadable : State :=
  { loadable with
    spaces := { id := 3, desc := BitVec.ofNat 2048 (0x100000 + 0x800000 * 2 ^ 64 + 4 * 2 ^ 224 + 2 ^ 232 + 2 ^ 248) } :: loadable.spaces }

theorem witness_InvalidationAndControlOfSpaces_update :
    reloadable.descCode (reloadable.descriptor 3) = 0 ∧ (reloadable.space? 3).isSome = true ∧
    reloadable.ready reloadable.thr false [reloadable.descPlace 3] = .ok ∧ reloadable.movingIn 3 0 (2 ^ 40) = false ∧
    reloadable.resolvedIn 3 0 (2 ^ 40) = false ∧ reloadable.accKeys (fun t => t.space == 3) = [] ∧ reloadable.thr.waitLoad = none := by
  constructorm* _ ∧ _ <;> decide +kernel

theorem witness_InvalidationAndControlOfSpaces :
    let s := sg (sg spaced 5 1) 7 1
    let part := bits s.thr.space.toNat 11 9
    s.thr.Fit {} { g := [5, 6, 7] } ∧ s.thr.sup = true ∧ s.Settled ∧ s.NoneWaits ∧ (∀ u ∈ s.threads, u.accs = []) ∧
    spaceOk part ((s.thr.g 5).extractLsb' 0 16) = true ∧ s.movingIn 1 0 (2 ^ 40) = false ∧ s.resolvedIn 1 0 (2 ^ 40) = false ∧
    2 ^ 57 ≤ ((sg s 6 (2 ^ 57)).thr.g 6).toNat ∧ ((sg s 6 1).thr.g 6).toNat % 2 ^ 17 ≠ 0 ∧
    ((sg s 6 (2 ^ 57 - 2 ^ 17)).thr.g 6).toNat < 2 ^ 57 ∧ ((sg s 6 (2 ^ 57 - 2 ^ 17)).thr.g 6).toNat % 2 ^ 17 = 0 ∧
    (let u := records
     u.access (u.who u.thr .none) .load (u.thr.g 6) 256 256 = .ok [home 0x300000 256] ∧
     u.Usable false (u.who u.thr .none) [home 0x300000 256] ∧ spaceOk part u.thr.space = true) ∧
    s.descCode (s.descriptor 3) ≠ 0 ∧ s.ready s.thr false [s.descPlace 3] = .ok ∧ s.accKeys (fun t => t.space == 3) = [] ∧
    loadable.descCode (loadable.descriptor 3) = 0 ∧ loadable.space? 3 = none ∧
    loadable.ready loadable.thr false [loadable.descPlace 3] = .ok ∧ (∀ w ∈ s.away, w.thread ≠ ⟨1, 7⟩) ∧
    (∃ w ∈ ({ s with away := [⟨⟨1, 7⟩, 1, 0, 5⟩] } : State).away, w.thread = ⟨1, 7⟩) ∧ s.space? 3 = none ∧ s.space? 2 ≠ none ∧ s.spaceBusy 2 = false ∧ s.spaceBusy 1 = true ∧
    s.matchContext 1 0x500000 = none ∧ (∃ l, s.matchContext 1 0x400000 = some (l, 0) ∧
      (s.find ⟨l.id, 0⟩).isSome = true ∧ s.headerCheck 1 0x400000 = .ok ()) ∧
    s.killable 1 2 = false ∧ s.killable 1 1 = true := by
  simp only [Thread.Fit, State.Settled, State.NoneWaits, State.Usable]
  constructorm* _ ∧ _
  all_goals first
    | refine ⟨_, rfl, by decide +kernel, by decide +kernel⟩
    | decide +kernel

/-- Records that pass, that fail a check, of another queue and another space. -/
theorem witness_InvalidationAndControlOfSpaces_submit :
    let l : Launch := { id := base.dev ++ nextCount base.launchCount, space := 1, record := firstRecord, origin := base.dev }
    firstRecord.toNat / 2 ^ 336 % 2 ^ 6 / 8 = 0 ∧ (BitVec.ofNat 2048 (8 * 2 ^ 336)).toNat / 2 ^ 336 % 2 ^ 6 / 8 ≠ 0 ∧
    base.space? 2 = none ∧ (base.space? 1).any (fun x => recordCode x l true == 0 && recordCode x { l with record := 0 } true != 0) = true ∧
    base.resolveDoneaw (base.who base.thr .none) (firstRecord.toNat / 2 ^ 512 % 2 ^ 64) = .ok none ∧
    base.resolveDoneaw (base.who base.thr .none) 8 = .trap (addrTrap 3 8) ∧ l.spans = false ∧
    base.queueFull 0 = false ∧
    ({ base with launches := (upto 0 16).map (fun n => { l with id := BitVec.ofNat 32 n }) } : State).queueFull 0 = true := by
  constructorm* _ ∧ _ <;> decide +kernel

/-- A live thread, and one that travels with a trap; a created index; a launch whose threads have each a name. -/
theorem witness_InvalidationAndControlOfSpaces_kill :
    base.find base.thr.key = some base.thr ∧ base.thr.state = .active ∧
    (let t := th base (fun t => { t with state := .travelling, trapStage := .evicted }); t.find t.thr.key = some t.thr) ∧
    (let l := (two.launches.headD { id := 0, space := 0, record := 0, origin := 0 })
     two.launch? l.id = some l ∧ ((two.killCreated l 1).launch? l.id).isSome = true) ∧ (two.all.map Thread.key).Nodup := by
  constructorm* _ ∧ _ <;> decide +kernel

/-- Context 1 of the launch of two: its index is created, done, with a peer, or somewhere else. -/
theorem witness_InvalidationAndControlOfSpaces_contexts :
    let away : State := { two with launches := two.launches.map (fun l => { l with handed := [0, 1] }) }
    let s := (two.launches.headD { id := 0, space := 0, record := 0, origin := 0 })
    let k : Key := ⟨s.id, 1⟩
    s.indexAt 0x410100 = some 1 ∧ (two.matchContext 1 0x410100).map (fun p => (p.1.id, p.2)) = some (s.id, 1) ∧
    (0x410100 % 256 = 0 ∧ two.find k = none) ∧ s.createdAt two.dev 1 = true ∧
    ({ s with done := [1] } : Launch).done.contains 1 = true ∧ (away.launches.all (fun l => !l.createdAt away.dev 1)) = true ∧
    away.headerCheck 1 0x410100 = .ok () ∧ (∀ w ∈ away.away, w.thread ≠ k) ∧
    (∃ w ∈ ({ away with away := [⟨k, 1, 0, 5⟩] } : State).away, w.thread = k) ∧
    (th base (fun t => { t with state := .done })).thr.state = .done := by
  constructorm* _ ∧ _ <;> decide +kernel

/-- Towers 0 and 7 belong to partition 0, tower 1 to none. -/
def owned : State := { base with partmap := 0x80000008 }

theorem witness_ShelvesLayersAndSupervisorWords :
    let s := owned
    let part := bits s.thr.space.toNat 11 9
    let sp : SpaceSt := { id := 1, desc := BitVec.ofNat 2048 (0x100000 + 0x600000 * 2 ^ 64 + 2 ^ 131), tqCount := 1 }
    let q := { s with spaces := [sp] }
    let t : Thread := { s.thr with index := 1, ctx := 0x700000, state := .trapped, held := false }
    let tt := sg (sm { two with threads := [t] } 0x700008 1 5) 7 0x700000
    let tq : Thread := { tt.thr with ctx := 0x700000 }
    let bq : Thread := { base.thr with ctx := 0x400000 }
    s.thr.Fit {} { g := [5, 6, 7] } ∧ s.thr.Fit {} {} ∧ s.thr.sup = true ∧ s.thr.firm = false ∧ s.Settled ∧ (∀ u ∈ s.threads, u.accs = []) ∧
    8 ≤ ((sg s 6 8).thr.g 6).toNat ∧ 16 ≤ ((sg s 7 16).thr.g 7).toNat ∧ s.mayName 6 = false ∧ s.mayName 7 = true ∧
    powerRequest 8 0 = none ∧ powerRequest 7 2 = some (7, 7, .off) ∧ powerRequest 0xF7 2 = some (7, 0xF7, .off) ∧
    s.thr.hasG 6 = true ∧ s.thr.hasV 5 = true ∧ spaceOk part ((sg s 6 1).thr.g 6 |>.extractLsb' 0 16) = true ∧ s.space? 2 = none ∧
    q.space? 1 = some sp ∧ sp.tqCount ≠ 0 ∧ sp.tqPend = [] ∧
    q.ready q.thr false [{ va := 0, n := 64, key := sp.field 127 64 + 64 * sp.tqHead }] = .ok ∧
    (tt.thr.g 7).toNat < 2 ^ 57 ∧ (tt.thr.g 7).toNat % 256 = 0 ∧ tt.headerCheck 1 0x700000 = .ok () ∧
    tt.contextAt 1 0x700000 = some t ∧ tt.find t.key = some t ∧ t.key ≠ tt.thr.key ∧ t.held = false ∧ t.state ≠ .travelling ∧
    t.trapStage = .none ∧ tt.ctxReady tq true (tq.ctx.toNat, 256) = .ok ∧
    (tt.took tq true (tt.ctxLocs tq (tq.ctxBytes [])) true).headerPlace tq = some 0x700000 ∧ (tt.mem.read 0x700008).toNat % 8 = 5 ∧
    base.headerCheck 1 0x400000 = .ok () ∧ base.ctxReady bq true (bq.ctx.toNat, 256) = .ok ∧
    (base.took bq true (base.ctxLocs bq (bq.ctxBytes [])) true).headerPlace bq = some 0x400000 ∧
    (base.mem.read 0x400008).toNat % 8 ≠ 5 ∧ (∀ u ∈ base.all, u.homeless = false) ∧
    (let c := sg (sg s 6 0x300000) 7 0x310000
     c.access (c.who c.thr .none) .store (c.thr.g 6) 256 256 = .ok [home 0x300000 256] ∧
     Res.all (c.dataCheck .load) [home 0x300000 256] = .ok () ∧
     c.access (c.who c.thr .none) .arrive (c.thr.g 7) 16 16 = .ok [home 0x310000 16] ∧
     c.noteImages (c.who c.thr .none).scsz ([home 0x300000 256] ++ [home 0x310000 16]) = c ∧ c.cmnts.length < 8) ∧
    (∃ x, s.space? 1 = some x ∧ x.halted = false) ∧ s.thr.halting = false ∧ (∀ u ∈ s.all, haltable 1 u = false) ∧
    (∃ u ∈ ({ s with threads := [{ t with priv := false, state := .resident, held := true }] } : State).all, haltable 1 u = true) := by
  simp only [Thread.Fit, State.Settled]
  constructorm* _ ∧ _
  all_goals decide +kernel

/-- Core 448, of tower 7, takes the one thread of a launch that is CREATED. -/
def activable : State :=
  { base with
    thr := {}
    partmap := 0x80000000
    launches := [{ id := 1, space := 1, record := firstRecord, origin := 0, started := true }] }

theorem witness_ActivationMaterialisesAThread :
    let l : Launch := { id := 1, space := 1, record := firstRecord, origin := 0, started := true }
    least Cand.rank (activable.candidates.filter (activable.admits activable.candidates 448)) = some (.created l 0) ∧
    activable.mayActivate 448 = true ∧ activable.accKeys (fun t => posCore t.cur / 64 == 448 / 64) = [] ∧
    activable.on 448 = [] ∧ (activable.core 448).pre = [] ∧ activable.find ⟨1, 0⟩ = none ∧ (activable.space? l.space).isSome = true ∧
    l.field 461 448 = 0 ∧ 16 ≤ l.field 198 192 ∧ 2 + 4 * (l.field 230 224 + 1) ≤ l.mode.lines := by
  constructorm* _ ∧ _ <;> decide +kernel

/-- A second thread of the launch, RESIDENT on core 0 with its first lines there. -/
def other : Thread :=
  { base.thr with index := 1, ctx := 0x700000, state := .resident, slot := none, lines := [], age := 2, pc := 0x200000 }

/-- The focus thread and a list of others, of a launch of two. -/
def withOthers (ts : List Thread) : State := { two with threads := ts }

/-- The second thread parked until GEN at 3 MiB reaches 1. -/
def parkedOther : Thread := { other with state := .parked, parkc := 2, parkva := 0x300000, wait := .gen 0x300000 1 }

/-- The second thread ACTIVE, its load waiting on no line any more. -/
def waitingOther (again : Bool) : Thread :=
  { other with state := .active, slot := some 1, waitLoad := some { lines := [], pieces := [], again := again } }

/-- A full active set, and a thread of higher priority. -/
def fullSet : State :=
  withOthers ({ other with prio := 9 } ::
    (List.range 63).map (fun i => { other with state := .active, index := BitVec.ofNat 32 (2 + i), slot := some (1 + i) }))

theorem witness_ThreadsMoveOnTheirCore :
    (withOthers [other]).nextAdmitted 0 = some other ∧ (withOthers [other]).find other.key = some other ∧
    (upto 0 64).find? (fun n => !((withOthers [other]).activeOn 0).any (fun u => u.slot == some n)) = some 1 ∧
    ((withOthers [other]).activeOn 0).length < 64 ∧ fullSet.nextAdmitted 0 = some { other with prio := 9 } ∧
    (least (fun t => t.prio.toNat * 2 ^ 64 + (2 ^ 64 - 1 - t.age.toNat)) (fullSet.activeOn 0)).any (fun v =>
      fullSet.find v.key == some v && v.key != other.key && decide (v.prio.toNat < 9) && v.trapStage == .none &&
        v.slot == some 1) = true ∧
    64 ≤ (fullSet.activeOn 0).length ∧
    (withOthers [other]).mayEvict other = true ∧ other.claims = [] ∧ other.accs = [] ∧ (withOthers [other]).forwards = [] ∧
    other.trapStage = .none ∧ (∀ x ∈ other.ctxBytes other.dirtyLines, (withOthers [other]).ctxReady other true x = .ok) ∧
    (let s := withOthers [other]
     let w := (s.took other true (s.ctxLocs other (other.ctxBytes other.dirtyLines)) true).writeLines other.regroup.unbound other.dirtyLines
     w.2 = [] ∧ (w.1.headerPlace other).isSome = true) ∧
    (withOthers [{ other with held := false }]).mayEvict { other with held := false } = false ∧
    (withOthers [parkedOther]).find parkedOther.key = some parkedOther ∧ parkedOther.held = true ∧
    parkedOther.trapStage = .none ∧ (withOthers [parkedOther]).waitOver parkedOther = false ∧
    (sm (withOthers [parkedOther]) 0x300000 16 (2 ^ 64)).waitOver parkedOther = true ∧
    (let p : Thread := { parkedOther with held := false }
     let s := withOthers [p]
     s.find p.key = some p ∧ s.ctxReady p true (p.ctx.toNat, 256) = .ok ∧ s.waitOver p = false ∧
     (sm s 0x300000 16 (2 ^ 64)).waitOver p = true ∧
     (s.took p true (s.ctxLocs p (p.ctxBytes [])) true).headerPlace p = some 0x700000) ∧
    (∀ y ∈ (withOthers [waitingOther false]).all, posCore y.cur = 0 → ∀ a ∈ y.accs, a.scratchStore = false) ∧
    (withOthers [waitingOther true]).find other.key = some (waitingOther true) ∧
    (withOthers [waitingOther false]).find other.key = some (waitingOther false) := by
  constructorm* _ ∧ _ <;> decide +kernel

/-- A register line that the thread waits for: one that is filled from its context, and one that is written whole. -/
theorem witness_ThreadsMoveOnTheirCore_lines :
    let t : Thread := { other with state := .active, pc := 0x200000 }
    let s := withOthers [t]
    let w := { s with mem := s.mem.writeNum 0x200000 4 0x010C1080 }
    w.find t.key = some t ∧ (w.waitsFor t).find? (fun x => x.1 == 0) = some (0, true) ∧ (w.core 0).pre = [] ∧
    (w.core 0).mode ≠ none ∧ w.ctxReady t false (t.ctx.toNat + 256, 128) = .ok ∧
    (w.took t false (w.ctxLocs t [(t.ctx.toNat + 256, 128)]) true).linePlace t 0 = some 0x700100 ∧
    (∃ m, (w.core 0).mode = some m ∧ w.usedOn 0 + 1 ≤ m.lines) ∧
    (let q := { s with mem := s.mem.writeNum 0x200000 4 (encode (.lqry 0 0)).toNat }
     (q.waitsFor t).find? (fun x => x.1 == 4) = some (4, false) ∧ (q.linePlace t 4).isSome = true) ∧
    (let v : Thread := { t with ctx := 2 ^ 43 }
     let n := { withOthers [v] with mem := w.mem }
     (n.waitsFor v).find? (fun x => x.1 == 0) = some (0, true) ∧ n.ctxReady v false (v.ctx.toNat + 256, 128) = .ok ∧
     (n.took v false (n.ctxLocs v [(v.ctx.toNat + 256, 128)]) true).linePlace v 0 = none) ∧
    (let p : LoadPiece := { key := 0x300000, n := 8, dst := 8, width := 8 }
     let b := { s with bad := [0x30000] }
     (b.badByte p.key p.n).isSome = true ∧ s.badByte p.key p.n = none) := by
  simp only []
  constructorm* _ ∧ _ <;> decide +kernel

/-- The second thread, of a program, in a space that is held back. -/
def heldBack (t : Thread) : State :=
  { withOthers [t] with spaces := two.spaces.map (fun x => { x with halted := true }) }

/-- A user thread that HALT evicts, and one that waits for an answer of a peer. -/
theorem witness_ShelvesLayersAndSupervisorWords_halt :
    let u : Thread := { other with priv := false }
    let s := heldBack u
    let b := { s with txns := [{ tag := 3, dev := 1, opc := .amo, key := 2 ^ 48, thread := some u.key }] }
    (s.space? 1).any (fun x => x.halted) = true ∧ (∀ v ∈ s.all, haltable 1 v = true ↔ v = u) ∧ (withOthers [u]).find u.key = some u ∧
    u.key ≠ two.thr.key ∧ s.mayEvict u = true ∧ u.claims = [] ∧ u.accs = [] ∧ u.trapStage = .none ∧
    (∀ y ∈ u.ctxBytes u.dirtyLines, s.ctxReady u true y = .ok) ∧
    (let w := (s.took u true (s.ctxLocs u (u.ctxBytes u.dirtyLines)) true).writeLines u.regroup.unbound u.dirtyLines
     w.2 = [] ∧ (w.1.headerPlace u).isSome = true) ∧
    (∀ v ∈ (s.evictAll (s.keysOf (haltable 1))).all, haltable 1 v = false) ∧
    (∃ v ∈ (b.evictAll (b.keysOf (haltable 1))).all, haltable 1 v = true) ∧ two.thr.halting = false := by
  constructorm* _ ∧ _ <;> decide +kernel

/-- A thread on its way to tile 1, and one to tower 6, whose cores are fenced by nothing but not present. -/
def flying (dest : Pos) : Thread := { other with state := .travelling, dest := dest, held := false, travelPc := 0x200000 }

/-- A thread whose trap is evicted, and space 1 with a queue of two slots at 6 MiB. -/
def evictedTrap : Thread := { other with trapStage := .evicted, held := false, trclass := 1, trapAt := 5 }

/-- Space 1 with a trap queue of two slots at 6 MiB that holds `n`. -/
def tqueue (n : Nat) : SpaceSt :=
  { id := 1, desc := BitVec.ofNat 2048 (0x100000 + 0x600000 * 2 ^ 64 + 2 ^ 224), tqCount := n }

theorem witness_CrumbsArriveAndTrapsAreRecorded :
    let near := { withOthers [flying 0x2000] with partmap := 8 }
    let t := flying 0x2000
    let far := { withOthers [flying 0xC0000] with present := 0x3F, partmap := 8 }
    let x := tqueue 0
    let s := { withOthers [evictedTrap] with spaces := [x] }
    near.find other.key = some t ∧ (∀ x ∈ t.ctxBytes (hotOf t.hotl t.hotn), near.ctxReady t true x = .ok) ∧
    t.killed = false ∧ t.group = {} ∧ near.crumbCore t = some 4 ∧ near.crumbCores t ≠ [] ∧ posDev t.dest = near.dev ∧
    far.find other.key = some (flying 0xC0000) ∧ far.crumbCores (flying 0xC0000) = [] ∧
    s.find other.key = some evictedTrap ∧ s.recordNext evictedTrap = true ∧ s.space? evictedTrap.space = some x ∧ x.tqPend = [] ∧
    x.tqLate = [] ∧ s.recordReady x = .ok ∧ x.field 191 128 = 0 ∧ x.tqCount < x.tqSize ∧ (tqueue 2).tqSize ≤ (tqueue 2).tqCount ∧
    (let a := s.took evictedTrap true (s.ctxLocs evictedTrap (evictedTrap.ctxBytes [])) true
     a.recordReady x = .ok ∧
     (a.postRecord evictedTrap.space (some evictedTrap.key) evictedTrap.record).headerPlace evictedTrap = some 0x700000) ∧
    (∀ x ∈ evictedTrap.ctxBytes (hotOf evictedTrap.hotl evictedTrap.hotn), s.ctxReady evictedTrap true x = .ok) ∧
    x.field 127 64 + 64 * ((x.tqHead + x.tqCount) % x.tqSize) + 64 ≤ 0x700000 := by
  simp only []
  constructorm* _ ∧ _ <;> decide +kernel

/-- What comes with a crumb of a launch that this device does not know. -/
def passport : Passport := { thread := ⟨0x100007, 1⟩, ctx := 0x700000, record := firstRecord, origin := 1 }

/-- A crumb's header that names the launch of `two`, index 1, and tile 1: taken, without room, and without a core. -/
theorem witness_CrumbsOfPeers :
    let header : BitVec 1024 := BitVec.ofNat 1024 ((flying 0x2000).header 6)
    let l := two.launches.headD { id := 0, space := 0, record := 0, origin := 0 }
    let c := crumbThread l header [(1, 0x400000)] none
    let s : State := { two.setLaunch l with partmap := 8 }
    let none_ := { s with present := 0 }
    let tight : State := { s with threads := (upto 4 4).map (fun k => { other with cur := posOf 0 k, index := BitVec.ofNat 32 k }) }
    s.launch? (header.extractLsb' 416 32) = some l ∧ s.crumbLaunch header none = some l ∧ posDev c.dest = s.dev ∧
    (s.launch? l.id).isSome = true ∧ s.space? c.space ≠ none ∧ s.crumbCore c = some 4 ∧ s.crumbRoom l c = true ∧
    s.ctxReady c true (c.ctx.toNat, 256) = .ok ∧ s.find c.key = none ∧ base.launch? 7 = none ∧ none_.crumbCore c = none ∧
    (base.launch? passport.thread.launch = none ∧ (base.crumbLaunch header (some passport)).isSome = true) ∧
    (∃ k, tight.crumbCore c = some k) ∧ tight.crumbRoom l c = false := by
  simp only []
  constructorm* _ ∧ _
  all_goals first
    | exact ⟨_, rfl⟩
    | decide +kernel

/-- Queue 4 of tile 0 holds one command, slot 0 is claimed. -/
def running (w : Work) : State :=
  let c : Cmd := { ticket := 1, by_ := engined.issuer engined.thr, direct := true, after := [], work := w }
  engined.setTile 0 ((engined.tile 0).setQueue 4 { enq := 1, done := 0, cmds := [c] })

theorem witness_PlaneZeroAndEpilogueCommands :
    let s := running .mswap
    let z := running (.mldw (rec_ 0x300000 1 [(0, 0), (0, 0)]) 0 0)
    let e := running (.mma 0 true 0 (rec_ 0x300000 1 [(32, 1), (1, 32)]) 0 1 (some (1, 0)))
    let erec := rec_ 0x300000 1 [(32, 1), (1, 32)]
    s.NoneWaits ∧ s.txns = [] ∧ (∃ c, ((s.tile 0).queue 4).cmds = [c] ∧ (s.tile 0).mayStart c = true ∧ c.work = .mswap) ∧
    (∃ c, ((z.tile 0).queue 4).cmds = [c] ∧ (z.tile 0).mayStart c = true ∧
      (let ps := z.rectPlaces (recWho c.by_ (z.tilePos 0) (rec_ 0x300000 1 [(0, 0), (0, 0)])) false
        (rec_ 0x300000 1 [(0, 0), (0, 0)]) (2 ^ 17) []
       z.engineParts (engineThread c.by_ 0 4) false (recStream (rec_ 0x300000 1 [(0, 0), (0, 0)])) ps ps = .ok)) ∧
    ((s.tile 0).slot 0).owner ≠ none ∧ e.NoneWaits ∧
    (∃ c, ((e.tile 0).queue 4).cmds = [c] ∧ (e.tile 0).mayStart c = true ∧
      (let ps := e.rectPlaces (recWho c.by_ (e.tilePos 0) erec) true erec (e.recPage c.by_.key c.by_.space 0 erec) [(0, 0)]
       e.engineParts (engineThread c.by_ 0 4) true false ps ps = .ok)) := by
  simp only [State.NoneWaits]
  constructorm* _ ∧ _
  all_goals first
    | exact ⟨_, rfl, by decide +kernel, by decide +kernel⟩
    | decide +kernel

theorem witness_MatrixMultiplyAddsShelfSums :
    let act := rec_ (0x1FFFF * 2 ^ 40) 1 [(32, 1), (1, 32)]
    let s := running (.mma 0 false act 0 0 1 none)
    let b := { s with towers := [(0, { parked := 0xF })] }
    let f := s.setTile 0 ((s.tile 0).setSlot 0 { accstat := 0xC0000000, owner := some (⟨1, 0⟩, 1) })
    s.NoneWaits ∧ s.txns = [] ∧ (∃ c, ((s.tile 0).queue 4).cmds = [c] ∧ (s.tile 0).mayStart c = true ∧
      c.work = .mma 0 false act 0 0 1 none) ∧ ((s.tile 0).slot 0).owner ≠ none ∧ ((s.tile 0).slot 0).faulted = false ∧
    (let m := running (.mma 0 true act act 0 0 none)
     ∃ c, ((m.tile 0).queue 4).cmds = [c] ∧ (m.tile 0).mayStart c = true ∧ c.work = .mma 0 true act act 0 0 none) ∧
    s.shelfUp 0 ≠ 0 ∧ (s.tile 0).active.nw ≤ 256 ∧ b.shelfUp 0 = 0 ∧ ((f.tile 0).slot 0).faulted = true := by
  simp only [State.NoneWaits]
  constructorm* _ ∧ _
  all_goals first
    | exact ⟨_, rfl, by decide +kernel, rfl⟩
    | decide +kernel

/-- The copy of the block in v2, with its one segment left. -/
def copying : State :=
  let r := rec_ 0x300000 1 [(32, 1), (1, 32)]
  let w : Work := .copy .copy (BitVec.ofNat 2048 (ofBytes (engined.thr.v 2))) r r none [0] [] []
  let c : Cmd := { ticket := 1, by_ := engined.issuer engined.thr, direct := true, after := [], work := w }
  engined.setTile 0 ((engined.tile 0).setQueue 1 { enq := 1, done := 0, cmds := [c] })

/-- The block in v2 with MMA of the claimed slot, or of one that is not claimed, as its follow-on. -/
def followBlock (slot : Nat) : BitVec 2048 :=
  BitVec.ofNat 2048 (ofBytes (engined.thr.v 2) + (0xC4000000 + slot * 16) * 2 ^ 1536 + 2 ^ 1664)

/-- A COPYM with it, with its one segment left. -/
def copyingOn (slot : Nat) : State :=
  let r := rec_ 0x300000 1 [(32, 1), (1, 32)]
  let w : Work := .copy .copym (followBlock slot) r r none [0] [] []
  let c : Cmd := { ticket := 1, by_ := engined.issuer engined.thr, direct := true, after := [], work := w }
  engined.setTile 0 ((engined.tile 0).setQueue 1 { enq := 1, done := 0, cmds := [c] })

/-- A follow-on that q4 receives, and one whose slot its thread has not claimed. -/
theorem witness_OutstandingWorkIsPerformed_followOn :
    [0, 1].all (fun (k : Nat) =>
      let s := copyingOn k
      let b := followBlock k
      let r := rec_ 0x300000 1 [(32, 1), (1, 32)]
      let by_ := engined.issuer engined.thr
      let j := s.copyJob 0 1 by_ .copym b r r none []
      let us := j.units 0
      let a := s.copyReach j (engineThread by_ 0 1) us true
      let ws := us.flatMap ((a.withRead []).unitWrites j.ws j.wd b (recFmt r))
      let s1 := a.writeAll (ws.filterMap id)
      ws.all Option.isSome && !cbSetf b && s.withShared j [0] 1 [0] == [0] &&
      s.engineParts (engineThread by_ 0 1) false (recStream r) (s.segSources j.ws us) (s.segSources j.ws us) == .ok &&
      s.engineParts (engineThread by_ 0 1) true false (s.copyTargets j us true) (s.copyTargets j us true) == .ok &&
      s.followNeed 0 by_ b == none && s1.followNeed 0 by_ b == none &&
      (((s1.find by_.key).bind (fun t => t.claim? (fowSlot (cbFow b)))).bind (fun c => c.phys) == if k = 1 then some (0, 0) else none) &&
      (s1.tile 0).isFaulted 0 == false &&
      match s1.mmaCheck by_ 0 ((cbFow b).extractLsb' 24 8 == (0xC5 : BitVec 8)) (cbFoa b) (cbFob b) with
      | .ok _ => true
      | _ => false) = true := by
  decide +kernel

theorem witness_OutstandingWorkIsPerformed :
    let s := copying
    let r := rec_ 0x300000 1 [(32, 1), (1, 32)]
    let b := BitVec.ofNat 2048 (ofBytes (engined.thr.v 2))
    let by_ := engined.issuer engined.thr
    let j := s.copyJob 0 1 by_ .copy b r r none []
    let from_ := s.segSources j.ws (j.units 0)
    let to_ := s.copyTargets j (j.units 0) true
    let a := s.copyReach j (engineThread by_ 0 1) (j.units 0) true
    s.NoneWaits ∧ s.txns = [] ∧ s.bad = [] ∧ ((s.tile 0).queue 1).cmds.length = 1 ∧
    (((s.tile 0).queue 1).cmds.all (fun c => (s.tile 0).mayStart c && c.work == .copy .copy b r r none [0] [] [] && c.by_ == by_)) = true ∧
    (s.tile 0).serves 1 = true ∧ cbSetf b = false ∧ s.withShared j [0] 1 [0] = [0] ∧
    s.engineParts (engineThread by_ 0 1) false (recStream r) from_ from_ = .ok ∧
    s.engineParts (engineThread by_ 0 1) true false to_ to_ = .ok ∧
    a.noteImages by_.scsz (a.segPlaces j.wd (j.units 0)) = a ∧
    (((j.units 0).flatMap ((a.withRead []).unitWrites j.ws j.wd b (recFmt r))).all (fun y => y.all (fun z =>
      z.high.isNone && (z.locs.map (fun l => l.n)).sum == z.n))) = true ∧
    (s.isPeer 0x300000 = false ∧ a.darkCheck { va := 0, n := 16, key := 0x300000, win := none } = .ok ()) ∧
    s.followNeed 0 by_ b = none := by
  simp only [State.NoneWaits]
  constructorm* _ ∧ _ <;> decide +kernel

/-- Two forwards to one copy, a store and a load outstanding. -/
theorem witness_OutstandingWorkIsPerformed_accesses :
    let f : Forward := { thread := ⟨1, 0⟩, bytes := [1, 2], primary := 0x300000, copies := [0x500000], left := [0x500000] }
    let s := { base with forwards := [f, f] }
    let st : Acc := .store 0 [{ key := 0x300000, bytes := [1] }]
    let ld : Acc := .load 1 [{ key := 0x300000, n := 1, dst := 8, width := 8 }]
    let t : Thread := { base.thr with accs := [st, ld] }
    let u := th base (fun _ => t)
    s.forwards[0]? = some f ∧ f.left[(0 : BitVec 9).toNat]? = some 0x500000 ∧ earlierForward (s.forwards.take 0) f 0x500000 = false ∧
    s.readyLoc (copierThread s) true (f.copyLoc 0x500000) = .ok ∧ s.thr.accs = [] ∧
    s.forwards[1]? = some f ∧ earlierForward (s.forwards.take 1) f 0x500000 = true ∧ u.find t.key = some t ∧ u.forwards = [] ∧
    splitAcc 0 [] t.accs = some ([], st) ∧ mayPerform st false [] = true ∧ splitAcc 1 [] t.accs = some ([st], ld) ∧
    u.accsReady { t with accs := [st] } = .ok ∧ u.accsReady { t with accs := [ld] } = .ok ∧ mayPerform ld false [st] = false ∧ mayPerform ld false [] = true := by
  simp only []
  constructorm* _ ∧ _ <;> decide +kernel

/-- One launch whose thread is gone, with every stage due in turn. -/
def watched (fired : Nat) : State :=
  let l : Launch := { id := 1, space := 1, record := firstRecord, origin := 0, started := true, fired := BitVec.ofNat 3 fired }
  { base with
    thr := {}
    launches := [l]
    spaces := [tqueue 2] }

theorem witness_WatchdogStagesFire :
    let l (n : Nat) : Launch := { id := 1, space := 1, record := firstRecord, origin := 0, started := true, fired := BitVec.ofNat 3 n }
    let q := (l 0).queue
    (watched 0).launch? 1 = some (l 0) ∧ (watched 0).NoneWaits ∧
    (∀ u ∈ (watched 0).all, u.key.launch = 1 → u.held = false ∧ u.state = .done) ∧
    (watched 0).stageDue q 1 = some (l 0) ∧ (watched 0).stageDue q 2 = none ∧ (watched 1).stageDue q 1 = none ∧
    (watched 1).stageDue q 2 = some (l 1) ∧ (watched 3).stageDue q 3 = some (l 3) ∧ (watched 0).stageDue q 3 = none ∧
    (watched 0).space? (l 0).space = some (tqueue 2) ∧ (tqueue 2).tqPend = [] ∧ (tqueue 2).tqLate = [] ∧
    (∀ u ∈ (watched 0).all, u.space = 1 → u.trapStage = .none) ∧ (l 3).reported.contains (watched 3).dev = false ∧ (tqueue 2).tqSize ≤ (tqueue 2).tqCount ∧
    (l 1).spans = false ∧ (l 1).aw = none := by
  simp only [State.NoneWaits]
  constructorm* _ ∧ _ <;> decide +kernel

/-- The first sensor of each kind of place, at its limit. -/
theorem witness_SensorsThrottleAndTrip : (1791 : BitVec 11).toNat < 1792 ∧ 2 ≤ (32 : Nat) % 224 / 16 ∧ (32 : Nat) % 224 / 16 < 6 ∧
    base.therm.1.toNat ≤ (840 : BitVec 11).toNat ∧ (0 : Nat) % 224 / 16 = 0 ∧ base.therm.2.1.toNat ≤ (760 : BitVec 11).toNat ∧
    base.therm.2.2.toNat ≤ (920 : BitVec 11).toNat ∧ base.sensorOff 1584 = false ∧
    base.sensorOff 32 = false ∧ base.sensorOff 0 = false ∧ base.sensorOff 1791 = true := by
  decide +kernel

/-- Space 1 with its root table at 0x180000: a mobile page at 2 ^ 44 alone, whose L0 entry stands at 0x140000, with a choice of a frame
for it. -/
def mobile : State :=
  let s := sm (sm (sm base (0x180000 + 32) 16 0x120001) 0x120000 16 0x140001) 0x140000 16 0x80001B
  { s with
    spaces := [{ id := 1, desc := 0x180000 }]
    chosen := [(1, 2 ^ 44, 0xA00000)] }

theorem mobile_movable : mobile.movable 1 (2 ^ 44) 0xA00000 = some (0x140000, 0x80001B) := by
  have h : mobile.entryAt 1 (2 ^ 44) = some 0x140000 := by decide +kernel
  unfold State.movable
  rw [h]
  simp only [Option.bind_some, badByte_clean mobile _ _ rfl]
  decide +kernel

/-- The weight layer at 2 ^ 40 is on, and the page had three accesses in the interval. -/
def wanted : State := { mobile with
  power := (96, .on) :: mobile.power
  counts := [(0x800000 / 2 ^ 17, 3)] }

/-- The page in side DRAM may move to the weight stack, which is preferred. -/
theorem witness_PatrolsAndPageMoves_choice :
    let c : BitVec 16 × Word × BitVec 60 := (1, 2 ^ 44, 2 ^ 40)
    ∃ x, wanted.choice? c = some x ∧ x.new < x.old ∧ x.count = 3 := by
  have h : wanted.movable 1 (2 ^ 44) (2 ^ 40) = some (0x140000, 0x80001B) := by
    have h : wanted.entryAt 1 (2 ^ 44) = some 0x140000 := by decide +kernel
    unfold State.movable
    rw [h]
    simp only [Option.bind_some, badByte_clean wanted _ _ rfl]
    decide +kernel
  refine ⟨{ space := 1, va := 2 ^ 44, frame := 2 ^ 40, count := 3, old := 1, new := 0 }, ?_, by decide, rfl⟩
  unfold State.choice?
  have e : ((2 ^ 44 : Word).toNat = 2 ^ 44) ∧ (2 ^ 40 : BitVec 60).toNat = 2 ^ 40 := by decide +kernel
  simp only [e.1, e.2, h, Option.bind_some]
  decide +kernel

theorem witness_PatrolsAndPageMoves :
    let x : SpaceSt := { id := 1, desc := BitVec.ofNat 2048 (0x100000 + 2 ^ 192) }
    let m : Move := { space := 1, va := 2 ^ 44, entryAt := 0x140000, old := 0x80001B, frame := 0xA00000 }
    let y : Shard := { part := 0, number := 1, space := 1, base := 0x600000, len := 2 ^ 17, digest := 0 }
    let kept : State := { base with
      spaces := [x]
      shards := [y, { y with space := 2 }] }
    kept.space? 1 = some x ∧ x.field 223 192 ≠ 0 ∧ (tqueue 0).field 223 192 = 0 ∧
    kept.ready (firmwareThread 1) false ((kept.shards.filter (fun z => z.space == 1)).map (fun z => plainLoc z.base z.len)) = .ok ∧
    y ∈ kept.shards ∧
    mobile.chosen = [(1, 2 ^ 44, 0xA00000)] ∧ (∀ u ∈ mobile.all, u.accs = []) ∧ mobile.forwards = [] ∧ mobile.frameBusy (eBase 0x80001B) = false ∧ mobile.movable 2 0 0 = none ∧
    mobile.movable 1 (2 ^ 44) 0xA00000 = some (0x140000, 0x80001B) ∧ 0x140000 + 16 ≤ eBase 0x80001B ∧
    mobile.ready (moverThread 1) true [plainLoc 0x140000 16, plainLoc (eBase 0x80001B) (2 ^ 17), plainLoc 0xA00000 (2 ^ 17)] = .ok ∧
    ({ mobile with moves := [m] } : State).moves = [m] ∧ mobile.waiting = [] ∧
    mobile.ready (moverThread m.space) true [plainLoc m.entryAt 16] = .ok ∧
    (sm mobile 0x140000 16 0x80001F).mem.readNum m.entryAt 16 = m.old.toNat + 4 ∧ mobile.mem.readNum m.entryAt 16 ≠ m.old.toNat + 4 := by
  constructorm* _ ∧ _
  all_goals first
    | with_reducible exact mobile_movable
    | decide +kernel

theorem witness_SemaphoreIsGrantedAndFreed :
    let b : BitVec 2048 := BitVec.ofNat 2048 0x10
    let d : State := { base with cmdPorts := [(0, 3), (1, 4)] }
    let g : State := { d with
      semGen := 7
      lastGrant := some true }
    d.isCommandPort false = true ∧ d.isCommandPort true = true ∧ base.isCommandPort true = false ∧ g.lastGrant = some true ∧
    ({ g with turns := [.semWrites 1 1] } : State).turns = [.semWrites 1 1] ∧ g.holder = 0 ∧ (1 : Word).toNat % 4 = 1 ∧
    ({ g with turns := [.semRead true] } : State).turns = [.semRead true] ∧
    State.reset.holder = 0 ∧ ({ base with holder := 1 } : State).holder = (if false then 2 else 1) ∧
    ({ base with holder := 1 } : State).holder ≠ (if true then 2 else 1) ∧ base.inHand.contains (.port true b) = false ∧
    cmdCode b = 0x10 ∧ State.reset.booted = false ∧ base.booted = true ∧
    (⟨0x10, true, false, [(64, 4), (72, 3), (80, 1), (128, 64)]⟩ : CmdRow).clean b = true := by
  constructorm* _ ∧ _ <;> decide +kernel

/-- Port 0 holds the semaphore; both command ports are designated; tower 0 and 7 belong to partition 0; space 1, a running launch. -/
def hosted : State := { owned with
  holder := 1
  cmdPorts := [(0, 3), (1, 4)] }

/-- A command block: its code, and its dwords from 1. -/
def block (code : Nat) (ds : List Nat) : BitVec 2048 := BitVec.ofNat 2048 (code + pack (ds.map (fun d => (64, d))) * 2 ^ 64)

/-- Whether a command passes the checks before its own. -/
def passes (s : State) (r : CmdRow) (b : BitVec 2048) : Bool :=
  cmdCode b == r.code && !s.inHand.contains (.port false b) && s.isCommandPort false && s.cmdStatus r (.port false b) b none == 0

/-- The BIAS of one page in hand, at its first page or past it, and the UNFENCE of core 511, which is fenced. -/
def inBias (n : Nat) : State :=
  let src := CmdSrc.port false (block 0x30 [0x300000, 1, 1])
  { hosted with
    inHand := [src]
    flips := [{ src := src, at_ := n, count := n }] }

/-- A device of the fabric holds a line of the page, or none does. -/
def heldPage : State := { inBias 0 with dir := [{ line := 0x6000, state := .s, rdev := [1] }] }

/-- Core 511 is fenced and its UNFENCE is in hand; it was fenced again meanwhile. -/
def inUnfence : State :=
  let src := CmdSrc.port false (block 0x60 [511])
  { hosted with
    inHand := [src]
    cores := [(511, { fenced := true })]
    refenced := [511] }

/-- A page of the command may be turned at once, or waits for a line to come back; a command past its last page ends. -/
theorem witness_HostCommandsAct_inHand :
    let x : Flip := ((inBias 0).flips.find? (fun y => y.src == .port false (block 0x30 [0x300000, 1, 1]))).getD { src := .doe 0 0 }
    let done := ((inBias 1).flips.find? (fun y => y.src == .port false (block 0x30 [0x300000, 1, 1]))).getD { src := .doe 0 0 }
    (inBias 0).inHand.contains (.port false (block 0x30 [0x300000, 1, 1])) = true ∧ x.at_ = 0 ∧ done.at_ = 1 ∧
    localPage 0x300000 = 24 ∧ (inBias 0).hostBias.contains 24 = false ∧ ({ inBias 0 with hostBias := [24] } : State).hostBias.contains 24 = true ∧
    (inBias 0).pageDirs 24 = [] ∧ heldPage.pageDirs 24 = [{ line := 0x6000, state := .s, rdev := [1] }] ∧
    inUnfence.inHand.contains (.port false (block 0x60 [511])) = true ∧ inUnfence.towerIn 0 7 = true ∧ inUnfence.on 511 = [] ∧
    (inUnfence.core 511).fenced = true ∧ inUnfence.refenced.contains 511 = true := by
  constructorm* _ ∧ _ <;> decide +kernel

theorem witness_HostCommandsAct :
    (∀ u ∈ hosted.all, u.accs = []) ∧ hosted.forwards = [] ∧
    hosted.ready (firmwareThread 1) false [plainLoc 0xA00000 (2 ^ 17)] = .ok ∧
    hosted.shards.any (fun x => x.space != 1 && overlaps (x.base, x.len) (0x800000, 2 ^ 17)) = false ∧
    (∀ x ∈ parts 0x800000 (2 ^ 17), hosted.towerIn 0 (memTower (x.1 % 2 ^ 48)) = true) ∧ hosted.usable 0xA00000 (2 ^ 17) = true ∧
    passes hosted ⟨0x01, false, false, [(64, 12), (80, 8), (128, 32), (192, 1024)]⟩ (block 0x01 []) = true ∧
    passes hosted ⟨0x02, false, false, [(64, 448)]⟩ (block 0x02 [0, 0, 0, 0, 0x300000, 2 ^ 16]) = true ∧
    passes hosted ⟨0x10, true, false, [(64, 4), (72, 3), (80, 1), (128, 64)]⟩ (block 0x10 [7]) = true ∧
    hosted.towerKept 7 = false ∧ hosted.towerKept 0 = true ∧
    passes hosted ⟨0x11, true, true, [(64, 128)]⟩ (block 0x11 [2 ^ 17]) = true ∧ hosted.inMemory (2 ^ 17) (2 ^ 17) = true ∧
    passes { records with cmdPorts := hosted.cmdPorts } ⟨0x20, false, true, [(64, 64), (128, 16), (192, 64)]⟩ (block 0x20 [0x300000, 1]) = true ∧
    records.usable 0x300000 256 = true ∧ records.badByte 0x300000 256 = none ∧ spaceOk 0 1 = true ∧ spaceOk 0 0x200 = false ∧
    records.ready (firmwareThread 1) false [plainLoc 0x300000 256] = .ok ∧
    passes hosted ⟨0x21, false, true, [(64, 16), (128, 32), (192, 64)]⟩ (block 0x21 [1, 1]) = true ∧ hosted.killable 1 1 = true ∧
    hosted.killable 1 2 = false ∧
    passes hosted ⟨0x30, true, true, [(64, 64), (128, 32), (192, 1), (256, 64)]⟩ (block 0x30 [0x300000, 1, 1]) = true ∧
    hosted.inMemory 0x300000 (2 ^ 17) = true ∧ hosted.towerIn 0 (memTower 0x300000) = true ∧
    hosted.ready (firmwareThread 0) true [plainLoc 0x300000 (2 ^ 17)] = .ok ∧
    passes hosted ⟨0x40, true, true, [(64, 192)]⟩ (block 0x40 [0xF7, 2]) = true ∧ powerRequest 0xF7 2 = some (7, 0xF7, .off) ∧
    passes hosted ⟨0x41, true, true, [(64, 3), (128, 4), (192, 1), (256, 64)]⟩ (block 0x41 [7, 15, 1]) = true ∧ hosted.towerIn 0 7 = true ∧
    passes hosted ⟨0x50, false, true, [(64, 16), (128, 512)]⟩ (block 0x50 [1, 0x800000, 2 ^ 17, 0xA00000]) = true ∧
    hosted.usable 0x800000 (2 ^ 17) = true ∧
    passes hosted ⟨0x51, false, true, [(64, 16), (128, 64)]⟩ (block 0x51 [1, 1]) = true ∧
    passes hosted ⟨0x60, true, true, [(64, 9)]⟩ (block 0x60 [511]) = true ∧ hosted.on 511 = [] ∧
    passes hosted ⟨0x70, true, false, [(64, 11), (80, 11), (96, 11), (128, 11), (144, 11), (160, 11)]⟩ (block 0x70 [840]) = true := by
  constructorm* _ ∧ _ <;> decide +kernel

/-- A half that the module does not snoop, one that it does, in host bias or not; a line with a queue. -/
theorem witness_HostsReachModuleAndSnoop :
    let s := { base with bisnp := [(0x10000, true)] }
    let q := { base with lineQueue := [{ line := 0x8000, req := .tile 0 1 false [] }] }
    let c := { s with called := [0x8000] }
    (c.snooped 0x10000 = true ∧ c.called.contains 0x8000 = true ∧ s.called.contains 0x8000 = false) ∧ base.snooped 0x10000 = false ∧ q.snooped 0x10000 = false ∧ base.lineQueue = [] ∧
    (q.lineQueue.any (fun x => x.line == 0x8000) = true ∧ q.called.contains 0x8000 = false) ∧ base.flipping 0x8000 = false ∧
    base.wayLater 0x8000 = none ∧ base.readyAmongPeers 0 true 0x8000 = .ok ∧ s.snooped 0x10000 = true ∧
    s.readyAmongPeers 0 true 0x8000 = .ok ∧ s.readyAmongPeers 0 false 0x8000 = .ok ∧ (0x10000, true) ∈ s.bisnp ∧
    s.bisnp.find? (fun x => x.1 == 0x10000) = some (0x10000, true) ∧ s.waiting = [] ∧
    ({ base with hostBias := [8] } : State).hostBias.contains ((0x100000 : BitVec 48).toNat / 2 ^ 17) = true ∧
    base.readyAmongPeers 0 false 0x8000 = .ok ∧
    base.NoneWaits ∧ base.asksHalf 5 = false ∧ ({ base with outHost := [.rdOwn 5] } : State).asksHalf 5 = true ∧
    ({ base with halfAsks := [(5, 2)] } : State).halfAsks.find? (fun a => a.1 == 5) = some (5, 2) ∧
    (∃ h ∈ ({ base with halves := [{ tile := 2, unit := 5, st := .m }] } : State).halves, h.unit = 5 ∧ h.st = .m) := by
  simp only [State.NoneWaits]
  constructorm* _ ∧ _ <;> decide +kernel

/-- A request of device 1 for the line at 3 MiB. -/
def fromPeer : MsgHdr := { srcDev := 1, srcPos := 0, tag := 3, scope := .sys, addr := 0x30000 }

theorem witness_HomesServePeers :
    let s := base
    let d := { base with dir := [{ line := 0x6000, state := .s, rdev := [1] }] }
    let q := { base with lineQueue := [{ line := 0x6000, req := .tile 0 1 false [] }] }
    s.NoneWaits ∧ q.NoneWaits ∧ d.NoneWaits ∧ s.waiting = [] ∧ fromPeer.addr.toNat / 8 = 0x6000 ∧
    s.homeFault 0x300000 128 true = none ∧ q.homeFault 0x300000 128 true = none ∧
    (q.lineQueue.any (fun x => x.line == 0x6000) = true ∧ q.called.contains 0x6000 = false) ∧
    s.lineQueue = [] ∧ s.flipping 0x6000 = false ∧ s.readyPeerReq fromPeer false false false [0, 1] = .ok ∧
    s.readyPeerReq fromPeer true true false [0, 1] = .ok ∧ s.readyPeerReq fromPeer true false true [0, 1] = .ok ∧
    d.homeFault 0x300000 128 true = none ∧ d.readyPeerReq fromPeer true true false [0, 1] = .ok ∧
    (d.dirEntry 0x6000).rdev.contains 1 = true ∧ s.homeFault 0x300000 128 false = none ∧ s.homeFault 0x300000 16 false = none ∧
    s.homeFault 0x300000 8 true = none ∧ s.homeFault 0x300000 16 true = none ∧ s.readyPeerReq fromPeer true false true [halfIn 0x300000] = .ok ∧
    s.readyPeerReq fromPeer false false true [halfIn 0x300000] = .ok ∧
    cellBad (s.mem.readNum 0x300000 16) = false ∧ cellBad ((sm s 0x300000 16 (3 * 2 ^ 80)).mem.readNum 0x300000 16) = true ∧
    (cellOp .crd true 0 0 0 0).isNone = true ∧ s.homeFault (2 ^ 39) 128 true = some (4, 5) := by
  simp only [State.NoneWaits]
  constructorm* _ ∧ _ <;> decide +kernel

theorem witness_HomesAndHoldersAnswer :
    let e : DirEntry := { line := 0x6000, state := .busy, ownerDev := some 1 }
    let s := { base with dir := [e] }
    let u := 1 * 2 ^ 41 + 0x6000
    (base.dirEntry 0x6000).state ≠ .busy ∧ s.dirEntry 0x6000 = e ∧ e.ownerDev = some fromPeer.srcDev ∧ e.rdev = [] ∧ e.line = 0x6000 ∧
    fromPeer.addr.toNat / 8 = 0x6000 ∧ (base.dirEntry 0x6000).ownerDev ≠ some fromPeer.srcDev ∧ base.NoneWaits ∧
    base.writingBack u = false ∧ base.lineHeld u = false ∧
    ({ base with txns := [{ tag := 3, dev := 1, opc := .rds, key := u * 128, thread := none }] } : State).lineHeld u = true ∧
    ({ base with remote := [{ unit := u, st := .m }] } : State).lineState u = .m := by
  simp only [State.NoneWaits]
  constructorm* _ ∧ _ <;> decide +kernel

/-- A transaction at device 1 with tag 3. -/
def asked (o : Opc) (t : Option Key) : Txn := { tag := 3, dev := 1, opc := o, key := 2 ^ 48 + 0x300000, thread := t }

theorem witness_RepliesEndTransactions :
    let away := flying (2 ^ 20)
    let s := { withOthers [away] with txns := [asked .crumb (some other.key)] }
    base.NoneWaits ∧ base.waiting = [] ∧ (asked .rds none).dev = fromPeer.srcDev ∧ (asked .rds none).tag = fromPeer.tag ∧
    (asked .rds none).answer = none ∧ (asked .rds none).stale = false ∧
    [Opc.rds, .rdo, .rdc, .upg, .amo, .cell, .arrv, .wrl, .wrp, .wb].all (fun o =>
      ({ base with txns := [asked o (some other.key)] } : State).txnOf fromPeer (fun p => p == o) == some (asked o (some other.key))) = true ∧
    ({ base with txns := [asked .rdc none] } : State).lineState ((asked .rdc none).key / 128) = .i ∧
    s.txnOf fromPeer (fun o => o == .crumb) = some (asked .crumb (some other.key)) ∧ other.key ≠ s.thr.key ∧ some other.key ≠ some firmwareKey ∧
    s.NoneWaits ∧ s.orphan other.key = false ∧ asked .crumb (some other.key) ∈ s.txns ∧
    s.find other.key = some away ∧ away.state = .travelling ∧ away.trapStage = .none ∧ away.killed = false ∧ away.group = {} ∧
    posDev away.dest ≠ s.dev ∧ s.ctxReady away true (away.ctx.toNat, 256) = .ok ∧
    base.txnOf fromPeer (fun _ => true) = none := by
  simp only [State.NoneWaits]
  constructorm* _ ∧ _ <;> decide +kernel

/-- Port 3, up with some failures and one flit unacknowledged, or down. -/
def linked (up : Bool) (fails : Nat) : State :=
  State.reset.setPort 3 { peer := true, dev := 1, up := up, seq := 6, lastIn := 4, unacked := [(6, none)], fails := fails }

/-- Port 4 is up toward the same device too. -/
def twoLinks : State := (linked true 0).setPort 4 { peer := true, dev := 1, up := true }

theorem witness_LinksCountAndReplay :
    ((linked true 8).port (3 : BitVec 5).toNat).up = true ∧ (∃ x ∈ ((linked true 8).port 3).unacked, x.1 = 6) ∧
    (∀ x ∈ ((linked true 8).port 3).unacked, x.1 ≠ 7) ∧ ((linked true 8).port 3).credits = [0, 0, 0, 0] ∧
    ((linked true 8).port 3).peer = true ∧ ((linked false 0).port 3).up = false ∧ ((linked true 8).port 3).fails < 9 ∧
    9 ≤ ((linked true 9).port 3).fails ∧ (linked true 9).launches = [] ∧ (linked true 9).txns = [] ∧ (linked true 9).dir = [] ∧
    (linked true 9).locks = [] ∧ (∀ q ∈ (linked true 9).ports, q.1 ≠ (3 : BitVec 5).toNat → q.2.up = false) ∧
    (twoLinks.port 3).up = true ∧ twoLinks.txns = [] ∧
    (∃ q ∈ twoLinks.ports, q.1 ≠ (3 : BitVec 5).toNat ∧ q.2.up = true ∧ q.2.dev = (twoLinks.port 3).dev) := by
  constructorm* _ ∧ _ <;> decide +kernel

/-- The record of a launch of two threads at one level that spans this device and device 1. -/
def spanning : Launch :=
  { id := 7, space := 1, origin := 0, record := BitVec.ofNat 2048 (2 ^ 344 * 2 + (2 + 5 * 2 ^ 32 + 5 * 2 ^ 36) * 2 ^ 1024 + 2 ^ (1536 + 16)) }

theorem witness_SpanningLaunchesAreShared :
    let l := spanning
    let s := { State.reset with launches := [l] }
    let full : State := { State.reset with launches := (upto 8 16).map (fun n => { l with id := BitVec.ofNat 32 n }) }
    State.reset.early = [] ∧ l.devlist.contains State.reset.dev = true ∧ ({ l with record := 0 } : Launch).devlist.contains 0 = false ∧
    State.reset.launch? 7 = none ∧ full.launch? 7 = none ∧ State.reset.queueFull l.queue = false ∧ State.reset.recordsIn = [] ∧
    full.queueFull l.queue = true ∧ l.guest = false ∧
    ({ l with asked := true } : Launch).size ≤ (2 : BitVec 32).toNat ∧ s.launch? 7 = some l ∧ l.origin = s.dev ∧ l.spans = true ∧
    l.nlev = 0 ∧ l.nextIndex < l.size ∧ l.noMore = false ∧ l.asked = false ∧ l.allDone s.dev = false ∧
    ({ l with nextIndex := 2 } : Launch).size ≤ 2 ∧ (1 : BitVec 32).toNat < l.size ∧
    (∃ v ∈ l.devlist, v ≠ 1 ∧ l.reported.contains v = false) ∧
    (∃ m, two.launch? 1 = some m ∧ m.spans = false ∧ m.aw = none ∧ m.guest = false) ∧ State.reset.NoneWaits ∧
    (∀ u ∈ ({ two with thr := {} } : State).all, u.key.launch = 1 → u.state = .done) ∧
    ({ State.reset with turns := [.lock 1 63] } : State).turns = .lock 1 63 :: [] ∧ (1 : BitVec 12) ≠ State.reset.dev := by
  simp only [State.NoneWaits]
  constructorm* _ ∧ _ <;> decide +kernel

/-- The launch of the second thread spans both devices; that thread is on its way, or both are DONE; a record of it waits for room. -/
theorem witness_SpanningLaunchesAreShared_kill :
    let l : Launch := { spanning with id := 1 }
    let s := { withOthers [flying 0x2000] with launches := [l] }
    let d := { withOthers [{ other with state := .done, held := false }] with launches := [l], thr := { two.thr with state := .done } }
    let q : State := { State.reset with recordsIn := [{ origin := 1, id := 9, space := 1, record := l.record }] }
    let g : State := { State.reset with launches := [{ spanning with guest := true }] }
    let o : Launch := { spanning with origin := 1 }
    s.launch? 1 = some l ∧ l.spans = true ∧ (s.all.map Thread.key).Nodup ∧ (∃ u ∈ s.all, u.key.launch = 1 ∧ u.state ≠ .done) ∧
    d.launch? 1 = some l ∧ (d.all.map Thread.key).Nodup ∧ (¬ ∃ u ∈ d.all, u.key.launch = 1 ∧ u.state ≠ .done) ∧
    bits (7 : BitVec 32).toNat 31 20 = State.reset.dev.toNat ∧ bits (0x100007 : BitVec 32).toNat 31 20 ≠ State.reset.dev.toNat ∧
    (∃ a ∈ ({ d with away := [⟨⟨1, 1⟩, 1, 0, 5⟩] } : State).away, a.thread.launch = 1) ∧
    (∃ x ∈ q.recordsIn, x.queue = spanning.queue) ∧ (∃ x, g.launch? 7 = some x ∧ x.guest = true) ∧
    ({ State.reset with launches := [o] } : State).launch? 7 = some o ∧ o.origin ≠ State.reset.dev ∧
    ({ spanning with noMore := true } : Launch).noMore = true ∧ ({ spanning with asked := true } : Launch).asked = true := by
  simp only []
  constructorm* _ ∧ _
  all_goals first
    | exact ⟨_, rfl, rfl⟩
    | decide +kernel

theorem witness_BadFetchesAndWordsTrap :
    let s := th base (fun t => { t with pc := 2 ^ 43 })
    s.access (s.who s.thr .none) .fetch s.thr.pc 4 4 = .trap (xlatTrap 1 2 (2 ^ 43)) ∧ decode 0 = .error .unassigned ∧
    decode 0x010C1081 = .error .reserved ∧ base.thr.group = {} ∧ base.thr.afterHint = false := by
  constructorm* _ ∧ _ <;> decide +kernel

/-- A message with a SEQ on port 3. -/
def onPort (seq : BitVec 12) : MsgHdr := { srcDev := 1, srcPos := 0, tag := 3, scope := .sys, addr := 0x30000, port := 3, seq := seq }

theorem witness_StepRunsTheDecodedWord :
    let s := State.reset.withFetchWord 32 0x010C1080
    let a : State := { s.tick 0 with late := false }
    let b := a.pruneOwed 0 []
    s.turns = [] ∧ s.evNext = false ∧ s.nextCore = some 0 ∧
    (b.select 0 []).any (fun t =>
      let f := b.focusOn t
      f.fetch f.thr == .word 0x010C1080 && f.accsReady f.thr == .ok && f.thr.badRead (.add 3 1 2) == none &&
        match exec (.add 3 1 2) f with
        | .next u => t.issued ((u.find t.key).getD t)
        | _ => false) = true ∧ decode 0x010C1080 = .ok (.add 3 1 2) ∧
    Instr.isTurn .leaseLapse = true ∧ Instr.message? .leaseLapse = none ∧ Instr.isTurn (.rds (onPort 5)) = true ∧
    Instr.message? (.rds (onPort 5)) = some (onPort 5, 0, 1) ∧ ((linked true 0).port 3).up = true ∧
    (onPort 5).seq = ((linked true 0).port (onPort 5).port.toNat).lastIn + 1 ∧ (onPort 6).seq ≠ ((linked true 0).port 3).lastIn + 1 := by
  constructorm* _ ∧ _ <;> decide +kernel

theorem witness_MemoryStaysCanonical : State.reset.mem = [] ∧ (∃ t, step State.reset = .next t) := ⟨rfl, _, rfl⟩

theorem witness_DecodingInvertsEncoding : (Instr.amod 63 0 1 .ar .cas).WellFormed := by decide

theorem witness_DecodedWordsAreEncodings : decode 0x5E14_41B9 = .ok (.amod 5 4 6 .ar .cas) := rfl

end Sys2Proof.Tests
end

/-! ## Integer words on registers (spec R182 to R185) -/

/-! ### Numbers, bits and fields -/

namespace Sys2Proof.Machine

/-- The model's list of numbers is the library's. -/
theorem upto_eq_range' (a n : Nat) : upto a n = List.range' a n := by
  induction n generalizing a with
  | zero => rfl
  | succ n ih => rw [upto, ih, List.range'_succ]

theorem upto_zero_eq_range (n : Nat) : upto 0 n = List.range n := by
  rw [upto_eq_range', List.range_eq_range']

/-- The model's bit of a number is the library's. -/
theorem bit_eq_testBit (x i : Nat) : bit x i = x.testBit i := by
  rw [Nat.testBit_eq_decide_div_mod_eq]; rfl

theorem bit_toNat {w : Nat} (x : BitVec w) (i : Nat) : bit x.toNat i = x.getLsbD i := by
  rw [bit_eq_testBit, BitVec.testBit_toNat]

/-- The signed reading of the low bits is the two's complement one. -/
theorem signed_eq_toInt (n x : Nat) : signed n x = (BitVec.ofNat n x).toInt := by
  simp only [signed, BitVec.toInt_eq_toNat_cond, BitVec.toNat_ofNat]
  by_cases h : 2 * (x % 2 ^ n) < 2 ^ n
  · rw [if_neg (by omega), if_pos h]
  · rw [if_pos (by omega), if_neg h, Nat.cast_pow, Nat.cast_ofNat]

/-- Cutting an integer to a word keeps it modulo the word's size. -/
theorem ofNat_cut (n : Nat) (x : Int) : BitVec.ofNat n (cut n x) = BitVec.ofInt n x := by
  apply BitVec.eq_of_toNat_eq
  rw [BitVec.toNat_ofNat, BitVec.toNat_ofInt, cut]
  have := Int.emod_lt_of_pos x (b := ((2 ^ n : Nat) : Int)) (by exact_mod_cast Nat.two_pow_pos n)
  exact Nat.mod_eq_of_lt (by have := Nat.two_pow_pos n; omega)

/-! ### Shifts and rotations (spec R183) -/

theorem shiftLeft_eq_mul (a : Word) (n : Nat) : a <<< n = BitVec.ofNat 64 (a.toNat * 2 ^ n) := by
  rw [← Nat.shiftLeft_eq]; rfl

theorem shiftRight_eq_div (a : Word) (n : Nat) : a >>> n = BitVec.ofNat 64 (a.toNat / 2 ^ n) := by
  rw [← Nat.shiftRight_eq_div_pow, ← BitVec.toNat_ushiftRight, BitVec.ofNat_toNat, BitVec.setWidth_eq]

theorem sshiftRight_eq_div (a : Word) (n : Nat) : a.sshiftRight n = BitVec.ofInt 64 (a.toInt / 2 ^ n) := by
  rw [BitVec.sshiftRight_eq, Int.shiftRight_eq_div_pow, Nat.cast_pow, Nat.cast_ofNat]

/-- A rotation adds what leaves at the top to what moves up: the two have no bit in common. -/
theorem rotateLeft_eq_add (a : Word) {n : Nat} (hn : n < 64) :
    a.rotateLeft n = BitVec.ofNat 64 (a.toNat * 2 ^ n + a.toNat / 2 ^ (64 - n)) := by
  have apart : a <<< n &&& a >>> (64 - n) = 0 := by
    ext i hi
    by_cases h : i < n
    · simp [h]
    · have : 64 ≤ 64 - n + i := by omega
      simp [BitVec.getElem_ushiftRight, BitVec.getLsbD_of_ge _ _ this]
  rw [BitVec.rotateLeft_def, Nat.mod_eq_of_lt hn, ← BitVec.add_eq_or_of_and_eq_zero _ _ apart, BitVec.ofNat_add,
    shiftLeft_eq_mul, shiftRight_eq_div]

/-! ### Order (spec R183) -/

theorem flag_decide (c : Prop) [Decidable c] : flag (decide c) = if c then 1 else 0 := by
  by_cases h : c <;> simp [flag, h]

theorem flag_slt (a b : Word) : flag (a.slt b) = if a.toInt < b.toInt then 1 else 0 := by
  rw [BitVec.slt_eq_decide, flag_decide]

theorem flag_ult (a b : Word) : flag (a.ult b) = if a.toNat < b.toNat then 1 else 0 := by
  rw [BitVec.ult_eq_decide, flag_decide]

theorem ite_slt_eq_min (a b : Word) : (if a.slt b then a else b) = BitVec.ofInt 64 (min a.toInt b.toInt) := by
  simp only [min_def_lt, apply_ite (BitVec.ofInt 64), BitVec.ofInt_toInt, BitVec.slt_iff_toInt_lt]

theorem ite_slt_eq_max (a b : Word) : (if a.slt b then b else a) = BitVec.ofInt 64 (max a.toInt b.toInt) := by
  simp only [max_def_lt, apply_ite (BitVec.ofInt 64), BitVec.ofInt_toInt, BitVec.slt_iff_toInt_lt]

theorem ite_ult_eq_min (a b : Word) : (if a.ult b then a else b) = BitVec.ofNat 64 (min a.toNat b.toNat) := by
  simp only [min_def_lt, apply_ite (BitVec.ofNat 64), BitVec.ofNat_toNat, BitVec.setWidth_eq, BitVec.ult_iff_lt,
    BitVec.lt_def]

theorem ite_ult_eq_max (a b : Word) : (if a.ult b then b else a) = BitVec.ofNat 64 (max a.toNat b.toNat) := by
  simp only [max_def_lt, apply_ite (BitVec.ofNat 64), BitVec.ofNat_toNat, BitVec.setWidth_eq, BitVec.ult_iff_lt,
    BitVec.lt_def]

/-! ### Products, quotients and remainders (spec R183, R184) -/

theorem mul_eq_ofNat (a b : Word) : a * b = BitVec.ofNat 64 (a.toNat * b.toNat) := rfl

/-- The upper half of a 128-bit integer is that of its quotient by 2^64. -/
theorem extract_high_ofInt (x : Int) : (BitVec.ofInt 128 x).extractLsb' 64 64 = BitVec.ofInt 64 (x / 2 ^ 64) := by
  apply BitVec.eq_of_toNat_eq
  rw [BitVec.extractLsb'_toNat, BitVec.toNat_ofInt, BitVec.toNat_ofInt, Nat.shiftRight_eq_div_pow]
  omega

theorem mulHigh_eq_extract (a b : Word) :
    mulHigh a b = (a.signExtend 128 * b.signExtend 128).extractLsb' 64 64 := by
  rw [BitVec.signExtend, BitVec.signExtend, ← BitVec.ofInt_mul, extract_high_ofInt, mulHigh]

theorem mulHighZ_eq_extract (a b : Word) :
    mulHighZ a b = (a.setWidth 128 * b.setWidth 128).extractLsb' 64 64 := by
  rw [← BitVec.ofNat_toNat, ← BitVec.ofNat_toNat, ← BitVec.ofNat_mul, ← BitVec.ofInt_natCast, extract_high_ofInt, mulHighZ,
    ← BitVec.ofInt_natCast, Int.natCast_ediv, Nat.cast_pow, Nat.cast_ofNat]

/-- The most negative number by -1 gives itself, as 2^63 does modulo 2^64. -/
theorem quot_eq_sdiv (a b : Word) : quot a b = if b = 0 then BitVec.allOnes 64 else a.sdiv b := by
  have h : BitVec.ofInt 64 (Int.tdiv a.toInt b.toInt) = a.sdiv b :=
    BitVec.eq_of_toInt_eq (by rw [BitVec.toInt_ofInt, BitVec.toInt_sdiv])
  rw [quot, h]; rfl

theorem remainder_eq_srem (a b : Word) : remainder a b = if b = 0 then a else a.srem b := by
  rw [remainder, ← BitVec.toInt_srem, BitVec.ofInt_toInt]

theorem quotZ_eq_udiv (a b : Word) : quotZ a b = if b = 0 then BitVec.allOnes 64 else a / b := by
  rw [quotZ, ← BitVec.toNat_udiv, BitVec.ofNat_toNat, BitVec.setWidth_eq]; rfl

theorem remainderZ_eq_umod (a b : Word) : remainderZ a b = if b = 0 then a else a % b := by
  rw [remainderZ, ← BitVec.toNat_umod, BitVec.ofNat_toNat, BitVec.setWidth_eq]

/-! ### Counts (spec R183) -/

/-- The count of leading zeros is the one that places the highest one bit. -/
theorem leadingZeros_spec (a : Word) : ∃ n ≤ 64, leadingZeros a = BitVec.ofNat 64 n ∧ a.toNat < 2 ^ (64 - n) ∧
    (n < 64 → 2 ^ (63 - n) ≤ a.toNat) := by
  rw [leadingZeros]
  split
  next h => exact ⟨64, le_rfl, rfl, by simp [h], by simp⟩
  next h =>
    have h0 : a.toNat ≠ 0 := fun e => h (BitVec.eq_of_toNat_eq e)
    have top : a.toNat.log2 < 64 := (Nat.log2_lt h0).2 a.isLt
    refine ⟨63 - a.toNat.log2, by omega, rfl, ?_, fun _ => ?_⟩
    · rw [show 64 - (63 - a.toNat.log2) = a.toNat.log2 + 1 by omega]
      exact Nat.lt_log2_self
    · rw [show 63 - (63 - a.toNat.log2) = a.toNat.log2 by omega]
      exact Nat.log2_self_le h0

/-- A number whose lowest `n` bits are zeros is a multiple of 2^n. -/
theorem mod_two_pow_eq_zero {x n : Nat} (h : ∀ i < n, x.testBit i = false) : x % 2 ^ n = 0 := by
  refine Nat.zero_of_testBit_eq_false fun i => ?_
  rw [Nat.testBit_mod_two_pow]
  by_cases hi : i < n
  · rw [h i hi, Bool.and_false]
  · simp [hi]

/-- The count of trailing zeros is the place of the lowest one bit. -/
theorem trailingZeros_spec (a : Word) : ∃ n ≤ 64, trailingZeros a = BitVec.ofNat 64 n ∧ a.toNat % 2 ^ n = 0 ∧
    (n < 64 → a.getLsbD n = true) := by
  rw [trailingZeros, upto_zero_eq_range]
  cases h : (List.range 64).find? (bit a.toNat) with
  | none =>
    refine ⟨64, le_rfl, rfl, mod_two_pow_eq_zero fun i hi => ?_, by simp⟩
    simpa [bit_eq_testBit] using List.find?_range_eq_none.1 h i hi
  | some n =>
    obtain ⟨one, hn, zeros⟩ := List.find?_range_eq_some.1 h
    refine ⟨n, (List.mem_range.1 hn).le, rfl, mod_two_pow_eq_zero fun i hi => ?_, fun _ => ?_⟩
    · simpa [bit_eq_testBit] using zeros i hi
    · rwa [bit_toNat] at one

theorem ones_eq_countP (a : Word) :
    ones a = BitVec.ofNat 64 ((List.range 64).countP (fun i => a.getLsbD i)) := by
  simp only [ones, upto_zero_eq_range, List.countP_eq_length_filter, ← bit_toNat]

/-! ### Bit fields (spec R185) -/

/-- The bits of the field are those of A from p on, as many as the field is long. -/
theorem testBit_bitField (a b : Word) (i : Nat) : (bitField a b).testBit i =
    (decide (i < b.toNat / 2 ^ 8 % 64) && a.getLsbD (b.toNat % 64 + i)) := by
  rw [bitField, Nat.testBit_mod_two_pow, Nat.testBit_div_two_pow, BitVec.testBit_toNat, Nat.add_comm i]; rfl

/-- BFX repeats the field's top bit. -/
theorem getLsbD_extract {a b : Word} {i : Nat} (hl : 0 < b.toNat / 2 ^ 8 % 64) (hi : i < 64) :
    (extract a b).getLsbD i = a.getLsbD (b.toNat % 64 + min i (b.toNat / 2 ^ 8 % 64 - 1)) := by
  have hb : bits b.toNat 13 8 = b.toNat / 2 ^ 8 % 64 := rfl
  rw [extract, hb]
  generalize hL : b.toNat / 2 ^ 8 % 64 = l at *
  have h : BitVec.ofInt 64 (signed l (bitField a b)) = (BitVec.ofNat l (bitField a b)).signExtend 64 := by
    rw [signed_eq_toInt, BitVec.signExtend]
  rw [if_neg (by omega), h, BitVec.getLsbD_signExtend, BitVec.msb_eq_getLsbD_last]
  simp only [BitVec.getLsbD_ofNat, testBit_bitField, hL]
  by_cases c : i < l
  · simp [c, hi, show min i (l - 1) = i by omega]
  · simp [c, hi, hl, show min i (l - 1) = l - 1 by omega]

theorem extract_of_length_zero {a b : Word} (hl : b.toNat / 2 ^ 8 % 64 = 0) : extract a b = 0 := if_pos hl

/-- BFI takes the bits from p on from A, as many as the field is long, and the others from gd. -/
theorem getLsbD_insertField {d a b : Word} {i : Nat} (hi : i < 64) : (insertField d a b).getLsbD i =
    if b.toNat % 64 ≤ i ∧ i < b.toNat % 64 + b.toNat / 2 ^ 8 % 64 then a.getLsbD (i - b.toNat % 64) else d.getLsbD i := by
  have hb : bits b.toNat 13 8 = b.toNat / 2 ^ 8 % 64 := rfl
  rw [insertField, hb]
  generalize b.toNat % 64 = p, b.toNat / 2 ^ 8 % 64 = l
  have mask : (BitVec.ofNat 64 ((2 ^ l - 1) * 2 ^ p)).getLsbD i = decide (p ≤ i ∧ i < p + l) := by
    rw [BitVec.getLsbD_ofNat, Nat.testBit_mul_two_pow, Nat.testBit_two_pow_sub_one, ← Bool.decide_and]
    simp only [hi, decide_true, Bool.true_and]
    congr 1
    simp only [eq_iff_iff]
    omega
  simp only [BitVec.getLsbD_or, BitVec.getLsbD_and, BitVec.getLsbD_not, mask, BitVec.getLsbD_shiftLeft, hi]
  by_cases c : p ≤ i ∧ i < p + l
  · simp [c]
  · simp [c]

/-! ### The integer words -/

section
variable {s : State} {d a b : BitVec 6}

/-- An integer word of two sources writes the value that its function is worth. -/
theorem int2_writes_of_eq {f : Word → Word → Word} {x : Word} (h : s.thr.Fit {} { g := [d, a, b] })
    (hx : f (s.thr.g a) (s.thr.g b) = x) : Writes s (s.int2 d a b f) d x :=
  hx ▸ int2_writes h f

/-- So does one of one source. -/
theorem int1_writes_of_eq {f : Word → Word} {x : Word} (h : s.thr.Fit {} { g := [d, a] }) (hx : f (s.thr.g a) = x) :
    Writes s (s.int1 d a f) d x :=
  hx ▸ int1_writes h f

end

/-- Settles O1: each word writes the value of its function, which the lemmas above compute. -/
theorem integerWordsWriteTheirResults : Obligations.IntegerWordsWriteTheirResults := by
  refine ⟨fun s d a b h => ?_, fun s d a b h => ?_, fun s d a h => ?_, fun s d a b h => ?_⟩
  · simp only [exec, execAdd, execSub, execAnd, execOr, execXor, execAndn, execShl, execShr, execSar, execRol, execMin,
      execMax, execMinz, execMaxz, execSlt, execSltz, execSeq, execSel, ne_eq]
    have amt : (s.thr.g b).toNat % 64 < 64 := Nat.mod_lt _ (by decide)
    exact ⟨int2_writes h _, int2_writes h _, int2_writes h _, int2_writes h _, int2_writes h _, int2_writes h _,
      int2_writes_of_eq h (shiftLeft_eq_mul _ _), int2_writes_of_eq h (shiftRight_eq_div _ _),
      int2_writes_of_eq h (sshiftRight_eq_div _ _), int2_writes_of_eq h (rotateLeft_eq_add _ amt),
      int2_writes_of_eq h (ite_slt_eq_min _ _), int2_writes_of_eq h (ite_slt_eq_max _ _),
      int2_writes_of_eq h (ite_ult_eq_min _ _), int2_writes_of_eq h (ite_ult_eq_max _ _),
      int2_writes_of_eq h (flag_slt _ _), int2_writes_of_eq h (flag_ult _ _),
      int2_writes_of_eq h (flag_decide _), int2_writes_of_eq h (ite_not _ _ _)⟩
  · simp only [exec, execMul, execMulh, execMulhz, execDiv, execRem, execDivz, execRemz]
    exact ⟨int2_writes_of_eq h (mul_eq_ofNat _ _), int2_writes_of_eq h (mulHigh_eq_extract _ _),
      int2_writes_of_eq h (mulHighZ_eq_extract _ _), int2_writes_of_eq h (quot_eq_sdiv _ _),
      int2_writes_of_eq h (remainder_eq_srem _ _), int2_writes_of_eq h (quotZ_eq_udiv _ _),
      int2_writes_of_eq h (remainderZ_eq_umod _ _)⟩
  · simp only [exec, execClz, execCtz, execPopc]
    obtain ⟨z, hz, lead, below, top⟩ := leadingZeros_spec (s.thr.g a)
    obtain ⟨n, hn, trail, multiple, one⟩ := trailingZeros_spec (s.thr.g a)
    exact ⟨⟨z, hz, int1_writes_of_eq h lead, below, top⟩, ⟨n, hn, int1_writes_of_eq h trail, multiple, one⟩,
      int1_writes_of_eq h (ones_eq_countP _)⟩
  · simp only [exec, execBfxz, execBfx, execBfi]
    refine ⟨int2_writes h _, ⟨_, int2_writes h _, extract_of_length_zero, fun i hl hi => ?_⟩,
      ⟨_, int2_writes h _, fun i hi => getLsbD_insertField hi⟩⟩
    rw [getLsbD_extract hl hi]
    by_cases inside : (s.thr.g b).toNat % 64 + min i ((s.thr.g b).toNat / 2 ^ 8 % 64 - 1) < 64
    · simp only [inside, decide_true, Bool.true_and]
    · rw [BitVec.getLsbD_of_ge _ _ (by omega), Bool.and_false]

end Sys2Proof.Machine

/-! ## FP32 scalars: selections, compares and conversions (spec R189 to R191) -/

namespace Sys2Proof.Machine

/-! ### Selections and compares (spec R189, R190) -/

/-- The flags of two operands are NV where one of them is a signalling NaN. -/
theorem sig_or_sig (x y : Fp) : x.sig ||| y.sig = if x = .nan true ∨ y = .nan true then fNV else 0 := by
  have h (z : Fp) : z.sig = if z = .nan true then fNV else 0 := by
    cases z with
    | nan q => cases q <;> simp [Fp.sig]
    | inf => simp [Fp.sig]
    | fin => simp [Fp.sig]
  rw [h, h]
  by_cases hx : x = .nan true
  · by_cases hy : y = .nan true <;> simp [hx, hy]
  · simp [hx]

/-- Operands that are no NaN raise nothing. -/
theorem sig_or_sig_of_not_nan {x y : Fp} (h : ¬ (x.isNan ∨ y.isNan)) : x.sig ||| y.sig = 0 := by
  rw [sig_or_sig, if_neg]
  rintro (rfl | rfl) <;> simp [Fp.isNan] at h

theorem fpLt_eq (x y : Fp) : fpLt x y =
    (decide (¬ (x.isNan ∨ y.isNan) ∧ x.less y), if x.isNan ∨ y.isNan then fNV else 0) := by
  by_cases h : x.isNan ∨ y.isNan <;> simp [fpLt, h]

theorem fpLe_eq (x y : Fp) : fpLe x y =
    (decide (¬ (x.isNan ∨ y.isNan) ∧ ¬ y.less x), if x.isNan ∨ y.isNan then fNV else 0) := by
  by_cases h : x.isNan ∨ y.isNan <;> simp [fpLe, h]

theorem fpEq_eq (x y : Fp) : fpEq x y =
    (decide (¬ (x.isNan ∨ y.isNan) ∧ ¬ x.less y ∧ ¬ y.less x), if x = .nan true ∨ y = .nan true then fNV else 0) := by
  rw [← sig_or_sig]
  by_cases h : x.isNan ∨ y.isNan
  · simp [fpEq, h]
  · simp [fpEq, h, sig_or_sig_of_not_nan h]

/-- Bit 31 of a scalar operand is its sign. -/
theorem bit_f32 (t : Thread) (n : BitVec 6) : bit (t.f32 n) 31 = (t.g n).getLsbD 31 := by
  rw [bit_eq_testBit, Thread.f32, Nat.testBit_mod_two_pow, BitVec.testBit_toNat]; rfl

theorem decode_f32 (t : Thread) (n : BitVec 6) : FFmt.f32.decode (t.f32 n) = t.fval n := rfl

/-- Whether FMIN takes its first operand of two that are no NaN: -0 counts as less than +0 (spec R189). -/
def Thread.fbelow (t : Thread) (a b : BitVec 6) : Bool :=
  (t.fval a).less (t.fval b) || (!(t.fval b).less (t.fval a) && (t.g a).getLsbD 31 && !(t.g b).getLsbD 31)

/-- What FMIN and FMAX select of the NaNs, and `z` where there is none. -/
def Thread.fselect (t : Thread) (a b : BitVec 6) (z : Nat) : Word :=
  if (t.fval a).isNan ∧ (t.fval b).isNan then 0x7FC00000 else if (t.fval a).isNan then BitVec.ofNat 64 (t.f32 b)
    else if (t.fval b).isNan then BitVec.ofNat 64 (t.f32 a) else BitVec.ofNat 64 z

theorem ofNat_select (t : Thread) (w : Bool) (a b : BitVec 6) :
    BitVec.ofNat 64 (FFmt.f32.select w (t.f32 a) (t.f32 b)).1 =
      t.fselect a b (if t.fbelow a b != w then t.f32 a else t.f32 b) := by
  have below : ((t.fval a).less (t.fval b) || (!(t.fval b).less (t.fval a) && bit (t.f32 a) 31 && !bit (t.f32 b) 31)) =
      t.fbelow a b := by rw [bit_f32, bit_f32, Thread.fbelow]
  rw [Thread.fselect, ← below]
  simp only [FFmt.select, decode_f32]
  cases (t.fval a).isNan <;> cases (t.fval b).isNan <;> simp [FFmt.nanEnc, FFmt.width]

theorem select_flags (f : FFmt) (w : Bool) (a b : Nat) : (f.select w a b).2 = (f.decode a).sig ||| (f.decode b).sig := by
  rw [FFmt.select]; split <;> rfl

/-! ### Conversions (spec R109, R191) -/

theorem toInt_nan (mode : RMode) (sgn : Bool) (n : Nat) {x : Fp} (h : x.isNan) : x.toInt mode sgn n = (0, fNV) := by
  cases x with
  | nan => rfl
  | inf => exact absurd h (by simp [Fp.isNan])
  | fin => exact absurd h (by simp [Fp.isNan])

/-- The least and the greatest integer of `n` bits. -/
def intLo (sgn : Bool) (n : Nat) : Int := if sgn then -(2 ^ (n - 1) : Nat) else 0

def intHi (sgn : Bool) (n : Nat) : Int := if sgn then (2 ^ (n - 1) : Nat) - 1 else (2 ^ n : Nat) - 1

theorem intLo_nonpos (sgn : Bool) (n : Nat) : intLo sgn n ≤ 0 := by
  unfold intLo; split
  · exact neg_nonpos.2 (Nat.cast_nonneg _)
  · exact le_rfl

theorem intHi_nonneg (sgn : Bool) (n : Nat) : 0 ≤ intHi sgn n := by
  unfold intHi; split
  · exact Int.le_sub_one_of_lt (by exact_mod_cast Nat.two_pow_pos (n - 1))
  · exact Int.le_sub_one_of_lt (by exact_mod_cast Nat.two_pow_pos n)

/-- A value clamped to two bounds lies between them. -/
theorem clamp_between {lo hi : Int} (h : lo ≤ hi) (v : Int) (f g : Flags) :
    let x := if v < lo then (lo, f) else if hi < v then (hi, f) else (v, g)
    lo ≤ x.1 ∧ x.1 ≤ hi := by
  dsimp only
  split
  · exact ⟨le_rfl, h⟩
  · split
    · exact ⟨h, le_rfl⟩
    · constructor <;> dsimp only <;> omega

/-- A conversion clamps: its integer lies between the two. -/
theorem toInt_mem (mode : RMode) (sgn : Bool) (n : Nat) (x : Fp) :
    intLo sgn n ≤ (x.toInt mode sgn n).1 ∧ (x.toInt mode sgn n).1 ≤ intHi sgn n := by
  have hlo := intLo_nonpos sgn n
  have hhi := intHi_nonneg sgn n
  cases x with
  | nan => exact ⟨hlo, hhi⟩
  | inf neg =>
    cases neg with
    | false => exact ⟨hlo.trans hhi, le_rfl⟩
    | true => exact ⟨le_rfl, hlo.trans hhi⟩
  | fin => exact clamp_between (hlo.trans hhi) _ _ _

/-- The integer of FCVTI is one of its type. -/
theorem toInt_fits (mode : RMode) (t : IntTy) (x : Fp) : let v := (x.toInt mode (decide (t = .s32)) 32).1
    if t = .s32 then -2 ^ 31 ≤ v ∧ v < 2 ^ 31 else 0 ≤ v ∧ v < 2 ^ 32 := by
  obtain ⟨hlo, hhi⟩ := toInt_mem mode (decide (t = .s32)) 32 x
  cases t with
  | s32 => exact ⟨hlo, Int.lt_of_le_sub_one hhi⟩
  | z32 => exact ⟨hlo, Int.lt_of_le_sub_one hhi⟩

/-- A register that receives an integer of a type holds that integer. -/
theorem ofNat_intResult (t : IntTy) {v : Int × Flags} (h : t ≠ .s32 → 0 ≤ v.1 ∧ v.1 < 2 ^ 32) :
    BitVec.ofNat 64 (intResult t v).1 = BitVec.ofInt 64 v.1 := by
  cases t with
  | s32 => exact ofNat_cut 64 v.1
  | z32 =>
    obtain ⟨h0, h1⟩ := h (by decide)
    rw [intResult, cut, Int.emod_eq_of_lt h0 (by exact_mod_cast h1), ← BitVec.ofInt_natCast, Int.toNat_of_nonneg h0]

theorem intResult_flags (t : IntTy) (v : Int × Flags) : (intResult t v).2 = v.2 := by cases t <;> rfl

/-- The signed reading of a scalar operand's low half. -/
theorem signed_eq_toInt_setWidth (a : Word) : signed 32 a.toNat = (a.setWidth 32).toInt := by
  rw [signed_eq_toInt, BitVec.ofNat_toNat]

/-! ### The words -/

theorem flagWord_b2n (c : Prop) [Decidable c] : BitVec.ofNat 64 (b2n (decide c)) = if c then 1 else 0 := by
  by_cases h : c <;> simp [b2n, h]

section
variable {s : State} {d a b : BitVec 6} {x : Word} {f : Flags}

/-- A word that rounds nothing writes the value and raises the flags that its function is worth. -/
theorem fpExact_writes_of_eq {y : Nat × Flags} (h : s.thr.Fit {} { g := [d, a, b] }) (hx : BitVec.ofNat 64 y.1 = x)
    (hf : y.2 = f) : WritesFlags s (s.fpExact d a b y) d x f :=
  hx ▸ hf ▸ fpExact_writes h y

theorem compare_writes {c : Prop} [Decidable c] {y : Bool × Flags} (h : s.thr.Fit {} { g := [d, a, b] })
    (hy : y = (decide c, f)) : WritesFlags s (s.fpExact d a b (boolResult y)) d (if c then 1 else 0) f :=
  fpExact_writes_of_eq h (by rw [hy, boolResult, flagWord_b2n]) (by rw [hy, boolResult])

theorem fp_writes_of_eq {l : List (BitVec 6)} {y : Nat × Flags} (h : s.thr.Fit { mods := true } { g := l })
    (hx : BitVec.ofNat 64 y.1 = x) (hf : y.2 = f) : WritesFlags s (s.fp l d y) d x f :=
  hx ▸ hf ▸ fp_writes h d y

end

/-- FCVTI writes the integer that the value rounds or clamps to, as its type holds it. -/
theorem fcvti_writes {s : State} {d a : BitVec 6} (h : s.thr.Fit { mods := true } { g := [d, a] }) (t : IntTy) (r : RMode) :
    let v := (s.thr.fval a).toInt (s.thr.rmode r) (decide (t = .s32)) 32
    WritesFlags s (exec (.fcvti d a t r) s) d (BitVec.ofInt 64 v.1) v.2 := by
  simp only [exec, execFcvti]
  refine fp_writes_of_eq h (ofNat_intResult t fun ht => ?_) (intResult_flags t _)
  simpa only [if_neg ht] using toInt_fits (s.thr.rmode r) t (s.thr.fval a)

/-- Settles O4: the selections and compares by the cases of NaN, FCVTI by its clamp, the other conversions by the one
rounding that their meaning names. -/
theorem floatSelectionsAndConversions : Obligations.FloatSelectionsAndConversions := by
  refine ⟨fun s d a b h => ?_, fun s d a r h => ⟨fun t v hv => ?_, ?_, ?_, fun t => ⟨?_, ?_⟩⟩⟩
  · simp only [exec, execFmin, execFmax, execFlt, execFle, execFeq]
    have flags (w : Bool) := (select_flags .f32 w (s.thr.f32 a) (s.thr.f32 b)).trans (sig_or_sig _ _)
    refine ⟨fpExact_writes_of_eq h ?_ (flags false), fpExact_writes_of_eq h ?_ (flags true),
      compare_writes h (fpLt_eq _ _), compare_writes h (fpLe_eq _ _), compare_writes h (fpEq_eq _ _)⟩
    · rw [ofNat_select, Bool.bne_false]; rfl
    · rw [ofNat_select]
      simp only [Bool.bne_true, Bool.not_eq_true', ← Bool.not_eq_true, ite_not]; rfl
  · subst hv
    exact ⟨fcvti_writes h t r, toInt_nan _ _ _, toInt_fits _ _ _⟩
  · simp only [exec, execFcvtf, signed_eq_toInt_setWidth]
    exact fp_writes h _ _
  · simp only [exec, execFcvtf]
    exact fp_writes h _ _
  · simp only [exec, execFcvtn]
    exact fp_writes h _ _
  · simp only [exec, execFcvtnUp]
    exact fp_writes h _ _

end Sys2Proof.Machine
